-- ==== Sys2Proof/Word.lean ====
section
/-! DEFINITION. The word types of the codec core (spec 00_scope R4, R5; 10_state R10, R11, R13) and the two table
entry types. All values of the hardware are unsigned (00_scope R6). The places whose width is a parameter of R5
hold natural numbers, and what is written to one is narrowed to its width. -/

namespace Sys2Proof

/-- A byte of a stream (R4: `BYTE_W` = 8). -/
abbrev Byte := BitVec 8

/-- A symbol field (R4: `SYM_W` = 9); 0..255 are bytes, 256 is the sentinel. -/
abbrev Sym := BitVec 9

/-- One entry of the node arena `NODE` (10_state R11). -/
structure Node where
  /-- true: a leaf; false: an internal node -/
  leaf : Bool
  /-- leaf: the symbol; internal: 0 -/
  sym : Sym
  /-- count or sum of the children's weights, `WT_W` bits wide; 0 when built by `HDES` -/
  weight : Nat
  /-- internal: handle of the left child, `H_W` bits wide; leaf: 0 -/
  left : Nat
  /-- internal: handle of the right child, `H_W` bits wide; leaf: 0 -/
  right : Nat
  deriving DecidableEq, Repr, Inhabited

/-- One entry of the code table `CODE` (10_state R13). -/
structure CodeEntry where
  valid : Bool
  /-- the code's length in bits, `LEN_W` bits wide -/
  len : Nat
  /-- the code in value form, `MAXLEN` bits wide: its first bit is bit `len - 1`, its last is bit 0 -/
  bits : Nat
  deriving DecidableEq, Repr, Inhabited

end Sys2Proof
end

