-- ==== Sys2Proof/Config.lean ====
section
/-! DEFINITION. What an implementation fixes (spec 00_scope R4, R5) and the free values: constants without a body,
which nothing in Lean can evaluate. -/

namespace Sys2Proof

/-- Number of byte values, and the sentinel's value (R4). -/
abbrev sentinel : Nat := 256

/-- Number of symbols, 0..256 (R4: `NSYM`). -/
abbrev nsym : Nat := 257

/-- The parameters of R5 ("a model should take them as configuration fields with these defaults"). A state carries
them in a field that no step writes (46_commands R154), so a statement about every state holds for every choice of
them (log 1). -/
structure Config where
  /-- `MAGIC`, the container's format tag (30_encoding R51, decision D1) -/
  magic : BitVec 32
  /-- `CNT_W`, the width of a frequency count (10_state R10, decision D2) -/
  cntW : Nat
  /-- `WT_W`, the width of a node weight (10_state R11, decision D3) -/
  wtW : Nat
  /-- `NODE_CAP`, the number of node slots in the arena (10_state R11, decisions D6, D10) -/
  nodeCap : Nat
  /-- `H_W`, the width of a node handle (10_state R11, R16, decision D6) -/
  hW : Nat
  /-- `MAXLEN`, the greatest code length in bits (10_state R13, decision D28) -/
  maxLen : Nat
  /-- `LEN_W`, the width of a code-length field (10_state R13, decision D28) -/
  lenW : Nat
  /-- `OP_W`, the width of a command opcode (10_state R18, decision D17) -/
  opW : Nat
  /-- `ERR_W`, the width of the error code (10_state R20, decision D20) -/
  errW : Nat
  deriving DecidableEq, Repr, Inhabited

/-- The values of R5. PRESUMED: the value of `MAGIC` is from general knowledge (spec G1). -/
def Config.default : Config where
  magic := 0xFACE8201#32
  cntW := 32
  wtW := 32 + 9
  nodeCap := 2 * nsym - 1
  hW := 10
  maxLen := nsym - 1
  lenW := 9
  opW := 4
  errW := 4

/-- DEDUCED: parameters fit together when each has the meaning R5 gives it: a count has a bit (spec G4), no sum of 257
counts overflows a weight, the arena holds every tree on the 257 symbols, a handle names every slot and their number, no
tree of the arena is deeper than a code is long, a length field holds every length. The opcode and the error code have the four bits that
30_encoding R63 and 10_state R20 give them (log 17). -/
structure Config.Consistent (c : Config) : Prop where
  count : 1 ≤ c.cntW
  weight : c.wtW = c.cntW + 9
  arena : 2 * nsym - 1 ≤ c.nodeCap
  handle : c.nodeCap < 2 ^ c.hW
  depth : c.nodeCap ≤ 2 * c.maxLen + 1
  length : c.maxLen < 2 ^ c.lenW
  opcode : c.opW = 4
  error : c.errW = 4

/-- Free value: entry `k` of `FREQ` after the `i`-th reset (10_state R27: unspecified; log 3). -/
opaque Config.resetFreq : Nat → Nat → Nat

/-- Free value: entry `k` of `NODE` after the `i`-th reset (10_state R27: unspecified; log 3). -/
opaque Config.resetNode : Nat → Nat → Node

/-- Free value: entry `k` of `CODE` after the `i`-th reset (10_state R27: unspecified; log 3). -/
opaque Config.resetCode : Nat → Nat → CodeEntry

/-- Free value: what a CLOSED sink holds after a byte is written to it, from a fresh index, its content and the byte
(93 U26: any behaviour of the sink; log 7). -/
opaque Config.closedSink : Nat → List Byte → Byte → List Byte

/-- Free value: what a read of the arena at a handle outside it gives; no run makes one (20_memory R34; log 10). -/
opaque Config.nodeOutside : Nat → Node

end Sys2Proof
end

