-- ==== Sys2Proof/Syntax.lean ====
section
/-! DEFINITION. The instructions: one constructor for each row of spec/opcode_table.json. -/

namespace Sys2Proof

/-- The rows of the opcode table. The first sixteen are the command codes (30_encoding R63, R64, format `CMD4`),
the last six the tokens of the container (30_encoding R50 to R60, format `STREAM`). -/
inductive Instr where
  /-- opcode 0 (46_commands R149) -/
  | nop
  /-- opcode 1, Frequency Counter (40_frequency_counter R70) -/
  | fcnt
  /-- opcode 2, Tree Builder (41_tree_builder R80) -/
  | tbld
  /-- opcode 3, Code Table Generator (42_code_table_generator R90) -/
  | cgen
  /-- opcode 4, Header Codec, serialize (43_header_codec R100) -/
  | hser
  /-- opcode 5, Stream Encoder (44_stream_encoder R120) -/
  | senc
  /-- opcode 6, Header Codec, deserialize (43_header_codec R108) -/
  | hdes
  /-- opcode 7, Stream Decoder (45_stream_decoder R130) -/
  | sdec
  /-- opcode 8, compress (46_commands R145) -/
  | comp
  /-- opcode 9, decompress (46_commands R147) -/
  | decomp
  /-- opcode 0xA, soft reset (46_commands R150) -/
  | clr
  /-- reserved opcode 0xB (R64) -/
  | rsvdB
  /-- reserved opcode 0xC (R64) -/
  | rsvdC
  /-- reserved opcode 0xD (R64) -/
  | rsvdD
  /-- reserved opcode 0xE (R64) -/
  | rsvdE
  /-- reserved opcode 0xF (R64) -/
  | rsvdF
  /-- token `MAGIC`: 32 bits (R51) -/
  | magic (m : BitVec 32)
  /-- token `HDR.BRANCH`: the bit 0 (R53) -/
  | hdrBranch
  /-- token `HDR.LEAF`: the bit 1 and a symbol 0..256 (R54) -/
  | hdrLeaf (sym : Sym)
  /-- token `HDR.LEAF.RSVD`: the bit 1 and a symbol field 257..511 (R60) -/
  | hdrLeafRsvd (sym : Sym)
  /-- token `PAYLOAD.CODE`: the code of one symbol, first bit first (R56) -/
  | payloadCode (code : List Bool)
  /-- token `PAD`: `n` zero bits (R57) -/
  | pad (n : Nat)
  deriving DecidableEq, Repr

end Sys2Proof
end

