-- ==== Sys2Proof/WellFormed.lean ====
section
/-! DEFINITION. Which instructions are well formed: the ranges the opcode table gives the tokens' fields. A command
has no operand, so each is well formed. -/

namespace Sys2Proof

/-- A well-formed instruction: a leaf token's symbol is 0..256 (30_encoding R54), a reserved leaf token's field
257..511 (R60), a code has at most `MAXLEN` bits (R56, 10_state R13), padding at most 7 (R57). -/
def Instr.wf (c : Config) : Instr → Bool
  | .nop | .fcnt | .tbld | .cgen | .hser | .senc | .hdes | .sdec => true
  | .comp | .decomp | .clr => true
  | .rsvdB | .rsvdC | .rsvdD | .rsvdE | .rsvdF => true
  | .magic _ => true
  | .hdrBranch => true
  | .hdrLeaf sym => decide (sym.toNat ≤ sentinel)
  | .hdrLeafRsvd sym => decide (sentinel < sym.toNat)
  | .payloadCode code => decide (code.length ≤ c.maxLen)
  | .pad n => decide (n ≤ 7)

end Sys2Proof
end

