-- ==== Sys2Proof/Decode.lean ====
section
/-! DEFINITION. Bit strings (spec 00_scope R6), the decoder of command words (10_state R19, 30_encoding R63, R64), the
parser of container tokens (30_encoding R50 to R61), and the encoder of both, written from the same table. -/

namespace Sys2Proof

/-- The low `n` bits of `v` as a bit string, most significant bit first (00_scope R6). -/
def bitsOf : Nat → Nat → List Bool
  | 0, _ => []
  | n + 1, v => v.testBit n :: bitsOf n v

/-- The value form of a bit string with a value already read before it: the first bit is the most significant. -/
def valFrom : Nat → List Bool → Nat
  | v, [] => v
  | v, b :: bs => valFrom (2 * v + b.toNat) bs

/-- The value form of a bit string: `sum c[i] * 2^(len-1-i)` (00_scope R6). -/
def valOf (bs : List Bool) : Nat := valFrom 0 bs

/-- The command of a 4-bit opcode (30_encoding R63, R64): every opcode is a row of the table. -/
def decodeCommand (op : BitVec 4) : Instr :=
  match op.toNat with
  | 0x0 => .nop
  | 0x1 => .fcnt
  | 0x2 => .tbld
  | 0x3 => .cgen
  | 0x4 => .hser
  | 0x5 => .senc
  | 0x6 => .hdes
  | 0x7 => .sdec
  | 0x8 => .comp
  | 0x9 => .decomp
  | 0xA => .clr
  | 0xB => .rsvdB
  | 0xC => .rsvdC
  | 0xD => .rsvdD
  | 0xE => .rsvdE
  | _ => .rsvdF

/-- What a place of width `w` holds of a value: "a value of width N is an unsigned integer in [0, 2^N)" (R6). -/
def narrow (w v : Nat) : Nat := v % 2 ^ w

/-- The command a word written to `CMD` issues, for opcodes of `OP_W` bits: "bits above bit 3 of the written word are
ignored" (10_state R19). -/
def decodeWord (opW : Nat) (w : BitVec 16) : Instr := decodeCommand (BitVec.ofNat 4 (narrow opW w.toNat))

/-- Why a bit string is no token of the place it stands in. -/
inductive DecodeReject where
  /-- fewer than the four bits of a command code -/
  | shortCommand
  /-- fewer than 32 bits where the magic stands -/
  | shortMagic
  /-- the string ends at a marker or inside a symbol field -/
  | endOfHeader
  /-- the string ends before a code of the tree is complete -/
  | endOfPayload
  /-- fewer bits than the padding has -/
  | endOfPadding
  /-- a padding bit that is not zero (the core never reads one, 20_memory R42) -/
  | padNotZero
  deriving DecidableEq, Repr

/-- Where an encoded instruction stands (30_encoding R50, R61): a token's meaning depends on its place. -/
inductive Region where
  /-- the command register -/
  | command
  /-- bits 0..31 of the container -/
  | magic
  /-- the tree header -/
  | header
  /-- the payload, for a tree with these leaf paths -/
  | payload (paths : List (List Bool))
  /-- the last `n` bits of the container -/
  | padding (n : Nat)
  deriving DecidableEq, Repr

/-- Reads one code: "a code ends when a leaf is reached" (R61). -/
def decodeCode (paths : List (List Bool)) (acc : List Bool) (bits : List Bool) :
    Except DecodeReject (Instr × List Bool) :=
  if acc ∈ paths then .ok (.payloadCode acc, bits)
  else
    match bits with
    | [] => .error .endOfPayload
    | b :: rest => decodeCode paths (acc ++ [b]) rest

/-- Reads one header token (R52 to R54, R60). -/
def decodeHeader : List Bool → Except DecodeReject (Instr × List Bool)
  | [] => .error .endOfHeader
  | false :: rest => .ok (.hdrBranch, rest)
  | true :: rest =>
    if rest.length < 9 then .error .endOfHeader
    else if valOf (rest.take 9) ≤ sentinel then
      .ok (.hdrLeaf (BitVec.ofNat 9 (valOf (rest.take 9))), rest.drop 9)
    else .ok (.hdrLeafRsvd (BitVec.ofNat 9 (valOf (rest.take 9))), rest.drop 9)

/-- Decodes the instruction that stands first in a bit string, total on any bits, rejecting by name. -/
def decode (r : Region) (bits : List Bool) : Except DecodeReject (Instr × List Bool) :=
  match r with
  | .command =>
    if bits.length < 4 then .error .shortCommand
    else .ok (decodeCommand (BitVec.ofNat 4 (valOf (bits.take 4))), bits.drop 4)
  | .magic =>
    if bits.length < 32 then .error .shortMagic
    else .ok (.magic (BitVec.ofNat 32 (valOf (bits.take 32))), bits.drop 32)
  | .header => decodeHeader bits
  | .payload paths => decodeCode paths [] bits
  | .padding n =>
    if bits.length < n then .error .endOfPadding
    else if (bits.take n).any id then .error .padNotZero
    else .ok (.pad n, bits.drop n)

/-- The opcode of a command (R63, R64); a token has none. -/
def opcode : Instr → Option (BitVec 4)
  | .nop => some 0x0
  | .fcnt => some 0x1
  | .tbld => some 0x2
  | .cgen => some 0x3
  | .hser => some 0x4
  | .senc => some 0x5
  | .hdes => some 0x6
  | .sdec => some 0x7
  | .comp => some 0x8
  | .decomp => some 0x9
  | .clr => some 0xA
  | .rsvdB => some 0xB
  | .rsvdC => some 0xC
  | .rsvdD => some 0xD
  | .rsvdE => some 0xE
  | .rsvdF => some 0xF
  | .magic _ | .hdrBranch | .hdrLeaf _ | .hdrLeafRsvd _ | .payloadCode _ | .pad _ => none

/-- The bits of an instruction, first bit first: a command's four opcode bits (R63), a token's bits (R51 to R57). -/
def encode : Instr → List Bool
  | .magic m => bitsOf 32 m.toNat
  | .hdrBranch => [false]
  | .hdrLeaf sym => true :: bitsOf 9 sym.toNat
  | .hdrLeafRsvd sym => true :: bitsOf 9 sym.toNat
  | .payloadCode code => code
  | .pad n => List.replicate n false
  | .nop => bitsOf 4 0x0
  | .fcnt => bitsOf 4 0x1
  | .tbld => bitsOf 4 0x2
  | .cgen => bitsOf 4 0x3
  | .hser => bitsOf 4 0x4
  | .senc => bitsOf 4 0x5
  | .hdes => bitsOf 4 0x6
  | .sdec => bitsOf 4 0x7
  | .comp => bitsOf 4 0x8
  | .decomp => bitsOf 4 0x9
  | .clr => bitsOf 4 0xA
  | .rsvdB => bitsOf 4 0xB
  | .rsvdC => bitsOf 4 0xC
  | .rsvdD => bitsOf 4 0xD
  | .rsvdE => bitsOf 4 0xE
  | .rsvdF => bitsOf 4 0xF

/-- Whether an instruction may stand in a place: a code must be a leaf path of the tree with no leaf path before its
end, padding must have the length the place gives it. -/
def fits : Region → Instr → Bool
  | .command, i => (opcode i).isSome
  | .magic, .magic _ => true
  | .header, .hdrBranch => true
  | .header, .hdrLeaf _ => true
  | .header, .hdrLeafRsvd _ => true
  | .payload paths, .payloadCode c => decide (c ∈ paths) && paths.all fun p => decide (p = c) || !p.isPrefixOf c
  | .padding n, .pad m => decide (n = m)
  | .magic, _ | .header, _ | .payload _, _ | .padding _, _ => false

/-- The instruction of a command row of the table, its bits numbered as the table numbers them: the word written to
`CMD` (only bits 3:0 count, 10_state R19). A row of no bits is no word. -/
def decodeTableWord (nbits w : Nat) : Option Instr :=
  if nbits = 0 then none else some (decodeWord Config.default.opW (BitVec.ofNat 16 w))

end Sys2Proof
end

