-- ==== Sys2Proof/Machine/State.lean ====
section
/-! DEFINITION. The state of the codec core as plain data (spec 10_state R10 to R27), the host's side of the two
streams (20_memory R30, R32), the reasons a step can stop, and the state after reset (10_state R27). -/

namespace Sys2Proof.Machine

/-- The error codes of `STATUS.ERR` (60_exceptions R170); codes 0xB..0xF are never produced and have no name here. -/
inductive Err where
  | none
  | hdrMagic
  | hdrEos
  | hdrSym
  | hdrCap
  | hdrRoot
  | payTrunc
  | cntOvf
  | noCode
  | seq
  | badCmd
  deriving DecidableEq, Repr

/-- One event on the core's stream ports (20_memory R30, R32; 46_commands R145, R151 speak of them). -/
inductive StreamEvent where
  /-- `SrcReadByte` answered with a byte, or with `EOS` -/
  | read (x : Option Byte)
  | rewind
  | write (b : Byte)
  | close
  deriving DecidableEq, Repr

/-- The two host-visible registers (10_state R18): number 0 and number 1. -/
inductive HostReg where
  | cmd
  | status
  deriving DecidableEq, Repr

/-- What the host can do between commands (00_scope R9; 70_reset_and_hazards R190 to R196). -/
inductive HostAction where
  /-- write a word to a register (10_state R18, R19) -/
  | write (r : HostReg) (w : BitVec 16)
  /-- read a register (10_state R18, R20) -/
  | read (r : HostReg)
  /-- present a source: its bytes, its position, and what it will deliver after later rewinds if that differs
  (R193, R196, R197) -/
  | presentSource (bytes : List Byte) (position : Nat) (later : List (List Byte))
  /-- present a sink with this content and mark (R193, R196) -/
  | presentSink (content : List Byte) (closed : Bool)
  /-- assert the reset input (R190) -/
  | reset
  /-- write a word to `CMD` and assert the reset input while that command runs, after this many of its stream events
  (R192, 46_commands R153) -/
  | resetDuring (w : BitVec 16) (n : Nat)
  deriving DecidableEq, Repr

/-- The whole machine. -/
structure State where
  /-- build-time parameters (00_scope R5); no step writes them -/
  cfg : Config
  /-- `FREQ` (R10): counts of `CNT_W` bits -/
  freq : Vector Nat 257
  /-- `NODE` (R11): one entry for each of the `NODE_CAP` slots -/
  node : Array Node
  /-- `CODE` (R13) -/
  code : Vector CodeEntry 257
  /-- `STATUS.BUSY` (R20) -/
  busy : Bool
  /-- `STATUS.DONE` (R20) -/
  done : Bool
  /-- `FV` (R17) -/
  fv : Bool
  /-- `TV` (R17) -/
  tv : Bool
  /-- `CV` (R17) -/
  cv : Bool
  /-- `STATUS.ERR` (R20) -/
  err : Err
  /-- `PHASE` (R15) -/
  phase : BitVec 4
  /-- `root` (R16), `H_W` bits wide -/
  root : Nat
  /-- `nnode` (R16), `H_W` bits wide -/
  nnode : Nat
  /-- `cur` (R16), `H_W` bits wide -/
  cur : Nat
  /-- `live` (R23): bit `h` says that handle `h` waits -/
  live : Nat
  /-- `pk_acc` (R21) -/
  pkAcc : BitVec 8
  /-- `pk_cnt` (R21) -/
  pkCnt : BitVec 3
  /-- `up_acc` (R22) -/
  upAcc : BitVec 8
  /-- `up_cnt` (R22) -/
  upCnt : BitVec 4
  /-- the source's bytes (20_memory R30) -/
  src : List Byte
  /-- the source's read position (R30) -/
  pos : Nat
  /-- what the source delivers after its next rewinds, where the host changes it (70_reset_and_hazards R197) -/
  srcLater : List (List Byte)
  /-- the sink's bytes (R32) -/
  out : List Byte
  /-- the sink's mark (R32) -/
  closed : Bool
  /-- the stream events so far, newest first (the model's own record) -/
  events : List StreamEvent
  /-- the host's pending actions, next first -/
  host : List HostAction
  /-- the word the last host read returned -/
  rdata : BitVec 16
  /-- numbers the free values -/
  freeIdx : Nat
  deriving DecidableEq, Repr

/-- Why the machine stops. Each is SAFE: it arises only in states that no run reaches (10_state R10, R12), and the
machine stops where the spec gives no effect. -/
inductive Fault where
  /-- Raised by `CGEN` and `HSER`: the walk from `root` goes deeper than the arena has nodes, so what
  `root` reaches is no finite tree (R12 is violated). Safe. -/
  | walkNotFinite
  /-- Raised by `TBLD`: no count is non-zero, so there is no node to be the root (R10's invariant
  `FREQ[256] >= 1` is violated). Safe. -/
  | noLiveNode
  deriving DecidableEq, Repr

/-- Why an instruction has no meaning. -/
inductive Refusal where
  /-- Raised by `exec` alone, for a row not modelled yet; no arm of this model uses it. Safe. -/
  | notModelled (mnemonic : String)
  deriving DecidableEq, Repr

/-- The state after reset (10_state R27). DESIGN CHOICE: table contents 0 (log 2), streams empty and open (log 4), the
model's own fields empty (log 5, 6, 8, 15). -/
def State.reset : State where
  cfg := Config.default
  freq := Vector.replicate 257 0
  node := Array.replicate Config.default.nodeCap { leaf := false, sym := 0, weight := 0, left := 0, right := 0 }
  code := Vector.replicate 257 { valid := false, len := 0, bits := 0 }
  busy := false
  done := false
  fv := false
  tv := false
  cv := false
  err := .none
  phase := 0
  root := 0
  nnode := 0
  cur := 0
  live := 0
  pkAcc := 0
  pkCnt := 0
  upAcc := 0
  upCnt := 0
  src := []
  pos := 0
  srcLater := []
  out := []
  closed := false
  events := []
  host := []
  rdata := 0
  freeIdx := 0

end Sys2Proof.Machine
end

