-- ==== Sys2Proof/Machine/Flags.lean ====
section
/-! DEFINITION. The validity flags (spec 10_state R17), the error codes (60_exceptions R170), the `STATUS` word
(10_state R20) and the two level outputs (60_exceptions R179). -/

namespace Sys2Proof.Machine

/-- The code of an error (60_exceptions R170). -/
def errCode : Err → Nat
  | .none => 0x0
  | .hdrMagic => 0x1
  | .hdrEos => 0x2
  | .hdrSym => 0x3
  | .hdrCap => 0x4
  | .hdrRoot => 0x5
  | .payTrunc => 0x6
  | .cntOvf => 0x7
  | .noCode => 0x8
  | .seq => 0x9
  | .badCmd => 0xA

/-- `STATUS`: `PHASE` 15:12, `ERR` 11:8 (`ERR_W` bits), 0 at 7:5, `CV` 4, `TV` 3, `FV` 2, `DONE` 1, `BUSY` 0 (10_state R20). -/
def statusWord (s : State) : BitVec 16 :=
  s.phase ++ BitVec.ofNat 4 (narrow s.cfg.errW (errCode s.err)) ++ 0#3 ++ BitVec.ofBool s.cv ++ BitVec.ofBool s.tv ++
    BitVec.ofBool s.fv
    ++ BitVec.ofBool s.done ++ BitVec.ofBool s.busy

/-- The level output `done` (60_exceptions R179). -/
def doneLine (s : State) : Bool := s.done

/-- The level output `err` (60_exceptions R179). -/
def errLine (s : State) : Bool := decide (s.err ≠ .none)

/-- The malformed-header class (60_exceptions R171). -/
def malformedHeader (e : Err) : Bool :=
  decide (e = .hdrMagic ∨ e = .hdrEos ∨ e = .hdrSym ∨ e = .hdrCap ∨ e = .hdrRoot)

/-- The truncated-payload class (60_exceptions R171). -/
def truncatedPayload (e : Err) : Bool := decide (e = .payTrunc)

/-- Start of `FCNT`: all three flags are stale (40_frequency_counter R71). -/
def clearFvTvCv (s : State) : State := { s with fv := false, tv := false, cv := false }

/-- Start of `TBLD` and `HDES`: tree and codes are stale (10_state R17). -/
def clearTvCv (s : State) : State := { s with tv := false, cv := false }

/-- Start of `CGEN`: the codes are stale (10_state R17). -/
def clearCv (s : State) : State := { s with cv := false }

/-- End of a successful `FCNT` (10_state R17). -/
def setFv (s : State) : State := { s with fv := true }

/-- End of a successful `TBLD` or `HDES` (10_state R17). -/
def setTv (s : State) : State := { s with tv := true }

/-- End of a successful `CGEN` (10_state R17). -/
def setCv (s : State) : State := { s with cv := true }

end Sys2Proof.Machine
end

