-- ==== Sys2Proof/Machine/Operands.lean ====
section
/-! DEFINITION. The operand forms (spec 20_memory R34, 30_encoding R59): table entries by symbol or handle, a path as a
stored code and back, the byte of a decoded leaf. -/

namespace Sys2Proof.Machine

/-- `2^CNT_W - 1`, the greatest value of a count (40_frequency_counter R75). -/
def cntMax (c : Config) : Nat := 2 ^ c.cntW - 1

/-- What a slot of the arena holds of an entry: each field in its width (10_state R11). -/
def fitNode (c : Config) (n : Node) : Node :=
  { n with weight := narrow c.wtW n.weight, left := narrow c.hW n.left, right := narrow c.hW n.right }

/-- What a slot of the code table holds of an entry: each field in its width (10_state R13). -/
def fitCode (c : Config) (e : CodeEntry) : CodeEntry :=
  { e with len := narrow c.lenW e.len, bits := narrow c.maxLen e.bits }

/-- `FREQ[k]` (10_state R10). Every access of the core has `k` at most 256 (20_memory R34). -/
def freqAt (s : State) (k : Nat) : Nat := s.freq[k]?.getD 0

/-- `FREQ[k] <- v`. -/
def setFreq (k : Nat) (v : Nat) (s : State) : State := { s with freq := s.freq.setIfInBounds k v }

/-- `NODE[h]` (10_state R11); a free value at a handle outside the arena, which no run reads (20_memory R34; log 10). -/
def nodeAt (s : State) (h : Nat) : Node := s.node[h]?.getD (fitNode s.cfg (Config.nodeOutside h))

/-- `NODE[k] <- v`. -/
def setNode (k : Nat) (v : Node) (s : State) : State := { s with node := s.node.setIfInBounds k v }

/-- `CODE[k]` (10_state R13). Every read of the core has `k` at most 256 (20_memory R34). -/
def codeAt (s : State) (k : Nat) : CodeEntry := s.code[k]?.getD { valid := false, len := 0, bits := 0 }

/-- `CODE[k] <- v`. -/
def setCode (k : Nat) (v : CodeEntry) (s : State) : State := { s with code := s.code.setIfInBounds k v }

/-- A leaf entry (10_state R11). -/
def leafNode (sym : Sym) (weight : Nat) : Node := { leaf := true, sym := sym, weight := weight, left := 0, right := 0 }

/-- An internal entry (10_state R11): its `sym` is 0. -/
def innerNode (weight : Nat) (left right : Nat) : Node :=
  { leaf := false, sym := 0, weight := weight, left := left, right := right }

/-- The stored form of a path: its length and its value form, zero-extended to `MAXLEN` bits
(42_code_table_generator R90, R92). -/
def pathCode (c : Config) (path : List Bool) : CodeEntry :=
  fitCode c { valid := true, len := path.length, bits := valOf path }

/-- The bit string a stored code stands for, first bit first (20_memory R38). -/
def codeBits (c : CodeEntry) : List Bool := bitsOf c.len c.bits

/-- The byte a decoded leaf emits: `sym[7:0]` (45_stream_decoder R135). -/
def outByte (sym : Sym) : Byte := sym.setWidth 8

end Sys2Proof.Machine
end

