-- ==== Sys2Proof/Machine/Ops.lean ====
section
/-! DEFINITION. The named operations every meaning is built from: the four stream primitives (spec 20_memory R30, R32),
the packer (R37 to R39), the unpacker (R40, R41), how an operation ends (46_commands R140), `raise` (60_exceptions
R174), the dispatch of a command (46_commands R140 to R144), and reset (70_reset_and_hazards R190). -/

namespace Sys2Proof.Machine

/-! ### The streams -/

/-- `SrcReadByte()`: the byte at `pos`, which it passes, or `none` for `EOS` (20_memory R30). -/
def srcReadByte (s : State) : Option Byte × State :=
  match s.src[s.pos]? with
  | some x => (some x, { s with pos := s.pos + 1, events := .read (some x) :: s.events })
  | none => (none, { s with events := .read none :: s.events })

/-- How many bytes the source still has. -/
def srcLeft (s : State) : Nat := s.src.length - s.pos

/-- `SrcRewind()`: `pos <- 0` (20_memory R30). The source then delivers the same bytes, unless the host has it deliver
others (70_reset_and_hazards R197; log 14). -/
def srcRewind (s : State) : State :=
  { s with pos := 0, src := s.srcLater.headD s.src, srcLater := s.srcLater.tail, events := .rewind :: s.events }

/-- `SinkWriteByte(b)`: appends `b` (20_memory R32). What a closed sink does is outside the core: its content is then
a free value (93 U26; log 7). -/
def sinkWriteByte (b : Byte) (s : State) : State :=
  if s.closed then
    { s with out := Config.closedSink s.freeIdx s.out b, freeIdx := s.freeIdx + 1, events := .write b :: s.events }
  else { s with out := s.out ++ [b], events := .write b :: s.events }

/-- `SinkClose()` (20_memory R32). -/
def sinkClose (s : State) : State := { s with closed := true, events := .close :: s.events }

/-! ### The packer -/

/-- The packer's byte with one more bit: `((pk_acc << 1) | b)[7:0]` (20_memory R37). -/
def packBit (acc : BitVec 8) (b : Bool) : BitVec 8 := (acc <<< 1) ||| (BitVec.ofBool b).setWidth 8

/-- `PutBit(b)` (20_memory R37). -/
def putBit (b : Bool) (s : State) : State :=
  if s.pkCnt = 7#3 then
    { sinkWriteByte (packBit s.pkAcc b) s with pkAcc := 0, pkCnt := 0 }
  else { s with pkAcc := packBit s.pkAcc b, pkCnt := s.pkCnt + 1 }

/-- The bits of a bit string, first to last, through `PutBit`. -/
def putBitList : List Bool → State → State
  | [], s => s
  | b :: bs, s => putBitList bs (putBit b s)

/-- `PutBits(n, v)`: bits `n-1` down to 0 of `v` (20_memory R38). -/
def putBits (n v : Nat) (s : State) : State := putBitList (bitsOf n v) s

/-- `PutCode(k)`: the bits of the stored code, first to last (20_memory R38). -/
def putCode (k : Nat) (s : State) : State := putBitList (codeBits (codeAt s k)) s

/-- `while pk_cnt != 0: PutBit(0)`, at most the given number of times. -/
def flushUpTo : Nat → State → State
  | 0, s => s
  | n + 1, s => if s.pkCnt = 0#3 then s else flushUpTo n (putBit false s)

/-- `Flush()` (20_memory R39): `pk_cnt` is below 8, so eight rounds are enough. -/
def flush (s : State) : State := flushUpTo 8 s

/-- The start of a container: the packer is emptied (43_header_codec R101). -/
def emptyPacker (s : State) : State := { s with pkAcc := 0, pkCnt := 0 }

/-! ### The unpacker -/

/-- Takes the next of the unpacker's bits: `up_acc[7]` (20_memory R40). -/
def takeBit (s : State) : Option Bool × State :=
  (some (s.upAcc.getLsbD 7), { s with upAcc := s.upAcc <<< 1, upCnt := s.upCnt - 1 })

/-- `GetBit()` (20_memory R40): a byte is fetched only when no bit is left. -/
def getBit (s : State) : Option Bool × State :=
  if s.upCnt = 0#4 then
    match srcReadByte s with
    | (none, t) => (none, t)
    | (some x, t) => takeBit { t with upAcc := x, upCnt := 8 }
  else takeBit s

/-- `n` more bits after the value `v`, most significant first; `none` for `EOS`. -/
def getBitsFrom : Nat → Nat → State → Option Nat × State
  | 0, v, s => (some v, s)
  | n + 1, v, s =>
    match getBit s with
    | (none, t) => (none, t)
    | (some b, t) => getBitsFrom n (2 * v + b.toNat) t

/-- `GetBits(n)` (20_memory R41); a read cut short by the source's end gives `EOS` and loses the bits taken. -/
def getBits (n : Nat) (s : State) : Option Nat × State := getBitsFrom n 0 s

/-- The start of a container: the unpacker is emptied (43_header_codec R111). -/
def emptyUnpacker (s : State) : State := { s with upAcc := 0, upCnt := 0 }

/-- A bound on how many bits `GetBit` can still deliver. -/
def bitsLeft (s : State) : Nat := s.upCnt.toNat + 8 * srcLeft s

/-! ### How a part of an operation ends -/

/-- The result of running (a part of) an operation: it goes on with a value, it raised a fault of R170, or it is stuck
in a state that no run reaches. Everything written before stays written (60_exceptions R174). -/
inductive Res (α : Type) where
  | ok (a : α) (s : State)
  | raised (e : Err) (s : State)
  | stuck (f : Fault)
  deriving Repr

/-- One part after another: a fault ends the operation (60_exceptions R174). -/
def andThen {α β : Type} (r : Res α) (f : α → State → Res β) : Res β :=
  match r with
  | .ok a s => f a s
  | .raised e s => .raised e s
  | .stuck x => .stuck x

/-- A clean-up that a rule names for the case of a fault (46_commands R146, R148). -/
def onRaise {α : Type} (r : Res α) (f : State → State) : Res α :=
  match r with
  | .ok a s => .ok a s
  | .raised e s => .raised e (f s)
  | .stuck x => .stuck x

/-- TAKING A FAULT: `raise e` (60_exceptions R174): `ERR <- e`, `PHASE <- 0`, `DONE <- 1`, `BUSY <- 0`, nothing
saved, nothing undone. -/
def raise (e : Err) (s : State) : State := { s with err := e, phase := 0, done := true, busy := false }

/-- The normal end of a command: `PHASE <- 0; DONE <- 1` (46_commands R140), `BUSY` falls (R144). -/
def finish (s : State) : State := { s with phase := 0, done := true, busy := false }

/-- The outcome of a command whose body ended so. -/
def conclude (r : Res Unit) : Host.Outcome State Fault Refusal :=
  match r with
  | .ok _ s => .next (finish s)
  | .raised e s => .next (raise e s)
  | .stuck f => .fault f

/-! ### Dispatch -/

/-- A refusal (46_commands R142, R143): `ERR` and `DONE`, nothing else. -/
def refuse (e : Err) (s : State) : State := { s with err := e, done := true }

/-- The gate of every command but `CLR` (46_commands R140): a write while `BUSY` is ignored (10_state R19), then a
command while `ERR != 0` is ignored (R141), else `DONE <- 0` and the command is taken. -/
def gate (s : State) (run : State → Host.Outcome State Fault Refusal) : Host.Outcome State Fault Refusal :=
  if s.busy then .next s
  else if s.err ≠ .none then .next s
  else run { s with done := false }

/-- A unit command (46_commands R140): refused with `SEQ` if the flag it needs is 0 (R142), else `PHASE <- op` and the
body runs to its end or to its raise. -/
def runUnit (op : BitVec 4) (needs : State → Bool) (body : State → Res Unit) (s : State) :
    Host.Outcome State Fault Refusal :=
  gate s fun t =>
    if needs t then conclude (body { t with busy := true, phase := op }) else .next (refuse .seq t)

/-- A macro command (46_commands R145, R147): it needs no flag and its body moves `PHASE` itself. -/
def runMacro (body : State → Res Unit) (s : State) : Host.Outcome State Fault Refusal :=
  gate s fun t => conclude (body { t with busy := true })

/-- A reserved opcode (46_commands R143). -/
def runReserved (s : State) : Host.Outcome State Fault Refusal := gate s fun t => .next (refuse .badCmd t)

/-- No flag is needed. -/
def needsNothing (_ : State) : Bool := true

/-- `PHASE <- p`. -/
def enterPhase (p : BitVec 4) (s : State) : State := { s with phase := p }

/-! ### Reset -/

/-- What `CLR` and reset have in common (46_commands R150, 10_state R27): every register of the core but the tables. -/
def clearRegisters (s : State) : State :=
  { s with
    err := .none, done := false, busy := false, fv := false, tv := false, cv := false, phase := 0,
    root := 0, nnode := 0, cur := 0, pkAcc := 0, pkCnt := 0, upAcc := 0, upCnt := 0, live := 0 }

/-- The reset input (70_reset_and_hazards R190, R191): the registers are cleared, the tables' contents are unspecified
(free values, log 3), the streams are untouched. -/
def assertReset (s : State) : State :=
  { clearRegisters s with
    freq := Vector.ofFn fun k => narrow s.cfg.cntW (Config.resetFreq s.freeIdx k.val)
    node := Array.ofFn fun k : Fin s.cfg.nodeCap => fitNode s.cfg (Config.resetNode s.freeIdx k.val)
    code := Vector.ofFn fun k => fitCode s.cfg (Config.resetCode s.freeIdx k.val)
    freeIdx := s.freeIdx + 1 }

end Sys2Proof.Machine
end

