-- ==== Sys2Proof/Machine/CodeTable.lean ====
section
/-! DEFINITION. The Code Table Generator, `CGEN` (spec 42_code_table_generator R90 to R99). -/

namespace Sys2Proof.Machine

/-- All entries invalid; their `len` and `bits` stay (R91, conflict C13). -/
def invalidateCodes (s : State) : State := { s with code := s.code.map fun c => { c with valid := false } }

/-- `Walk(h, path)` (R90, R92), at most the given number of levels deep; `none`: deeper than that, so no finite tree
(10_state R24 takes the node count as fuel). -/
def walk : Nat → Nat → List Bool → State → Option State
  | 0, _, _, _ => none
  | n + 1, h, path, s =>
    if (nodeAt s h).leaf then some (setCode (nodeAt s h).sym.toNat (pathCode s.cfg path) s)
    else
      match walk n (nodeAt s h).left (path ++ [false]) s with
      | none => none
      | some t => walk n (nodeAt s h).right (path ++ [true]) t

/-- The body of `CGEN` (R90). -/
def cgenBody (s : State) : Res Unit :=
  match walk s.cfg.nodeCap s.root [] (invalidateCodes (clearCv s)) with
  | none => .stuck .walkNotFinite
  | some t => .ok () (setCv t)

/-- `CGEN` (R90), opcode 3: needs `TV`. -/
def execCgen (s : State) : Host.Outcome State Fault Refusal := runUnit 3 State.tv cgenBody s

end Sys2Proof.Machine
end

