-- ==== Sys2Proof/Machine/FreqCounter.lean ====
section
/-! DEFINITION. The Frequency Counter, `FCNT` (spec 40_frequency_counter R70 to R79). -/

namespace Sys2Proof.Machine

/-- The counting loop (R70, R73 to R75), for a source with that many bytes left; the last read gives `EOS` and ends it
(20_memory R30). -/
def countLoop : Nat → State → Res Unit
  | 0, s => .ok () (srcReadByte s).2
  | n + 1, s =>
    match srcReadByte s with
    | (none, t) => .ok () t
    | (some x, t) =>
      if freqAt t x.toNat = cntMax t.cfg then .raised .cntOvf t
      else countLoop n (setFreq x.toNat (narrow t.cfg.cntW (freqAt t x.toNat + 1)) t)

/-- All counts to zero (R72). -/
def clearFreq (s : State) : State := { s with freq := Vector.replicate 257 0 }

/-- The sentinel's count is at least 1 (R76). -/
def forceSentinel (s : State) : State := if freqAt s sentinel = 0 then setFreq sentinel (narrow s.cfg.cntW 1) s else s

/-- The body of `FCNT` (R70). -/
def fcntBody (s : State) : Res Unit :=
  let t := clearFreq (clearFvTvCv s)
  andThen (countLoop (srcLeft t) t) fun _ u => .ok () (setFv (srcRewind (forceSentinel u)))

/-- `FCNT` (R70), opcode 1: needs no flag. -/
def execFcnt (s : State) : Host.Outcome State Fault Refusal := runUnit 1 needsNothing fcntBody s

end Sys2Proof.Machine
end

