-- ==== Sys2Proof/Machine/HeaderCodec.lean ====
section
/-! DEFINITION. The Header Codec, `HSER` and `HDES` (spec 43_header_codec R100 to R119). -/

namespace Sys2Proof.Machine

/-- Writes a branch marker (30_encoding R53). -/
def putBranch (s : State) : State := putBits 1 0 s

/-- Writes a leaf marker and the 9-bit symbol (30_encoding R54). -/
def putLeaf (sym : Sym) (s : State) : State := putBits 9 sym.toNat (putBits 1 1 s)

/-- Writes the 32-bit magic (R102). -/
def putMagic (m : BitVec 32) (s : State) : State := putBits 32 m.toNat s

/-- `WriteTree(h)` (R100, R103), at most the given number of levels deep; `none`: deeper than that, so no finite tree
(10_state R24). -/
def writeTree : Nat → Nat → State → Option State
  | 0, _, _ => none
  | n + 1, h, s =>
    if (nodeAt s h).leaf then some (putLeaf (nodeAt s h).sym s)
    else
      match writeTree n (nodeAt s h).left (putBranch s) with
      | none => none
      | some t => writeTree n (nodeAt s h).right t

/-- The body of `HSER` (R100): neither flushes nor closes (R105). -/
def hserBody (s : State) : Res Unit :=
  match writeTree s.cfg.nodeCap s.root (putMagic s.cfg.magic (emptyPacker s)) with
  | none => .stuck .walkNotFinite
  | some t => .ok () t

/-- `HSER` (R100), opcode 4: needs `TV`. -/
def execHser (s : State) : Host.Outcome State Fault Refusal := runUnit 4 State.tv hserBody s

/-- The magic check (R111): any other value is malformed. -/
def checkMagic (m : BitVec 32) (s : State) : Res Unit :=
  if m = s.cfg.magic then .ok () s else .raised .hdrMagic s

/-- The next free handle, unless the arena is full (R115); it is counted before the node is written (R108). -/
def takeHandle (s : State) : Res Nat :=
  if s.nnode = s.cfg.nodeCap then .raised .hdrCap s
  else .ok s.nnode { s with nnode := narrow s.cfg.hW (s.nnode + 1) }

/-- A leaf token's symbol for node `h`: 257..511 is rejected (R114), else the leaf is written with weight 0 (R109). -/
def buildLeaf (h : Nat) (v : Nat) (s : State) : Res Unit :=
  if sentinel < v then .raised .hdrSym s
  else .ok () (setNode h (leafNode (BitVec.ofNat 9 v) 0) s)

/-- A branch token for node `h`: an internal node without children yet (R108). -/
def buildBranch (h : Nat) (s : State) : State := setNode h (innerNode 0 0 0) s

/-- `NODE[h].left <- l`. -/
def setLeft (h l : Nat) (s : State) : State := setNode h { nodeAt s h with left := l } s

/-- `NODE[h].right <- r`. -/
def setRight (h r : Nat) (s : State) : State := setNode h { nodeAt s h with right := r } s

/-- The symbol field of a leaf token for node `h` (R108, R112). -/
def readLeaf (h : Nat) (s : State) : Res Nat :=
  match getBits 9 s with
  | (none, t) => .raised .hdrEos t
  | (some v, t) => andThen (buildLeaf h v t) fun _ u => .ok h u

/-- `ReadTree()` (R108, R109), with at most that many more levels: a node takes its handle when its marker is read, so
below `NODE_CAP` levels the arena is full, and the next marker is `HDR_EOS` or `HDR_CAP` (R109). -/
def readTree : Nat → State → Res Nat
  | 0, s =>
    match getBit s with
    | (none, t) => .raised .hdrEos t
    | (some _, t) => .raised .hdrCap t
  | n + 1, s =>
    match getBit s with
    | (none, t) => .raised .hdrEos t
    | (some b, t) =>
      andThen (takeHandle t) fun h u =>
        if b then readLeaf h u
        else
          andThen (readTree n (buildBranch h u)) fun l v =>
            andThen (readTree n (setLeft h l v)) fun r w => .ok h (setRight h r w)

/-- The first 32 bits (R111): too few of them are no magic either. -/
def readMagic (s : State) : Res Unit :=
  match getBits 32 s with
  | (none, t) => .raised .hdrMagic t
  | (some m, t) => checkMagic (BitVec.ofNat 32 m) t

/-- The body of `HDES` (R108). -/
def hdesBody (s : State) : Res Unit :=
  andThen (readMagic (emptyUnpacker (clearTvCv s))) fun _ t =>
    andThen (readTree t.cfg.nodeCap { t with nnode := 0 }) fun h u => .ok () (setTv { u with root := h })

/-- `HDES` (R108), opcode 6: needs no flag. -/
def execHdes (s : State) : Host.Outcome State Fault Refusal := runUnit 6 needsNothing hdesBody s

end Sys2Proof.Machine
end

