-- ==== Sys2Proof/Machine/StreamDecoder.lean ====
section
/-! DEFINITION. The Stream Decoder, `SDEC` (spec 45_stream_decoder R130 to R139). -/

namespace Sys2Proof.Machine

/-- Whether a node is a sentinel leaf. -/
def isSentinel (d : Node) : Bool := d.leaf && decide (d.sym.toNat = sentinel)

/-- One payload bit moves `cur` to a child (R133). -/
def moveCur (b : Bool) (s : State) : State :=
  { s with cur := if b then (nodeAt s s.cur).right else (nodeAt s s.cur).left }

/-- What reaching `cur` does (R134 to R136): at the sentinel the decoder stops (true); another leaf emits its byte and
`cur` returns to the root; an internal node does nothing. -/
def arrive (s : State) : Bool × State :=
  if (nodeAt s s.cur).leaf then
    if (nodeAt s s.cur).sym.toNat = sentinel then (true, s)
    else (false, { sinkWriteByte (outByte (nodeAt s s.cur).sym) s with cur := s.root })
  else (false, s)

/-- One payload bit taken: true when it reached the sentinel. -/
def stepBit (b : Bool) (s : State) : Bool × State := arrive (moveCur b s)

/-- The decoding loop (R130), for a source with that many bits left; a wanted bit that is not there is `PAY_TRUNC`
(R132), raised with the sink closed (R138). -/
def decodeLoop : Nat → State → Res Unit
  | 0, s => .raised .payTrunc (sinkClose (getBit s).2)
  | n + 1, s =>
    match getBit s with
    | (none, t) => .raised .payTrunc (sinkClose t)
    | (some b, t) =>
      match stepBit b t with
      | (true, u) => .ok () (sinkClose u)
      | (false, u) => decodeLoop n u

/-- Root-is-leaf (R131), with no bit read: the lone sentinel ends the decoding, another lone leaf is `HDR_ROOT`. -/
def rootLeafEnd (s : State) : Res Unit :=
  if (nodeAt s s.root).sym.toNat = sentinel then .ok () (sinkClose s) else .raised .hdrRoot (sinkClose s)

/-- The body of `SDEC` (R130). -/
def sdecBody (s : State) : Res Unit :=
  if (nodeAt s s.root).leaf then rootLeafEnd s
  else decodeLoop (bitsLeft s) { s with cur := s.root }

/-- `SDEC` (R130), opcode 7: needs `TV`. -/
def execSdec (s : State) : Host.Outcome State Fault Refusal := runUnit 7 State.tv sdecBody s

end Sys2Proof.Machine
end

