-- ==== Sys2Proof/Machine/StreamEncoder.lean ====
section
/-! DEFINITION. The Stream Encoder, `SENC` (spec 44_stream_encoder R120 to R129). -/

namespace Sys2Proof.Machine

/-- The end of every path of `SENC`: `Flush(); SinkClose()` (R124). -/
def flushClose (s : State) : State := sinkClose (flush s)

/-- Symbol `k` through the code table, or `NO_CODE` with the output completed and closed (R121, R123). -/
def encodeSymbol (k : Nat) (s : State) : Res Unit :=
  if (codeAt s k).valid then .ok () (putCode k s) else .raised .noCode (flushClose s)

/-- The encoding loop (R120), for a source with that many bytes left; the last read gives `EOS` and ends it. -/
def encodeLoop : Nat → State → Res Unit
  | 0, s => .ok () (srcReadByte s).2
  | n + 1, s =>
    match srcReadByte s with
    | (none, t) => .ok () t
    | (some x, t) => andThen (encodeSymbol x.toNat t) fun _ u => encodeLoop n u

/-- The body of `SENC` (R120): every byte's code, the sentinel's code (R122), the end of the output (R124). -/
def sencBody (s : State) : Res Unit :=
  andThen (encodeLoop (srcLeft s) s) fun _ t =>
    andThen (encodeSymbol sentinel t) fun _ u => .ok () (flushClose u)

/-- `SENC` (R120), opcode 5: needs `CV`. -/
def execSenc (s : State) : Host.Outcome State Fault Refusal := runUnit 5 State.cv sencBody s

end Sys2Proof.Machine
end

