-- ==== Sys2Proof/Machine/TreeBuilder.lean ====
section
/-! DEFINITION. The Tree Builder, `TBLD` (spec 41_tree_builder R80 to R89). -/

namespace Sys2Proof.Machine

/-- `live[h] <- 1` (10_state R23: a bit for each of the `NODE_CAP` slots). -/
def addLive (h : Nat) (s : State) : State := { s with live := s.live ||| narrow s.cfg.nodeCap (2 ^ h) }

/-- `live[h] <- 0`. -/
def dropLive (h : Nat) (s : State) : State := { s with live := s.live ^^^ (s.live &&& 2 ^ h) }

/-- One leaf for each symbol of the list with a non-zero count, from handle `n` on (R80, R81); gives the next free
handle. -/
def addLeaves : List Nat → Nat → State → Nat × State
  | [], n, s => (n, s)
  | k :: ks, n, s =>
    if freqAt s k ≠ 0 then
      addLeaves ks (n + 1) (addLive n (setNode n (leafNode (BitVec.ofNat 9 k) (narrow s.cfg.wtW (freqAt s k))) s))
    else addLeaves ks n s

/-- Node `g` comes before node `h`: the lower weight, or equal weights and the lower handle (R82). -/
def comesBefore (s : State) (g h : Nat) : Bool :=
  decide ((nodeAt s g).weight < (nodeAt s h).weight) ||
    (decide ((nodeAt s g).weight = (nodeAt s h).weight) && decide (g < h))

/-- The earlier of the best live handle so far and handle `h`, if `h` is live. -/
def pickMin (s : State) (best : Option Nat) (h : Nat) : Option Nat :=
  if s.live.testBit h then
    match best with
    | none => some h
    | some g => if comesBefore s h g then some h else some g
  else best

/-- The live handle below a bound that comes before every other live handle below it, if there is one. -/
def minBelow : Nat → State → Option Nat
  | 0, _ => none
  | k + 1, s => pickMin s (minBelow k s) k

/-- The live handle that comes before every other live handle (R82), if one is live. -/
def minLive (s : State) : Option Nat := minBelow s.cfg.nodeCap s

/-- `ExtractMin()` (R82): the minimum, no longer live. -/
def extractMin (s : State) : Option (Nat × State) :=
  match minLive s with
  | none => none
  | some h => some (h, dropLive h s)

/-- The merge of `a` (left) and `b` (right) into node `n` (R84). -/
def mergeInto (n a b : Nat) (s : State) : State :=
  let w := (nodeAt s a).weight + (nodeAt s b).weight
  addLive n (setNode n (fitNode s.cfg (innerNode w a b)) s)

/-- The merge loop (R83): while two nodes are live the two lowest are merged. Its length is bounded by the number of
node slots; a loop with no round left, or with fewer than two live nodes, leaves the state as it is. -/
def mergeLoop : Nat → Nat → State → Nat × State
  | 0, n, s => (n, s)
  | k + 1, n, s =>
    match extractMin s with
    | none => (n, s)
    | some (a, s1) =>
      match extractMin s1 with
      | none => (n, s)
      | some (b, s2) => mergeLoop k (n + 1) (mergeInto n a b s2)

/-- The end of `TBLD` (R80, R85): the one live node is the root. -/
def takeRoot (n : Nat) (s : State) : Res Unit :=
  match minLive s with
  | none => .stuck .noLiveNode
  | some h => .ok () (setTv { dropLive h s with root := narrow s.cfg.hW h, nnode := narrow s.cfg.hW n })

/-- The body of `TBLD` (R80). -/
def tbldBody (s : State) : Res Unit :=
  let t := { clearTvCv s with live := 0 }
  let leaves := addLeaves (List.range nsym) 0 t
  let merged := mergeLoop s.cfg.nodeCap leaves.1 leaves.2
  takeRoot merged.1 merged.2

/-- `TBLD` (R80), opcode 2: needs `FV`. -/
def execTbld (s : State) : Host.Outcome State Fault Refusal := runUnit 2 State.fv tbldBody s

end Sys2Proof.Machine
end

