-- ==== Sys2Proof/Machine/Commands.lean ====
section
/-! DEFINITION. The macro and system commands and the reserved codes (spec 46_commands R143 to R150). -/

namespace Sys2Proof.Machine

/-- The body of `COMP` (R145): the five units, each stopping at the first fault; a fault of `FCNT` closes the sink
(R146). -/
def compBody (s : State) : Res Unit :=
  andThen (onRaise (fcntBody (enterPhase 1 s)) sinkClose) fun _ a =>
    andThen (tbldBody (enterPhase 2 a)) fun _ b =>
      andThen (cgenBody (enterPhase 3 b)) fun _ c =>
        andThen (hserBody (enterPhase 4 c)) fun _ d => sencBody (enterPhase 5 d)

/-- The body of `DECOMP` (R147); a fault of `HDES` closes the sink (R148). -/
def decompBody (s : State) : Res Unit :=
  andThen (onRaise (hdesBody (enterPhase 6 s)) sinkClose) fun _ a => sdecBody (enterPhase 7 a)

/-- `COMP` (R145), opcode 8. -/
def execComp (s : State) : Host.Outcome State Fault Refusal := runMacro compBody s

/-- `DECOMP` (R147), opcode 9. -/
def execDecomp (s : State) : Host.Outcome State Fault Refusal := runMacro decompBody s

/-- `NOP` (R149), opcode 0: `DONE <- 1` through dispatch. -/
def execNop (s : State) : Host.Outcome State Fault Refusal := runMacro (Res.ok ()) s

/-- `CLR` (R150), opcode 0xA: taken whatever `ERR` is (R140), ignored only while `BUSY` (10_state R19); the tables
and the streams are untouched. -/
def execClr (s : State) : Host.Outcome State Fault Refusal := if s.busy then .next s else .next (clearRegisters s)

/-- Reserved opcode 0xB (R143). -/
def execRsvdB (s : State) : Host.Outcome State Fault Refusal := runReserved s

/-- Reserved opcode 0xC (R143). -/
def execRsvdC (s : State) : Host.Outcome State Fault Refusal := runReserved s

/-- Reserved opcode 0xD (R143). -/
def execRsvdD (s : State) : Host.Outcome State Fault Refusal := runReserved s

/-- Reserved opcode 0xE (R143). -/
def execRsvdE (s : State) : Host.Outcome State Fault Refusal := runReserved s

/-- Reserved opcode 0xF (R143). -/
def execRsvdF (s : State) : Host.Outcome State Fault Refusal := runReserved s

end Sys2Proof.Machine
end

