-- ==== Sys2Proof/Machine/Tokens.lean ====
section
/-! DEFINITION. The container tokens (spec 30_encoding R50 to R60) as the core handles them. A token acts through the
unit that is running (`PHASE`, 10_state R15), as R50's columns "written by" and "read by" say: `HSER` (4) writes the
magic and the header, `HDES` (6) reads them, `SENC` (5) writes the payload and the padding, `SDEC` (7) reads the
payload. In any other phase no unit reads or writes the token and nothing happens (log 9). The operations are those
the units themselves are made of. -/

namespace Sys2Proof.Machine

/-- The outcome of a token inside a running command: the command goes on, or the token's fault ends it. -/
def concludeToken (r : Res Unit) : Host.Outcome State Fault Refusal :=
  match r with
  | .ok _ s => .next s
  | .raised e s => .next (raise e s)
  | .stuck f => .fault f

/-- A leaf token whose bits have been read: a handle, then the symbol's range (43_header_codec R108, R114, R115). -/
def takeLeaf (v : Nat) (s : State) : Res Unit := andThen (takeHandle s) fun h t => buildLeaf h v t

/-- A branch token whose bit has been read (43_header_codec R108). -/
def takeBranch (s : State) : Res Unit := andThen (takeHandle s) fun h t => .ok () (buildBranch h t)

/-- `MAGIC` (R51): `HSER` writes it, `HDES` compares it. -/
def execMagic (m : BitVec 32) (s : State) : Host.Outcome State Fault Refusal :=
  if s.phase = 4#4 then .next (putMagic m s)
  else if s.phase = 6#4 then concludeToken (checkMagic m s)
  else .next s

/-- `HDR.BRANCH` (R53): `HSER` writes the bit 0, `HDES` allocates an internal node. -/
def execHdrBranch (s : State) : Host.Outcome State Fault Refusal :=
  if s.phase = 4#4 then .next (putBranch s)
  else if s.phase = 6#4 then concludeToken (takeBranch s)
  else .next s

/-- `HDR.LEAF` (R54): `HSER` writes ten bits, `HDES` builds a leaf. -/
def execHdrLeaf (sym : Sym) (s : State) : Host.Outcome State Fault Refusal :=
  if s.phase = 4#4 then .next (putLeaf sym s)
  else if s.phase = 6#4 then concludeToken (takeLeaf sym.toNat s)
  else .next s

/-- `HDR.LEAF.RSVD` (R60): `HDES` rejects it with `HDR_SYM`; `HSER` never writes one. -/
def execHdrLeafRsvd (sym : Sym) (s : State) : Host.Outcome State Fault Refusal :=
  if s.phase = 6#4 then concludeToken (takeLeaf sym.toNat s) else .next s

/-- The bits of a code through the decoder's walk; true when the sentinel is reached, and no later bit is read. -/
def walkBits : List Bool → State → Bool × State
  | [], s => (false, s)
  | b :: bs, s =>
    match stepBit b s with
    | (true, t) => (true, t)
    | (false, t) => walkBits bs t

/-- A code whose bits have been read by `SDEC` (45_stream_decoder R130 to R136): with a lone leaf the code is empty
and decoding ends; else the walk moves, and the sentinel ends the command with the sink closed. -/
def readCode (c : List Bool) (s : State) : Host.Outcome State Fault Refusal :=
  if (nodeAt s s.root).leaf then conclude (rootLeafEnd s)
  else
    match walkBits c s with
    | (true, t) => .next (finish (sinkClose t))
    | (false, t) => .next t

/-- `PAYLOAD.CODE` (R56): `SENC` writes the code's bits, `SDEC` walks them. -/
def execPayloadCode (c : List Bool) (s : State) : Host.Outcome State Fault Refusal :=
  if s.phase = 5#4 then .next (putBitList c s)
  else if s.phase = 7#4 then readCode c s
  else .next s

/-- `PAD` (R57): `SENC` writes zero bits; nobody reads them (20_memory R42). -/
def execPad (n : Nat) (s : State) : Host.Outcome State Fault Refusal :=
  if s.phase = 5#4 then .next (putBitList (List.replicate n false) s) else .next s

end Sys2Proof.Machine
end

