-- ==== Sys2Proof/Machine/Dispatch.lean ====
section
/-! DEFINITION. The dispatch of an instruction to its meaning, one arm for each row of the opcode table. -/

namespace Sys2Proof.Machine

def exec (i : Instr) (s : State) : Host.Outcome State Fault Refusal :=
  match i with
  | .nop => Sys2Proof.Machine.execNop s
  | .fcnt => Sys2Proof.Machine.execFcnt s
  | .tbld => Sys2Proof.Machine.execTbld s
  | .cgen => Sys2Proof.Machine.execCgen s
  | .hser => Sys2Proof.Machine.execHser s
  | .senc => Sys2Proof.Machine.execSenc s
  | .hdes => Sys2Proof.Machine.execHdes s
  | .sdec => Sys2Proof.Machine.execSdec s
  | .comp => Sys2Proof.Machine.execComp s
  | .decomp => Sys2Proof.Machine.execDecomp s
  | .clr => Sys2Proof.Machine.execClr s
  | .rsvdB => Sys2Proof.Machine.execRsvdB s
  | .rsvdC => Sys2Proof.Machine.execRsvdC s
  | .rsvdD => Sys2Proof.Machine.execRsvdD s
  | .rsvdE => Sys2Proof.Machine.execRsvdE s
  | .rsvdF => Sys2Proof.Machine.execRsvdF s
  | .magic m => Sys2Proof.Machine.execMagic m s
  | .hdrBranch => Sys2Proof.Machine.execHdrBranch s
  | .hdrLeaf sym => Sys2Proof.Machine.execHdrLeaf sym s
  | .hdrLeafRsvd sym => Sys2Proof.Machine.execHdrLeafRsvd sym s
  | .payloadCode code => Sys2Proof.Machine.execPayloadCode code s
  | .pad n => Sys2Proof.Machine.execPad n s

end Sys2Proof.Machine
end

