-- ==== Sys2Proof/Machine/HostPort.lean ====
section
/-! DEFINITION. The host's side between commands (spec 00_scope R9, 10_state R18 to R20, 70_reset_and_hazards R190 to
R196). -/

namespace Sys2Proof.Machine

/-- What reading a register returns (10_state R18): `CMD` reads 0, `STATUS` its word. -/
def readReg (r : HostReg) (s : State) : BitVec 16 :=
  match r with
  | .cmd => 0
  | .status => statusWord s

/-- A host write (10_state R18, R19): to `CMD` it runs the command, to `STATUS` it is ignored. -/
def writeReg (r : HostReg) (w : BitVec 16) (s : State) : Host.Outcome State Fault Refusal :=
  match r with
  | .cmd => exec (decodeWord s.cfg.opW w) s
  | .status => .next s

/-- The stream events between two states of a run, oldest first. -/
def newEvents (s t : State) : List StreamEvent := (t.events.take (t.events.length - s.events.length)).reverse

/-- The streams after these events and no close (70_reset_and_hazards R192): the bytes sent are in the sink, the source is
wherever the last read left it. -/
def replayStreams : List StreamEvent → State → State
  | [], s => s
  | .read _ :: es, s => replayStreams es (srcReadByte s).2
  | .rewind :: es, s => replayStreams es (srcRewind s)
  | .write b :: es, s => replayStreams es (sinkWriteByte b s)
  | .close :: _, s => s

/-- Reset during a command abandons it (70_reset_and_hazards R192, 46_commands R153): the streams hold what its first `n`
stream events made of them, the sink is not closed, and the core is reset (log 13). -/
def resetDuring (w : BitVec 16) (n : Nat) (s : State) : Host.Outcome State Fault Refusal :=
  match exec (decodeWord s.cfg.opW w) s with
  | .next t => .next (assertReset (replayStreams ((newEvents s t).take n) s))
  | .fault f => .fault f
  | .refused r => .refused r

/-- One action of the host. -/
def hostAct (a : HostAction) (s : State) : Host.Outcome State Fault Refusal :=
  match a with
  | .write r w => writeReg r w s
  | .read r => .next { s with rdata := readReg r s }
  | .presentSource bytes position later => .next { s with src := bytes, pos := position, srcLater := later }
  | .presentSink content closed => .next { s with out := content, closed := closed }
  | .reset => .next (assertReset s)
  | .resetDuring w n => resetDuring w n s

/-- The next action of the host, if it has one; else the core is idle and waits (70_reset_and_hazards R190). -/
def hostStep (s : State) : Host.Outcome State Fault Refusal :=
  match s.host with
  | [] => .next s
  | a :: rest => hostAct a { s with host := rest }

/-- A word put where the next command comes from: the host's next action writes it to `CMD`. -/
def placeWord (s : State) (w : Nat) : State :=
  { s with host := .write .cmd (BitVec.ofNat 16 w) :: s.host }

end Sys2Proof.Machine
end

