-- ==== Sys2Proof/Safety.lean ====
section
/-! DEFINITION. The terms claims are made in: the tree an arena holds (spec 10_state R12), the bit strings the streams
stand for (20_memory R36, R40), the code table of a tree (42_code_table_generator R90 to R97), and the invariant of a
safe run. -/

namespace Sys2Proof.Machine

/-! ### Trees -/

/-- What the header carries of a tree: the shape and the leaf symbols (43_header_codec R113). -/
inductive Shape where
  | leaf (sym : Sym)
  | branch (l r : Shape)
  deriving DecidableEq, Repr

/-- A finite binary tree of arena entries (10_state R12). -/
inductive HTree where
  | leaf (h : Nat) (sym : Sym)
  | branch (h : Nat) (l r : HTree)
  deriving DecidableEq, Repr

/-- The handle of a tree's top node. -/
def topHandle : HTree → Nat
  | .leaf h _ => h
  | .branch h _ _ => h

/-- All handles of a tree, in pre-order. -/
def treeHandles : HTree → List Nat
  | .leaf h _ => [h]
  | .branch h l r => h :: (treeHandles l ++ treeHandles r)

/-- The shape of a tree. -/
def shapeOf : HTree → Shape
  | .leaf _ sym => .leaf sym
  | .branch _ l r => .branch (shapeOf l) (shapeOf r)

/-- Number of nodes of a shape. -/
def shapeSize : Shape → Nat
  | .leaf _ => 1
  | .branch l r => 1 + shapeSize l + shapeSize r

/-- Number of leaves of a shape. -/
def leafCount : Shape → Nat
  | .leaf _ => 1
  | .branch l r => leafCount l + leafCount r

/-- The leaves of a shape from left to right, each with its path: 0 for a left step, 1 for a right step (R92). -/
def shapeLeaves : Shape → List (List Bool × Sym)
  | .leaf sym => [([], sym)]
  | .branch l r =>
    (shapeLeaves l).map (fun p => (false :: p.1, p.2)) ++ (shapeLeaves r).map (fun p => (true :: p.1, p.2))

/-- The tree header: the pre-order serialization (30_encoding R52 to R54). -/
def shapeHeader : Shape → List Bool
  | .leaf sym => true :: bitsOf 9 sym.toNat
  | .branch l r => false :: (shapeHeader l ++ shapeHeader r)

/-- Every leaf symbol is 0..256 (43_header_codec R114). -/
def symbolsOk (t : Shape) : Prop := ∀ p ∈ shapeLeaves t, p.2.toNat ≤ sentinel

/-- The arena holds this tree: kinds, symbols and children agree. -/
def Holds (s : State) : HTree → Prop
  | .leaf h sym => (nodeAt s h).leaf = true ∧ (nodeAt s h).sym = sym ∧ sym.toNat ≤ sentinel
  | .branch h l r =>
    (nodeAt s h).leaf = false ∧ (nodeAt s h).left = topHandle l ∧ (nodeAt s h).right = topHandle r ∧
      Holds s l ∧ Holds s r

/-- The arena entries of a tree as `HDES` builds it: every weight 0, every internal symbol 0, a leaf's children 0
(43_header_codec R108, R110). -/
def BareTree (s : State) : HTree → Prop
  | .leaf h sym => nodeAt s h = leafNode sym 0
  | .branch h l r => nodeAt s h = innerNode 0 (topHandle l) (topHandle r) ∧ BareTree s l ∧ BareTree s r

/-- The header's tokens in pre-order (30_encoding R52 to R54). -/
def headerTokens : Shape → List Instr
  | .leaf sym => [.hdrLeaf sym]
  | .branch l r => .hdrBranch :: (headerTokens l ++ headerTokens r)

/-- After these header tokens some of the awaited subtrees is still missing (30_encoding R61). -/
def stillOpen : Nat → List Instr → Bool
  | 0, _ => false
  | _ + 1, [] => true
  | n + 1, .hdrBranch :: ts => stillOpen (n + 2) ts
  | n + 1, .hdrLeaf _ :: ts => stillOpen n ts
  | _ + 1, _ :: _ => false

/-- The well-formed tokens of a header that is read without a fault (43_header_codec R114). -/
def HeaderTokens (ts : List Instr) : Prop :=
  ∀ i ∈ ts, i = .hdrBranch ∨ ∃ sym : Sym, sym.toNat ≤ sentinel ∧ i = .hdrLeaf sym

/-- `root` reaches exactly this finite tree: every handle below `nnode`, none reached twice, at most `NODE_CAP` (R12). -/
def TreeIn (s : State) (t : HTree) : Prop :=
  topHandle t = s.root ∧ Holds s t ∧ (treeHandles t).Nodup ∧ (∀ h ∈ treeHandles t, h < s.nnode) ∧
    s.nnode ≤ s.cfg.nodeCap

/-- The tree invariant of R12. -/
def TreeOk (s : State) : Prop := ∃ t, TreeIn s t

/-- The path `CGEN` keeps for a symbol: that of its last leaf, left before right (42_code_table_generator R97). -/
def keptPath (t : Shape) (k : Nat) : Option (List Bool) :=
  (((shapeLeaves t).filter fun p => decide (p.2.toNat = k)).getLast?).map Prod.fst

/-- `CODE` is the code table of this shape (R91, R92, R97). -/
def CodesOf (s : State) (t : Shape) : Prop :=
  ∀ k < nsym,
    match keptPath t k with
    | some p => codeAt s k = pathCode s.cfg p
    | none => (codeAt s k).valid = false

/-- Every leaf weighs its symbol's count and every internal node the sum of its children (R12, for a tree of `TBLD`). -/
def WeightsOk (s : State) : HTree → Prop
  | .leaf h sym => (nodeAt s h).weight = freqAt s sym.toNat
  | .branch h l r =>
    (nodeAt s h).weight = (nodeAt s (topHandle l)).weight + (nodeAt s (topHandle r)).weight ∧
      WeightsOk s l ∧ WeightsOk s r

/-- The leaf symbols of a shape, from left to right. -/
def leafSymbols (t : Shape) : List Nat := (shapeLeaves t).map fun p => p.2.toNat

/-! ### Streams as bit strings -/

/-- The bits of bytes in stream order (20_memory R36). -/
def bytesBits (bs : List Byte) : List Bool := bs.flatMap fun b => bitsOf 8 b.toNat

/-- All bits written so far: the sink's bytes, then the packer's waiting bits, oldest first (10_state R21). -/
def sinkBits (s : State) : List Bool := bytesBits s.out ++ bitsOf s.pkCnt.toNat s.pkAcc.toNat

/-- All bits still to be read: the unpacker's, then those of the source's remaining bytes (10_state R22). -/
def sourceBits (s : State) : List Bool :=
  (bitsOf 8 s.upAcc.toNat).take s.upCnt.toNat ++ bytesBits (s.src.drop s.pos)

/-- The bits of the source from its position on, as a container's reader starts (43_header_codec R111). -/
def restBits (s : State) : List Bool := bytesBits (s.src.drop s.pos)

/-- The padding that completes the final byte of a container of that many bits (30_encoding R57). -/
def padding (nbits : Nat) : List Bool := List.replicate ((8 - nbits % 8) % 8) false

/-- The payload of these bytes and the sentinel under the code table (30_encoding R56). -/
def payloadBits (s : State) (xs : List Byte) : List Bool :=
  xs.flatMap (fun x => codeBits (codeAt s x.toNat)) ++ codeBits (codeAt s sentinel)

/-- A whole container: magic, header, payload, padding (30_encoding R50, R57). -/
def containerBits (magic : BitVec 32) (t : Shape) (payload : List Bool) : List Bool :=
  let bits := bitsOf 32 magic.toNat ++ (shapeHeader t ++ payload)
  bits ++ padding bits.length

/-- The bits of some leaves, one path after another (45_stream_decoder R133 to R136). -/
def leafBits (ls : List (List Bool × Sym)) : List Bool := ls.flatMap Prod.fst

/-- The bytes a decoder emits for some leaves (45_stream_decoder R135). -/
def leafBytes (ls : List (List Bool × Sym)) : List Byte := ls.map fun p => outByte p.2

/-- Leaves of a tree that are not the sentinel. -/
def ByteLeaves (t : Shape) (ls : List (List Bool × Sym)) : Prop := ∀ p ∈ ls, p ∈ shapeLeaves t ∧ p.2.toNat ≠ sentinel

/-- No leaf is reached by these bits (45_stream_decoder R132). -/
def NoLeafIn (t : Shape) (bits : List Bool) : Prop := ∀ p ∈ shapeLeaves t, ¬ p.1 <+: bits

/-- How often a byte occurs in the rest of the source. -/
def restCount (s : State) (b : Byte) : Nat := (s.src.drop s.pos).count b

/-- No byte of the rest of the source occurs more often than a count can say (40_frequency_counter R75). -/
def CountsFit (s : State) : Prop := ∀ b : Byte, restCount s b ≤ cntMax s.cfg

/-- The symbols with a non-zero count, in ascending order (41_tree_builder R81). -/
def usedSymbols (s : State) : List Nat := (List.range nsym).filter fun k => decide (freqAt s k ≠ 0)

/-- The source's part of a list of stream events. -/
def sourceEvents (es : List StreamEvent) : List StreamEvent :=
  es.filter fun e =>
    match e with
    | .read _ | .rewind => true
    | .write _ | .close => false

/-- The sink's part of a list of stream events. -/
def sinkEvents (es : List StreamEvent) : List StreamEvent :=
  es.filter fun e =>
    match e with
    | .read _ | .rewind => false
    | .write _ | .close => true

/-- The events of reading these bytes, newest first. -/
def readEvents (xs : List Byte) : List StreamEvent := xs.reverse.map fun x => .read (some x)

/-- The events of writing these bytes, newest first. -/
def writeEvents (xs : List Byte) : List StreamEvent := xs.reverse.map fun x => .write x

/-! ### The merge order of `TBLD` -/

/-- Node `g` comes before node `h`: the lower weight, or equal weights and the lower handle (41_tree_builder R82). -/
def Before (s : State) (g h : Nat) : Prop :=
  (nodeAt s g).weight < (nodeAt s h).weight ∨ ((nodeAt s g).weight = (nodeAt s h).weight ∧ g < h)

/-- `a` is the one handle of `P` that comes before every other handle of `P`. -/
def FirstOf (s : State) (P : Nat → Prop) (a : Nat) : Prop := P a ∧ ∀ g, P g → g ≠ a → Before s a g

/-- Handle `g` waits in the queue when node `h` is made: it has been made, and no internal node made before `h` has it
as a child (10_state R23). The internal nodes are those from handle `n` on. -/
def Waiting (s : State) (n h g : Nat) : Prop :=
  g < h ∧ ∀ k, n ≤ k → k < h → (nodeAt s k).left ≠ g ∧ (nodeAt s k).right ≠ g

/-- Node `h` is the merge of the two first waiting nodes, the first on the left (41_tree_builder R82 to R84). -/
structure MergedAt (s : State) (n h : Nat) : Prop where
  inner : (nodeAt s h).leaf = false ∧ (nodeAt s h).sym = 0
  left : FirstOf s (Waiting s n h) (nodeAt s h).left
  right : FirstOf s (fun g => Waiting s n h g ∧ g ≠ (nodeAt s h).left) (nodeAt s h).right
  weight : (nodeAt s h).weight = (nodeAt s (nodeAt s h).left).weight + (nodeAt s (nodeAt s h).right).weight

/-! ### Safe runs -/

/-- An instruction the host can issue: it has an opcode (30_encoding R63, R64). -/
def isCommand (i : Instr) : Bool := (opcode i).isSome

/-- Instructions one after another, ended by the first stop. -/
def execAll : List Instr → State → Host.Outcome State Fault Refusal
  | [], s => .next s
  | i :: is, s =>
    match exec i s with
    | .next t => execAll is t
    | .fault f => .fault f
    | .refused r => .refused r

/-- A command is taken: the core is idle and no error is held (46_commands R140). -/
def Ready (s : State) : Prop := s.busy = false ∧ s.err = .none

/-- The state is one of a machine whose parameters fit together, and every place of a width that is a parameter holds a
value of that width (00_scope R5, R6). -/
structure Fits (s : State) : Prop where
  config : s.cfg.Consistent
  arena : s.node.size = s.cfg.nodeCap
  freq : ∀ k, freqAt s k < 2 ^ s.cfg.cntW
  node : ∀ h, fitNode s.cfg (nodeAt s h) = nodeAt s h
  code : ∀ k, fitCode s.cfg (codeAt s k) = codeAt s k
  root : s.root < 2 ^ s.cfg.hW
  nnode : s.nnode < 2 ^ s.cfg.hW
  cur : s.cur < 2 ^ s.cfg.hW
  live : s.live < 2 ^ s.cfg.nodeCap

/-- A core ready for a run on these bytes: an unchanging source at position 0, an empty and open sink
(70_reset_and_hazards R193, R197). -/
def FreshRun (s : State) (xs : List Byte) : Prop :=
  Ready s ∧ Fits s ∧ s.src = xs ∧ s.pos = 0 ∧ s.srcLater = [] ∧ s.out = [] ∧ s.closed = false

/-- Between commands (10_state R15, R20, R23; 46_commands R144). -/
structure Idle (s : State) : Prop where
  busy : s.busy = false
  phase : s.phase = 0
  live : s.live = 0
  done : s.err ≠ .none → s.done = true

/-- The packer holds fewer than eight bits and nothing else, the unpacker at most eight (10_state R21, R22). -/
structure Buffers (s : State) : Prop where
  packer : s.pkAcc.toNat < 2 ^ s.pkCnt.toNat
  unpacker : s.upCnt.toNat ≤ 8

/-- What the validity flags promise (10_state R10, R12, R17). -/
structure Tables (s : State) : Prop where
  counts : s.fv = true → freqAt s sentinel ≠ 0
  tree : s.tv = true → TreeOk s
  codes : s.cv = true → s.tv = true ∧ ∃ t, TreeIn s t ∧ CodesOf s (shapeOf t)

/-- The invariant of every run. -/
structure Inv (s : State) : Prop where
  fits : Fits s
  idle : Idle s
  buffers : Buffers s
  tables : Tables s

end Sys2Proof.Machine
end

