-- ==== Sys2Proof/Certificates/Slice0/Obligations.lean ====
section
/-! DEFINITION. The statements for the provers, one for each group of rules of the spec. A frame is written as an equation:
the state after is the state before with the named fields changed, so every other field (registers, flags, tables,
streams) is as it was. -/

open Sys2Proof Sys2Proof.Machine

/-! ### Reset, host port -/

/-- 10_state R27: the registers after reset. (The tables' contents in `State.reset` are the model's choice, log 2, and
nothing is said of them.) -/
def Obligations.ResetLeavesRegistersClear : Prop :=
  statusWord State.reset = 0 ∧ State.reset.root = 0 ∧ State.reset.nnode = 0 ∧ State.reset.cur = 0 ∧
    State.reset.pkAcc = 0 ∧ State.reset.pkCnt = 0 ∧ State.reset.upAcc = 0 ∧ State.reset.upCnt = 0 ∧
    State.reset.live = 0

/-- 70_reset_and_hazards R190, R191: the reset input clears the registers in any state and touches no stream. R192: during
a command it abandons it: the registers are cleared, the sink is not closed, and what it got is a prefix of what the command
would have written. The tables' contents are free (log 3). -/
def Obligations.ResetInputClearsRegistersOnly : Prop :=
  ∀ (s : State) (rest : List HostAction),
    (s.host = .reset :: rest →
      ∃ t, step s = .next t ∧ statusWord t = 0 ∧
        t = { s with
          busy := false, done := false, fv := false, tv := false, cv := false, err := .none, phase := 0, root := 0,
          nnode := 0, cur := 0, pkAcc := 0, pkCnt := 0, upAcc := 0, upCnt := 0, live := 0, host := rest,
          freq := t.freq, node := t.node, code := t.code, freeIdx := t.freeIdx }) ∧
    (∀ w n u, s.host = .resetDuring w n :: rest → exec (decodeWord s.cfg.opW w) { s with host := rest } = .next u →
      ∃ t, step s = .next t ∧ statusWord t = 0 ∧
        t = { s with
          busy := false, done := false, fv := false, tv := false, cv := false, err := .none, phase := 0, root := 0,
          nnode := 0, cur := 0, pkAcc := 0, pkCnt := 0, upAcc := 0, upCnt := 0, live := 0, host := rest,
          freq := t.freq, node := t.node, code := t.code, freeIdx := t.freeIdx, src := t.src, pos := t.pos,
          srcLater := t.srcLater, out := t.out, events := t.events } ∧
        (s.closed = false → ∃ ws, t.out = s.out ++ ws ∧
          ws.map StreamEvent.write <+: sinkEvents (newEvents { s with host := rest } u)))

/-- 10_state R19, 46_commands R140: a write to `CMD` runs the command in the word's low four bits; a word placed by
`withFetchWord` is run by the very next step, on the state as it was. -/
def Obligations.StepRunsTheDecodedCommand : Prop :=
  (∀ (s : State) (w : BitVec 16) (rest : List HostAction), s.host = .write .cmd w :: rest →
    step s = exec (decodeWord s.cfg.opW w) { s with host := rest }) ∧
  (∀ (s : State) (nbits w : Nat), step (s.withFetchWord nbits w) = exec (decodeWord s.cfg.opW (BitVec.ofNat 16 w)) s) ∧
  (∀ v w : BitVec 16, v.extractLsb' 0 4 = w.extractLsb' 0 4 → decodeWord 4 v = decodeWord 4 w) ∧
  (∀ nbits w : Nat, 0 < nbits → decodeTableWord nbits w = some (decodeWord 4 (BitVec.ofNat 16 w)))

/-- 10_state R18, 20_memory R33, 70 R190: reading `CMD` gives 0, reading `STATUS` its word, writing `STATUS` does
nothing; the host presents streams; with nothing to do the core waits. -/
def Obligations.HostRegisterAndStreamAccess : Prop :=
  ∀ (s : State) (rest : List HostAction),
    (∀ w, s.host = .write .status w :: rest → step s = .next { s with host := rest }) ∧
    (s.host = .read .cmd :: rest → step s = .next { s with host := rest, rdata := 0 }) ∧
    (s.host = .read .status :: rest → step s = .next { s with host := rest, rdata := statusWord s }) ∧
    (∀ xs p later, s.host = .presentSource xs p later :: rest →
      step s = .next { s with host := rest, src := xs, pos := p, srcLater := later }) ∧
    (∀ xs c, s.host = .presentSink xs c :: rest → step s = .next { s with host := rest, out := xs, closed := c }) ∧
    (s.host = [] → step s = .next s)

/-- 10_state R20, 60_exceptions R170, R171, R179: the fields of `STATUS`, the error codes and their two classes, the
level outputs. -/
def Obligations.StatusWordFields : Prop :=
  (∀ s : State, s.cfg.Consistent →
    (statusWord s).getLsbD 0 = s.busy ∧ (statusWord s).getLsbD 1 = s.done ∧ (statusWord s).getLsbD 2 = s.fv ∧
    (statusWord s).getLsbD 3 = s.tv ∧ (statusWord s).getLsbD 4 = s.cv ∧ (statusWord s).extractLsb' 5 3 = 0 ∧
    ((statusWord s).extractLsb' 8 4).toNat = errCode s.err ∧ (statusWord s).extractLsb' 12 4 = s.phase ∧
    doneLine s = (statusWord s).getLsbD 1 ∧ (errLine s = true ↔ (statusWord s).extractLsb' 8 4 ≠ 0)) ∧
  [Err.none, .hdrMagic, .hdrEos, .hdrSym, .hdrCap, .hdrRoot, .payTrunc, .cntOvf, .noCode, .seq, .badCmd].map errCode =
    [0x0, 0x1, 0x2, 0x3, 0x4, 0x5, 0x6, 0x7, 0x8, 0x9, 0xA] ∧
  ∀ e : Err, (malformedHeader e = true ↔ 1 ≤ errCode e ∧ errCode e ≤ 5) ∧
    (truncatedPayload e = true ↔ errCode e = 6)

/-! ### Dispatch -/

/-- 10_state R19: "A write while BUSY = 1 is ignored", whichever the command; 46_commands R141: while an error is held every
command but `CLR` changes nothing at all. -/
def Obligations.BusyOrFaultedCoreIgnoresCommands : Prop :=
  ∀ (i : Instr) (s : State), isCommand i = true →
    (s.busy = true → exec i s = .next s) ∧ (i ≠ .clr → s.err ≠ .none → exec i s = .next s)

/-- 46_commands R150: `CLR`, whatever `ERR` is. -/
def Obligations.ClrClearsRegistersOnly : Prop :=
  ∀ s : State, s.busy = false → exec .clr s = .next
    { s with
      err := .none, done := false, fv := false, tv := false, cv := false, phase := 0, root := 0, nnode := 0, cur := 0,
      pkAcc := 0, pkCnt := 0, upAcc := 0, upCnt := 0, live := 0 }

/-- 46_commands R149: `NOP` does nothing but set `DONE` (between commands `PHASE` is 0, 46_commands R140), and is ignored
while an error is held. -/
def Obligations.NopSetsDone : Prop :=
  ∀ s : State, (Ready s → s.phase = 0 → exec .nop s = .next { s with done := true }) ∧
    (s.err ≠ .none → exec .nop s = .next s)

/-- 46_commands R143: a reserved opcode sets `ERR` to `BAD_CMD` and `DONE`, and changes nothing else. -/
def Obligations.ReservedOpcodesAreRefused : Prop :=
  ∀ s : State, Ready s → ∀ i ∈ [Instr.rsvdB, .rsvdC, .rsvdD, .rsvdE, .rsvdF],
    exec i s = .next { s with err := .badCmd, done := true }

/-- 46_commands R142: a unit whose input flag is 0 is refused with `SEQ`, nothing else changed. -/
def Obligations.MissingFlagIsRefused : Prop :=
  ∀ s : State, Ready s →
    (s.fv = false → exec .tbld s = .next { s with err := .seq, done := true }) ∧
    (s.tv = false → ∀ i ∈ [Instr.cgen, .hser, .sdec], exec i s = .next { s with err := .seq, done := true }) ∧
    (s.cv = false → exec .senc s = .next { s with err := .seq, done := true })

/-- 46_commands R144: after an accepted command `DONE` is 1, `BUSY` is 0 and `PHASE` is 0 again. -/
def Obligations.CommandEndsWithDone : Prop :=
  ∀ (i : Instr) (s t : State), isCommand i = true → i ≠ .clr → Ready s → s.phase = 0 → exec i s = .next t →
    t.done = true ∧ t.busy = false ∧ t.phase = 0

/-! ### Streams and bits -/

/-- 20_memory R36 to R38: bits and fields go out most significant first, codes first bit first; nothing else changes
but the packer and the sink. -/
def Obligations.PackerAppendsBitsInOrder : Prop :=
  ∀ s : State,
    (∀ b, ∃ t, putBit b s = t ∧ (s.closed = false → sinkBits t = sinkBits s ++ [b]) ∧
      t.pkCnt.toNat = (s.pkCnt.toNat + 1) % 8 ∧ (s.pkCnt ≠ 7#3 → t.out = s.out) ∧
      t = { s with pkAcc := t.pkAcc, pkCnt := t.pkCnt, out := t.out, events := t.events, freeIdx := t.freeIdx }) ∧
    (∀ n v, s.closed = false → sinkBits (putBits n v s) = sinkBits s ++ bitsOf n v) ∧
    (∀ k, s.closed = false → sinkBits (putCode k s) = sinkBits s ++ codeBits (codeAt s k)) ∧
    putBits 0 0 s = s

/-- 20_memory R39: `Flush` appends the 0 to 7 zero bits that complete the byte, empties the packer, does not close. -/
def Obligations.FlushCompletesTheByte : Prop :=
  ∀ s : State, s.pkAcc.toNat < 2 ^ s.pkCnt.toNat →
    (flush s).pkCnt = 0 ∧ (flush s).pkAcc = 0 ∧ (flush s).closed = s.closed ∧ (s.pkCnt = 0 → flush s = s) ∧
    (padding (sinkBits s).length).length ≤ 7 ∧
    (s.closed = false → bytesBits (flush s).out = sinkBits s ++ padding (sinkBits s).length)

/-- 20_memory R40, R41: `GetBit` and `GetBits` take the source's bits in order, most significant first; a byte is
fetched only when no bit waits; too few bits give `EOS` and are lost. -/
def Obligations.UnpackerTakesBitsInOrder : Prop :=
  ∀ s : State, s.upCnt.toNat ≤ 8 →
    (∀ b rest, sourceBits s = b :: rest → ∃ t, getBit s = (some b, t) ∧ sourceBits t = rest ∧ t.upCnt.toNat ≤ 7 ∧
      (s.upCnt ≠ 0#4 → t.pos = s.pos) ∧ (s.upCnt = 0#4 → t.pos = s.pos + 1) ∧
      t = { s with upAcc := t.upAcc, upCnt := t.upCnt, pos := t.pos, events := t.events }) ∧
    (sourceBits s = [] → getBit s = (none, { s with events := .read none :: s.events })) ∧
    (∀ bs rest, sourceBits s = bs ++ rest → ∃ t, getBits bs.length s = (some (valOf bs), t) ∧ sourceBits t = rest) ∧
    (∀ n, (sourceBits s).length < n → ∃ t, getBits n s = (none, t) ∧ sourceBits t = [])

/-- 20_memory R30, R32, 70 R197, R203: the four stream primitives. What a closed sink holds after a write is free
(log 7). -/
def Obligations.StreamPrimitives : Prop :=
  ∀ s : State,
    (∀ x rest, s.src.drop s.pos = x :: rest →
      srcReadByte s = (some x, { s with pos := s.pos + 1, events := .read (some x) :: s.events })) ∧
    (s.src.drop s.pos = [] → srcReadByte s = (none, { s with events := .read none :: s.events })) ∧
    (s.srcLater = [] → srcRewind s = { s with pos := 0, events := .rewind :: s.events }) ∧
    (∀ xs later, s.srcLater = xs :: later →
      srcRewind s = { s with src := xs, pos := 0, srcLater := later, events := .rewind :: s.events }) ∧
    (∀ b, s.closed = false → sinkWriteByte b s = { s with out := s.out ++ [b], events := .write b :: s.events }) ∧
    (∀ b, ∃ t, sinkWriteByte b s = t ∧
      t = { s with out := t.out, freeIdx := t.freeIdx, events := .write b :: s.events }) ∧
    sinkClose s = { s with closed := true, events := .close :: s.events }

/-! ### `FCNT` -/

/-- 40_frequency_counter R70 to R74, R76 to R78: the rest of the source is counted byte by byte, the sentinel's count is
1, the source is rewound, `FV` is set; the counts of the bytes add up to the number of bytes. -/
def Obligations.FcntCountsTheSource : Prop :=
  ∀ s : State, Ready s → Fits s → CountsFit s →
    ∃ t, exec .fcnt s = .next t ∧
      t = { s with
        freq := t.freq, fv := true, tv := false, cv := false, src := s.srcLater.headD s.src, pos := 0,
        srcLater := s.srcLater.tail,
        events := .rewind :: .read none :: (readEvents (s.src.drop s.pos) ++ s.events), phase := 0, done := true } ∧
      (∀ b : Byte, freqAt t b.toNat = restCount s b) ∧ freqAt t sentinel = 1 ∧
      ((List.range 256).map fun k => freqAt t k).sum = (s.src.drop s.pos).length

/-- 40_frequency_counter R75, R71: a byte that would pass the greatest count raises `CNT_OVF` before it is counted; the
source is not rewound and all three flags are 0. -/
def Obligations.FcntOverflowRaises : Prop :=
  ∀ s : State, Ready s → ¬ CountsFit s →
    ∃ t pre x post, exec .fcnt s = .next t ∧ s.src.drop s.pos = pre ++ x :: post ∧
      t = { s with
        freq := t.freq, fv := false, tv := false, cv := false, pos := s.pos + pre.length + 1,
        events := readEvents (pre ++ [x]) ++ s.events, err := .cntOvf, phase := 0, done := true } ∧
      freqAt t x.toNat = cntMax s.cfg ∧ ∀ b : Byte, freqAt t b.toNat = pre.count b

/-! ### `TBLD` -/

/-- 41_tree_builder R82, 10_state R23: `ExtractMin` takes the live handle that comes before every other live handle,
and clears its bit alone. -/
def Obligations.ExtractMinTakesTheFirst : Prop :=
  ∀ s : State, s.live < 2 ^ s.cfg.nodeCap →
    (∀ h, minLive s = some h ↔ FirstOf s (fun g => s.live.testBit g = true) h) ∧
    (minLive s = none ↔ ∀ g, s.live.testBit g = false) ∧
    (∀ h t, extractMin s = some (h, t) → minLive s = some h ∧ t = { s with live := t.live } ∧
      ∀ g, t.live.testBit g = (s.live.testBit g && decide (g ≠ h)))

/-- 41_tree_builder R80, R81, R83 to R86: the leaves in ascending symbol order from handle 0, then each internal node the
merge of the two first waiting nodes; the last node is the root; the tree is that of R12 and its root weighs the sum of
all counts; the entries above the tree are as they were. -/
def Obligations.TbldBuildsTheMergeTree : Prop :=
  ∀ s : State, Ready s → Fits s → s.fv = true → usedSymbols s ≠ [] →
    ∃ t T, exec .tbld s = .next t ∧
      t = { s with
        node := t.node, root := t.root, nnode := t.nnode, live := 0, tv := true, cv := false, phase := 0,
        done := true } ∧
      t.nnode = 2 * (usedSymbols s).length - 1 ∧ t.root = 2 * (usedSymbols s).length - 2 ∧
      (∀ i (hi : i < (usedSymbols s).length), nodeAt t i =
        leafNode (BitVec.ofNat 9 (usedSymbols s)[i]) (freqAt s (usedSymbols s)[i])) ∧
      (∀ h, (usedSymbols s).length ≤ h → h < 2 * (usedSymbols s).length - 1 → MergedAt t (usedSymbols s).length h) ∧
      (∀ h : Nat, t.nnode ≤ h → nodeAt t h = nodeAt s h) ∧
      TreeIn t T ∧ WeightsOk t T ∧ (leafSymbols (shapeOf T)).Perm (usedSymbols s) ∧
      (nodeAt t t.root).weight = ((List.range nsym).map fun k => freqAt s k).sum

/-- 41_tree_builder R88: the tree is a function of the counts alone. -/
def Obligations.TbldIsAFunctionOfTheCounts : Prop :=
  ∀ s s' t t' : State, Ready s → Ready s' → Fits s → Fits s' → s.fv = true → s'.fv = true → s.freq = s'.freq →
    exec .tbld s = .next t → exec .tbld s' = .next t' →
    t.root = t'.root ∧ t.nnode = t'.nnode ∧ ∀ h < t.nnode, nodeAt t h = nodeAt t' h

/-- 10_state R10, R12 (the model's stops, log 11): `TBLD` stops when no count is non-zero; `CGEN` and `HSER` stop only on
an arena that violates R12, and do stop where a node is its own left child. -/
def Obligations.StopsOnlyOnBrokenTables : Prop :=
  ∀ s : State, Ready s → Fits s →
    (s.fv = true → usedSymbols s = [] → exec .tbld s = .fault .noLiveNode) ∧
    (∀ i f, exec i s = .fault f →
      (f = .noLiveNode ∧ i = .tbld ∧ usedSymbols s = []) ∨
        (f = .walkNotFinite ∧ i ∈ [Instr.cgen, .hser] ∧ ¬ TreeOk s)) ∧
    (s.tv = true → (nodeAt s s.root).leaf = false → (nodeAt s s.root).left = s.root →
      exec .cgen s = .fault .walkNotFinite ∧ exec .hser s = .fault .walkNotFinite)

/-! ### `CGEN` -/

/-- 42_code_table_generator R90 to R94, R97: `CODE` becomes the table of the tree's paths, the last leaf of a symbol
counting; every other entry loses `valid` alone. -/
def Obligations.CgenBindsThePaths : Prop :=
  ∀ (s : State) (T : HTree), Ready s → s.tv = true → TreeIn s T →
    ∃ t, exec .cgen s = .next t ∧ t = { s with code := t.code, cv := true, phase := 0, done := true } ∧
      CodesOf t (shapeOf T) ∧
      ∀ k < nsym, keptPath (shapeOf T) k = none → codeAt t k = { codeAt s k with valid := false }

/-- 42_code_table_generator R95, 47_laws R161: no code of the table `CGEN` made is a prefix of another. -/
def Obligations.CodesArePrefixFree : Prop :=
  ∀ s t : State, Ready s → Fits s → s.tv = true → TreeOk s → exec .cgen s = .next t →
    ∀ a < nsym, ∀ b < nsym, a ≠ b → (codeAt t a).valid = true → (codeAt t b).valid = true →
      ¬ codeBits (codeAt t a) <+: codeBits (codeAt t b)

/-- 47_laws R163, 42_code_table_generator R96: after `FCNT; TBLD; CGEN` the sentinel has a code, whatever the input. -/
def Obligations.SentinelAlwaysHasACode : Prop :=
  ∀ s : State, Ready s → Fits s → CountsFit s →
    ∃ t, execAll [.fcnt, .tbld, .cgen] s = .next t ∧ t.err = .none ∧ (codeAt t sentinel).valid = true

/-! ### `HSER`, `SENC` -/

/-- 43_header_codec R100 to R105: the magic and the tree's header go out from an empty packer, with no flush and no
close; the packer keeps `(32 + 11 L - 1) mod 8` bits. -/
def Obligations.HserWritesMagicAndHeader : Prop :=
  ∀ (s : State) (T : HTree), Ready s → s.tv = true → TreeIn s T →
    ∃ t, exec .hser s = .next t ∧
      t = { s with
        pkAcc := t.pkAcc, pkCnt := t.pkCnt, out := t.out, events := t.events, freeIdx := t.freeIdx, phase := 0,
        done := true } ∧
      t.pkCnt.toNat = (32 + 11 * leafCount (shapeOf T) - 1) % 8 ∧
      (s.closed = false →
        sinkBits t = bytesBits s.out ++ (bitsOf 32 s.cfg.magic.toNat ++ shapeHeader (shapeOf T)))

/-- 30_encoding R50 to R54: what `HSER` does is to write the magic token and the header's tokens in pre-order. -/
def Obligations.HserWritesItsTokens : Prop :=
  ∀ (s : State) (T : HTree), Ready s → s.tv = true → TreeIn s T →
    ∃ t, execAll (.magic s.cfg.magic :: headerTokens (shapeOf T))
        { s with pkAcc := 0, pkCnt := 0, phase := 4, busy := true, done := false } = .next t ∧
      exec .hser s = .next { t with phase := 0, busy := false, done := true }

/-- 44_stream_encoder R120 to R122, R124, 30_encoding R56, R57: every byte's code in order, the sentinel's code, the
padding, the close. -/
def Obligations.SencEncodesTheSource : Prop :=
  ∀ s : State, Ready s → s.cv = true → s.pkAcc.toNat < 2 ^ s.pkCnt.toNat →
    (∀ x ∈ s.src.drop s.pos, (codeAt s x.toNat).valid = true) → (codeAt s sentinel).valid = true →
    ∃ t, exec .senc s = .next t ∧
      t = { s with
        pkAcc := 0, pkCnt := 0, pos := s.pos + (s.src.drop s.pos).length, out := t.out, closed := true,
        events := t.events, freeIdx := t.freeIdx, phase := 0, done := true } ∧
      (s.closed = false → bytesBits t.out = sinkBits s ++ payloadBits s (s.src.drop s.pos) ++
        padding (sinkBits s ++ payloadBits s (s.src.drop s.pos)).length)

/-- 44_stream_encoder R123, R124: the first byte without a code, or the sentinel without one, raises `NO_CODE` after
the output is completed and closed; the source stands just after that byte. -/
def Obligations.SencRaisesNoCode : Prop :=
  ∀ s : State, Ready s → s.cv = true → s.pkAcc.toNat < 2 ^ s.pkCnt.toNat →
    (∀ pre x post, s.src.drop s.pos = pre ++ x :: post → (∀ y ∈ pre, (codeAt s y.toNat).valid = true) →
      (codeAt s x.toNat).valid = false →
      ∃ t, exec .senc s = .next t ∧
        t = { s with
          pkAcc := 0, pkCnt := 0, pos := s.pos + pre.length + 1, out := t.out, closed := true, events := t.events,
          freeIdx := t.freeIdx, err := .noCode, phase := 0, done := true } ∧
        (s.closed = false → bytesBits t.out = sinkBits s ++ (pre.flatMap fun y => codeBits (codeAt s y.toNat)) ++
          padding (sinkBits s ++ (pre.flatMap fun y => codeBits (codeAt s y.toNat))).length)) ∧
    ((∀ x ∈ s.src.drop s.pos, (codeAt s x.toNat).valid = true) → (codeAt s sentinel).valid = false →
      ∃ t, exec .senc s = .next t ∧
        t = { s with
          pkAcc := 0, pkCnt := 0, pos := s.pos + (s.src.drop s.pos).length, out := t.out, closed := true,
          events := t.events, freeIdx := t.freeIdx, err := .noCode, phase := 0, done := true } ∧
        (s.closed = false →
          bytesBits t.out = sinkBits s ++ ((s.src.drop s.pos).flatMap fun y => codeBits (codeAt s y.toNat)) ++
            padding (sinkBits s ++ ((s.src.drop s.pos).flatMap fun y => codeBits (codeAt s y.toNat))).length))

/-! ### `HDES` -/

/-- 43_header_codec R108 to R110, R113, R117, R118: after the magic and the header of any tree that fits, followed by any
bits, the arena holds that tree in pre-order, every weight 0, and exactly those bits have been consumed. -/
def Obligations.HdesRebuildsTheTree : Prop :=
  ∀ (s : State) (sh : Shape) (rest : List Bool), Ready s → Fits s →
    restBits s = bitsOf 32 s.cfg.magic.toNat ++ (shapeHeader sh ++ rest) → symbolsOk sh → shapeSize sh ≤ s.cfg.nodeCap →
    ∃ t T, exec .hdes s = .next t ∧
      t = { s with
        node := t.node, root := 0, nnode := t.nnode, tv := true, cv := false, upAcc := t.upAcc, upCnt := t.upCnt,
        pos := t.pos, events := t.events, phase := 0, done := true } ∧
      shapeOf T = sh ∧ TreeIn t T ∧ BareTree t T ∧
      treeHandles T = List.range (shapeSize sh) ∧ t.nnode = shapeSize sh ∧
      sourceBits t = rest ∧ t.upCnt.toNat = (8 - (32 + 11 * leafCount sh - 1) % 8) % 8

/-- 43_header_codec R111, 47_laws R164: any other first 32 bits, or fewer bits, raise `HDR_MAGIC`; at most four bytes are
read, no node is written, the sink is untouched. -/
def Obligations.HdesRejectsAnotherMagic : Prop :=
  ∀ s : State, Ready s → ¬ bitsOf 32 s.cfg.magic.toNat <+: restBits s →
    ∃ t, exec .hdes s = .next t ∧ t.pos ≤ s.pos + 4 ∧
      t = { s with
        tv := false, cv := false, root := t.root, nnode := t.nnode, upAcc := t.upAcc, upCnt := t.upCnt, pos := t.pos,
        events := t.events, err := .hdrMagic, phase := 0, done := true }

/-- 43_header_codec R112, R109: a source that ends at a marker or inside a symbol, the tree not complete, raises
`HDR_EOS`, the arena full too (after `NODE_CAP` nodes). -/
def Obligations.HdesRaisesEndOfHeader : Prop :=
  ∀ (s : State) (ts : List Instr) (tail : List Bool), Ready s → Fits s → HeaderTokens ts → stillOpen 1 ts = true →
    restBits s = bitsOf 32 s.cfg.magic.toNat ++ (ts.flatMap encode ++ tail) →
    (tail = [] ∧ ts.length ≤ s.cfg.nodeCap ∨
      (∃ part, tail = true :: part ∧ part.length < 9) ∧ ts.length < s.cfg.nodeCap) →
    ∃ t, exec .hdes s = .next t ∧ t.err = .hdrEos

/-- 43_header_codec R114, R115, 30_encoding R60: a leaf token with a symbol 257..511 raises `HDR_SYM`, the marker of one
node more than `NODE_CAP` raises `HDR_CAP`. -/
def Obligations.HdesRejectsSymbolsAndNodesOutOfRange : Prop :=
  ∀ (s : State) (ts : List Instr) (rest : List Bool), Ready s → Fits s → HeaderTokens ts → stillOpen 1 ts = true →
    (∀ sym : Sym, ts.length < s.cfg.nodeCap → sentinel < sym.toNat →
      restBits s = bitsOf 32 s.cfg.magic.toNat ++ (ts.flatMap encode ++ (encode (.hdrLeafRsvd sym) ++ rest)) →
      ∃ t, exec .hdes s = .next t ∧ t.err = .hdrSym) ∧
    (∀ b : Bool, ts.length = s.cfg.nodeCap →
      restBits s = bitsOf 32 s.cfg.magic.toNat ++ (ts.flatMap encode ++ b :: rest) →
      ∃ t, exec .hdes s = .next t ∧ t.err = .hdrCap)

/-- 43_header_codec R116, 60_exceptions R178: `HDES` always ends; after a fault, one of four, `TV` and `CV` are 0 and the
sink, the packer, the counts, the codes and the nodes from `nnode` on are untouched. -/
def Obligations.HdesFaultLeavesFlagsClear : Prop :=
  ∀ s : State, Ready s → Fits s →
    ∃ t, exec .hdes s = .next t ∧
      t = { s with
        node := t.node, root := t.root, nnode := t.nnode, tv := t.tv, cv := false, upAcc := t.upAcc, upCnt := t.upCnt,
        pos := t.pos, events := t.events, err := t.err, phase := 0, done := true } ∧
      (t.tv = true ↔ t.err = .none) ∧
      (∀ h : Nat, t.nnode ≤ h → nodeAt t h = nodeAt s h) ∧
      (t.err = .none ∨ t.err = .hdrMagic ∨ t.err = .hdrEos ∨ t.err = .hdrSym ∨ t.err = .hdrCap)

/-! ### `SDEC` -/

/-- 45_stream_decoder R131: a lone leaf is looked at before any bit is read: the sentinel ends with success, another
leaf is `HDR_ROOT`; the sink is closed and nothing is written. -/
def Obligations.SdecChecksALoneLeafFirst : Prop :=
  ∀ s : State, Ready s → s.tv = true → (nodeAt s s.root).leaf = true →
    exec .sdec s = .next
      { s with
        err := if (nodeAt s s.root).sym.toNat = sentinel then .none else .hdrRoot, closed := true,
        events := .close :: s.events, phase := 0, done := true }

/-- 45_stream_decoder R130, R133 to R136: paths of byte leaves and then the path of a sentinel leaf decode to those
bytes; nothing after the sentinel is read. -/
def Obligations.SdecDecodesToTheSentinel : Prop :=
  ∀ (s : State) (T : HTree) (ls : List (List Bool × Sym)) (p : List Bool) (sym : Sym) (rest : List Bool),
    Ready s → s.tv = true → TreeIn s T → s.upCnt.toNat ≤ 8 → ByteLeaves (shapeOf T) ls →
    (p, sym) ∈ shapeLeaves (shapeOf T) → sym.toNat = sentinel → sourceBits s = leafBits ls ++ (p ++ rest) →
    ∃ t, exec .sdec s = .next t ∧
      t = { s with
        cur := t.cur, upAcc := t.upAcc, upCnt := t.upCnt, pos := t.pos, out := t.out, closed := true,
        events := t.events, freeIdx := t.freeIdx, phase := 0, done := true } ∧
      sourceBits t = rest ∧ (s.closed = false → t.out = s.out ++ leafBytes ls)

/-- 45_stream_decoder R132, R138: bits that run out before a leaf is reached raise `PAY_TRUNC`; the bytes decoded so far
stay sent and the sink is closed. -/
def Obligations.SdecRaisesPayloadTruncated : Prop :=
  ∀ (s : State) (T : HTree) (ls : List (List Bool × Sym)) (q : List Bool),
    Ready s → s.tv = true → TreeIn s T → s.upCnt.toNat ≤ 8 → ByteLeaves (shapeOf T) ls → NoLeafIn (shapeOf T) q →
    sourceBits s = leafBits ls ++ q →
    ∃ t, exec .sdec s = .next t ∧
      t = { s with
        cur := t.cur, upAcc := t.upAcc, upCnt := t.upCnt, pos := t.pos, out := t.out, closed := true,
        events := t.events, freeIdx := t.freeIdx, err := .payTrunc, phase := 0, done := true } ∧
      sourceBits t = [] ∧ (s.closed = false → t.out = s.out ++ leafBytes ls)

/-- 45_stream_decoder R138: in any state `SDEC` ends, on success and on both faults, with the sink closed. -/
def Obligations.SdecClosesOnEveryPath : Prop :=
  ∀ s : State, Ready s → s.tv = true →
    ∃ t, exec .sdec s = .next t ∧ t.closed = true ∧ (t.err = .none ∨ t.err = .payTrunc ∨ t.err = .hdrRoot) ∧
      t = { s with
        cur := t.cur, upAcc := t.upAcc, upCnt := t.upCnt, pos := t.pos, out := t.out, closed := true,
        events := t.events, freeIdx := t.freeIdx, err := t.err, phase := 0, done := true }

/-! ### `COMP`, `DECOMP` -/

/-- 46_commands R145, 30_encoding R50 to R58, 70 R196, R197: with every byte `xs` of the second pass counted in the first
(as when the source does not change), `COMP` leaves the container of `xs` in the sink, closed, and the tables of the
first pass. -/
def Obligations.CompWritesTheContainer : Prop :=
  ∀ (s : State) (xs : List Byte), Ready s → Fits s → CountsFit s → xs = s.srcLater.headD s.src →
    (∀ x ∈ xs, x ∈ s.src.drop s.pos) →
    ∃ t T, exec .comp s = .next t ∧
      t = { s with
        freq := t.freq, node := t.node, code := t.code, fv := true, tv := true, cv := true, root := t.root,
        nnode := t.nnode, live := 0, pkAcc := 0, pkCnt := 0, src := xs, pos := xs.length,
        srcLater := s.srcLater.tail, out := t.out, closed := true, events := t.events, freeIdx := t.freeIdx,
        phase := 0, done := true } ∧
      (∀ b : Byte, freqAt t b.toNat = restCount s b) ∧ freqAt t sentinel = 1 ∧
      TreeIn t T ∧ WeightsOk t T ∧ (leafSymbols (shapeOf T)).Perm (usedSymbols t) ∧ CodesOf t (shapeOf T) ∧
      (s.closed = false →
        bytesBits t.out = bytesBits s.out ++ containerBits s.cfg.magic (shapeOf T) (payloadBits t xs))

/-- 46_commands R146: the two other ends of `COMP`. An overflow leaves the sink closed and with nothing written; a byte of
the second pass that was not counted is `NO_CODE`, the sink closed. -/
def Obligations.CompClosesOnItsFaults : Prop :=
  ∀ s : State, Ready s → Fits s →
    (¬ CountsFit s →
      ∃ t, exec .comp s = .next t ∧ t.err = .cntOvf ∧ t.closed = true ∧ t.out = s.out ∧ t.fv = false) ∧
    (CountsFit s → (∃ x ∈ s.srcLater.headD s.src, x ∉ s.src.drop s.pos) →
      ∃ t, exec .comp s = .next t ∧ t.err = .noCode ∧ t.closed = true ∧ t.pkCnt = 0)

/-- 46_commands R147: a container's magic, header and payload decode to the payload's bytes; what follows the sentinel
is not read. (For a lone sentinel leaf `ls` and `p` are empty.) -/
def Obligations.DecompDecodesTheContainer : Prop :=
  ∀ (s : State) (sh : Shape) (ls : List (List Bool × Sym)) (p : List Bool) (sym : Sym) (rest : List Bool),
    Ready s → Fits s → symbolsOk sh → shapeSize sh ≤ s.cfg.nodeCap → ByteLeaves sh ls →
    (p, sym) ∈ shapeLeaves sh →
    sym.toNat = sentinel →
    restBits s = bitsOf 32 s.cfg.magic.toNat ++ (shapeHeader sh ++ (leafBits ls ++ (p ++ rest))) →
    ∃ t T, exec .decomp s = .next t ∧
      t = { s with
        node := t.node, root := 0, nnode := t.nnode, tv := true, cv := false, cur := t.cur, upAcc := t.upAcc,
        upCnt := t.upCnt, pos := t.pos, out := t.out, closed := true, events := t.events, freeIdx := t.freeIdx,
        phase := 0, done := true } ∧
      TreeIn t T ∧ shapeOf T = sh ∧ sourceBits t = rest ∧ (s.closed = false → t.out = s.out ++ leafBytes ls)

/-- 46_commands R148, 47_laws R164, R165: a header fault of `DECOMP` writes nothing and closes the sink; a payload that
ends before the sentinel is `PAY_TRUNC`, with the bytes decoded so far sent. -/
def Obligations.DecompClosesOnItsFaults : Prop :=
  ∀ s : State, Ready s → Fits s →
    (∀ t, exec .decomp s = .next t → malformedHeader t.err = true → t.closed = true ∧ t.out = s.out) ∧
    (¬ bitsOf 32 s.cfg.magic.toNat <+: restBits s →
      ∃ t, exec .decomp s = .next t ∧ t.err = .hdrMagic ∧ t.closed = true ∧ t.out = s.out ∧ t.pos ≤ s.pos + 4) ∧
    (∀ (l r : Shape) ls q, symbolsOk (.branch l r) → shapeSize (.branch l r) ≤ s.cfg.nodeCap →
      ByteLeaves (.branch l r) ls →
      NoLeafIn (.branch l r) q →
      restBits s = bitsOf 32 s.cfg.magic.toNat ++ (shapeHeader (.branch l r) ++ (leafBits ls ++ q)) →
      ∃ t, exec .decomp s = .next t ∧ t.err = .payTrunc ∧ t.closed = true ∧
        (s.closed = false → t.out = s.out ++ leafBytes ls))

/-- 46_commands R151: a macro that ends without a fault is its units one after another, to the same state and the same
stream events; after a fault of the first unit the macro differs only by the close, and the later units are ignored. -/
def Obligations.MacrosAreTheirUnits : Prop :=
  ∀ s t : State, Ready s →
    (t.err = .none →
      (exec .comp s = .next t → execAll [.fcnt, .tbld, .cgen, .hser, .senc] s = .next t) ∧
      (exec .decomp s = .next t → execAll [.hdes, .sdec] s = .next t)) ∧
    (t.err ≠ .none →
      (exec .fcnt s = .next t →
        exec .comp s = .next (sinkClose t) ∧ execAll [.fcnt, .tbld, .cgen, .hser, .senc] s = .next t) ∧
      (exec .hdes s = .next t → exec .decomp s = .next (sinkClose t) ∧ execAll [.hdes, .sdec] s = .next t))

/-- 47_laws R169: the errors a macro can end with; `COMP` only 0 or `CNT_OVF` when the source does not change; `SEQ` and
`BAD_CMD` come only from a unit command whose flag is missing and from reserved opcodes. -/
def Obligations.MacrosEndWithTheirOwnErrors : Prop :=
  ∀ s : State, Ready s → Fits s →
    (s.pos = 0 → s.srcLater = [] → ∃ t, exec .comp s = .next t ∧ (t.err = .none ∨ t.err = .cntOvf)) ∧
    (∃ t, exec .decomp s = .next t ∧ (t.err = .none ∨ t.err = .hdrMagic ∨ t.err = .hdrEos ∨ t.err = .hdrCap ∨
      t.err = .hdrSym ∨ t.err = .hdrRoot ∨ t.err = .payTrunc)) ∧
    (∀ i t, exec i s = .next t →
      (t.err = .seq → (i = .tbld ∧ s.fv = false) ∨ (i ∈ [Instr.cgen, .hser, .sdec] ∧ s.tv = false) ∨
        (i = .senc ∧ s.cv = false)) ∧
      (t.err = .badCmd → i ∈ [Instr.rsvdB, .rsvdC, .rsvdD, .rsvdE, .rsvdF]))

/-- 46_commands R145, R146, R148, 20_memory R44: on every exit path of a macro the sink has been closed exactly once, after
the last byte; a successful `COMP` has read its source to the end, rewound once, and read to the end again. -/
def Obligations.MacroStreamEvents : Prop :=
  ∀ s t : State, Ready s → Fits s → s.closed = false →
    (exec .comp s = .next t ∨ exec .decomp s = .next t →
      ∃ ws, t.out = s.out ++ ws ∧ sinkEvents t.events = .close :: (writeEvents ws ++ sinkEvents s.events)) ∧
    (exec .comp s = .next t → t.err = .none →
      sourceEvents t.events = .read none :: (readEvents (s.srcLater.headD s.src) ++
        .rewind :: .read none :: (readEvents (s.src.drop s.pos) ++ sourceEvents s.events)))

/-! ### The laws -/

/-- 47_laws R160: what `COMP` makes of any countable input, `DECOMP` turns back into it, both sinks closed, for any
magic the two runs share. -/
def Obligations.DecompressionUndoesCompression : Prop :=
  ∀ (s : State) (xs : List Byte), FreshRun s xs → CountsFit s →
    ∃ t, exec .comp s = .next t ∧ t.err = .none ∧ t.closed = true ∧
      ∀ d : State, FreshRun d t.out → d.cfg.magic = s.cfg.magic →
        ∃ u, exec .decomp d = .next u ∧ u.err = .none ∧ u.out = xs ∧ u.closed = true

/-- 47_laws R166: a container cut short by any number of bytes is never taken for a whole one. -/
def Obligations.EveryProperPrefixFails : Prop :=
  ∀ (s t : State) (xs cut : List Byte), FreshRun s xs → CountsFit s → exec .comp s = .next t →
    cut <+: t.out → cut ≠ t.out →
    ∀ d : State, FreshRun d cut → d.cfg.magic = s.cfg.magic →
      ∃ u, exec .decomp d = .next u ∧ (u.err = .hdrMagic ∨ u.err = .hdrEos ∨ u.err = .payTrunc)

/-- 47_laws R168: two cores with the same magic make the same container of the same input, whatever else they hold, the
other parameters of 00_scope R5 included. -/
def Obligations.CompIsAFunctionOfInputAndMagic : Prop :=
  ∀ (s s' t t' : State) (xs : List Byte), FreshRun s xs → FreshRun s' xs → CountsFit s → CountsFit s' →
    s.cfg.magic = s'.cfg.magic → exec .comp s = .next t → exec .comp s' = .next t' → t.out = t'.out

/-- 47_laws R167, 44_stream_encoder R125: the container of the empty input is the magic and `C0 00`, and decodes to
nothing. -/
def Obligations.EmptyInputMakesSixBytes : Prop :=
  ∀ s : State, FreshRun s [] →
    ∃ t, exec .comp s = .next t ∧ t.err = .none ∧
      t.out = [s.cfg.magic.extractLsb' 24 8, s.cfg.magic.extractLsb' 16 8, s.cfg.magic.extractLsb' 8 8,
        s.cfg.magic.extractLsb' 0 8, 0xC0, 0x00] ∧
      ∀ d : State, FreshRun d t.out → d.cfg.magic = s.cfg.magic →
        ∃ u, exec .decomp d = .next u ∧ u.err = .none ∧ u.out = []

/-- 42_code_table_generator R98, 47_laws R162: the header of a built tree, read back by another core with any bits after
it, gives the same code table. -/
def Obligations.HeaderRoundTripKeepsTheCodes : Prop :=
  ∀ s : State, Ready s → Fits s → s.fv = true → usedSymbols s ≠ [] → s.out = [] → s.closed = false →
    ∃ a b, execAll [.tbld, .cgen] s = .next a ∧ exec .hser a = .next b ∧
      ∀ (d : State) (more : List Bool), Ready d → Fits d → d.cfg.magic = s.cfg.magic → restBits d = sinkBits b ++ more →
        ∃ e, execAll [.hdes, .cgen] d = .next e ∧
          ∀ k < nsym, (codeAt e k).valid = (codeAt a k).valid ∧
            ((codeAt a k).valid = true → codeAt e k = codeAt a k)

/-! ### Tokens -/

/-- 30_encoding R50 to R57 (which unit writes which token; that a token is an instruction is the model's form, log 9):
in the unit that writes it a token appends its bits, and changes nothing but the packer and the sink. -/
def Obligations.WrittenTokensAppendTheirBits : Prop :=
  ∀ (i : Instr) (s : State), i.wf s.cfg = true →
    (match i with
      | .magic _ | .hdrBranch | .hdrLeaf _ => s.phase = 4#4
      | .payloadCode _ | .pad _ => s.phase = 5#4
      | _ => False) →
    ∃ t, exec i s = .next t ∧ (s.closed = false → sinkBits t = sinkBits s ++ encode i) ∧
      t = { s with pkAcc := t.pkAcc, pkCnt := t.pkCnt, out := t.out, events := t.events, freeIdx := t.freeIdx }

/-- 43_header_codec R108, R111, R114, R115, 30_encoding R60 (the model's form, log 9): what a token whose bits `HDES` has
read does. -/
def Obligations.HeaderTokensReadByHdes : Prop :=
  ∀ s : State, s.phase = 6#4 → Fits s →
    (∀ m, exec (.magic m) s = .next
      (if m = s.cfg.magic then s else { s with err := .hdrMagic, phase := 0, done := true, busy := false })) ∧
    (s.nnode < s.cfg.nodeCap →
      (∃ t, exec .hdrBranch s = .next t ∧ nodeAt t s.nnode = innerNode 0 0 0 ∧
        (∀ h, h ≠ s.nnode → nodeAt t h = nodeAt s h) ∧ t = { s with node := t.node, nnode := s.nnode + 1 }) ∧
      (∀ sym : Sym, sym.toNat ≤ sentinel →
        ∃ t, exec (.hdrLeaf sym) s = .next t ∧ nodeAt t s.nnode = leafNode sym 0 ∧
          (∀ h, h ≠ s.nnode → nodeAt t h = nodeAt s h) ∧ t = { s with node := t.node, nnode := s.nnode + 1 }) ∧
      (∀ sym : Sym, sentinel < sym.toNat → exec (.hdrLeafRsvd sym) s = .next
        { s with nnode := s.nnode + 1, err := .hdrSym, phase := 0, done := true, busy := false })) ∧
    (s.nnode = s.cfg.nodeCap → ∀ sym : Sym, ∀ i ∈ [Instr.hdrBranch, .hdrLeaf sym, .hdrLeafRsvd sym],
      exec i s = .next { s with err := .hdrCap, phase := 0, done := true, busy := false })

/-- 45_stream_decoder R131, R133 to R136, 30_encoding R61 (the model's form, log 9): what a code whose bits `SDEC` has read
from the root does; and a token in a phase that neither writes nor reads it does nothing. -/
def Obligations.PayloadCodesReadBySdec : Prop :=
  (∀ (s : State) (T : HTree) (p : List Bool) (sym : Sym), s.phase = 7#4 → TreeIn s T → s.cur = s.root →
    (p, sym) ∈ shapeLeaves (shapeOf T) →
    (sym.toNat = sentinel → ∃ t, exec (.payloadCode p) s = .next t ∧
      t = { s with cur := t.cur, closed := true, events := .close :: s.events, phase := 0, done := true, busy := false }) ∧
    (sym.toNat ≠ sentinel → p ≠ [] → ∃ t, exec (.payloadCode p) s = .next t ∧
      t = { s with out := t.out, events := .write (outByte sym) :: s.events, freeIdx := t.freeIdx } ∧
      (s.closed = false → t.out = s.out ++ [outByte sym])) ∧
    (sym.toNat ≠ sentinel → p = [] → exec (.payloadCode p) s = .next
      { s with closed := true, events := .close :: s.events, err := .hdrRoot, phase := 0, done := true,
               busy := false })) ∧
  (∀ (i : Instr) (s : State), isCommand i = false →
    (match i with
      | .magic _ | .hdrBranch | .hdrLeaf _ => s.phase ≠ 4#4 ∧ s.phase ≠ 6#4
      | .hdrLeafRsvd _ => s.phase ≠ 6#4
      | .payloadCode _ => s.phase ≠ 5#4 ∧ s.phase ≠ 7#4
      | _ => s.phase ≠ 5#4) →
    exec i s = .next s)

/-! ### Frames -/

/-- 46_commands R152: what `FCNT`, `TBLD` and `CGEN` leave unchanged, whichever way they end. -/
def Obligations.FrameOfTableUnits : Prop :=
  ∀ s t : State,
    (exec .fcnt s = .next t → t = { s with
      freq := t.freq, fv := t.fv, tv := t.tv, cv := t.cv, src := t.src, pos := t.pos, srcLater := t.srcLater,
      events := t.events, err := t.err, phase := t.phase, done := t.done }) ∧
    (exec .tbld s = .next t → t = { s with
      node := t.node, root := t.root, nnode := t.nnode, live := t.live, tv := t.tv, cv := t.cv, err := t.err,
      phase := t.phase, done := t.done }) ∧
    (exec .cgen s = .next t → t = { s with
      code := t.code, cv := t.cv, err := t.err, phase := t.phase, done := t.done })

/-- 46_commands R152: what the units and macros that touch the streams leave unchanged, whichever way they end. -/
def Obligations.FrameOfStreamCommands : Prop :=
  ∀ s t : State,
    (exec .hser s = .next t → t = { s with
      pkAcc := t.pkAcc, pkCnt := t.pkCnt, out := t.out, events := t.events, freeIdx := t.freeIdx, err := t.err,
      phase := t.phase, done := t.done }) ∧
    (exec .senc s = .next t → t = { s with
      pkAcc := t.pkAcc, pkCnt := t.pkCnt, pos := t.pos, out := t.out, closed := t.closed, events := t.events,
      freeIdx := t.freeIdx, err := t.err, phase := t.phase, done := t.done }) ∧
    (exec .hdes s = .next t → t = { s with
      node := t.node, root := t.root, nnode := t.nnode, tv := t.tv, cv := t.cv, upAcc := t.upAcc, upCnt := t.upCnt,
      pos := t.pos, events := t.events, err := t.err, phase := t.phase, done := t.done }) ∧
    (exec .sdec s = .next t → t = { s with
      cur := t.cur, upAcc := t.upAcc, upCnt := t.upCnt, pos := t.pos, out := t.out, closed := t.closed,
      events := t.events, freeIdx := t.freeIdx, err := t.err, phase := t.phase, done := t.done }) ∧
    (exec .comp s = .next t → t = { s with
      freq := t.freq, node := t.node, code := t.code, fv := t.fv, tv := t.tv, cv := t.cv, root := t.root,
      nnode := t.nnode, live := t.live, pkAcc := t.pkAcc, pkCnt := t.pkCnt, src := t.src, pos := t.pos,
      srcLater := t.srcLater, out := t.out, closed := t.closed, events := t.events, freeIdx := t.freeIdx,
      err := t.err, phase := t.phase, done := t.done }) ∧
    (exec .decomp s = .next t → t = { s with
      node := t.node, root := t.root, nnode := t.nnode, tv := t.tv, cv := t.cv, cur := t.cur, upAcc := t.upAcc,
      upCnt := t.upCnt, pos := t.pos, out := t.out, closed := t.closed, events := t.events, freeIdx := t.freeIdx,
      err := t.err, phase := t.phase, done := t.done })

/-- 46_commands R149, R150, R143, R152; the tokens by log 9: what the system commands, the reserved codes and the tokens
leave unchanged, whichever way they end. -/
def Obligations.FrameOfSystemCommandsAndTokens : Prop :=
  ∀ s t : State,
    (∀ i ∈ [Instr.nop, .rsvdB, .rsvdC, .rsvdD, .rsvdE, .rsvdF], exec i s = .next t →
      t = { s with err := t.err, phase := t.phase, done := t.done }) ∧
    (exec .clr s = .next t → t = { s with
      err := t.err, done := t.done, fv := t.fv, tv := t.tv, cv := t.cv, phase := t.phase, root := t.root,
      nnode := t.nnode, cur := t.cur, pkAcc := t.pkAcc, pkCnt := t.pkCnt, upAcc := t.upAcc, upCnt := t.upCnt,
      live := t.live }) ∧
    (∀ m sym, ∀ i ∈ [Instr.magic m, .hdrBranch, .hdrLeaf sym, .hdrLeafRsvd sym], exec i s = .next t →
      t = { s with
        node := t.node, nnode := t.nnode, pkAcc := t.pkAcc, pkCnt := t.pkCnt, out := t.out, events := t.events,
        freeIdx := t.freeIdx, err := t.err, phase := t.phase, done := t.done, busy := t.busy }) ∧
    (∀ c n, ∀ i ∈ [Instr.payloadCode c, .pad n], exec i s = .next t →
      t = { s with
        pkAcc := t.pkAcc, pkCnt := t.pkCnt, cur := t.cur, out := t.out, closed := t.closed, events := t.events,
        freeIdx := t.freeIdx, err := t.err, phase := t.phase, done := t.done, busy := t.busy })

/-! ### Encodings -/

/-- 30_encoding R51 to R64: words and tokens written out by hand decode to their instructions. -/
def Obligations.HandWrittenWordsDecode : Prop :=
  decodeTableWord 8 0x0 = some .nop ∧ decodeTableWord 8 0x1 = some .fcnt ∧ decodeTableWord 8 0x9 = some .decomp ∧
    decodeTableWord 8 0xA = some .clr ∧ decodeTableWord 8 0xF = some .rsvdF ∧ decodeWord 4 0xFFF3 = .cgen ∧
    decode .magic [true, true, true, true, true, false, true, false, true, true, false, false, true, true, true, false,
      true, false, false, false, false, false, true, false, false, false, false, false, false, false, false, true] =
      .ok (.magic 0xFACE8201, []) ∧
    decode .header [false, true] = .ok (.hdrBranch, [true]) ∧
    decode .header [true, false, false, true, false, false, false, false, false, true] = .ok (.hdrLeaf 0x41, []) ∧
    decode .header [true, true, false, false, false, false, false, false, false, false] = .ok (.hdrLeaf 256, []) ∧
    decode .header [true, true, false, false, false, false, false, false, false, true] = .ok (.hdrLeafRsvd 257, []) ∧
    decode (.payload [[true], [false, false], [false, true]]) [false, true, true] =
      .ok (.payloadCode [false, true], [true]) ∧
    decode (.padding 1) [false] = .ok (.pad 1, [])

/-- Decoding undoes encoding: every well-formed instruction, in any place where it may stand, is read back from its bits,
with the bits after it untouched (30_encoding R50 to R64; a payload code where the tree's paths make it one, R61). -/
def Obligations.DecodingUndoesEncoding : Prop :=
  ∀ (c : Config) (r : Region) (i : Instr) (rest : List Bool), i.wf c = true → fits r i = true →
    decode r (encode i ++ rest) = .ok (i, rest)

/-! ### The invariant -/

/-- The invariant holds after reset: with the values of 00_scope R5 the parameters fit together, every place holds a value
of its width, and the rest of the invariant holds. -/
def Obligations.ResetMeetsTheInvariant : Prop := Inv State.reset

/-- 10_state R10, R12, R15, R17, R21 to R23 together: from every state that meets the invariant the machine steps, and
the next state meets it: every place holds a value of its width (00_scope R5, R6), `BUSY` and `PHASE` 0 between
commands, an empty queue, sound buffers, `FV` only with a sentinel count, `TV` only with a finite tree, `CV` only with that
tree's codes. -/
def Obligations.StepKeepsTheInvariant : Prop :=
  ∀ s : State, Inv s → ∃ t, step s = .next t ∧ Inv t

/-- 46_commands R154, 00_scope R5: no step changes the build-time parameters. -/
def Obligations.StepKeepsTheConfiguration : Prop :=
  ∀ s t : State, step s = .next t → t.cfg = s.cfg
end

