-- ==== Sys2Proof/Laws/Bits.lean ====
section
/-! SUPPORT. Bit strings and their value forms, and values in places of a width (spec 00_scope R6). -/

namespace Sys2Proof

@[simp] theorem bitsOf_length (n v : Nat) : (bitsOf n v).length = n := by
  induction n with
  | zero => rfl
  | succ n ih => simp [bitsOf, ih]

theorem valFrom_eq (a : Nat) (bs : List Bool) : valFrom a bs = a * 2 ^ bs.length + valOf bs := by
  induction bs generalizing a with
  | nil => simp [valFrom, valOf]
  | cons b bs ih =>
    simp only [valOf, valFrom, List.length_cons, pow_succ]
    rw [ih, ih (2 * 0 + b.toNat)]
    ring

theorem valOf_cons (b : Bool) (bs : List Bool) : valOf (b :: bs) = b.toNat * 2 ^ bs.length + valOf bs := by
  simp [valOf, valFrom, valFrom_eq b.toNat]

theorem valOf_append (xs ys : List Bool) : valOf (xs ++ ys) = valOf xs * 2 ^ ys.length + valOf ys := by
  induction xs with
  | nil => simp [valOf, valFrom]
  | cons b xs ih =>
    simp only [List.cons_append, valOf_cons, List.length_append, pow_add, ih]
    ring

theorem valOf_lt (bs : List Bool) : valOf bs < 2 ^ bs.length := by
  induction bs with
  | nil => simp [valOf, valFrom]
  | cons b bs ih =>
    rw [valOf_cons, List.length_cons, pow_succ]
    cases b <;> simp <;> omega

/-- Only the low `n` bits matter to `bitsOf n`. -/
theorem bitsOf_congr {n v w : Nat} (h : ∀ i < n, v.testBit i = w.testBit i) : bitsOf n v = bitsOf n w := by
  induction n with
  | zero => rfl
  | succ n ih =>
    simp only [bitsOf]
    rw [h n (Nat.lt_succ_self n), ih fun i hi => h i (Nat.lt_succ_of_lt hi)]

theorem bitsOf_mod {n m : Nat} (h : n ≤ m) (v : Nat) : bitsOf n (v % 2 ^ m) = bitsOf n v :=
  bitsOf_congr fun i hi => by simp [Nat.testBit_mod_two_pow]; omega

/-- A bit string is the bits of its value. -/
theorem bitsOf_valOf (bs : List Bool) : bitsOf bs.length (valOf bs) = bs := by
  induction bs with
  | nil => rfl
  | cons b bs ih =>
    have hlt := valOf_lt bs
    simp only [List.length_cons, bitsOf]
    refine congrArg₂ List.cons ?_ ?_
    · rw [valOf_cons, Nat.testBit_eq_decide_div_mod_eq, Nat.add_comm,
        Nat.add_mul_div_right _ _ (Nat.two_pow_pos _), Nat.div_eq_of_lt hlt]
      cases b <;> simp
    · have : valOf (b :: bs) % 2 ^ bs.length = valOf bs := by
        rw [valOf_cons, Nat.add_comm, Nat.add_mul_mod_self_right, Nat.mod_eq_of_lt hlt]
      rw [← bitsOf_mod (Nat.le_refl _), this, ih]

theorem valOf_inj {xs ys : List Bool} (hl : xs.length = ys.length) (h : valOf xs = valOf ys) : xs = ys := by
  rw [← bitsOf_valOf xs, ← bitsOf_valOf ys, hl, h]

/-- The value of the low `n` bits. -/
theorem valOf_bitsOf (n v : Nat) : valOf (bitsOf n v) = v % 2 ^ n := by
  induction n with
  | zero => simp [bitsOf, valOf, valFrom, Nat.mod_one]
  | succ n ih =>
    simp only [bitsOf]
    rw [valOf_cons, ih, bitsOf_length, Nat.testBit_eq_decide_div_mod_eq, Nat.mod_pow_succ]
    have := Nat.mod_two_eq_zero_or_one (v / 2 ^ n)
    rcases this with h | h <;> (simp [h]; try omega)

/-- One more bit at the end of a bit string doubles its value. -/
theorem bitsOf_snoc (n v : Nat) (b : Bool) : bitsOf (n + 1) (2 * v + b.toNat) = bitsOf n v ++ [b] := by
  apply valOf_inj
  · simp
  · rw [valOf_bitsOf, valOf_append, valOf_bitsOf]
    have : valOf [b] = b.toNat := by cases b <;> rfl
    have hb : b.toNat < 2 := by cases b <;> simp
    have hlt := Nat.mod_lt v (Nat.two_pow_pos n)
    have hsplit : 2 * v + b.toNat = 2 * (v % 2 ^ n) + b.toNat + 2 ^ (n + 1) * (v / 2 ^ n) := by
      conv_lhs => rw [← Nat.mod_add_div v (2 ^ n)]
      ring
    rw [this, hsplit, Nat.add_mul_mod_self_left, Nat.mod_eq_of_lt (by rw [pow_succ]; omega)]
    simp only [List.length_singleton]
    omega

theorem bitsOf_cons_tail (n v : Nat) : bitsOf (n + 1) v = v.testBit n :: bitsOf n v := rfl

/-! ### Places of a width -/

theorem narrow_lt (w v : Nat) : narrow w v < 2 ^ w := Nat.mod_lt _ (Nat.two_pow_pos w)

/-- A value of the width is kept. -/
theorem narrow_eq {w v : Nat} (h : v < 2 ^ w) : narrow w v = v := Nat.mod_eq_of_lt h

theorem narrow_narrow (w v : Nat) : narrow w (narrow w v) = narrow w v := narrow_eq (narrow_lt w v)

end Sys2Proof
end

