-- ==== Sys2Proof/Laws/State.lean ====
section
/-! SUPPORT. One lemma per field per update of the state, each true by definition. -/

namespace Sys2Proof.Machine

/-! ### `setFreq` -/

@[simp] theorem setFreq_cfg (k : Nat) (v : Nat) (s : State) : (setFreq k v s).cfg = s.cfg := rfl
@[simp] theorem setFreq_freq (k : Nat) (v : Nat) (s : State) : (setFreq k v s).freq = s.freq.setIfInBounds k v := rfl
@[simp] theorem setFreq_node (k : Nat) (v : Nat) (s : State) : (setFreq k v s).node = s.node := rfl
@[simp] theorem setFreq_code (k : Nat) (v : Nat) (s : State) : (setFreq k v s).code = s.code := rfl
@[simp] theorem setFreq_busy (k : Nat) (v : Nat) (s : State) : (setFreq k v s).busy = s.busy := rfl
@[simp] theorem setFreq_done (k : Nat) (v : Nat) (s : State) : (setFreq k v s).done = s.done := rfl
@[simp] theorem setFreq_fv (k : Nat) (v : Nat) (s : State) : (setFreq k v s).fv = s.fv := rfl
@[simp] theorem setFreq_tv (k : Nat) (v : Nat) (s : State) : (setFreq k v s).tv = s.tv := rfl
@[simp] theorem setFreq_cv (k : Nat) (v : Nat) (s : State) : (setFreq k v s).cv = s.cv := rfl
@[simp] theorem setFreq_err (k : Nat) (v : Nat) (s : State) : (setFreq k v s).err = s.err := rfl
@[simp] theorem setFreq_phase (k : Nat) (v : Nat) (s : State) : (setFreq k v s).phase = s.phase := rfl
@[simp] theorem setFreq_root (k : Nat) (v : Nat) (s : State) : (setFreq k v s).root = s.root := rfl
@[simp] theorem setFreq_nnode (k : Nat) (v : Nat) (s : State) : (setFreq k v s).nnode = s.nnode := rfl
@[simp] theorem setFreq_cur (k : Nat) (v : Nat) (s : State) : (setFreq k v s).cur = s.cur := rfl
@[simp] theorem setFreq_live (k : Nat) (v : Nat) (s : State) : (setFreq k v s).live = s.live := rfl
@[simp] theorem setFreq_pkAcc (k : Nat) (v : Nat) (s : State) : (setFreq k v s).pkAcc = s.pkAcc := rfl
@[simp] theorem setFreq_pkCnt (k : Nat) (v : Nat) (s : State) : (setFreq k v s).pkCnt = s.pkCnt := rfl
@[simp] theorem setFreq_upAcc (k : Nat) (v : Nat) (s : State) : (setFreq k v s).upAcc = s.upAcc := rfl
@[simp] theorem setFreq_upCnt (k : Nat) (v : Nat) (s : State) : (setFreq k v s).upCnt = s.upCnt := rfl
@[simp] theorem setFreq_src (k : Nat) (v : Nat) (s : State) : (setFreq k v s).src = s.src := rfl
@[simp] theorem setFreq_pos (k : Nat) (v : Nat) (s : State) : (setFreq k v s).pos = s.pos := rfl
@[simp] theorem setFreq_srcLater (k : Nat) (v : Nat) (s : State) : (setFreq k v s).srcLater = s.srcLater := rfl
@[simp] theorem setFreq_out (k : Nat) (v : Nat) (s : State) : (setFreq k v s).out = s.out := rfl
@[simp] theorem setFreq_closed (k : Nat) (v : Nat) (s : State) : (setFreq k v s).closed = s.closed := rfl
@[simp] theorem setFreq_events (k : Nat) (v : Nat) (s : State) : (setFreq k v s).events = s.events := rfl
@[simp] theorem setFreq_host (k : Nat) (v : Nat) (s : State) : (setFreq k v s).host = s.host := rfl
@[simp] theorem setFreq_rdata (k : Nat) (v : Nat) (s : State) : (setFreq k v s).rdata = s.rdata := rfl
@[simp] theorem setFreq_freeIdx (k : Nat) (v : Nat) (s : State) : (setFreq k v s).freeIdx = s.freeIdx := rfl

/-! ### `setNode` -/

@[simp] theorem setNode_cfg (k : Nat) (v : Node) (s : State) : (setNode k v s).cfg = s.cfg := rfl
@[simp] theorem setNode_freq (k : Nat) (v : Node) (s : State) : (setNode k v s).freq = s.freq := rfl
@[simp] theorem setNode_node (k : Nat) (v : Node) (s : State) : (setNode k v s).node = s.node.setIfInBounds k v := rfl
@[simp] theorem setNode_code (k : Nat) (v : Node) (s : State) : (setNode k v s).code = s.code := rfl
@[simp] theorem setNode_busy (k : Nat) (v : Node) (s : State) : (setNode k v s).busy = s.busy := rfl
@[simp] theorem setNode_done (k : Nat) (v : Node) (s : State) : (setNode k v s).done = s.done := rfl
@[simp] theorem setNode_fv (k : Nat) (v : Node) (s : State) : (setNode k v s).fv = s.fv := rfl
@[simp] theorem setNode_tv (k : Nat) (v : Node) (s : State) : (setNode k v s).tv = s.tv := rfl
@[simp] theorem setNode_cv (k : Nat) (v : Node) (s : State) : (setNode k v s).cv = s.cv := rfl
@[simp] theorem setNode_err (k : Nat) (v : Node) (s : State) : (setNode k v s).err = s.err := rfl
@[simp] theorem setNode_phase (k : Nat) (v : Node) (s : State) : (setNode k v s).phase = s.phase := rfl
@[simp] theorem setNode_root (k : Nat) (v : Node) (s : State) : (setNode k v s).root = s.root := rfl
@[simp] theorem setNode_nnode (k : Nat) (v : Node) (s : State) : (setNode k v s).nnode = s.nnode := rfl
@[simp] theorem setNode_cur (k : Nat) (v : Node) (s : State) : (setNode k v s).cur = s.cur := rfl
@[simp] theorem setNode_live (k : Nat) (v : Node) (s : State) : (setNode k v s).live = s.live := rfl
@[simp] theorem setNode_pkAcc (k : Nat) (v : Node) (s : State) : (setNode k v s).pkAcc = s.pkAcc := rfl
@[simp] theorem setNode_pkCnt (k : Nat) (v : Node) (s : State) : (setNode k v s).pkCnt = s.pkCnt := rfl
@[simp] theorem setNode_upAcc (k : Nat) (v : Node) (s : State) : (setNode k v s).upAcc = s.upAcc := rfl
@[simp] theorem setNode_upCnt (k : Nat) (v : Node) (s : State) : (setNode k v s).upCnt = s.upCnt := rfl
@[simp] theorem setNode_src (k : Nat) (v : Node) (s : State) : (setNode k v s).src = s.src := rfl
@[simp] theorem setNode_pos (k : Nat) (v : Node) (s : State) : (setNode k v s).pos = s.pos := rfl
@[simp] theorem setNode_srcLater (k : Nat) (v : Node) (s : State) : (setNode k v s).srcLater = s.srcLater := rfl
@[simp] theorem setNode_out (k : Nat) (v : Node) (s : State) : (setNode k v s).out = s.out := rfl
@[simp] theorem setNode_closed (k : Nat) (v : Node) (s : State) : (setNode k v s).closed = s.closed := rfl
@[simp] theorem setNode_events (k : Nat) (v : Node) (s : State) : (setNode k v s).events = s.events := rfl
@[simp] theorem setNode_host (k : Nat) (v : Node) (s : State) : (setNode k v s).host = s.host := rfl
@[simp] theorem setNode_rdata (k : Nat) (v : Node) (s : State) : (setNode k v s).rdata = s.rdata := rfl
@[simp] theorem setNode_freeIdx (k : Nat) (v : Node) (s : State) : (setNode k v s).freeIdx = s.freeIdx := rfl

/-! ### `setCode` -/

@[simp] theorem setCode_cfg (k : Nat) (v : CodeEntry) (s : State) : (setCode k v s).cfg = s.cfg := rfl
@[simp] theorem setCode_freq (k : Nat) (v : CodeEntry) (s : State) : (setCode k v s).freq = s.freq := rfl
@[simp] theorem setCode_node (k : Nat) (v : CodeEntry) (s : State) : (setCode k v s).node = s.node := rfl
@[simp] theorem setCode_code (k : Nat) (v : CodeEntry) (s : State) : (setCode k v s).code = s.code.setIfInBounds k v := rfl
@[simp] theorem setCode_busy (k : Nat) (v : CodeEntry) (s : State) : (setCode k v s).busy = s.busy := rfl
@[simp] theorem setCode_done (k : Nat) (v : CodeEntry) (s : State) : (setCode k v s).done = s.done := rfl
@[simp] theorem setCode_fv (k : Nat) (v : CodeEntry) (s : State) : (setCode k v s).fv = s.fv := rfl
@[simp] theorem setCode_tv (k : Nat) (v : CodeEntry) (s : State) : (setCode k v s).tv = s.tv := rfl
@[simp] theorem setCode_cv (k : Nat) (v : CodeEntry) (s : State) : (setCode k v s).cv = s.cv := rfl
@[simp] theorem setCode_err (k : Nat) (v : CodeEntry) (s : State) : (setCode k v s).err = s.err := rfl
@[simp] theorem setCode_phase (k : Nat) (v : CodeEntry) (s : State) : (setCode k v s).phase = s.phase := rfl
@[simp] theorem setCode_root (k : Nat) (v : CodeEntry) (s : State) : (setCode k v s).root = s.root := rfl
@[simp] theorem setCode_nnode (k : Nat) (v : CodeEntry) (s : State) : (setCode k v s).nnode = s.nnode := rfl
@[simp] theorem setCode_cur (k : Nat) (v : CodeEntry) (s : State) : (setCode k v s).cur = s.cur := rfl
@[simp] theorem setCode_live (k : Nat) (v : CodeEntry) (s : State) : (setCode k v s).live = s.live := rfl
@[simp] theorem setCode_pkAcc (k : Nat) (v : CodeEntry) (s : State) : (setCode k v s).pkAcc = s.pkAcc := rfl
@[simp] theorem setCode_pkCnt (k : Nat) (v : CodeEntry) (s : State) : (setCode k v s).pkCnt = s.pkCnt := rfl
@[simp] theorem setCode_upAcc (k : Nat) (v : CodeEntry) (s : State) : (setCode k v s).upAcc = s.upAcc := rfl
@[simp] theorem setCode_upCnt (k : Nat) (v : CodeEntry) (s : State) : (setCode k v s).upCnt = s.upCnt := rfl
@[simp] theorem setCode_src (k : Nat) (v : CodeEntry) (s : State) : (setCode k v s).src = s.src := rfl
@[simp] theorem setCode_pos (k : Nat) (v : CodeEntry) (s : State) : (setCode k v s).pos = s.pos := rfl
@[simp] theorem setCode_srcLater (k : Nat) (v : CodeEntry) (s : State) : (setCode k v s).srcLater = s.srcLater := rfl
@[simp] theorem setCode_out (k : Nat) (v : CodeEntry) (s : State) : (setCode k v s).out = s.out := rfl
@[simp] theorem setCode_closed (k : Nat) (v : CodeEntry) (s : State) : (setCode k v s).closed = s.closed := rfl
@[simp] theorem setCode_events (k : Nat) (v : CodeEntry) (s : State) : (setCode k v s).events = s.events := rfl
@[simp] theorem setCode_host (k : Nat) (v : CodeEntry) (s : State) : (setCode k v s).host = s.host := rfl
@[simp] theorem setCode_rdata (k : Nat) (v : CodeEntry) (s : State) : (setCode k v s).rdata = s.rdata := rfl
@[simp] theorem setCode_freeIdx (k : Nat) (v : CodeEntry) (s : State) : (setCode k v s).freeIdx = s.freeIdx := rfl

/-! ### `clearFvTvCv` -/

@[simp] theorem clearFvTvCv_cfg (s : State) : (clearFvTvCv s).cfg = s.cfg := rfl
@[simp] theorem clearFvTvCv_freq (s : State) : (clearFvTvCv s).freq = s.freq := rfl
@[simp] theorem clearFvTvCv_node (s : State) : (clearFvTvCv s).node = s.node := rfl
@[simp] theorem clearFvTvCv_code (s : State) : (clearFvTvCv s).code = s.code := rfl
@[simp] theorem clearFvTvCv_busy (s : State) : (clearFvTvCv s).busy = s.busy := rfl
@[simp] theorem clearFvTvCv_done (s : State) : (clearFvTvCv s).done = s.done := rfl
@[simp] theorem clearFvTvCv_fv (s : State) : (clearFvTvCv s).fv = false := rfl
@[simp] theorem clearFvTvCv_tv (s : State) : (clearFvTvCv s).tv = false := rfl
@[simp] theorem clearFvTvCv_cv (s : State) : (clearFvTvCv s).cv = false := rfl
@[simp] theorem clearFvTvCv_err (s : State) : (clearFvTvCv s).err = s.err := rfl
@[simp] theorem clearFvTvCv_phase (s : State) : (clearFvTvCv s).phase = s.phase := rfl
@[simp] theorem clearFvTvCv_root (s : State) : (clearFvTvCv s).root = s.root := rfl
@[simp] theorem clearFvTvCv_nnode (s : State) : (clearFvTvCv s).nnode = s.nnode := rfl
@[simp] theorem clearFvTvCv_cur (s : State) : (clearFvTvCv s).cur = s.cur := rfl
@[simp] theorem clearFvTvCv_live (s : State) : (clearFvTvCv s).live = s.live := rfl
@[simp] theorem clearFvTvCv_pkAcc (s : State) : (clearFvTvCv s).pkAcc = s.pkAcc := rfl
@[simp] theorem clearFvTvCv_pkCnt (s : State) : (clearFvTvCv s).pkCnt = s.pkCnt := rfl
@[simp] theorem clearFvTvCv_upAcc (s : State) : (clearFvTvCv s).upAcc = s.upAcc := rfl
@[simp] theorem clearFvTvCv_upCnt (s : State) : (clearFvTvCv s).upCnt = s.upCnt := rfl
@[simp] theorem clearFvTvCv_src (s : State) : (clearFvTvCv s).src = s.src := rfl
@[simp] theorem clearFvTvCv_pos (s : State) : (clearFvTvCv s).pos = s.pos := rfl
@[simp] theorem clearFvTvCv_srcLater (s : State) : (clearFvTvCv s).srcLater = s.srcLater := rfl
@[simp] theorem clearFvTvCv_out (s : State) : (clearFvTvCv s).out = s.out := rfl
@[simp] theorem clearFvTvCv_closed (s : State) : (clearFvTvCv s).closed = s.closed := rfl
@[simp] theorem clearFvTvCv_events (s : State) : (clearFvTvCv s).events = s.events := rfl
@[simp] theorem clearFvTvCv_host (s : State) : (clearFvTvCv s).host = s.host := rfl
@[simp] theorem clearFvTvCv_rdata (s : State) : (clearFvTvCv s).rdata = s.rdata := rfl
@[simp] theorem clearFvTvCv_freeIdx (s : State) : (clearFvTvCv s).freeIdx = s.freeIdx := rfl

/-! ### `clearTvCv` -/

@[simp] theorem clearTvCv_cfg (s : State) : (clearTvCv s).cfg = s.cfg := rfl
@[simp] theorem clearTvCv_freq (s : State) : (clearTvCv s).freq = s.freq := rfl
@[simp] theorem clearTvCv_node (s : State) : (clearTvCv s).node = s.node := rfl
@[simp] theorem clearTvCv_code (s : State) : (clearTvCv s).code = s.code := rfl
@[simp] theorem clearTvCv_busy (s : State) : (clearTvCv s).busy = s.busy := rfl
@[simp] theorem clearTvCv_done (s : State) : (clearTvCv s).done = s.done := rfl
@[simp] theorem clearTvCv_fv (s : State) : (clearTvCv s).fv = s.fv := rfl
@[simp] theorem clearTvCv_tv (s : State) : (clearTvCv s).tv = false := rfl
@[simp] theorem clearTvCv_cv (s : State) : (clearTvCv s).cv = false := rfl
@[simp] theorem clearTvCv_err (s : State) : (clearTvCv s).err = s.err := rfl
@[simp] theorem clearTvCv_phase (s : State) : (clearTvCv s).phase = s.phase := rfl
@[simp] theorem clearTvCv_root (s : State) : (clearTvCv s).root = s.root := rfl
@[simp] theorem clearTvCv_nnode (s : State) : (clearTvCv s).nnode = s.nnode := rfl
@[simp] theorem clearTvCv_cur (s : State) : (clearTvCv s).cur = s.cur := rfl
@[simp] theorem clearTvCv_live (s : State) : (clearTvCv s).live = s.live := rfl
@[simp] theorem clearTvCv_pkAcc (s : State) : (clearTvCv s).pkAcc = s.pkAcc := rfl
@[simp] theorem clearTvCv_pkCnt (s : State) : (clearTvCv s).pkCnt = s.pkCnt := rfl
@[simp] theorem clearTvCv_upAcc (s : State) : (clearTvCv s).upAcc = s.upAcc := rfl
@[simp] theorem clearTvCv_upCnt (s : State) : (clearTvCv s).upCnt = s.upCnt := rfl
@[simp] theorem clearTvCv_src (s : State) : (clearTvCv s).src = s.src := rfl
@[simp] theorem clearTvCv_pos (s : State) : (clearTvCv s).pos = s.pos := rfl
@[simp] theorem clearTvCv_srcLater (s : State) : (clearTvCv s).srcLater = s.srcLater := rfl
@[simp] theorem clearTvCv_out (s : State) : (clearTvCv s).out = s.out := rfl
@[simp] theorem clearTvCv_closed (s : State) : (clearTvCv s).closed = s.closed := rfl
@[simp] theorem clearTvCv_events (s : State) : (clearTvCv s).events = s.events := rfl
@[simp] theorem clearTvCv_host (s : State) : (clearTvCv s).host = s.host := rfl
@[simp] theorem clearTvCv_rdata (s : State) : (clearTvCv s).rdata = s.rdata := rfl
@[simp] theorem clearTvCv_freeIdx (s : State) : (clearTvCv s).freeIdx = s.freeIdx := rfl

/-! ### `clearCv` -/

@[simp] theorem clearCv_cfg (s : State) : (clearCv s).cfg = s.cfg := rfl
@[simp] theorem clearCv_freq (s : State) : (clearCv s).freq = s.freq := rfl
@[simp] theorem clearCv_node (s : State) : (clearCv s).node = s.node := rfl
@[simp] theorem clearCv_code (s : State) : (clearCv s).code = s.code := rfl
@[simp] theorem clearCv_busy (s : State) : (clearCv s).busy = s.busy := rfl
@[simp] theorem clearCv_done (s : State) : (clearCv s).done = s.done := rfl
@[simp] theorem clearCv_fv (s : State) : (clearCv s).fv = s.fv := rfl
@[simp] theorem clearCv_tv (s : State) : (clearCv s).tv = s.tv := rfl
@[simp] theorem clearCv_cv (s : State) : (clearCv s).cv = false := rfl
@[simp] theorem clearCv_err (s : State) : (clearCv s).err = s.err := rfl
@[simp] theorem clearCv_phase (s : State) : (clearCv s).phase = s.phase := rfl
@[simp] theorem clearCv_root (s : State) : (clearCv s).root = s.root := rfl
@[simp] theorem clearCv_nnode (s : State) : (clearCv s).nnode = s.nnode := rfl
@[simp] theorem clearCv_cur (s : State) : (clearCv s).cur = s.cur := rfl
@[simp] theorem clearCv_live (s : State) : (clearCv s).live = s.live := rfl
@[simp] theorem clearCv_pkAcc (s : State) : (clearCv s).pkAcc = s.pkAcc := rfl
@[simp] theorem clearCv_pkCnt (s : State) : (clearCv s).pkCnt = s.pkCnt := rfl
@[simp] theorem clearCv_upAcc (s : State) : (clearCv s).upAcc = s.upAcc := rfl
@[simp] theorem clearCv_upCnt (s : State) : (clearCv s).upCnt = s.upCnt := rfl
@[simp] theorem clearCv_src (s : State) : (clearCv s).src = s.src := rfl
@[simp] theorem clearCv_pos (s : State) : (clearCv s).pos = s.pos := rfl
@[simp] theorem clearCv_srcLater (s : State) : (clearCv s).srcLater = s.srcLater := rfl
@[simp] theorem clearCv_out (s : State) : (clearCv s).out = s.out := rfl
@[simp] theorem clearCv_closed (s : State) : (clearCv s).closed = s.closed := rfl
@[simp] theorem clearCv_events (s : State) : (clearCv s).events = s.events := rfl
@[simp] theorem clearCv_host (s : State) : (clearCv s).host = s.host := rfl
@[simp] theorem clearCv_rdata (s : State) : (clearCv s).rdata = s.rdata := rfl
@[simp] theorem clearCv_freeIdx (s : State) : (clearCv s).freeIdx = s.freeIdx := rfl

/-! ### `setFv` -/

@[simp] theorem setFv_cfg (s : State) : (setFv s).cfg = s.cfg := rfl
@[simp] theorem setFv_freq (s : State) : (setFv s).freq = s.freq := rfl
@[simp] theorem setFv_node (s : State) : (setFv s).node = s.node := rfl
@[simp] theorem setFv_code (s : State) : (setFv s).code = s.code := rfl
@[simp] theorem setFv_busy (s : State) : (setFv s).busy = s.busy := rfl
@[simp] theorem setFv_done (s : State) : (setFv s).done = s.done := rfl
@[simp] theorem setFv_fv (s : State) : (setFv s).fv = true := rfl
@[simp] theorem setFv_tv (s : State) : (setFv s).tv = s.tv := rfl
@[simp] theorem setFv_cv (s : State) : (setFv s).cv = s.cv := rfl
@[simp] theorem setFv_err (s : State) : (setFv s).err = s.err := rfl
@[simp] theorem setFv_phase (s : State) : (setFv s).phase = s.phase := rfl
@[simp] theorem setFv_root (s : State) : (setFv s).root = s.root := rfl
@[simp] theorem setFv_nnode (s : State) : (setFv s).nnode = s.nnode := rfl
@[simp] theorem setFv_cur (s : State) : (setFv s).cur = s.cur := rfl
@[simp] theorem setFv_live (s : State) : (setFv s).live = s.live := rfl
@[simp] theorem setFv_pkAcc (s : State) : (setFv s).pkAcc = s.pkAcc := rfl
@[simp] theorem setFv_pkCnt (s : State) : (setFv s).pkCnt = s.pkCnt := rfl
@[simp] theorem setFv_upAcc (s : State) : (setFv s).upAcc = s.upAcc := rfl
@[simp] theorem setFv_upCnt (s : State) : (setFv s).upCnt = s.upCnt := rfl
@[simp] theorem setFv_src (s : State) : (setFv s).src = s.src := rfl
@[simp] theorem setFv_pos (s : State) : (setFv s).pos = s.pos := rfl
@[simp] theorem setFv_srcLater (s : State) : (setFv s).srcLater = s.srcLater := rfl
@[simp] theorem setFv_out (s : State) : (setFv s).out = s.out := rfl
@[simp] theorem setFv_closed (s : State) : (setFv s).closed = s.closed := rfl
@[simp] theorem setFv_events (s : State) : (setFv s).events = s.events := rfl
@[simp] theorem setFv_host (s : State) : (setFv s).host = s.host := rfl
@[simp] theorem setFv_rdata (s : State) : (setFv s).rdata = s.rdata := rfl
@[simp] theorem setFv_freeIdx (s : State) : (setFv s).freeIdx = s.freeIdx := rfl

/-! ### `setTv` -/

@[simp] theorem setTv_cfg (s : State) : (setTv s).cfg = s.cfg := rfl
@[simp] theorem setTv_freq (s : State) : (setTv s).freq = s.freq := rfl
@[simp] theorem setTv_node (s : State) : (setTv s).node = s.node := rfl
@[simp] theorem setTv_code (s : State) : (setTv s).code = s.code := rfl
@[simp] theorem setTv_busy (s : State) : (setTv s).busy = s.busy := rfl
@[simp] theorem setTv_done (s : State) : (setTv s).done = s.done := rfl
@[simp] theorem setTv_fv (s : State) : (setTv s).fv = s.fv := rfl
@[simp] theorem setTv_tv (s : State) : (setTv s).tv = true := rfl
@[simp] theorem setTv_cv (s : State) : (setTv s).cv = s.cv := rfl
@[simp] theorem setTv_err (s : State) : (setTv s).err = s.err := rfl
@[simp] theorem setTv_phase (s : State) : (setTv s).phase = s.phase := rfl
@[simp] theorem setTv_root (s : State) : (setTv s).root = s.root := rfl
@[simp] theorem setTv_nnode (s : State) : (setTv s).nnode = s.nnode := rfl
@[simp] theorem setTv_cur (s : State) : (setTv s).cur = s.cur := rfl
@[simp] theorem setTv_live (s : State) : (setTv s).live = s.live := rfl
@[simp] theorem setTv_pkAcc (s : State) : (setTv s).pkAcc = s.pkAcc := rfl
@[simp] theorem setTv_pkCnt (s : State) : (setTv s).pkCnt = s.pkCnt := rfl
@[simp] theorem setTv_upAcc (s : State) : (setTv s).upAcc = s.upAcc := rfl
@[simp] theorem setTv_upCnt (s : State) : (setTv s).upCnt = s.upCnt := rfl
@[simp] theorem setTv_src (s : State) : (setTv s).src = s.src := rfl
@[simp] theorem setTv_pos (s : State) : (setTv s).pos = s.pos := rfl
@[simp] theorem setTv_srcLater (s : State) : (setTv s).srcLater = s.srcLater := rfl
@[simp] theorem setTv_out (s : State) : (setTv s).out = s.out := rfl
@[simp] theorem setTv_closed (s : State) : (setTv s).closed = s.closed := rfl
@[simp] theorem setTv_events (s : State) : (setTv s).events = s.events := rfl
@[simp] theorem setTv_host (s : State) : (setTv s).host = s.host := rfl
@[simp] theorem setTv_rdata (s : State) : (setTv s).rdata = s.rdata := rfl
@[simp] theorem setTv_freeIdx (s : State) : (setTv s).freeIdx = s.freeIdx := rfl

/-! ### `setCv` -/

@[simp] theorem setCv_cfg (s : State) : (setCv s).cfg = s.cfg := rfl
@[simp] theorem setCv_freq (s : State) : (setCv s).freq = s.freq := rfl
@[simp] theorem setCv_node (s : State) : (setCv s).node = s.node := rfl
@[simp] theorem setCv_code (s : State) : (setCv s).code = s.code := rfl
@[simp] theorem setCv_busy (s : State) : (setCv s).busy = s.busy := rfl
@[simp] theorem setCv_done (s : State) : (setCv s).done = s.done := rfl
@[simp] theorem setCv_fv (s : State) : (setCv s).fv = s.fv := rfl
@[simp] theorem setCv_tv (s : State) : (setCv s).tv = s.tv := rfl
@[simp] theorem setCv_cv (s : State) : (setCv s).cv = true := rfl
@[simp] theorem setCv_err (s : State) : (setCv s).err = s.err := rfl
@[simp] theorem setCv_phase (s : State) : (setCv s).phase = s.phase := rfl
@[simp] theorem setCv_root (s : State) : (setCv s).root = s.root := rfl
@[simp] theorem setCv_nnode (s : State) : (setCv s).nnode = s.nnode := rfl
@[simp] theorem setCv_cur (s : State) : (setCv s).cur = s.cur := rfl
@[simp] theorem setCv_live (s : State) : (setCv s).live = s.live := rfl
@[simp] theorem setCv_pkAcc (s : State) : (setCv s).pkAcc = s.pkAcc := rfl
@[simp] theorem setCv_pkCnt (s : State) : (setCv s).pkCnt = s.pkCnt := rfl
@[simp] theorem setCv_upAcc (s : State) : (setCv s).upAcc = s.upAcc := rfl
@[simp] theorem setCv_upCnt (s : State) : (setCv s).upCnt = s.upCnt := rfl
@[simp] theorem setCv_src (s : State) : (setCv s).src = s.src := rfl
@[simp] theorem setCv_pos (s : State) : (setCv s).pos = s.pos := rfl
@[simp] theorem setCv_srcLater (s : State) : (setCv s).srcLater = s.srcLater := rfl
@[simp] theorem setCv_out (s : State) : (setCv s).out = s.out := rfl
@[simp] theorem setCv_closed (s : State) : (setCv s).closed = s.closed := rfl
@[simp] theorem setCv_events (s : State) : (setCv s).events = s.events := rfl
@[simp] theorem setCv_host (s : State) : (setCv s).host = s.host := rfl
@[simp] theorem setCv_rdata (s : State) : (setCv s).rdata = s.rdata := rfl
@[simp] theorem setCv_freeIdx (s : State) : (setCv s).freeIdx = s.freeIdx := rfl

/-! ### `sinkClose` -/

@[simp] theorem sinkClose_cfg (s : State) : (sinkClose s).cfg = s.cfg := rfl
@[simp] theorem sinkClose_freq (s : State) : (sinkClose s).freq = s.freq := rfl
@[simp] theorem sinkClose_node (s : State) : (sinkClose s).node = s.node := rfl
@[simp] theorem sinkClose_code (s : State) : (sinkClose s).code = s.code := rfl
@[simp] theorem sinkClose_busy (s : State) : (sinkClose s).busy = s.busy := rfl
@[simp] theorem sinkClose_done (s : State) : (sinkClose s).done = s.done := rfl
@[simp] theorem sinkClose_fv (s : State) : (sinkClose s).fv = s.fv := rfl
@[simp] theorem sinkClose_tv (s : State) : (sinkClose s).tv = s.tv := rfl
@[simp] theorem sinkClose_cv (s : State) : (sinkClose s).cv = s.cv := rfl
@[simp] theorem sinkClose_err (s : State) : (sinkClose s).err = s.err := rfl
@[simp] theorem sinkClose_phase (s : State) : (sinkClose s).phase = s.phase := rfl
@[simp] theorem sinkClose_root (s : State) : (sinkClose s).root = s.root := rfl
@[simp] theorem sinkClose_nnode (s : State) : (sinkClose s).nnode = s.nnode := rfl
@[simp] theorem sinkClose_cur (s : State) : (sinkClose s).cur = s.cur := rfl
@[simp] theorem sinkClose_live (s : State) : (sinkClose s).live = s.live := rfl
@[simp] theorem sinkClose_pkAcc (s : State) : (sinkClose s).pkAcc = s.pkAcc := rfl
@[simp] theorem sinkClose_pkCnt (s : State) : (sinkClose s).pkCnt = s.pkCnt := rfl
@[simp] theorem sinkClose_upAcc (s : State) : (sinkClose s).upAcc = s.upAcc := rfl
@[simp] theorem sinkClose_upCnt (s : State) : (sinkClose s).upCnt = s.upCnt := rfl
@[simp] theorem sinkClose_src (s : State) : (sinkClose s).src = s.src := rfl
@[simp] theorem sinkClose_pos (s : State) : (sinkClose s).pos = s.pos := rfl
@[simp] theorem sinkClose_srcLater (s : State) : (sinkClose s).srcLater = s.srcLater := rfl
@[simp] theorem sinkClose_out (s : State) : (sinkClose s).out = s.out := rfl
@[simp] theorem sinkClose_closed (s : State) : (sinkClose s).closed = true := rfl
@[simp] theorem sinkClose_events (s : State) : (sinkClose s).events = .close :: s.events := rfl
@[simp] theorem sinkClose_host (s : State) : (sinkClose s).host = s.host := rfl
@[simp] theorem sinkClose_rdata (s : State) : (sinkClose s).rdata = s.rdata := rfl
@[simp] theorem sinkClose_freeIdx (s : State) : (sinkClose s).freeIdx = s.freeIdx := rfl

/-! ### `srcRewind` -/

@[simp] theorem srcRewind_cfg (s : State) : (srcRewind s).cfg = s.cfg := rfl
@[simp] theorem srcRewind_freq (s : State) : (srcRewind s).freq = s.freq := rfl
@[simp] theorem srcRewind_node (s : State) : (srcRewind s).node = s.node := rfl
@[simp] theorem srcRewind_code (s : State) : (srcRewind s).code = s.code := rfl
@[simp] theorem srcRewind_busy (s : State) : (srcRewind s).busy = s.busy := rfl
@[simp] theorem srcRewind_done (s : State) : (srcRewind s).done = s.done := rfl
@[simp] theorem srcRewind_fv (s : State) : (srcRewind s).fv = s.fv := rfl
@[simp] theorem srcRewind_tv (s : State) : (srcRewind s).tv = s.tv := rfl
@[simp] theorem srcRewind_cv (s : State) : (srcRewind s).cv = s.cv := rfl
@[simp] theorem srcRewind_err (s : State) : (srcRewind s).err = s.err := rfl
@[simp] theorem srcRewind_phase (s : State) : (srcRewind s).phase = s.phase := rfl
@[simp] theorem srcRewind_root (s : State) : (srcRewind s).root = s.root := rfl
@[simp] theorem srcRewind_nnode (s : State) : (srcRewind s).nnode = s.nnode := rfl
@[simp] theorem srcRewind_cur (s : State) : (srcRewind s).cur = s.cur := rfl
@[simp] theorem srcRewind_live (s : State) : (srcRewind s).live = s.live := rfl
@[simp] theorem srcRewind_pkAcc (s : State) : (srcRewind s).pkAcc = s.pkAcc := rfl
@[simp] theorem srcRewind_pkCnt (s : State) : (srcRewind s).pkCnt = s.pkCnt := rfl
@[simp] theorem srcRewind_upAcc (s : State) : (srcRewind s).upAcc = s.upAcc := rfl
@[simp] theorem srcRewind_upCnt (s : State) : (srcRewind s).upCnt = s.upCnt := rfl
@[simp] theorem srcRewind_src (s : State) : (srcRewind s).src = s.srcLater.headD s.src := rfl
@[simp] theorem srcRewind_pos (s : State) : (srcRewind s).pos = 0 := rfl
@[simp] theorem srcRewind_srcLater (s : State) : (srcRewind s).srcLater = s.srcLater.tail := rfl
@[simp] theorem srcRewind_out (s : State) : (srcRewind s).out = s.out := rfl
@[simp] theorem srcRewind_closed (s : State) : (srcRewind s).closed = s.closed := rfl
@[simp] theorem srcRewind_events (s : State) : (srcRewind s).events = .rewind :: s.events := rfl
@[simp] theorem srcRewind_host (s : State) : (srcRewind s).host = s.host := rfl
@[simp] theorem srcRewind_rdata (s : State) : (srcRewind s).rdata = s.rdata := rfl
@[simp] theorem srcRewind_freeIdx (s : State) : (srcRewind s).freeIdx = s.freeIdx := rfl

/-! ### `emptyPacker` -/

@[simp] theorem emptyPacker_cfg (s : State) : (emptyPacker s).cfg = s.cfg := rfl
@[simp] theorem emptyPacker_freq (s : State) : (emptyPacker s).freq = s.freq := rfl
@[simp] theorem emptyPacker_node (s : State) : (emptyPacker s).node = s.node := rfl
@[simp] theorem emptyPacker_code (s : State) : (emptyPacker s).code = s.code := rfl
@[simp] theorem emptyPacker_busy (s : State) : (emptyPacker s).busy = s.busy := rfl
@[simp] theorem emptyPacker_done (s : State) : (emptyPacker s).done = s.done := rfl
@[simp] theorem emptyPacker_fv (s : State) : (emptyPacker s).fv = s.fv := rfl
@[simp] theorem emptyPacker_tv (s : State) : (emptyPacker s).tv = s.tv := rfl
@[simp] theorem emptyPacker_cv (s : State) : (emptyPacker s).cv = s.cv := rfl
@[simp] theorem emptyPacker_err (s : State) : (emptyPacker s).err = s.err := rfl
@[simp] theorem emptyPacker_phase (s : State) : (emptyPacker s).phase = s.phase := rfl
@[simp] theorem emptyPacker_root (s : State) : (emptyPacker s).root = s.root := rfl
@[simp] theorem emptyPacker_nnode (s : State) : (emptyPacker s).nnode = s.nnode := rfl
@[simp] theorem emptyPacker_cur (s : State) : (emptyPacker s).cur = s.cur := rfl
@[simp] theorem emptyPacker_live (s : State) : (emptyPacker s).live = s.live := rfl
@[simp] theorem emptyPacker_pkAcc (s : State) : (emptyPacker s).pkAcc = 0 := rfl
@[simp] theorem emptyPacker_pkCnt (s : State) : (emptyPacker s).pkCnt = 0 := rfl
@[simp] theorem emptyPacker_upAcc (s : State) : (emptyPacker s).upAcc = s.upAcc := rfl
@[simp] theorem emptyPacker_upCnt (s : State) : (emptyPacker s).upCnt = s.upCnt := rfl
@[simp] theorem emptyPacker_src (s : State) : (emptyPacker s).src = s.src := rfl
@[simp] theorem emptyPacker_pos (s : State) : (emptyPacker s).pos = s.pos := rfl
@[simp] theorem emptyPacker_srcLater (s : State) : (emptyPacker s).srcLater = s.srcLater := rfl
@[simp] theorem emptyPacker_out (s : State) : (emptyPacker s).out = s.out := rfl
@[simp] theorem emptyPacker_closed (s : State) : (emptyPacker s).closed = s.closed := rfl
@[simp] theorem emptyPacker_events (s : State) : (emptyPacker s).events = s.events := rfl
@[simp] theorem emptyPacker_host (s : State) : (emptyPacker s).host = s.host := rfl
@[simp] theorem emptyPacker_rdata (s : State) : (emptyPacker s).rdata = s.rdata := rfl
@[simp] theorem emptyPacker_freeIdx (s : State) : (emptyPacker s).freeIdx = s.freeIdx := rfl

/-! ### `emptyUnpacker` -/

@[simp] theorem emptyUnpacker_cfg (s : State) : (emptyUnpacker s).cfg = s.cfg := rfl
@[simp] theorem emptyUnpacker_freq (s : State) : (emptyUnpacker s).freq = s.freq := rfl
@[simp] theorem emptyUnpacker_node (s : State) : (emptyUnpacker s).node = s.node := rfl
@[simp] theorem emptyUnpacker_code (s : State) : (emptyUnpacker s).code = s.code := rfl
@[simp] theorem emptyUnpacker_busy (s : State) : (emptyUnpacker s).busy = s.busy := rfl
@[simp] theorem emptyUnpacker_done (s : State) : (emptyUnpacker s).done = s.done := rfl
@[simp] theorem emptyUnpacker_fv (s : State) : (emptyUnpacker s).fv = s.fv := rfl
@[simp] theorem emptyUnpacker_tv (s : State) : (emptyUnpacker s).tv = s.tv := rfl
@[simp] theorem emptyUnpacker_cv (s : State) : (emptyUnpacker s).cv = s.cv := rfl
@[simp] theorem emptyUnpacker_err (s : State) : (emptyUnpacker s).err = s.err := rfl
@[simp] theorem emptyUnpacker_phase (s : State) : (emptyUnpacker s).phase = s.phase := rfl
@[simp] theorem emptyUnpacker_root (s : State) : (emptyUnpacker s).root = s.root := rfl
@[simp] theorem emptyUnpacker_nnode (s : State) : (emptyUnpacker s).nnode = s.nnode := rfl
@[simp] theorem emptyUnpacker_cur (s : State) : (emptyUnpacker s).cur = s.cur := rfl
@[simp] theorem emptyUnpacker_live (s : State) : (emptyUnpacker s).live = s.live := rfl
@[simp] theorem emptyUnpacker_pkAcc (s : State) : (emptyUnpacker s).pkAcc = s.pkAcc := rfl
@[simp] theorem emptyUnpacker_pkCnt (s : State) : (emptyUnpacker s).pkCnt = s.pkCnt := rfl
@[simp] theorem emptyUnpacker_upAcc (s : State) : (emptyUnpacker s).upAcc = 0 := rfl
@[simp] theorem emptyUnpacker_upCnt (s : State) : (emptyUnpacker s).upCnt = 0 := rfl
@[simp] theorem emptyUnpacker_src (s : State) : (emptyUnpacker s).src = s.src := rfl
@[simp] theorem emptyUnpacker_pos (s : State) : (emptyUnpacker s).pos = s.pos := rfl
@[simp] theorem emptyUnpacker_srcLater (s : State) : (emptyUnpacker s).srcLater = s.srcLater := rfl
@[simp] theorem emptyUnpacker_out (s : State) : (emptyUnpacker s).out = s.out := rfl
@[simp] theorem emptyUnpacker_closed (s : State) : (emptyUnpacker s).closed = s.closed := rfl
@[simp] theorem emptyUnpacker_events (s : State) : (emptyUnpacker s).events = s.events := rfl
@[simp] theorem emptyUnpacker_host (s : State) : (emptyUnpacker s).host = s.host := rfl
@[simp] theorem emptyUnpacker_rdata (s : State) : (emptyUnpacker s).rdata = s.rdata := rfl
@[simp] theorem emptyUnpacker_freeIdx (s : State) : (emptyUnpacker s).freeIdx = s.freeIdx := rfl

/-! ### `raise` -/

@[simp] theorem raise_cfg (e : Err) (s : State) : (raise e s).cfg = s.cfg := rfl
@[simp] theorem raise_freq (e : Err) (s : State) : (raise e s).freq = s.freq := rfl
@[simp] theorem raise_node (e : Err) (s : State) : (raise e s).node = s.node := rfl
@[simp] theorem raise_code (e : Err) (s : State) : (raise e s).code = s.code := rfl
@[simp] theorem raise_busy (e : Err) (s : State) : (raise e s).busy = false := rfl
@[simp] theorem raise_done (e : Err) (s : State) : (raise e s).done = true := rfl
@[simp] theorem raise_fv (e : Err) (s : State) : (raise e s).fv = s.fv := rfl
@[simp] theorem raise_tv (e : Err) (s : State) : (raise e s).tv = s.tv := rfl
@[simp] theorem raise_cv (e : Err) (s : State) : (raise e s).cv = s.cv := rfl
@[simp] theorem raise_err (e : Err) (s : State) : (raise e s).err = e := rfl
@[simp] theorem raise_phase (e : Err) (s : State) : (raise e s).phase = 0 := rfl
@[simp] theorem raise_root (e : Err) (s : State) : (raise e s).root = s.root := rfl
@[simp] theorem raise_nnode (e : Err) (s : State) : (raise e s).nnode = s.nnode := rfl
@[simp] theorem raise_cur (e : Err) (s : State) : (raise e s).cur = s.cur := rfl
@[simp] theorem raise_live (e : Err) (s : State) : (raise e s).live = s.live := rfl
@[simp] theorem raise_pkAcc (e : Err) (s : State) : (raise e s).pkAcc = s.pkAcc := rfl
@[simp] theorem raise_pkCnt (e : Err) (s : State) : (raise e s).pkCnt = s.pkCnt := rfl
@[simp] theorem raise_upAcc (e : Err) (s : State) : (raise e s).upAcc = s.upAcc := rfl
@[simp] theorem raise_upCnt (e : Err) (s : State) : (raise e s).upCnt = s.upCnt := rfl
@[simp] theorem raise_src (e : Err) (s : State) : (raise e s).src = s.src := rfl
@[simp] theorem raise_pos (e : Err) (s : State) : (raise e s).pos = s.pos := rfl
@[simp] theorem raise_srcLater (e : Err) (s : State) : (raise e s).srcLater = s.srcLater := rfl
@[simp] theorem raise_out (e : Err) (s : State) : (raise e s).out = s.out := rfl
@[simp] theorem raise_closed (e : Err) (s : State) : (raise e s).closed = s.closed := rfl
@[simp] theorem raise_events (e : Err) (s : State) : (raise e s).events = s.events := rfl
@[simp] theorem raise_host (e : Err) (s : State) : (raise e s).host = s.host := rfl
@[simp] theorem raise_rdata (e : Err) (s : State) : (raise e s).rdata = s.rdata := rfl
@[simp] theorem raise_freeIdx (e : Err) (s : State) : (raise e s).freeIdx = s.freeIdx := rfl

/-! ### `finish` -/

@[simp] theorem finish_cfg (s : State) : (finish s).cfg = s.cfg := rfl
@[simp] theorem finish_freq (s : State) : (finish s).freq = s.freq := rfl
@[simp] theorem finish_node (s : State) : (finish s).node = s.node := rfl
@[simp] theorem finish_code (s : State) : (finish s).code = s.code := rfl
@[simp] theorem finish_busy (s : State) : (finish s).busy = false := rfl
@[simp] theorem finish_done (s : State) : (finish s).done = true := rfl
@[simp] theorem finish_fv (s : State) : (finish s).fv = s.fv := rfl
@[simp] theorem finish_tv (s : State) : (finish s).tv = s.tv := rfl
@[simp] theorem finish_cv (s : State) : (finish s).cv = s.cv := rfl
@[simp] theorem finish_err (s : State) : (finish s).err = s.err := rfl
@[simp] theorem finish_phase (s : State) : (finish s).phase = 0 := rfl
@[simp] theorem finish_root (s : State) : (finish s).root = s.root := rfl
@[simp] theorem finish_nnode (s : State) : (finish s).nnode = s.nnode := rfl
@[simp] theorem finish_cur (s : State) : (finish s).cur = s.cur := rfl
@[simp] theorem finish_live (s : State) : (finish s).live = s.live := rfl
@[simp] theorem finish_pkAcc (s : State) : (finish s).pkAcc = s.pkAcc := rfl
@[simp] theorem finish_pkCnt (s : State) : (finish s).pkCnt = s.pkCnt := rfl
@[simp] theorem finish_upAcc (s : State) : (finish s).upAcc = s.upAcc := rfl
@[simp] theorem finish_upCnt (s : State) : (finish s).upCnt = s.upCnt := rfl
@[simp] theorem finish_src (s : State) : (finish s).src = s.src := rfl
@[simp] theorem finish_pos (s : State) : (finish s).pos = s.pos := rfl
@[simp] theorem finish_srcLater (s : State) : (finish s).srcLater = s.srcLater := rfl
@[simp] theorem finish_out (s : State) : (finish s).out = s.out := rfl
@[simp] theorem finish_closed (s : State) : (finish s).closed = s.closed := rfl
@[simp] theorem finish_events (s : State) : (finish s).events = s.events := rfl
@[simp] theorem finish_host (s : State) : (finish s).host = s.host := rfl
@[simp] theorem finish_rdata (s : State) : (finish s).rdata = s.rdata := rfl
@[simp] theorem finish_freeIdx (s : State) : (finish s).freeIdx = s.freeIdx := rfl

/-! ### `refuse` -/

@[simp] theorem refuse_cfg (e : Err) (s : State) : (refuse e s).cfg = s.cfg := rfl
@[simp] theorem refuse_freq (e : Err) (s : State) : (refuse e s).freq = s.freq := rfl
@[simp] theorem refuse_node (e : Err) (s : State) : (refuse e s).node = s.node := rfl
@[simp] theorem refuse_code (e : Err) (s : State) : (refuse e s).code = s.code := rfl
@[simp] theorem refuse_busy (e : Err) (s : State) : (refuse e s).busy = s.busy := rfl
@[simp] theorem refuse_done (e : Err) (s : State) : (refuse e s).done = true := rfl
@[simp] theorem refuse_fv (e : Err) (s : State) : (refuse e s).fv = s.fv := rfl
@[simp] theorem refuse_tv (e : Err) (s : State) : (refuse e s).tv = s.tv := rfl
@[simp] theorem refuse_cv (e : Err) (s : State) : (refuse e s).cv = s.cv := rfl
@[simp] theorem refuse_err (e : Err) (s : State) : (refuse e s).err = e := rfl
@[simp] theorem refuse_phase (e : Err) (s : State) : (refuse e s).phase = s.phase := rfl
@[simp] theorem refuse_root (e : Err) (s : State) : (refuse e s).root = s.root := rfl
@[simp] theorem refuse_nnode (e : Err) (s : State) : (refuse e s).nnode = s.nnode := rfl
@[simp] theorem refuse_cur (e : Err) (s : State) : (refuse e s).cur = s.cur := rfl
@[simp] theorem refuse_live (e : Err) (s : State) : (refuse e s).live = s.live := rfl
@[simp] theorem refuse_pkAcc (e : Err) (s : State) : (refuse e s).pkAcc = s.pkAcc := rfl
@[simp] theorem refuse_pkCnt (e : Err) (s : State) : (refuse e s).pkCnt = s.pkCnt := rfl
@[simp] theorem refuse_upAcc (e : Err) (s : State) : (refuse e s).upAcc = s.upAcc := rfl
@[simp] theorem refuse_upCnt (e : Err) (s : State) : (refuse e s).upCnt = s.upCnt := rfl
@[simp] theorem refuse_src (e : Err) (s : State) : (refuse e s).src = s.src := rfl
@[simp] theorem refuse_pos (e : Err) (s : State) : (refuse e s).pos = s.pos := rfl
@[simp] theorem refuse_srcLater (e : Err) (s : State) : (refuse e s).srcLater = s.srcLater := rfl
@[simp] theorem refuse_out (e : Err) (s : State) : (refuse e s).out = s.out := rfl
@[simp] theorem refuse_closed (e : Err) (s : State) : (refuse e s).closed = s.closed := rfl
@[simp] theorem refuse_events (e : Err) (s : State) : (refuse e s).events = s.events := rfl
@[simp] theorem refuse_host (e : Err) (s : State) : (refuse e s).host = s.host := rfl
@[simp] theorem refuse_rdata (e : Err) (s : State) : (refuse e s).rdata = s.rdata := rfl
@[simp] theorem refuse_freeIdx (e : Err) (s : State) : (refuse e s).freeIdx = s.freeIdx := rfl

/-! ### `enterPhase` -/

@[simp] theorem enterPhase_cfg (p : BitVec 4) (s : State) : (enterPhase p s).cfg = s.cfg := rfl
@[simp] theorem enterPhase_freq (p : BitVec 4) (s : State) : (enterPhase p s).freq = s.freq := rfl
@[simp] theorem enterPhase_node (p : BitVec 4) (s : State) : (enterPhase p s).node = s.node := rfl
@[simp] theorem enterPhase_code (p : BitVec 4) (s : State) : (enterPhase p s).code = s.code := rfl
@[simp] theorem enterPhase_busy (p : BitVec 4) (s : State) : (enterPhase p s).busy = s.busy := rfl
@[simp] theorem enterPhase_done (p : BitVec 4) (s : State) : (enterPhase p s).done = s.done := rfl
@[simp] theorem enterPhase_fv (p : BitVec 4) (s : State) : (enterPhase p s).fv = s.fv := rfl
@[simp] theorem enterPhase_tv (p : BitVec 4) (s : State) : (enterPhase p s).tv = s.tv := rfl
@[simp] theorem enterPhase_cv (p : BitVec 4) (s : State) : (enterPhase p s).cv = s.cv := rfl
@[simp] theorem enterPhase_err (p : BitVec 4) (s : State) : (enterPhase p s).err = s.err := rfl
@[simp] theorem enterPhase_phase (p : BitVec 4) (s : State) : (enterPhase p s).phase = p := rfl
@[simp] theorem enterPhase_root (p : BitVec 4) (s : State) : (enterPhase p s).root = s.root := rfl
@[simp] theorem enterPhase_nnode (p : BitVec 4) (s : State) : (enterPhase p s).nnode = s.nnode := rfl
@[simp] theorem enterPhase_cur (p : BitVec 4) (s : State) : (enterPhase p s).cur = s.cur := rfl
@[simp] theorem enterPhase_live (p : BitVec 4) (s : State) : (enterPhase p s).live = s.live := rfl
@[simp] theorem enterPhase_pkAcc (p : BitVec 4) (s : State) : (enterPhase p s).pkAcc = s.pkAcc := rfl
@[simp] theorem enterPhase_pkCnt (p : BitVec 4) (s : State) : (enterPhase p s).pkCnt = s.pkCnt := rfl
@[simp] theorem enterPhase_upAcc (p : BitVec 4) (s : State) : (enterPhase p s).upAcc = s.upAcc := rfl
@[simp] theorem enterPhase_upCnt (p : BitVec 4) (s : State) : (enterPhase p s).upCnt = s.upCnt := rfl
@[simp] theorem enterPhase_src (p : BitVec 4) (s : State) : (enterPhase p s).src = s.src := rfl
@[simp] theorem enterPhase_pos (p : BitVec 4) (s : State) : (enterPhase p s).pos = s.pos := rfl
@[simp] theorem enterPhase_srcLater (p : BitVec 4) (s : State) : (enterPhase p s).srcLater = s.srcLater := rfl
@[simp] theorem enterPhase_out (p : BitVec 4) (s : State) : (enterPhase p s).out = s.out := rfl
@[simp] theorem enterPhase_closed (p : BitVec 4) (s : State) : (enterPhase p s).closed = s.closed := rfl
@[simp] theorem enterPhase_events (p : BitVec 4) (s : State) : (enterPhase p s).events = s.events := rfl
@[simp] theorem enterPhase_host (p : BitVec 4) (s : State) : (enterPhase p s).host = s.host := rfl
@[simp] theorem enterPhase_rdata (p : BitVec 4) (s : State) : (enterPhase p s).rdata = s.rdata := rfl
@[simp] theorem enterPhase_freeIdx (p : BitVec 4) (s : State) : (enterPhase p s).freeIdx = s.freeIdx := rfl

/-! ### `clearRegisters` -/

@[simp] theorem clearRegisters_cfg (s : State) : (clearRegisters s).cfg = s.cfg := rfl
@[simp] theorem clearRegisters_freq (s : State) : (clearRegisters s).freq = s.freq := rfl
@[simp] theorem clearRegisters_node (s : State) : (clearRegisters s).node = s.node := rfl
@[simp] theorem clearRegisters_code (s : State) : (clearRegisters s).code = s.code := rfl
@[simp] theorem clearRegisters_busy (s : State) : (clearRegisters s).busy = false := rfl
@[simp] theorem clearRegisters_done (s : State) : (clearRegisters s).done = false := rfl
@[simp] theorem clearRegisters_fv (s : State) : (clearRegisters s).fv = false := rfl
@[simp] theorem clearRegisters_tv (s : State) : (clearRegisters s).tv = false := rfl
@[simp] theorem clearRegisters_cv (s : State) : (clearRegisters s).cv = false := rfl
@[simp] theorem clearRegisters_err (s : State) : (clearRegisters s).err = .none := rfl
@[simp] theorem clearRegisters_phase (s : State) : (clearRegisters s).phase = 0 := rfl
@[simp] theorem clearRegisters_root (s : State) : (clearRegisters s).root = 0 := rfl
@[simp] theorem clearRegisters_nnode (s : State) : (clearRegisters s).nnode = 0 := rfl
@[simp] theorem clearRegisters_cur (s : State) : (clearRegisters s).cur = 0 := rfl
@[simp] theorem clearRegisters_live (s : State) : (clearRegisters s).live = 0 := rfl
@[simp] theorem clearRegisters_pkAcc (s : State) : (clearRegisters s).pkAcc = 0 := rfl
@[simp] theorem clearRegisters_pkCnt (s : State) : (clearRegisters s).pkCnt = 0 := rfl
@[simp] theorem clearRegisters_upAcc (s : State) : (clearRegisters s).upAcc = 0 := rfl
@[simp] theorem clearRegisters_upCnt (s : State) : (clearRegisters s).upCnt = 0 := rfl
@[simp] theorem clearRegisters_src (s : State) : (clearRegisters s).src = s.src := rfl
@[simp] theorem clearRegisters_pos (s : State) : (clearRegisters s).pos = s.pos := rfl
@[simp] theorem clearRegisters_srcLater (s : State) : (clearRegisters s).srcLater = s.srcLater := rfl
@[simp] theorem clearRegisters_out (s : State) : (clearRegisters s).out = s.out := rfl
@[simp] theorem clearRegisters_closed (s : State) : (clearRegisters s).closed = s.closed := rfl
@[simp] theorem clearRegisters_events (s : State) : (clearRegisters s).events = s.events := rfl
@[simp] theorem clearRegisters_host (s : State) : (clearRegisters s).host = s.host := rfl
@[simp] theorem clearRegisters_rdata (s : State) : (clearRegisters s).rdata = s.rdata := rfl
@[simp] theorem clearRegisters_freeIdx (s : State) : (clearRegisters s).freeIdx = s.freeIdx := rfl

/-! ### `clearFreq` -/

@[simp] theorem clearFreq_cfg (s : State) : (clearFreq s).cfg = s.cfg := rfl
@[simp] theorem clearFreq_freq (s : State) : (clearFreq s).freq = Vector.replicate 257 0 := rfl
@[simp] theorem clearFreq_node (s : State) : (clearFreq s).node = s.node := rfl
@[simp] theorem clearFreq_code (s : State) : (clearFreq s).code = s.code := rfl
@[simp] theorem clearFreq_busy (s : State) : (clearFreq s).busy = s.busy := rfl
@[simp] theorem clearFreq_done (s : State) : (clearFreq s).done = s.done := rfl
@[simp] theorem clearFreq_fv (s : State) : (clearFreq s).fv = s.fv := rfl
@[simp] theorem clearFreq_tv (s : State) : (clearFreq s).tv = s.tv := rfl
@[simp] theorem clearFreq_cv (s : State) : (clearFreq s).cv = s.cv := rfl
@[simp] theorem clearFreq_err (s : State) : (clearFreq s).err = s.err := rfl
@[simp] theorem clearFreq_phase (s : State) : (clearFreq s).phase = s.phase := rfl
@[simp] theorem clearFreq_root (s : State) : (clearFreq s).root = s.root := rfl
@[simp] theorem clearFreq_nnode (s : State) : (clearFreq s).nnode = s.nnode := rfl
@[simp] theorem clearFreq_cur (s : State) : (clearFreq s).cur = s.cur := rfl
@[simp] theorem clearFreq_live (s : State) : (clearFreq s).live = s.live := rfl
@[simp] theorem clearFreq_pkAcc (s : State) : (clearFreq s).pkAcc = s.pkAcc := rfl
@[simp] theorem clearFreq_pkCnt (s : State) : (clearFreq s).pkCnt = s.pkCnt := rfl
@[simp] theorem clearFreq_upAcc (s : State) : (clearFreq s).upAcc = s.upAcc := rfl
@[simp] theorem clearFreq_upCnt (s : State) : (clearFreq s).upCnt = s.upCnt := rfl
@[simp] theorem clearFreq_src (s : State) : (clearFreq s).src = s.src := rfl
@[simp] theorem clearFreq_pos (s : State) : (clearFreq s).pos = s.pos := rfl
@[simp] theorem clearFreq_srcLater (s : State) : (clearFreq s).srcLater = s.srcLater := rfl
@[simp] theorem clearFreq_out (s : State) : (clearFreq s).out = s.out := rfl
@[simp] theorem clearFreq_closed (s : State) : (clearFreq s).closed = s.closed := rfl
@[simp] theorem clearFreq_events (s : State) : (clearFreq s).events = s.events := rfl
@[simp] theorem clearFreq_host (s : State) : (clearFreq s).host = s.host := rfl
@[simp] theorem clearFreq_rdata (s : State) : (clearFreq s).rdata = s.rdata := rfl
@[simp] theorem clearFreq_freeIdx (s : State) : (clearFreq s).freeIdx = s.freeIdx := rfl

/-! ### `addLive` -/

@[simp] theorem addLive_cfg (h : Nat) (s : State) : (addLive h s).cfg = s.cfg := rfl
@[simp] theorem addLive_freq (h : Nat) (s : State) : (addLive h s).freq = s.freq := rfl
@[simp] theorem addLive_node (h : Nat) (s : State) : (addLive h s).node = s.node := rfl
@[simp] theorem addLive_code (h : Nat) (s : State) : (addLive h s).code = s.code := rfl
@[simp] theorem addLive_busy (h : Nat) (s : State) : (addLive h s).busy = s.busy := rfl
@[simp] theorem addLive_done (h : Nat) (s : State) : (addLive h s).done = s.done := rfl
@[simp] theorem addLive_fv (h : Nat) (s : State) : (addLive h s).fv = s.fv := rfl
@[simp] theorem addLive_tv (h : Nat) (s : State) : (addLive h s).tv = s.tv := rfl
@[simp] theorem addLive_cv (h : Nat) (s : State) : (addLive h s).cv = s.cv := rfl
@[simp] theorem addLive_err (h : Nat) (s : State) : (addLive h s).err = s.err := rfl
@[simp] theorem addLive_phase (h : Nat) (s : State) : (addLive h s).phase = s.phase := rfl
@[simp] theorem addLive_root (h : Nat) (s : State) : (addLive h s).root = s.root := rfl
@[simp] theorem addLive_nnode (h : Nat) (s : State) : (addLive h s).nnode = s.nnode := rfl
@[simp] theorem addLive_cur (h : Nat) (s : State) : (addLive h s).cur = s.cur := rfl
@[simp] theorem addLive_live (h : Nat) (s : State) : (addLive h s).live = s.live ||| narrow s.cfg.nodeCap (2 ^ h) := rfl
@[simp] theorem addLive_pkAcc (h : Nat) (s : State) : (addLive h s).pkAcc = s.pkAcc := rfl
@[simp] theorem addLive_pkCnt (h : Nat) (s : State) : (addLive h s).pkCnt = s.pkCnt := rfl
@[simp] theorem addLive_upAcc (h : Nat) (s : State) : (addLive h s).upAcc = s.upAcc := rfl
@[simp] theorem addLive_upCnt (h : Nat) (s : State) : (addLive h s).upCnt = s.upCnt := rfl
@[simp] theorem addLive_src (h : Nat) (s : State) : (addLive h s).src = s.src := rfl
@[simp] theorem addLive_pos (h : Nat) (s : State) : (addLive h s).pos = s.pos := rfl
@[simp] theorem addLive_srcLater (h : Nat) (s : State) : (addLive h s).srcLater = s.srcLater := rfl
@[simp] theorem addLive_out (h : Nat) (s : State) : (addLive h s).out = s.out := rfl
@[simp] theorem addLive_closed (h : Nat) (s : State) : (addLive h s).closed = s.closed := rfl
@[simp] theorem addLive_events (h : Nat) (s : State) : (addLive h s).events = s.events := rfl
@[simp] theorem addLive_host (h : Nat) (s : State) : (addLive h s).host = s.host := rfl
@[simp] theorem addLive_rdata (h : Nat) (s : State) : (addLive h s).rdata = s.rdata := rfl
@[simp] theorem addLive_freeIdx (h : Nat) (s : State) : (addLive h s).freeIdx = s.freeIdx := rfl

/-! ### `dropLive` -/

@[simp] theorem dropLive_cfg (h : Nat) (s : State) : (dropLive h s).cfg = s.cfg := rfl
@[simp] theorem dropLive_freq (h : Nat) (s : State) : (dropLive h s).freq = s.freq := rfl
@[simp] theorem dropLive_node (h : Nat) (s : State) : (dropLive h s).node = s.node := rfl
@[simp] theorem dropLive_code (h : Nat) (s : State) : (dropLive h s).code = s.code := rfl
@[simp] theorem dropLive_busy (h : Nat) (s : State) : (dropLive h s).busy = s.busy := rfl
@[simp] theorem dropLive_done (h : Nat) (s : State) : (dropLive h s).done = s.done := rfl
@[simp] theorem dropLive_fv (h : Nat) (s : State) : (dropLive h s).fv = s.fv := rfl
@[simp] theorem dropLive_tv (h : Nat) (s : State) : (dropLive h s).tv = s.tv := rfl
@[simp] theorem dropLive_cv (h : Nat) (s : State) : (dropLive h s).cv = s.cv := rfl
@[simp] theorem dropLive_err (h : Nat) (s : State) : (dropLive h s).err = s.err := rfl
@[simp] theorem dropLive_phase (h : Nat) (s : State) : (dropLive h s).phase = s.phase := rfl
@[simp] theorem dropLive_root (h : Nat) (s : State) : (dropLive h s).root = s.root := rfl
@[simp] theorem dropLive_nnode (h : Nat) (s : State) : (dropLive h s).nnode = s.nnode := rfl
@[simp] theorem dropLive_cur (h : Nat) (s : State) : (dropLive h s).cur = s.cur := rfl
@[simp] theorem dropLive_live (h : Nat) (s : State) : (dropLive h s).live = s.live ^^^ (s.live &&& 2 ^ h) := rfl
@[simp] theorem dropLive_pkAcc (h : Nat) (s : State) : (dropLive h s).pkAcc = s.pkAcc := rfl
@[simp] theorem dropLive_pkCnt (h : Nat) (s : State) : (dropLive h s).pkCnt = s.pkCnt := rfl
@[simp] theorem dropLive_upAcc (h : Nat) (s : State) : (dropLive h s).upAcc = s.upAcc := rfl
@[simp] theorem dropLive_upCnt (h : Nat) (s : State) : (dropLive h s).upCnt = s.upCnt := rfl
@[simp] theorem dropLive_src (h : Nat) (s : State) : (dropLive h s).src = s.src := rfl
@[simp] theorem dropLive_pos (h : Nat) (s : State) : (dropLive h s).pos = s.pos := rfl
@[simp] theorem dropLive_srcLater (h : Nat) (s : State) : (dropLive h s).srcLater = s.srcLater := rfl
@[simp] theorem dropLive_out (h : Nat) (s : State) : (dropLive h s).out = s.out := rfl
@[simp] theorem dropLive_closed (h : Nat) (s : State) : (dropLive h s).closed = s.closed := rfl
@[simp] theorem dropLive_events (h : Nat) (s : State) : (dropLive h s).events = s.events := rfl
@[simp] theorem dropLive_host (h : Nat) (s : State) : (dropLive h s).host = s.host := rfl
@[simp] theorem dropLive_rdata (h : Nat) (s : State) : (dropLive h s).rdata = s.rdata := rfl
@[simp] theorem dropLive_freeIdx (h : Nat) (s : State) : (dropLive h s).freeIdx = s.freeIdx := rfl

/-! ### `invalidateCodes` -/

@[simp] theorem invalidateCodes_cfg (s : State) : (invalidateCodes s).cfg = s.cfg := rfl
@[simp] theorem invalidateCodes_freq (s : State) : (invalidateCodes s).freq = s.freq := rfl
@[simp] theorem invalidateCodes_node (s : State) : (invalidateCodes s).node = s.node := rfl
@[simp] theorem invalidateCodes_code (s : State) : (invalidateCodes s).code = s.code.map fun c => { c with valid := false } := rfl
@[simp] theorem invalidateCodes_busy (s : State) : (invalidateCodes s).busy = s.busy := rfl
@[simp] theorem invalidateCodes_done (s : State) : (invalidateCodes s).done = s.done := rfl
@[simp] theorem invalidateCodes_fv (s : State) : (invalidateCodes s).fv = s.fv := rfl
@[simp] theorem invalidateCodes_tv (s : State) : (invalidateCodes s).tv = s.tv := rfl
@[simp] theorem invalidateCodes_cv (s : State) : (invalidateCodes s).cv = s.cv := rfl
@[simp] theorem invalidateCodes_err (s : State) : (invalidateCodes s).err = s.err := rfl
@[simp] theorem invalidateCodes_phase (s : State) : (invalidateCodes s).phase = s.phase := rfl
@[simp] theorem invalidateCodes_root (s : State) : (invalidateCodes s).root = s.root := rfl
@[simp] theorem invalidateCodes_nnode (s : State) : (invalidateCodes s).nnode = s.nnode := rfl
@[simp] theorem invalidateCodes_cur (s : State) : (invalidateCodes s).cur = s.cur := rfl
@[simp] theorem invalidateCodes_live (s : State) : (invalidateCodes s).live = s.live := rfl
@[simp] theorem invalidateCodes_pkAcc (s : State) : (invalidateCodes s).pkAcc = s.pkAcc := rfl
@[simp] theorem invalidateCodes_pkCnt (s : State) : (invalidateCodes s).pkCnt = s.pkCnt := rfl
@[simp] theorem invalidateCodes_upAcc (s : State) : (invalidateCodes s).upAcc = s.upAcc := rfl
@[simp] theorem invalidateCodes_upCnt (s : State) : (invalidateCodes s).upCnt = s.upCnt := rfl
@[simp] theorem invalidateCodes_src (s : State) : (invalidateCodes s).src = s.src := rfl
@[simp] theorem invalidateCodes_pos (s : State) : (invalidateCodes s).pos = s.pos := rfl
@[simp] theorem invalidateCodes_srcLater (s : State) : (invalidateCodes s).srcLater = s.srcLater := rfl
@[simp] theorem invalidateCodes_out (s : State) : (invalidateCodes s).out = s.out := rfl
@[simp] theorem invalidateCodes_closed (s : State) : (invalidateCodes s).closed = s.closed := rfl
@[simp] theorem invalidateCodes_events (s : State) : (invalidateCodes s).events = s.events := rfl
@[simp] theorem invalidateCodes_host (s : State) : (invalidateCodes s).host = s.host := rfl
@[simp] theorem invalidateCodes_rdata (s : State) : (invalidateCodes s).rdata = s.rdata := rfl
@[simp] theorem invalidateCodes_freeIdx (s : State) : (invalidateCodes s).freeIdx = s.freeIdx := rfl

/-! ### `moveCur` -/

@[simp] theorem moveCur_cfg (b : Bool) (s : State) : (moveCur b s).cfg = s.cfg := rfl
@[simp] theorem moveCur_freq (b : Bool) (s : State) : (moveCur b s).freq = s.freq := rfl
@[simp] theorem moveCur_node (b : Bool) (s : State) : (moveCur b s).node = s.node := rfl
@[simp] theorem moveCur_code (b : Bool) (s : State) : (moveCur b s).code = s.code := rfl
@[simp] theorem moveCur_busy (b : Bool) (s : State) : (moveCur b s).busy = s.busy := rfl
@[simp] theorem moveCur_done (b : Bool) (s : State) : (moveCur b s).done = s.done := rfl
@[simp] theorem moveCur_fv (b : Bool) (s : State) : (moveCur b s).fv = s.fv := rfl
@[simp] theorem moveCur_tv (b : Bool) (s : State) : (moveCur b s).tv = s.tv := rfl
@[simp] theorem moveCur_cv (b : Bool) (s : State) : (moveCur b s).cv = s.cv := rfl
@[simp] theorem moveCur_err (b : Bool) (s : State) : (moveCur b s).err = s.err := rfl
@[simp] theorem moveCur_phase (b : Bool) (s : State) : (moveCur b s).phase = s.phase := rfl
@[simp] theorem moveCur_root (b : Bool) (s : State) : (moveCur b s).root = s.root := rfl
@[simp] theorem moveCur_nnode (b : Bool) (s : State) : (moveCur b s).nnode = s.nnode := rfl
@[simp] theorem moveCur_cur (b : Bool) (s : State) : (moveCur b s).cur = if b then (nodeAt s s.cur).right else (nodeAt s s.cur).left := rfl
@[simp] theorem moveCur_live (b : Bool) (s : State) : (moveCur b s).live = s.live := rfl
@[simp] theorem moveCur_pkAcc (b : Bool) (s : State) : (moveCur b s).pkAcc = s.pkAcc := rfl
@[simp] theorem moveCur_pkCnt (b : Bool) (s : State) : (moveCur b s).pkCnt = s.pkCnt := rfl
@[simp] theorem moveCur_upAcc (b : Bool) (s : State) : (moveCur b s).upAcc = s.upAcc := rfl
@[simp] theorem moveCur_upCnt (b : Bool) (s : State) : (moveCur b s).upCnt = s.upCnt := rfl
@[simp] theorem moveCur_src (b : Bool) (s : State) : (moveCur b s).src = s.src := rfl
@[simp] theorem moveCur_pos (b : Bool) (s : State) : (moveCur b s).pos = s.pos := rfl
@[simp] theorem moveCur_srcLater (b : Bool) (s : State) : (moveCur b s).srcLater = s.srcLater := rfl
@[simp] theorem moveCur_out (b : Bool) (s : State) : (moveCur b s).out = s.out := rfl
@[simp] theorem moveCur_closed (b : Bool) (s : State) : (moveCur b s).closed = s.closed := rfl
@[simp] theorem moveCur_events (b : Bool) (s : State) : (moveCur b s).events = s.events := rfl
@[simp] theorem moveCur_host (b : Bool) (s : State) : (moveCur b s).host = s.host := rfl
@[simp] theorem moveCur_rdata (b : Bool) (s : State) : (moveCur b s).rdata = s.rdata := rfl
@[simp] theorem moveCur_freeIdx (b : Bool) (s : State) : (moveCur b s).freeIdx = s.freeIdx := rfl

end Sys2Proof.Machine
end

