-- ==== Sys2Proof/Laws/Frames.lean ====
section
/-! SUPPORT. What each stream operation leaves unchanged, said once as an equation of states, and its projections. -/

namespace Sys2Proof.Machine

/-- `t` differs from `s` only where writing the sink through the packer may change it. -/
def SinkFrame (s t : State) : Prop :=
  t = { s with pkAcc := t.pkAcc, pkCnt := t.pkCnt, out := t.out, events := t.events, freeIdx := t.freeIdx }

/-- `t` differs from `s` only where reading the source through the unpacker may change it. -/
def SourceFrame (s t : State) : Prop :=
  t = { s with upAcc := t.upAcc, upCnt := t.upCnt, pos := t.pos, events := t.events }

theorem SinkFrame.refl (s : State) : SinkFrame s s := rfl

theorem SinkFrame.trans {s t u : State} (h : SinkFrame s t) (k : SinkFrame t u) : SinkFrame s u := by
  unfold SinkFrame at *; rw [k, h]

theorem SourceFrame.refl (s : State) : SourceFrame s s := rfl

theorem SourceFrame.trans {s t u : State} (h : SourceFrame s t) (k : SourceFrame t u) : SourceFrame s u := by
  unfold SourceFrame at *; rw [k, h]

theorem sinkWriteByte_frame (b : Byte) (s : State) : SinkFrame s (sinkWriteByte b s) := by
  unfold SinkFrame sinkWriteByte; split <;> rfl

theorem putBit_frame (b : Bool) (s : State) : SinkFrame s (putBit b s) := by
  unfold SinkFrame putBit
  split
  · have := sinkWriteByte_frame (packBit s.pkAcc b) s
    unfold SinkFrame at this
    rw [this]
  · rfl

theorem putBitList_frame (bs : List Bool) (s : State) : SinkFrame s (putBitList bs s) := by
  induction bs generalizing s with
  | nil => rfl
  | cons b bs ih => exact (putBit_frame b s).trans (ih _)

theorem flushUpTo_frame (n : Nat) (s : State) : SinkFrame s (flushUpTo n s) := by
  induction n generalizing s with
  | zero => rfl
  | succ n ih =>
    unfold flushUpTo
    split
    · rfl
    · exact (putBit_frame false s).trans (ih _)

theorem flush_frame (s : State) : SinkFrame s (flush s) := flushUpTo_frame 8 s

theorem srcReadByte_frame (s : State) : SourceFrame s (srcReadByte s).2 := by
  unfold SourceFrame srcReadByte; split <;> rfl

theorem takeBit_frame (s : State) : SourceFrame s (takeBit s).2 := rfl

theorem getBit_frame (s : State) : SourceFrame s (getBit s).2 := by
  unfold getBit
  split
  · have h := srcReadByte_frame s
    split
    · rename_i heq; rw [heq] at h; exact h
    · rename_i x t heq
      rw [heq] at h
      exact h.trans rfl
  · rfl

theorem getBitsFrom_frame (n v : Nat) (s : State) : SourceFrame s (getBitsFrom n v s).2 := by
  induction n generalizing v s with
  | zero => rfl
  | succ n ih =>
    have h := getBit_frame s
    unfold getBitsFrom
    split
    · rename_i heq; rw [heq] at h; exact h
    · rename_i b t heq
      rw [heq] at h
      exact h.trans (ih _ _)

theorem getBits_frame (n : Nat) (s : State) : SourceFrame s (getBits n s).2 := getBitsFrom_frame n 0 s

theorem nodeAt_congr {s t : State} (h : t.node = s.node) (hc : t.cfg = s.cfg) (k : Nat) :
    nodeAt t k = nodeAt s k := by
  unfold nodeAt; rw [h, hc]

theorem codeAt_congr {s t : State} (h : t.code = s.code) (k : Nat) : codeAt t k = codeAt s k := by
  unfold codeAt; rw [h]

theorem freqAt_congr {s t : State} (h : t.freq = s.freq) (k : Nat) : freqAt t k = freqAt s k := by
  unfold freqAt; rw [h]

theorem Holds_congr {s t : State} (h : t.node = s.node) (hc : t.cfg = s.cfg) (T : HTree) : Holds t T ↔ Holds s T := by
  induction T with
  | leaf k sym => simp [Holds, nodeAt_congr h hc]
  | branch k l r ihl ihr => simp [Holds, nodeAt_congr h hc, ihl, ihr]

theorem SinkFrame.cfg {s t : State} (h : SinkFrame s t) : t.cfg = s.cfg := by rw [h]
theorem SinkFrame.freq {s t : State} (h : SinkFrame s t) : t.freq = s.freq := by rw [h]
theorem SinkFrame.node {s t : State} (h : SinkFrame s t) : t.node = s.node := by rw [h]
theorem SinkFrame.code {s t : State} (h : SinkFrame s t) : t.code = s.code := by rw [h]
theorem SinkFrame.busy {s t : State} (h : SinkFrame s t) : t.busy = s.busy := by rw [h]
theorem SinkFrame.done {s t : State} (h : SinkFrame s t) : t.done = s.done := by rw [h]
theorem SinkFrame.fv {s t : State} (h : SinkFrame s t) : t.fv = s.fv := by rw [h]
theorem SinkFrame.tv {s t : State} (h : SinkFrame s t) : t.tv = s.tv := by rw [h]
theorem SinkFrame.cv {s t : State} (h : SinkFrame s t) : t.cv = s.cv := by rw [h]
theorem SinkFrame.err {s t : State} (h : SinkFrame s t) : t.err = s.err := by rw [h]
theorem SinkFrame.phase {s t : State} (h : SinkFrame s t) : t.phase = s.phase := by rw [h]
theorem SinkFrame.root {s t : State} (h : SinkFrame s t) : t.root = s.root := by rw [h]
theorem SinkFrame.nnode {s t : State} (h : SinkFrame s t) : t.nnode = s.nnode := by rw [h]
theorem SinkFrame.cur {s t : State} (h : SinkFrame s t) : t.cur = s.cur := by rw [h]
theorem SinkFrame.live {s t : State} (h : SinkFrame s t) : t.live = s.live := by rw [h]
theorem SinkFrame.upAcc {s t : State} (h : SinkFrame s t) : t.upAcc = s.upAcc := by rw [h]
theorem SinkFrame.upCnt {s t : State} (h : SinkFrame s t) : t.upCnt = s.upCnt := by rw [h]
theorem SinkFrame.src {s t : State} (h : SinkFrame s t) : t.src = s.src := by rw [h]
theorem SinkFrame.pos {s t : State} (h : SinkFrame s t) : t.pos = s.pos := by rw [h]
theorem SinkFrame.srcLater {s t : State} (h : SinkFrame s t) : t.srcLater = s.srcLater := by rw [h]
theorem SinkFrame.closed {s t : State} (h : SinkFrame s t) : t.closed = s.closed := by rw [h]
theorem SinkFrame.host {s t : State} (h : SinkFrame s t) : t.host = s.host := by rw [h]
theorem SinkFrame.rdata {s t : State} (h : SinkFrame s t) : t.rdata = s.rdata := by rw [h]
theorem SourceFrame.cfg {s t : State} (h : SourceFrame s t) : t.cfg = s.cfg := by rw [h]
theorem SourceFrame.freq {s t : State} (h : SourceFrame s t) : t.freq = s.freq := by rw [h]
theorem SourceFrame.node {s t : State} (h : SourceFrame s t) : t.node = s.node := by rw [h]
theorem SourceFrame.code {s t : State} (h : SourceFrame s t) : t.code = s.code := by rw [h]
theorem SourceFrame.busy {s t : State} (h : SourceFrame s t) : t.busy = s.busy := by rw [h]
theorem SourceFrame.done {s t : State} (h : SourceFrame s t) : t.done = s.done := by rw [h]
theorem SourceFrame.fv {s t : State} (h : SourceFrame s t) : t.fv = s.fv := by rw [h]
theorem SourceFrame.tv {s t : State} (h : SourceFrame s t) : t.tv = s.tv := by rw [h]
theorem SourceFrame.cv {s t : State} (h : SourceFrame s t) : t.cv = s.cv := by rw [h]
theorem SourceFrame.err {s t : State} (h : SourceFrame s t) : t.err = s.err := by rw [h]
theorem SourceFrame.phase {s t : State} (h : SourceFrame s t) : t.phase = s.phase := by rw [h]
theorem SourceFrame.root {s t : State} (h : SourceFrame s t) : t.root = s.root := by rw [h]
theorem SourceFrame.nnode {s t : State} (h : SourceFrame s t) : t.nnode = s.nnode := by rw [h]
theorem SourceFrame.cur {s t : State} (h : SourceFrame s t) : t.cur = s.cur := by rw [h]
theorem SourceFrame.live {s t : State} (h : SourceFrame s t) : t.live = s.live := by rw [h]
theorem SourceFrame.pkAcc {s t : State} (h : SourceFrame s t) : t.pkAcc = s.pkAcc := by rw [h]
theorem SourceFrame.pkCnt {s t : State} (h : SourceFrame s t) : t.pkCnt = s.pkCnt := by rw [h]
theorem SourceFrame.src {s t : State} (h : SourceFrame s t) : t.src = s.src := by rw [h]
theorem SourceFrame.srcLater {s t : State} (h : SourceFrame s t) : t.srcLater = s.srcLater := by rw [h]
theorem SourceFrame.out {s t : State} (h : SourceFrame s t) : t.out = s.out := by rw [h]
theorem SourceFrame.closed {s t : State} (h : SourceFrame s t) : t.closed = s.closed := by rw [h]
theorem SourceFrame.host {s t : State} (h : SourceFrame s t) : t.host = s.host := by rw [h]
theorem SourceFrame.rdata {s t : State} (h : SourceFrame s t) : t.rdata = s.rdata := by rw [h]
theorem SourceFrame.freeIdx {s t : State} (h : SourceFrame s t) : t.freeIdx = s.freeIdx := by rw [h]

@[simp] theorem sinkWriteByte_cfg (b : Byte) (s : State) : (sinkWriteByte b s).cfg = s.cfg :=
  (sinkWriteByte_frame b s).cfg
@[simp] theorem sinkWriteByte_freq (b : Byte) (s : State) : (sinkWriteByte b s).freq = s.freq :=
  (sinkWriteByte_frame b s).freq
@[simp] theorem sinkWriteByte_node (b : Byte) (s : State) : (sinkWriteByte b s).node = s.node :=
  (sinkWriteByte_frame b s).node
@[simp] theorem sinkWriteByte_code (b : Byte) (s : State) : (sinkWriteByte b s).code = s.code :=
  (sinkWriteByte_frame b s).code
@[simp] theorem sinkWriteByte_busy (b : Byte) (s : State) : (sinkWriteByte b s).busy = s.busy :=
  (sinkWriteByte_frame b s).busy
@[simp] theorem sinkWriteByte_done (b : Byte) (s : State) : (sinkWriteByte b s).done = s.done :=
  (sinkWriteByte_frame b s).done
@[simp] theorem sinkWriteByte_fv (b : Byte) (s : State) : (sinkWriteByte b s).fv = s.fv :=
  (sinkWriteByte_frame b s).fv
@[simp] theorem sinkWriteByte_tv (b : Byte) (s : State) : (sinkWriteByte b s).tv = s.tv :=
  (sinkWriteByte_frame b s).tv
@[simp] theorem sinkWriteByte_cv (b : Byte) (s : State) : (sinkWriteByte b s).cv = s.cv :=
  (sinkWriteByte_frame b s).cv
@[simp] theorem sinkWriteByte_err (b : Byte) (s : State) : (sinkWriteByte b s).err = s.err :=
  (sinkWriteByte_frame b s).err
@[simp] theorem sinkWriteByte_phase (b : Byte) (s : State) : (sinkWriteByte b s).phase = s.phase :=
  (sinkWriteByte_frame b s).phase
@[simp] theorem sinkWriteByte_root (b : Byte) (s : State) : (sinkWriteByte b s).root = s.root :=
  (sinkWriteByte_frame b s).root
@[simp] theorem sinkWriteByte_nnode (b : Byte) (s : State) : (sinkWriteByte b s).nnode = s.nnode :=
  (sinkWriteByte_frame b s).nnode
@[simp] theorem sinkWriteByte_cur (b : Byte) (s : State) : (sinkWriteByte b s).cur = s.cur :=
  (sinkWriteByte_frame b s).cur
@[simp] theorem sinkWriteByte_live (b : Byte) (s : State) : (sinkWriteByte b s).live = s.live :=
  (sinkWriteByte_frame b s).live
@[simp] theorem sinkWriteByte_upAcc (b : Byte) (s : State) : (sinkWriteByte b s).upAcc = s.upAcc :=
  (sinkWriteByte_frame b s).upAcc
@[simp] theorem sinkWriteByte_upCnt (b : Byte) (s : State) : (sinkWriteByte b s).upCnt = s.upCnt :=
  (sinkWriteByte_frame b s).upCnt
@[simp] theorem sinkWriteByte_src (b : Byte) (s : State) : (sinkWriteByte b s).src = s.src :=
  (sinkWriteByte_frame b s).src
@[simp] theorem sinkWriteByte_pos (b : Byte) (s : State) : (sinkWriteByte b s).pos = s.pos :=
  (sinkWriteByte_frame b s).pos
@[simp] theorem sinkWriteByte_srcLater (b : Byte) (s : State) : (sinkWriteByte b s).srcLater = s.srcLater :=
  (sinkWriteByte_frame b s).srcLater
@[simp] theorem sinkWriteByte_closed (b : Byte) (s : State) : (sinkWriteByte b s).closed = s.closed :=
  (sinkWriteByte_frame b s).closed
@[simp] theorem sinkWriteByte_host (b : Byte) (s : State) : (sinkWriteByte b s).host = s.host :=
  (sinkWriteByte_frame b s).host
@[simp] theorem sinkWriteByte_rdata (b : Byte) (s : State) : (sinkWriteByte b s).rdata = s.rdata :=
  (sinkWriteByte_frame b s).rdata

@[simp] theorem putBit_cfg (b : Bool) (s : State) : (putBit b s).cfg = s.cfg :=
  (putBit_frame b s).cfg
@[simp] theorem putBit_freq (b : Bool) (s : State) : (putBit b s).freq = s.freq :=
  (putBit_frame b s).freq
@[simp] theorem putBit_node (b : Bool) (s : State) : (putBit b s).node = s.node :=
  (putBit_frame b s).node
@[simp] theorem putBit_code (b : Bool) (s : State) : (putBit b s).code = s.code :=
  (putBit_frame b s).code
@[simp] theorem putBit_busy (b : Bool) (s : State) : (putBit b s).busy = s.busy :=
  (putBit_frame b s).busy
@[simp] theorem putBit_done (b : Bool) (s : State) : (putBit b s).done = s.done :=
  (putBit_frame b s).done
@[simp] theorem putBit_fv (b : Bool) (s : State) : (putBit b s).fv = s.fv :=
  (putBit_frame b s).fv
@[simp] theorem putBit_tv (b : Bool) (s : State) : (putBit b s).tv = s.tv :=
  (putBit_frame b s).tv
@[simp] theorem putBit_cv (b : Bool) (s : State) : (putBit b s).cv = s.cv :=
  (putBit_frame b s).cv
@[simp] theorem putBit_err (b : Bool) (s : State) : (putBit b s).err = s.err :=
  (putBit_frame b s).err
@[simp] theorem putBit_phase (b : Bool) (s : State) : (putBit b s).phase = s.phase :=
  (putBit_frame b s).phase
@[simp] theorem putBit_root (b : Bool) (s : State) : (putBit b s).root = s.root :=
  (putBit_frame b s).root
@[simp] theorem putBit_nnode (b : Bool) (s : State) : (putBit b s).nnode = s.nnode :=
  (putBit_frame b s).nnode
@[simp] theorem putBit_cur (b : Bool) (s : State) : (putBit b s).cur = s.cur :=
  (putBit_frame b s).cur
@[simp] theorem putBit_live (b : Bool) (s : State) : (putBit b s).live = s.live :=
  (putBit_frame b s).live
@[simp] theorem putBit_upAcc (b : Bool) (s : State) : (putBit b s).upAcc = s.upAcc :=
  (putBit_frame b s).upAcc
@[simp] theorem putBit_upCnt (b : Bool) (s : State) : (putBit b s).upCnt = s.upCnt :=
  (putBit_frame b s).upCnt
@[simp] theorem putBit_src (b : Bool) (s : State) : (putBit b s).src = s.src :=
  (putBit_frame b s).src
@[simp] theorem putBit_pos (b : Bool) (s : State) : (putBit b s).pos = s.pos :=
  (putBit_frame b s).pos
@[simp] theorem putBit_srcLater (b : Bool) (s : State) : (putBit b s).srcLater = s.srcLater :=
  (putBit_frame b s).srcLater
@[simp] theorem putBit_closed (b : Bool) (s : State) : (putBit b s).closed = s.closed :=
  (putBit_frame b s).closed
@[simp] theorem putBit_host (b : Bool) (s : State) : (putBit b s).host = s.host :=
  (putBit_frame b s).host
@[simp] theorem putBit_rdata (b : Bool) (s : State) : (putBit b s).rdata = s.rdata :=
  (putBit_frame b s).rdata

@[simp] theorem putBitList_cfg (bs : List Bool) (s : State) : (putBitList bs s).cfg = s.cfg :=
  (putBitList_frame bs s).cfg
@[simp] theorem putBitList_freq (bs : List Bool) (s : State) : (putBitList bs s).freq = s.freq :=
  (putBitList_frame bs s).freq
@[simp] theorem putBitList_node (bs : List Bool) (s : State) : (putBitList bs s).node = s.node :=
  (putBitList_frame bs s).node
@[simp] theorem putBitList_code (bs : List Bool) (s : State) : (putBitList bs s).code = s.code :=
  (putBitList_frame bs s).code
@[simp] theorem putBitList_busy (bs : List Bool) (s : State) : (putBitList bs s).busy = s.busy :=
  (putBitList_frame bs s).busy
@[simp] theorem putBitList_done (bs : List Bool) (s : State) : (putBitList bs s).done = s.done :=
  (putBitList_frame bs s).done
@[simp] theorem putBitList_fv (bs : List Bool) (s : State) : (putBitList bs s).fv = s.fv :=
  (putBitList_frame bs s).fv
@[simp] theorem putBitList_tv (bs : List Bool) (s : State) : (putBitList bs s).tv = s.tv :=
  (putBitList_frame bs s).tv
@[simp] theorem putBitList_cv (bs : List Bool) (s : State) : (putBitList bs s).cv = s.cv :=
  (putBitList_frame bs s).cv
@[simp] theorem putBitList_err (bs : List Bool) (s : State) : (putBitList bs s).err = s.err :=
  (putBitList_frame bs s).err
@[simp] theorem putBitList_phase (bs : List Bool) (s : State) : (putBitList bs s).phase = s.phase :=
  (putBitList_frame bs s).phase
@[simp] theorem putBitList_root (bs : List Bool) (s : State) : (putBitList bs s).root = s.root :=
  (putBitList_frame bs s).root
@[simp] theorem putBitList_nnode (bs : List Bool) (s : State) : (putBitList bs s).nnode = s.nnode :=
  (putBitList_frame bs s).nnode
@[simp] theorem putBitList_cur (bs : List Bool) (s : State) : (putBitList bs s).cur = s.cur :=
  (putBitList_frame bs s).cur
@[simp] theorem putBitList_live (bs : List Bool) (s : State) : (putBitList bs s).live = s.live :=
  (putBitList_frame bs s).live
@[simp] theorem putBitList_upAcc (bs : List Bool) (s : State) : (putBitList bs s).upAcc = s.upAcc :=
  (putBitList_frame bs s).upAcc
@[simp] theorem putBitList_upCnt (bs : List Bool) (s : State) : (putBitList bs s).upCnt = s.upCnt :=
  (putBitList_frame bs s).upCnt
@[simp] theorem putBitList_src (bs : List Bool) (s : State) : (putBitList bs s).src = s.src :=
  (putBitList_frame bs s).src
@[simp] theorem putBitList_pos (bs : List Bool) (s : State) : (putBitList bs s).pos = s.pos :=
  (putBitList_frame bs s).pos
@[simp] theorem putBitList_srcLater (bs : List Bool) (s : State) : (putBitList bs s).srcLater = s.srcLater :=
  (putBitList_frame bs s).srcLater
@[simp] theorem putBitList_closed (bs : List Bool) (s : State) : (putBitList bs s).closed = s.closed :=
  (putBitList_frame bs s).closed
@[simp] theorem putBitList_host (bs : List Bool) (s : State) : (putBitList bs s).host = s.host :=
  (putBitList_frame bs s).host
@[simp] theorem putBitList_rdata (bs : List Bool) (s : State) : (putBitList bs s).rdata = s.rdata :=
  (putBitList_frame bs s).rdata

@[simp] theorem flush_cfg (s : State) : (flush s).cfg = s.cfg :=
  (flush_frame s).cfg
@[simp] theorem flush_freq (s : State) : (flush s).freq = s.freq :=
  (flush_frame s).freq
@[simp] theorem flush_node (s : State) : (flush s).node = s.node :=
  (flush_frame s).node
@[simp] theorem flush_code (s : State) : (flush s).code = s.code :=
  (flush_frame s).code
@[simp] theorem flush_busy (s : State) : (flush s).busy = s.busy :=
  (flush_frame s).busy
@[simp] theorem flush_done (s : State) : (flush s).done = s.done :=
  (flush_frame s).done
@[simp] theorem flush_fv (s : State) : (flush s).fv = s.fv :=
  (flush_frame s).fv
@[simp] theorem flush_tv (s : State) : (flush s).tv = s.tv :=
  (flush_frame s).tv
@[simp] theorem flush_cv (s : State) : (flush s).cv = s.cv :=
  (flush_frame s).cv
@[simp] theorem flush_err (s : State) : (flush s).err = s.err :=
  (flush_frame s).err
@[simp] theorem flush_phase (s : State) : (flush s).phase = s.phase :=
  (flush_frame s).phase
@[simp] theorem flush_root (s : State) : (flush s).root = s.root :=
  (flush_frame s).root
@[simp] theorem flush_nnode (s : State) : (flush s).nnode = s.nnode :=
  (flush_frame s).nnode
@[simp] theorem flush_cur (s : State) : (flush s).cur = s.cur :=
  (flush_frame s).cur
@[simp] theorem flush_live (s : State) : (flush s).live = s.live :=
  (flush_frame s).live
@[simp] theorem flush_upAcc (s : State) : (flush s).upAcc = s.upAcc :=
  (flush_frame s).upAcc
@[simp] theorem flush_upCnt (s : State) : (flush s).upCnt = s.upCnt :=
  (flush_frame s).upCnt
@[simp] theorem flush_src (s : State) : (flush s).src = s.src :=
  (flush_frame s).src
@[simp] theorem flush_pos (s : State) : (flush s).pos = s.pos :=
  (flush_frame s).pos
@[simp] theorem flush_srcLater (s : State) : (flush s).srcLater = s.srcLater :=
  (flush_frame s).srcLater
@[simp] theorem flush_closed (s : State) : (flush s).closed = s.closed :=
  (flush_frame s).closed
@[simp] theorem flush_host (s : State) : (flush s).host = s.host :=
  (flush_frame s).host
@[simp] theorem flush_rdata (s : State) : (flush s).rdata = s.rdata :=
  (flush_frame s).rdata

end Sys2Proof.Machine
end

