-- ==== Sys2Proof/Laws/Sink.lean ====
section
/-! SUPPORT. The sink as one growing bit string: what `PutBit`, a list of bits and `Flush` do (spec 20_memory R36 to
R39). -/

namespace Sys2Proof.Machine

theorem packBit_toNat (acc : BitVec 8) (b : Bool) : (packBit acc b).toNat = (2 * acc.toNat + b.toNat) % 256 := by
  revert acc b; decide

theorem bytesBits_append (xs ys : List Byte) : bytesBits (xs ++ ys) = bytesBits xs ++ bytesBits ys := by
  simp [bytesBits]

theorem bytesBits_cons (x : Byte) (xs : List Byte) : bytesBits (x :: xs) = bitsOf 8 x.toNat ++ bytesBits xs := rfl

@[simp] theorem bytesBits_length (xs : List Byte) : (bytesBits xs).length = 8 * xs.length := by
  induction xs with
  | nil => rfl
  | cons x xs ih => rw [bytesBits_cons, List.length_append, ih, bitsOf_length, List.length_cons]; omega

theorem bitsOf_byte_inj {x y : Byte} (h : bitsOf 8 x.toNat = bitsOf 8 y.toNat) : x = y := by
  have h' := congrArg valOf h
  rw [valOf_bitsOf, valOf_bitsOf, Nat.mod_eq_of_lt x.isLt, Nat.mod_eq_of_lt y.isLt] at h'
  exact BitVec.eq_of_toNat_eq h'

/-- Bytes are told by their bits. -/
theorem bytesBits_inj {xs ys : List Byte} (h : bytesBits xs = bytesBits ys) : xs = ys := by
  induction xs generalizing ys with
  | nil =>
    have := congrArg List.length h
    rw [bytesBits_length, bytesBits_length] at this
    exact (List.length_eq_zero_iff.mp (by simp at this; simpa using this)).symm
  | cons x xs ih =>
    cases ys with
    | nil => have := congrArg List.length h; rw [bytesBits_length, bytesBits_length] at this; simp at this
    | cons y ys =>
      rw [bytesBits_cons, bytesBits_cons] at h
      obtain ⟨h1, h2⟩ := List.append_inj h (by simp)
      rw [bitsOf_byte_inj h1, ih h2]

/-- `PutBit` appends one bit to what has been written (R36, R37). -/
theorem sinkBits_putBit (b : Bool) (s : State) (ho : s.closed = false) : sinkBits (putBit b s) = sinkBits s ++ [b] := by
  unfold putBit
  split
  · rename_i h
    have hb : bitsOf 8 (packBit s.pkAcc b).toNat = bitsOf 7 s.pkAcc.toNat ++ [b] := by
      rw [packBit_toNat, ← bitsOf_snoc]
      exact bitsOf_mod (n := 8) (m := 8) (Nat.le_refl _) _
    have ho' : (sinkWriteByte (packBit s.pkAcc b) s).out = s.out ++ [packBit s.pkAcc b] := by
      simp [sinkWriteByte, ho]
    have h7 : s.pkCnt.toNat = 7 := by rw [h]; rfl
    have hnil : bytesBits [packBit s.pkAcc b] = bitsOf 8 (packBit s.pkAcc b).toNat := by
      rw [bytesBits_cons]; simp [bytesBits]
    show bytesBits (sinkWriteByte (packBit s.pkAcc b) s).out ++ bitsOf 0 0 = _
    rw [ho', bytesBits_append, hnil, hb, sinkBits, h7]
    simp only [bitsOf, List.append_nil, List.append_assoc]
  · rename_i h
    have hc : (s.pkCnt + 1).toNat = s.pkCnt.toNat + 1 := by
      have := s.pkCnt.isLt
      have hne : s.pkCnt.toNat ≠ 7 := fun hh => h (BitVec.eq_of_toNat_eq hh)
      rw [BitVec.toNat_add]; simp; omega
    have hb : bitsOf (s.pkCnt.toNat + 1) (packBit s.pkAcc b).toNat = bitsOf s.pkCnt.toNat s.pkAcc.toNat ++ [b] := by
      rw [packBit_toNat, ← bitsOf_snoc]
      exact bitsOf_mod (m := 8) (by have := s.pkCnt.isLt; omega) _
    show bytesBits s.out ++ bitsOf (s.pkCnt + 1).toNat (packBit s.pkAcc b).toNat = _
    rw [hc, hb, sinkBits, List.append_assoc]

/-- A list of bits is appended in order. -/
theorem sinkBits_putBitList (bs : List Bool) (s : State) (ho : s.closed = false) :
    sinkBits (putBitList bs s) = sinkBits s ++ bs := by
  induction bs generalizing s with
  | nil => simp [putBitList]
  | cons b bs ih =>
    show sinkBits (putBitList bs (putBit b s)) = _
    rw [ih _ (by simp [ho]), sinkBits_putBit b s ho, List.append_assoc]; rfl

theorem putBitList_append (xs ys : List Bool) (s : State) :
    putBitList (xs ++ ys) s = putBitList ys (putBitList xs s) := by
  induction xs generalizing s with
  | nil => rfl
  | cons x xs ih => exact ih _

/-- The packer keeps only waiting bits. -/
theorem putBit_packer (b : Bool) (s : State) (h : s.pkAcc.toNat < 2 ^ s.pkCnt.toNat) :
    (putBit b s).pkAcc.toNat < 2 ^ (putBit b s).pkCnt.toNat := by
  unfold putBit
  split
  · simp
  · rename_i h7
    have hc : (s.pkCnt + 1).toNat = s.pkCnt.toNat + 1 := by
      have := s.pkCnt.isLt
      have hne : s.pkCnt.toNat ≠ 7 := fun hh => h7 (BitVec.eq_of_toNat_eq hh)
      rw [BitVec.toNat_add]; simp; omega
    show (packBit s.pkAcc b).toNat < 2 ^ (s.pkCnt + 1).toNat
    rw [hc, packBit_toNat, pow_succ]
    refine lt_of_le_of_lt (Nat.mod_le _ _) ?_
    have : b.toNat < 2 := by cases b <;> simp
    omega

theorem putBitList_packer (bs : List Bool) (s : State) (h : s.pkAcc.toNat < 2 ^ s.pkCnt.toNat) :
    (putBitList bs s).pkAcc.toNat < 2 ^ (putBitList bs s).pkCnt.toNat := by
  induction bs generalizing s with
  | nil => exact h
  | cons b bs ih => exact ih _ (putBit_packer b s h)

theorem putBit_pkCnt (b : Bool) (s : State) : (putBit b s).pkCnt.toNat = (s.pkCnt.toNat + 1) % 8 := by
  unfold putBit
  split
  · rename_i h; simp [h]
  · simp [BitVec.toNat_add]

theorem putBitList_pkCnt (bs : List Bool) (s : State) :
    (putBitList bs s).pkCnt.toNat = (s.pkCnt.toNat + bs.length) % 8 := by
  induction bs generalizing s with
  | nil => simp only [putBitList, List.length_nil, Nat.add_zero]; exact (Nat.mod_eq_of_lt s.pkCnt.isLt).symm
  | cons b bs ih =>
    show (putBitList bs (putBit b s)).pkCnt.toNat = _
    rw [ih, putBit_pkCnt, List.length_cons]; omega

theorem flushUpTo_eq (n : Nat) (s : State) (h : (8 - s.pkCnt.toNat) % 8 ≤ n) :
    flushUpTo n s = putBitList (List.replicate ((8 - s.pkCnt.toNat) % 8) false) s := by
  induction n generalizing s with
  | zero => rw [Nat.le_zero.mp h]; rfl
  | succ n ih =>
    unfold flushUpTo
    split
    · rename_i h0; rw [h0]; rfl
    · rename_i h0
      have hlt := s.pkCnt.isLt
      have hne : s.pkCnt.toNat ≠ 0 := fun hh => h0 (BitVec.eq_of_toNat_eq hh)
      have hk := putBit_pkCnt false s
      rw [ih (putBit false s) (by rw [hk]; omega), hk]
      have : (8 - s.pkCnt.toNat) % 8 = (8 - (s.pkCnt.toNat + 1) % 8) % 8 + 1 := by omega
      rw [this, List.replicate_succ]
      rfl

/-- `Flush` writes the 0 to 7 zero bits that complete the byte (R39). -/
theorem flush_eq (s : State) : flush s = putBitList (List.replicate ((8 - s.pkCnt.toNat) % 8) false) s :=
  flushUpTo_eq 8 s (by omega)

theorem flush_pkCnt (s : State) : (flush s).pkCnt = 0 := by
  apply BitVec.eq_of_toNat_eq
  have hlt := s.pkCnt.isLt
  rw [flush_eq, putBitList_pkCnt, List.length_replicate]
  show _ = 0
  omega

theorem flush_pkAcc (s : State) (h : s.pkAcc.toNat < 2 ^ s.pkCnt.toNat) : (flush s).pkAcc = 0 := by
  have h1 := putBitList_packer (List.replicate ((8 - s.pkCnt.toNat) % 8) false) s h
  rw [← flush_eq, flush_pkCnt] at h1
  apply BitVec.eq_of_toNat_eq
  simpa using h1

/-- How many bits wait is how many bits have been written beyond whole bytes. -/
theorem sinkBits_mod (s : State) : (sinkBits s).length % 8 = s.pkCnt.toNat := by
  have := s.pkCnt.isLt
  rw [sinkBits, List.length_append, bytesBits_length, bitsOf_length]
  omega

/-- `Flush` pads what has been written to whole bytes (R39, 30_encoding R57). -/
theorem sinkBits_flush (s : State) (ho : s.closed = false) :
    sinkBits (flush s) = sinkBits s ++ padding (sinkBits s).length := by
  rw [flush_eq, sinkBits_putBitList _ _ ho, padding, sinkBits_mod]

/-- With no bit waiting, what has been written is the sink's bytes. -/
theorem sinkBits_of_empty (s : State) (h : s.pkCnt = 0) : sinkBits s = bytesBits s.out := by
  simp [sinkBits, h, bitsOf]

end Sys2Proof.Machine
end

