-- ==== Sys2Proof/Laws/Source.lean ====
section
/-! SUPPORT. The source as one bit string: what `SrcReadByte`, `GetBit` and `GetBits` do (spec 20_memory R30, R40,
R41). -/

namespace Sys2Proof.Machine

/-- A read before the end gives the next byte. -/
theorem srcReadByte_cons {s : State} {x : Byte} {rest : List Byte} (h : s.src.drop s.pos = x :: rest) :
    srcReadByte s = (some x, { s with pos := s.pos + 1, events := .read (some x) :: s.events }) ∧
      s.src.drop (s.pos + 1) = rest := by
  have h1 : s.src[s.pos]? = some x := by
    have := congrArg (fun l => l[0]?) h
    simpa using this
  refine ⟨by simp [srcReadByte, h1], ?_⟩
  have := congrArg List.tail h
  simpa using this

/-- A read at the end gives `EOS`. -/
theorem srcReadByte_nil {s : State} (h : s.src.drop s.pos = []) :
    srcReadByte s = (none, { s with events := .read none :: s.events }) := by
  have h1 : s.src[s.pos]? = none := by
    have := congrArg (fun l => l[0]?) h
    simpa using this
  simp [srcReadByte, h1]

theorem srcLeft_eq (s : State) : srcLeft s = (s.src.drop s.pos).length := by simp [srcLeft]

theorem bitsOf8_shift (v : BitVec 8) : bitsOf 8 (v <<< 1).toNat = (bitsOf 8 v.toNat).tail ++ [false] := by
  revert v; decide

theorem bitsOf8_head (v : BitVec 8) : (bitsOf 8 v.toNat).head? = some (v.getLsbD 7) := by revert v; decide

/-- Taking one of the unpacker's bits. -/
theorem takeBit_spec {s : State} (h0 : s.upCnt ≠ 0) (h8 : s.upCnt.toNat ≤ 8) :
    ∃ b t, takeBit s = (some b, t) ∧ sourceBits s = b :: sourceBits t ∧ t.upCnt.toNat ≤ 8 := by
  refine ⟨_, _, rfl, ?_, ?_⟩
  · have hpos : s.upCnt.toNat ≠ 0 := fun hh => h0 (BitVec.eq_of_toNat_eq hh)
    have hc : (s.upCnt - 1).toNat = s.upCnt.toNat - 1 := by
      rw [BitVec.toNat_sub]; simp; omega
    simp only [sourceBits, hc, bitsOf8_shift]
    obtain ⟨n, hn⟩ : ∃ n, s.upCnt.toNat = n + 1 := ⟨s.upCnt.toNat - 1, by omega⟩
    have hh := bitsOf8_head s.upAcc
    have hl := bitsOf_length 8 s.upAcc.toNat
    rw [hn]
    revert hh hl
    generalize bitsOf 8 s.upAcc.toNat = L
    intro hh hl
    cases L with
    | nil => simp at hl
    | cons a L =>
      simp only [List.head?_cons, Option.some.injEq] at hh
      simp only [List.length_cons] at hl
      simp only [List.take_succ_cons, List.tail_cons, Nat.add_sub_cancel, List.cons_append, hh]
      rw [List.take_append_of_le_length (by omega)]
  · show (s.upCnt - 1).toNat ≤ 8
    have hpos : s.upCnt.toNat ≠ 0 := fun hh => h0 (BitVec.eq_of_toNat_eq hh)
    rw [BitVec.toNat_sub]; simp; omega

/-- `GetBit` on a source with a bit left (R40). -/
theorem getBit_some {s : State} {b : Bool} {rest : List Bool} (h8 : s.upCnt.toNat ≤ 8)
    (h : sourceBits s = b :: rest) :
    ∃ t, getBit s = (some b, t) ∧ sourceBits t = rest ∧ t.upCnt.toNat ≤ 8 := by
  unfold getBit
  split
  · rename_i h0
    cases hd : s.src.drop s.pos with
    | nil => simp [sourceBits, h0, hd, bytesBits] at h
    | cons x xs =>
      obtain ⟨hr, hx⟩ := srcReadByte_cons hd
      rw [hr]
      obtain ⟨b', t, ht, hs, hu⟩ := takeBit_spec
        (s := { s with pos := s.pos + 1, events := .read (some x) :: s.events, upAcc := x, upCnt := 8 })
        (by simp) (by simp)
      refine ⟨t, ?_, ?_, hu⟩
      all_goals
        have heq : sourceBits
            { s with pos := s.pos + 1, events := .read (some x) :: s.events, upAcc := x, upCnt := 8 } =
            sourceBits s := by
          simp [sourceBits, h0, hd, hx, bytesBits, List.take_of_length_le]
        rw [heq, h] at hs
        obtain ⟨e1, e2⟩ := List.cons.inj hs
      · rw [e1]; exact ht
      · exact e2.symm
  · rename_i h0
    obtain ⟨b', t, ht, hs, hu⟩ := takeBit_spec h0 h8
    rw [h] at hs
    obtain ⟨e1, e2⟩ := List.cons.inj hs
    exact ⟨t, by rw [e1]; exact ht, e2.symm, hu⟩

/-- `GetBit` at the end of the source (R40). -/
theorem getBit_none {s : State} (h8 : s.upCnt.toNat ≤ 8) (h : sourceBits s = []) :
    getBit s = (none, { s with events := .read none :: s.events }) ∧ s.upCnt = 0 ∧ s.src.drop s.pos = [] := by
  have h0 : s.upCnt = 0 := by
    by_contra hne
    obtain ⟨b, t, _, hs, _⟩ := takeBit_spec hne h8
    rw [h] at hs; exact absurd hs (by simp)
  have hd : s.src.drop s.pos = [] := by
    simp only [sourceBits, List.append_eq_nil_iff] at h
    have := congrArg List.length h.2
    rw [bytesBits_length] at this
    exact List.length_eq_zero_iff.mp (by simpa using this)
  refine ⟨?_, h0, hd⟩
  unfold getBit
  rw [if_pos (show s.upCnt = 0#4 from h0), srcReadByte_nil hd]

/-- After a bit has been taken at most seven wait: a byte is fetched only when none does (R40). -/
theorem getBit_upCnt {s t : State} {b : Bool} (h : getBit s = (some b, t)) (h8 : s.upCnt.toNat ≤ 8) :
    t.upCnt.toNat ≤ 7 ∧ 8 * t.pos + s.upCnt.toNat = 8 * s.pos + t.upCnt.toNat + 1 := by
  have hsub : ∀ c : BitVec 4, c ≠ 0 → c.toNat ≤ 8 → (c - 1).toNat + 1 = c.toNat := by decide
  unfold getBit at h
  split at h
  · rename_i h0
    cases hd : s.src.drop s.pos with
    | nil => rw [srcReadByte_nil hd] at h; simp at h
    | cons x xs =>
      rw [(srcReadByte_cons hd).1] at h
      simp only [takeBit, Prod.mk.injEq] at h
      rw [← h.2, h0]
      show (8 - 1 : BitVec 4).toNat ≤ 7 ∧ 8 * (s.pos + 1) + 0 = 8 * s.pos + (8 - 1 : BitVec 4).toNat + 1
      have : (8 - 1 : BitVec 4).toNat = 7 := by decide
      omega
  · rename_i h0
    simp only [takeBit, Prod.mk.injEq] at h
    rw [← h.2]
    have := hsub s.upCnt h0 h8
    show (s.upCnt - 1).toNat ≤ 7 ∧ 8 * s.pos + s.upCnt.toNat = 8 * s.pos + (s.upCnt - 1).toNat + 1
    omega

/-- `GetBit` in general: the next bit of the source's bit string, or `EOS` when there is none. -/
theorem getBit_cases (s : State) (h8 : s.upCnt.toNat ≤ 8) :
    (∃ b t, getBit s = (some b, t) ∧ sourceBits s = b :: sourceBits t ∧ t.upCnt.toNat ≤ 8) ∨
      (sourceBits s = [] ∧ ∃ t, getBit s = (none, t) ∧ sourceBits t = [] ∧ t.upCnt.toNat ≤ 8) := by
  cases h : sourceBits s with
  | nil =>
    refine .inr ⟨rfl, _, (getBit_none h8 h).1, ?_, h8⟩
    exact h
  | cons b rest =>
    obtain ⟨t, ht, hs, hu⟩ := getBit_some h8 h
    exact .inl ⟨b, t, ht, by rw [hs], hu⟩

theorem getBitsFrom_some (bs : List Bool) (v : Nat) {s : State} {rest : List Bool} (h8 : s.upCnt.toNat ≤ 8)
    (h : sourceBits s = bs ++ rest) :
    ∃ t, getBitsFrom bs.length v s = (some (valFrom v bs), t) ∧ sourceBits t = rest ∧ t.upCnt.toNat ≤ 8 := by
  induction bs generalizing v s with
  | nil => exact ⟨s, rfl, h, h8⟩
  | cons b bs ih =>
    obtain ⟨t, ht, hs, hu⟩ := getBit_some h8 h
    obtain ⟨u, hu1, hu2, hu3⟩ := ih (2 * v + b.toNat) hu hs
    refine ⟨u, ?_, hu2, hu3⟩
    simp only [List.length_cons, getBitsFrom, ht, valFrom, hu1]

/-- `GetBits` with enough bits left: their value, the first the most significant (R41). -/
theorem getBits_some (bs : List Bool) {s : State} {rest : List Bool} (h8 : s.upCnt.toNat ≤ 8)
    (h : sourceBits s = bs ++ rest) :
    ∃ t, getBits bs.length s = (some (valOf bs), t) ∧ sourceBits t = rest ∧ t.upCnt.toNat ≤ 8 :=
  getBitsFrom_some bs 0 h8 h

theorem getBitsFrom_upCnt (n v : Nat) {s : State} (h8 : s.upCnt.toNat ≤ 8) :
    (getBitsFrom n v s).2.upCnt.toNat ≤ max s.upCnt.toNat 7 ∧
      8 * (getBitsFrom n v s).2.pos + s.upCnt.toNat ≤ 8 * s.pos + (getBitsFrom n v s).2.upCnt.toNat + n := by
  induction n generalizing v s with
  | zero => simp [getBitsFrom]
  | succ n ih =>
    rcases getBit_cases s h8 with ⟨b, t, ht, hs, hu⟩ | ⟨hs, _⟩
    · have h1 := getBit_upCnt ht h8
      have h2 := ih (2 * v + b.toNat) hu
      simp only [getBitsFrom, ht]
      omega
    · have hg := (getBit_none h8 hs).1
      simp only [getBitsFrom, hg]
      omega

/-- After `GetBits` fewer than eight bits wait, and no more bytes than needed have been fetched (R40, R41). -/
theorem getBits_upCnt (n : Nat) {s : State} (h8 : s.upCnt.toNat ≤ 8) :
    (getBits n s).2.upCnt.toNat ≤ max s.upCnt.toNat 7 ∧
      8 * (getBits n s).2.pos + s.upCnt.toNat ≤ 8 * s.pos + (getBits n s).2.upCnt.toNat + n := getBitsFrom_upCnt n 0 h8

theorem getBitsFrom_none (n v : Nat) {s : State} (h8 : s.upCnt.toNat ≤ 8) (h : (sourceBits s).length < n) :
    ∃ t, getBitsFrom n v s = (none, t) ∧ sourceBits t = [] ∧ t.upCnt.toNat ≤ 8 := by
  induction n generalizing v s with
  | zero => exact absurd h (Nat.not_lt_zero _)
  | succ n ih =>
    rcases getBit_cases s h8 with ⟨b, t, ht, hs, hu⟩ | ⟨_, t, ht, hs, hu⟩
    · obtain ⟨u, hu1, hu2⟩ := ih (2 * v + b.toNat) hu (by rw [hs] at h; simpa using h)
      exact ⟨u, by simp only [getBitsFrom, ht, hu1], hu2⟩
    · exact ⟨t, by simp only [getBitsFrom, ht], hs, hu⟩

/-- `GetBits` with too few bits left gives `EOS` (R41). -/
theorem getBits_none (n : Nat) {s : State} (h8 : s.upCnt.toNat ≤ 8) (h : (sourceBits s).length < n) :
    ∃ t, getBits n s = (none, t) ∧ sourceBits t = [] ∧ t.upCnt.toNat ≤ 8 := getBitsFrom_none n 0 h8 h

/-- `GetBits` in general. -/
theorem getBits_cases (n : Nat) (s : State) (h8 : s.upCnt.toNat ≤ 8) :
    (∃ bs t, bs.length = n ∧ getBits n s = (some (valOf bs), t) ∧ sourceBits s = bs ++ sourceBits t ∧
        t.upCnt.toNat ≤ 8) ∨
      ((sourceBits s).length < n ∧ ∃ t, getBits n s = (none, t) ∧ sourceBits t = [] ∧ t.upCnt.toNat ≤ 8) := by
  by_cases h : (sourceBits s).length < n
  · exact .inr ⟨h, getBits_none n h8 h⟩
  · have hl : ((sourceBits s).take n).length = n := by rw [List.length_take]; omega
    obtain ⟨t, ht, hs, hu⟩ := getBits_some ((sourceBits s).take n) h8 (List.take_append_drop n _).symm
    rw [hl] at ht
    exact .inl ⟨_, t, hl, ht, by rw [hs, List.take_append_drop], hu⟩

/-- The bound of the decoder's loop is how many bits are left. -/
theorem bitsLeft_eq (s : State) (h8 : s.upCnt.toNat ≤ 8) : bitsLeft s = (sourceBits s).length := by
  simp only [bitsLeft, srcLeft_eq, sourceBits, List.length_append, List.length_take, bitsOf_length,
    bytesBits_length]
  omega

end Sys2Proof.Machine
end

