-- ==== Sys2Proof/Laws/Tree.lean ====
section
/-! SUPPORT. Trees: sizes and heights, the header as a prefix code, prefix-free paths, and what the two traversals
`Walk` and `WriteTree` do on an arena that holds a tree (spec 10_state R12, 30_encoding R52, 42 R90 to R97, 43 R100). -/

namespace Sys2Proof.Machine

/-! ### Sizes -/

/-- Levels below the top node. -/
def height : Shape → Nat
  | .leaf _ => 0
  | .branch l r => 1 + max (height l) (height r)

theorem leafCount_pos (t : Shape) : 0 < leafCount t := by
  induction t with
  | leaf s => exact Nat.one_pos
  | branch l r ihl ihr => simp only [leafCount]; omega

theorem shapeSize_eq (t : Shape) : shapeSize t = 2 * leafCount t - 1 := by
  induction t with
  | leaf s => rfl
  | branch l r ihl ihr =>
    have := leafCount_pos l
    have := leafCount_pos r
    simp only [shapeSize, leafCount, ihl, ihr]; omega

theorem height_size (t : Shape) : 2 * height t + 1 ≤ shapeSize t := by
  induction t with
  | leaf s => simp [height, shapeSize]
  | branch l r ihl ihr => simp only [height, shapeSize]; omega

/-- A tree of `L` leaves has a header of `11 L - 1` bits (30_encoding R55). -/
theorem shapeHeader_length (t : Shape) : (shapeHeader t).length = 11 * leafCount t - 1 := by
  induction t with
  | leaf s => simp [shapeHeader, leafCount]
  | branch l r ihl ihr =>
    have := leafCount_pos l
    have := leafCount_pos r
    simp only [shapeHeader, leafCount, List.length_cons, List.length_append, ihl, ihr]; omega

theorem shapeLeaves_length (t : Shape) : (shapeLeaves t).length = leafCount t := by
  induction t with
  | leaf s => rfl
  | branch l r ihl ihr => simp [shapeLeaves, leafCount, ihl, ihr]

theorem treeHandles_length (T : HTree) : (treeHandles T).length = shapeSize (shapeOf T) := by
  induction T with
  | leaf h s => rfl
  | branch h l r ihl ihr => simp only [treeHandles, shapeOf, shapeSize, List.length_cons, List.length_append, ihl, ihr]; omega

theorem topHandle_leaf (h : Nat) (sym : Sym) : topHandle (.leaf h sym) = h := rfl

theorem topHandle_branch (h : Nat) (l r : HTree) : topHandle (.branch h l r) = h := rfl

theorem topHandle_mem (T : HTree) : topHandle T ∈ treeHandles T := by
  cases T <;> simp [topHandle, treeHandles]

/-- Distinct handles below `n` are at most `n`. -/
theorem nodup_length_le {l : List Nat} {n : Nat} (hd : l.Nodup) (hb : ∀ h ∈ l, h < n) : l.length ≤ n := by
  have hs : l.Subperm (List.range n) := List.subperm_of_subset hd fun x hx => List.mem_range.mpr (hb x hx)
  simpa using hs.length_le

/-- A tree in the arena has at most `NODE_CAP` nodes (10_state R12). -/
theorem TreeIn.size_le {s : State} {T : HTree} (h : TreeIn s T) : shapeSize (shapeOf T) ≤ s.cfg.nodeCap := by
  obtain ⟨_, _, hd, hb, hn⟩ := h
  have h1 := nodup_length_le hd hb
  rw [treeHandles_length] at h1
  omega

theorem TreeIn.height_lt {s : State} {T : HTree} (h : TreeIn s T) : height (shapeOf T) < s.cfg.nodeCap := by
  have h1 := h.size_le
  have h2 := height_size (shapeOf T)
  omega

/-- A tree of an arena is no deeper than a code is long (42_code_table_generator R93). -/
theorem height_le_maxLen {c : Config} (hc : c.Consistent) {t : Shape} (h : shapeSize t ≤ c.nodeCap) :
    height t ≤ c.maxLen := by
  have h1 := height_size t
  have h2 := hc.depth
  omega

theorem Holds.symbolsOk {s : State} {T : HTree} (h : Holds s T) : symbolsOk (shapeOf T) := by
  induction T with
  | leaf k sym => intro p hp; simp only [shapeOf, shapeLeaves, List.mem_singleton] at hp; subst hp; exact h.2.2
  | branch k l r ihl ihr =>
    obtain ⟨_, _, _, hl, hr⟩ := h
    intro p hp
    simp only [shapeOf, shapeLeaves, List.mem_append, List.mem_map] at hp
    rcases hp with ⟨q, hq, rfl⟩ | ⟨q, hq, rfl⟩
    · exact ihl hl q hq
    · exact ihr hr q hq

theorem symbolsOk_branch {l r : Shape} : symbolsOk (.branch l r) ↔ symbolsOk l ∧ symbolsOk r := by
  constructor
  · intro h
    constructor
    · intro p hp
      exact h (false :: p.1, p.2) (by simp only [shapeLeaves, List.mem_append, List.mem_map]; exact Or.inl ⟨p, hp, rfl⟩)
    · intro p hp
      exact h (true :: p.1, p.2) (by simp only [shapeLeaves, List.mem_append, List.mem_map]; exact Or.inr ⟨p, hp, rfl⟩)
  · rintro ⟨hl, hr⟩ p hp
    simp only [shapeLeaves, List.mem_append, List.mem_map] at hp
    rcases hp with ⟨q, hq, rfl⟩ | ⟨q, hq, rfl⟩
    · exact hl q hq
    · exact hr q hq

/-! ### Headers and paths -/

/-- No header is the beginning of another: the tree and the bits after it are determined (30_encoding R61). -/
theorem shapeHeader_inj {a b : Shape} {x y : List Bool} (h : shapeHeader a ++ x = shapeHeader b ++ y) :
    a = b ∧ x = y := by
  induction a generalizing b x y with
  | leaf s =>
    cases b with
    | leaf t =>
      simp only [shapeHeader, List.cons_append, List.cons.injEq, true_and] at h
      obtain ⟨h1, h2⟩ := List.append_inj h (by simp)
      have h3 := congrArg valOf h1
      rw [valOf_bitsOf, valOf_bitsOf, Nat.mod_eq_of_lt s.isLt, Nat.mod_eq_of_lt t.isLt] at h3
      exact ⟨by rw [BitVec.eq_of_toNat_eq h3], h2⟩
    | branch l r => simp [shapeHeader] at h
  | branch l r ihl ihr =>
    cases b with
    | leaf t => simp [shapeHeader] at h
    | branch l' r' =>
      simp only [shapeHeader, List.cons_append, List.append_assoc, List.cons.injEq, true_and] at h
      obtain ⟨rfl, h1⟩ := ihl h
      obtain ⟨rfl, h2⟩ := ihr h1
      exact ⟨rfl, h2⟩

theorem leaf_path_le (t : Shape) : ∀ p ∈ shapeLeaves t, p.1.length ≤ height t := by
  induction t with
  | leaf s => intro p hp; simp only [shapeLeaves, List.mem_singleton] at hp; subst hp; exact Nat.le_refl _
  | branch l r ihl ihr =>
    intro p hp
    simp only [shapeLeaves, List.mem_append, List.mem_map] at hp
    rcases hp with ⟨q, hq, rfl⟩ | ⟨q, hq, rfl⟩
    · have := ihl q hq; simp only [height, List.length_cons]; omega
    · have := ihr q hq; simp only [height, List.length_cons]; omega

/-- No leaf's path is the beginning of another leaf's path (42_code_table_generator R95). -/
theorem leaf_paths_prefix_free (t : Shape) :
    (shapeLeaves t).Pairwise fun p q => ¬ p.1 <+: q.1 ∧ ¬ q.1 <+: p.1 := by
  induction t with
  | leaf s => simp [shapeLeaves]
  | branch l r ihl ihr =>
    simp only [shapeLeaves, List.pairwise_append, List.pairwise_map, List.mem_map]
    refine ⟨?_, ?_, ?_⟩
    · exact ihl.imp fun h => by simpa [List.cons_prefix_cons] using h
    · exact ihr.imp fun h => by simpa [List.cons_prefix_cons] using h
    · rintro _ ⟨p, _, rfl⟩ _ ⟨q, _, rfl⟩
      simp [List.cons_prefix_cons]

/-! ### `WriteTree` -/

/-- `WriteTree` writes the header of the tree it stands on. -/
theorem writeTree_eq {T : HTree} {n : Nat} {s : State} (h : Holds s T) (hn : height (shapeOf T) < n) :
    writeTree n (topHandle T) s = some (putBitList (shapeHeader (shapeOf T)) s) := by
  induction T generalizing n s with
  | leaf k sym =>
    cases n with
    | zero => exact absurd hn (Nat.not_lt_zero _)
    | succ n =>
      obtain ⟨h1, h2, _⟩ := h
      simp only [writeTree, topHandle_leaf, h1, h2, if_true, shapeOf, shapeHeader, putLeaf, putBits]
      rfl
  | branch k l r ihl ihr =>
    cases n with
    | zero => exact absurd hn (Nat.not_lt_zero _)
    | succ n =>
      obtain ⟨h1, h2, h3, hl, hr⟩ := h
      simp only [shapeOf, height] at hn
      have hb : putBranch s = putBitList [false] s := rfl
      have hl' := ihl (n := n) (s := putBranch s) ((Holds_congr (by rw [hb]; simp) (by rw [hb]; simp) l).mpr hl) (by omega)
      have hr' := ihr (n := n) (s := putBitList (shapeHeader (shapeOf l)) (putBranch s))
        ((Holds_congr (by rw [hb]; simp) (by rw [hb]; simp) r).mpr hr) (by omega)
      simp only [writeTree, topHandle_branch, h1, h2, h3, hl', hr', shapeOf, shapeHeader, Bool.false_eq_true, if_false]
      rw [hb, ← putBitList_append, ← putBitList_append]
      simp

/-! ### `Walk` -/

/-- The table after binding the leaves of a list in order, under the path `pre`. -/
def bindCodes (cfg : Config) (c : Vector CodeEntry 257) (pre : List Bool) (ls : List (List Bool × Sym)) :
    Vector CodeEntry 257 :=
  ls.foldl (fun c p => c.setIfInBounds p.2.toNat (pathCode cfg (pre ++ p.1))) c

theorem bindCodes_map (cfg : Config) (c : Vector CodeEntry 257) (pre : List Bool) (b : Bool) (ls : List (List Bool × Sym)) :
    bindCodes cfg c pre (ls.map fun p => (b :: p.1, p.2)) = bindCodes cfg c (pre ++ [b]) ls := by
  induction ls generalizing c with
  | nil => rfl
  | cons p ls ih =>
    simp only [bindCodes, List.map_cons, List.foldl_cons] at ih ⊢
    rw [ih]; simp

/-- The state with another code table. -/
def withCode (c : Vector CodeEntry 257) (s : State) : State := { s with code := c }

theorem Holds_withCode (d : Vector CodeEntry 257) (s : State) (T : HTree) : Holds (withCode d s) T ↔ Holds s T :=
  Holds_congr (s := s) (t := withCode d s) rfl rfl T

/-- `Walk` binds the leaves of the tree it stands on, from left to right. -/
theorem walk_eq {T : HTree} {n : Nat} {s : State} {path : List Bool} (h : Holds s T) (hn : height (shapeOf T) < n) :
    walk n (topHandle T) path s = some (withCode (bindCodes s.cfg s.code path (shapeLeaves (shapeOf T))) s) := by
  induction T generalizing n s path with
  | leaf k sym =>
    cases n with
    | zero => exact absurd hn (Nat.not_lt_zero _)
    | succ n =>
      obtain ⟨h1, h2, _⟩ := h
      simp only [walk, topHandle_leaf, h1, h2, if_true, shapeOf, shapeLeaves, bindCodes, List.foldl_cons, List.foldl_nil,
        List.append_nil]
      rfl
  | branch k l r ihl ihr =>
    cases n with
    | zero => exact absurd hn (Nat.not_lt_zero _)
    | succ n =>
      obtain ⟨h1, h2, h3, hl, hr⟩ := h
      simp only [shapeOf, height] at hn
      have hl' := ihl (n := n) (s := s) (path := path ++ [false]) hl (by omega)
      have hr' := ihr (n := n) (s := withCode (bindCodes s.cfg s.code (path ++ [false]) (shapeLeaves (shapeOf l))) s)
        (path := path ++ [true]) ((Holds_withCode _ s r).mpr hr) (by omega)
      simp only [walk, topHandle_branch, h1, h2, h3, hl', hr', shapeOf, shapeLeaves]
      have happ : ∀ (c : Vector CodeEntry 257) pre xs ys,
          bindCodes s.cfg c pre (xs ++ ys) = bindCodes s.cfg (bindCodes s.cfg c pre xs) pre ys :=
        fun c pre xs ys => List.foldl_append
      rw [happ, bindCodes_map, bindCodes_map]
      rfl

/-- An entry of the bound table: the last leaf of the symbol, or the entry from before. -/
theorem bindCodes_get (cfg : Config) (tbl : Vector CodeEntry 257) (pre : List Bool) (ls : List (List Bool × Sym)) (k : Nat)
    (hk : k < nsym) :
    (bindCodes cfg tbl pre ls)[k]? =
      match (ls.filter fun p => decide (p.2.toNat = k)).getLast? with
      | some p => some (pathCode cfg (pre ++ p.1))
      | none => tbl[k]? := by
  induction ls using List.reverseRecOn with
  | nil => rfl
  | append_singleton ls p ih =>
    simp only [bindCodes, List.foldl_append, List.foldl_cons, List.foldl_nil] at ih ⊢
    rw [Vector.getElem?_setIfInBounds, List.filter_append]
    by_cases h : p.2.toNat = k
    · have hk' : k < 257 := hk
      simp [h, hk']
    · simp [h, ih]

/-- After `Walk` from an invalidated table, `CODE` is the code table of the tree (R91, R92, R97). -/
theorem codesOf_bindCodes {s : State} {tbl : Vector CodeEntry 257} {t : Shape}
    (h : s.code = bindCodes s.cfg (tbl.map fun e => { e with valid := false }) [] (shapeLeaves t)) : CodesOf s t := by
  intro k hk
  have hk' : k < 257 := hk
  have hg := bindCodes_get s.cfg (tbl.map fun e => { e with valid := false }) [] (shapeLeaves t) k hk
  rw [← h] at hg
  unfold keptPath codeAt
  rw [hg]
  cases hf : ((shapeLeaves t).filter fun p => decide (p.2.toNat = k)).getLast? with
  | some p => simp
  | none => simp [hk']

theorem CodesOf_congr {s t : State} (h : t.code = s.code) (hf : t.cfg = s.cfg) {T : Shape} (hc : CodesOf s T) :
    CodesOf t T := by
  intro k hk; have := hc k hk; rwa [codeAt_congr h, hf]

theorem TreeIn_congr {s t : State} (hn : t.node = s.node) (hr : t.root = s.root) (hm : t.nnode = s.nnode)
    (hc : t.cfg = s.cfg) {T : HTree}
    (h : TreeIn s T) : TreeIn t T := by
  obtain ⟨h1, h2, h3, h4, h5⟩ := h
  exact ⟨by rw [hr]; exact h1, (Holds_congr hn hc T).mpr h2, h3, by rw [hm]; exact h4, by rw [hm, hc]; exact h5⟩

/-- A path no longer than `MAXLEN` is stored as it is (R92, R93). -/
theorem pathCode_eq {c : Config} (hc : c.Consistent) {p : List Bool} (h : p.length ≤ c.maxLen) :
    pathCode c p = { valid := true, len := p.length, bits := valOf p } := by
  have hl : narrow c.lenW p.length = p.length := narrow_eq (lt_of_le_of_lt h hc.length)
  have hv : narrow c.maxLen (valOf p) = valOf p :=
    narrow_eq (lt_of_lt_of_le (valOf_lt p) (Nat.pow_le_pow_right (by decide) h))
  simp only [pathCode, fitCode, hl, hv]

/-- What the bits of a stored code are: the path, if it is no longer than `MAXLEN` (R92, R93). -/
theorem codeBits_pathCode {c : Config} (hc : c.Consistent) {p : List Bool} (h : p.length ≤ c.maxLen) :
    codeBits (pathCode c p) = p := by
  rw [pathCode_eq hc h, codeBits, bitsOf_valOf]

/-- An arena holds at most one tree under a handle. -/
theorem Holds.unique {s : State} {T U : HTree} (h : Holds s T) (k : Holds s U) (ht : topHandle T = topHandle U) :
    T = U := by
  induction T generalizing U with
  | leaf a x =>
    rw [topHandle_leaf] at ht
    cases U with
    | leaf b y => rw [topHandle_leaf] at ht; subst ht; rw [← h.2.1, ← k.2.1]
    | branch b l r => rw [topHandle_branch] at ht; subst ht; have := h.1; rw [k.1] at this; cases this
  | branch a l r il ir =>
    rw [topHandle_branch] at ht
    cases U with
    | leaf b y => rw [topHandle_leaf] at ht; subst ht; have := k.1; rw [h.1] at this; cases this
    | branch b l' r' =>
      rw [topHandle_branch] at ht
      subst ht
      rw [il h.2.2.2.1 k.2.2.2.1 (h.2.1.symm.trans k.2.1), ir h.2.2.2.2 k.2.2.2.2 (h.2.2.1.symm.trans k.2.2.1)]

end Sys2Proof.Machine
end

