-- ==== Sys2Proof/Laws/Header.lean ====
section
/-! SUPPORT. What `ReadTree` does (spec 43_header_codec R108 to R119): its outcomes, what it leaves unchanged, the tree
it builds when it succeeds, and that it succeeds on every header of a tree that fits. -/

namespace Sys2Proof.Machine

/-- `t` differs from `s` only where `ReadTree` may change it. -/
def TreeFrame (s t : State) : Prop :=
  t = { s with
    node := t.node, nnode := t.nnode, upAcc := t.upAcc, upCnt := t.upCnt, pos := t.pos, events := t.events }

theorem TreeFrame.refl (s : State) : TreeFrame s s := rfl

theorem TreeFrame.trans {s t u : State} (h : TreeFrame s t) (k : TreeFrame t u) : TreeFrame s u := by
  unfold TreeFrame at *; rw [k, h]

theorem SourceFrame.treeFrame {s t : State} (h : SourceFrame s t) : TreeFrame s t := by
  unfold SourceFrame at h; unfold TreeFrame; rw [h]

theorem TreeFrame.cfg {s t : State} (h : TreeFrame s t) : t.cfg = s.cfg := by rw [h]

theorem setNode_treeFrame (k : Nat) (v : Node) (s : State) : TreeFrame s (setNode k v s) := rfl

/-- A result's state is framed, its fault is one of the three, and it is not stuck. -/
def ReadOutcome (s : State) : Res Nat → Prop
  | .ok _ t => TreeFrame s t
  | .raised e t => TreeFrame s t ∧ (e = .hdrEos ∨ e = .hdrCap ∨ e = .hdrSym)
  | .stuck _ => False

theorem ReadOutcome.after {s t : State} {r : Res Nat} (h : TreeFrame s t) (k : ReadOutcome t r) :
    ReadOutcome s r := by
  cases r with
  | ok a u => exact h.trans k
  | raised e u => exact ⟨h.trans k.1, k.2⟩
  | stuck f => exact k

theorem ReadOutcome.bind {s : State} {r : Res Nat} {f : Nat → State → Res Nat} (h : ReadOutcome s r)
    (k : ∀ a t, TreeFrame s t → ReadOutcome t (f a t)) : ReadOutcome s (andThen r f) := by
  cases r with
  | ok a u => exact (k a u h).after h
  | raised e u => exact h
  | stuck x => exact h

theorem takeHandle_outcome (s : State) : ReadOutcome s (takeHandle s) := by
  unfold takeHandle
  split
  · exact ⟨rfl, .inr (.inl rfl)⟩
  · rfl

theorem readLeaf_outcome (h : Nat) (s : State) : ReadOutcome s (readLeaf h s) := by
  have hf := (getBits_frame 9 s).treeFrame
  unfold readLeaf
  split
  · rename_i heq; rw [heq] at hf; exact ⟨hf, .inl rfl⟩
  · rename_i v t heq
    rw [heq] at hf
    unfold buildLeaf
    split
    · exact ⟨hf, .inr (.inr rfl)⟩
    · exact hf.trans rfl

/-- Every outcome of `ReadTree`: framed, and if a fault then `HDR_EOS`, `HDR_CAP` or `HDR_SYM`. -/
theorem readTree_outcome (n : Nat) (s : State) : ReadOutcome s (readTree n s) := by
  induction n generalizing s with
  | zero =>
    have hf := (getBit_frame s).treeFrame
    unfold readTree
    split
    · rename_i heq; rw [heq] at hf; exact ⟨hf, .inl rfl⟩
    · rename_i b t heq; rw [heq] at hf; exact ⟨hf, .inr (.inl rfl)⟩
  | succ n ih =>
    have hf := (getBit_frame s).treeFrame
    unfold readTree
    split
    · rename_i heq; rw [heq] at hf; exact ⟨hf, .inl rfl⟩
    · rename_i b t heq
      rw [heq] at hf
      refine ReadOutcome.after hf ((takeHandle_outcome t).bind fun h u _ => ?_)
      cases b with
      | true => exact readLeaf_outcome h u
      | false =>
        refine ((ih (buildBranch h u)).after (setNode_treeFrame _ _ _)).bind fun l v _ => ?_
        refine ((ih (setLeft h l v)).after (setNode_treeFrame _ _ _)).bind fun r w _ => ?_
        exact setNode_treeFrame _ _ _

/-! ### Writing nodes -/

/-- The arena has a slot for each handle below `NODE_CAP`, and a handle can count them all (00_scope R5). -/
structure Arena (s : State) : Prop where
  size : s.node.size = s.cfg.nodeCap
  width : s.cfg.nodeCap < 2 ^ s.cfg.hW

theorem Fits.room {s : State} (h : Fits s) : Arena s := ⟨h.arena, h.config.handle⟩

theorem Arena.congr {s t : State} (h : Arena s) (hn : t.node.size = s.node.size) (hc : t.cfg = s.cfg) : Arena t :=
  ⟨by rw [hn, hc]; exact h.size, by rw [hc]; exact h.width⟩

theorem setNode_size (k : Nat) (v : Node) (s : State) : (setNode k v s).node.size = s.node.size := by
  simp [setNode]

theorem Arena.setNode {s : State} (h : Arena s) (k : Nat) (v : Node) : Arena (setNode k v s) :=
  h.congr (setNode_size k v s) rfl

theorem Arena.source {s t : State} (h : Arena s) (hf : SourceFrame s t) : Arena t :=
  h.congr (by rw [hf.node]) hf.cfg

theorem nodeAt_setNode_same {k : Nat} (v : Node) (s : State) (h : k < s.node.size) :
    nodeAt (setNode k v s) k = v := by
  simp [nodeAt, Machine.setNode, h]

theorem nodeAt_setNode_ne {k j : Nat} (v : Node) (s : State) (h : j ≠ k) :
    nodeAt (setNode k v s) j = nodeAt s j := by
  simp [nodeAt, setNode, Array.getElem?_setIfInBounds_ne (Ne.symm h)]

/-- A tree held is held by every arena that agrees on its handles. -/
theorem Holds.agree {s t : State} {T : HTree} (h : Holds s T) (ha : ∀ k ∈ treeHandles T, nodeAt t k = nodeAt s k) :
    Holds t T := by
  induction T with
  | leaf k sym =>
    have := ha k (by simp [treeHandles])
    simp only [Holds, this] at h ⊢
    exact h
  | branch k l r ihl ihr =>
    have hk := ha k (by simp [treeHandles])
    simp only [Holds, hk] at h ⊢
    exact ⟨h.1, h.2.1, h.2.2.1,
      ihl h.2.2.2.1 fun j hj => ha j (by simp [treeHandles, hj]),
      ihr h.2.2.2.2 fun j hj => ha j (by simp [treeHandles, hj])⟩

/-! ### What a successful `ReadTree` has built -/

/-- What `ReadTree` has done when it returns handle `h`: it took a tree's header from the source and built that tree
from the handles `nnode, nnode + 1, …` in pre-order (R109, R110). -/
structure Built (s : State) (h : Nat) (t : State) (T : HTree) : Prop where
  top : topHandle T = h
  first : h = s.nnode
  holds : Holds t T
  handles : ∀ k ∈ treeHandles T, s.nnode ≤ k ∧ k < t.nnode
  nodup : (treeHandles T).Nodup
  count : t.nnode = s.nnode + shapeSize (shapeOf T)
  cap : t.nnode ≤ s.cfg.nodeCap
  arena : Arena t
  cfg : t.cfg = s.cfg
  bits : sourceBits s = shapeHeader (shapeOf T) ++ sourceBits t
  unpacker : t.upCnt.toNat ≤ 8
  below : ∀ k : Nat, k < s.nnode → nodeAt t k = nodeAt s k
  bare : BareTree t T
  preorder : treeHandles T = List.range' s.nnode (shapeSize (shapeOf T))

theorem BareTree.agree {s t : State} {T : HTree} (h : BareTree s T) (ha : ∀ k ∈ treeHandles T, nodeAt t k = nodeAt s k) :
    BareTree t T := by
  induction T with
  | leaf k sym => exact (ha k (by simp [treeHandles])).trans h
  | branch k l r ihl ihr =>
    exact ⟨(ha k (by simp [treeHandles])).trans h.1,
      ihl h.2.1 fun j hj => ha j (by simp [treeHandles, hj]),
      ihr h.2.2 fun j hj => ha j (by simp [treeHandles, hj])⟩

theorem andThen_ok {α β : Type} {r : Res α} {f : α → State → Res β} {b : β} {u : State}
    (h : andThen r f = .ok b u) : ∃ a t, r = .ok a t ∧ f a t = .ok b u := by
  cases r with
  | ok a t => exact ⟨a, t, rfl, h⟩
  | raised e t => exact absurd h (by simp [andThen])
  | stuck x => exact absurd h (by simp [andThen])

theorem takeHandle_ok {s t : State} {h : Nat} (hk : takeHandle s = .ok h t) (ha : Arena s)
    (hn : s.nnode ≤ s.cfg.nodeCap) :
    h = s.nnode ∧ t = { s with nnode := narrow s.cfg.hW (s.nnode + 1) } ∧ s.nnode < s.cfg.nodeCap ∧
      t.nnode = s.nnode + 1 := by
  unfold takeHandle at hk
  split at hk
  · simp at hk
  · rename_i hne
    simp only [Res.ok.injEq] at hk
    obtain ⟨rfl, rfl⟩ := hk
    have hlt : s.nnode < s.cfg.nodeCap := lt_of_le_of_ne hn hne
    exact ⟨rfl, rfl, hlt, narrow_eq (by have := ha.width; omega)⟩

theorem sourceBits_congr {s t : State} (h1 : t.upAcc = s.upAcc) (h2 : t.upCnt = s.upCnt) (h3 : t.src = s.src)
    (h4 : t.pos = s.pos) : sourceBits t = sourceBits s := by simp [sourceBits, h1, h2, h3, h4]

theorem readTree_ok {n : Nat} {s t : State} {h : Nat} (hr : readTree n s = .ok h t)
    (ha : Arena s) (hn : s.nnode ≤ s.cfg.nodeCap) (h8 : s.upCnt.toNat ≤ 8) : ∃ T, Built s h t T := by
  induction n generalizing s t h with
  | zero =>
    unfold readTree at hr
    split at hr <;> simp at hr
  | succ n ih =>
    unfold readTree at hr
    rcases getBit_cases s h8 with ⟨b, s1, hg, hb, hu⟩ | ⟨_, s1, hg, _, _⟩
    · rw [hg] at hr
      have hf1 := getBit_frame s
      rw [hg] at hf1
      have hnn : s1.nnode = s.nnode := hf1.nnode
      have hc1 : s1.cfg = s.cfg := hf1.cfg
      have ha1 : Arena s1 := ha.source hf1
      obtain ⟨a, s2, hth, hr⟩ := andThen_ok hr
      obtain ⟨rfl, rfl, hlt, hcount0⟩ := takeHandle_ok hth ha1 (by rw [hnn, hc1]; exact hn)
      have hcount : narrow s1.cfg.hW (s1.nnode + 1) = s.nnode + 1 := by rw [← hnn]; exact hcount0
      rw [hnn, hc1] at hlt
      have hroom : ∀ {u : State}, Arena u → u.cfg = s.cfg → s1.nnode < u.node.size := fun hu hc => by
        rw [hu.size, hc, hnn]; exact hlt
      have hs2 : sourceBits { s1 with nnode := narrow s1.cfg.hW (s1.nnode + 1) } = sourceBits s1 := rfl
      cases b with
      | true =>
        simp only [if_true, readLeaf] at hr
        rcases getBits_cases 9 { s1 with nnode := narrow s1.cfg.hW (s1.nnode + 1) } hu with ⟨bs, s3, hl, hgb, hbb, hu3⟩ | ⟨_, s3, hgb, _, _⟩
        · have hf3 := getBits_frame 9 { s1 with nnode := narrow s1.cfg.hW (s1.nnode + 1) }
          rw [hgb] at hr hf3
          obtain ⟨_, s4, hbl, hr⟩ := andThen_ok hr
          simp only [Res.ok.injEq] at hr
          obtain ⟨rfl, rfl⟩ := hr
          unfold buildLeaf at hbl
          split at hbl
          · simp at hbl
          · rename_i hv
            simp only [Res.ok.injEq, true_and] at hbl
            subst hbl
            have hvl : valOf bs < 512 := by have := valOf_lt bs; rw [hl] at this; exact this
            have hsym : (BitVec.ofNat 9 (valOf bs)).toNat = valOf bs := by simp; omega
            have hnode : ∀ k, nodeAt s3 k = nodeAt s k := fun k =>
              (nodeAt_congr hf3.node hf3.cfg k).trans (nodeAt_congr hf1.node hf1.cfg k)
            have hc3 : s3.cfg = s.cfg := hf3.cfg.trans hc1
            have ha3 : Arena s3 := ha1.congr (t := s3) (by rw [hf3.node]) hf3.cfg
            refine ⟨.leaf s1.nnode (BitVec.ofNat 9 (valOf bs)), ?_⟩
            have hcap := hroom ha3 hc3
            exact
              { top := rfl
                first := hnn
                holds := by
                  simp only [Holds, nodeAt_setNode_same _ _ hcap]
                  exact ⟨rfl, rfl, by rw [hsym]; exact Nat.le_of_not_lt hv⟩
                handles := by
                  intro k hk
                  simp only [treeHandles, List.mem_singleton] at hk
                  subst hk
                  have h3 : (setNode s1.nnode (leafNode (BitVec.ofNat 9 (valOf bs)) 0) s3).nnode =
                      s.nnode + 1 := by
                    rw [setNode_nnode, hf3.nnode]; exact hcount
                  rw [h3, hnn]
                  omega
                nodup := by simp [treeHandles]
                count := by
                  rw [setNode_nnode, hf3.nnode]; exact hcount
                cap := by
                  rw [setNode_nnode, hf3.nnode]
                  show narrow s1.cfg.hW (s1.nnode + 1) ≤ _
                  rw [hcount]; exact hlt
                arena := ha3.setNode _ _
                cfg := hc3
                bits := by
                  rw [hb, ← hs2, hbb]
                  simp only [shapeOf, shapeHeader, hsym, List.cons_append]
                  have hbs : bitsOf 9 (valOf bs) = bs := by
                    have := bitsOf_valOf bs
                    rwa [hl] at this
                  rw [hbs]
                  rfl
                unpacker := hu3
                below := by
                  intro k hk
                  rw [nodeAt_setNode_ne _ _ (by intro hh; rw [hh, hnn] at hk; omega), hnode]
                bare := nodeAt_setNode_same _ _ hcap
                preorder := by simp [treeHandles, shapeOf, shapeSize, hnn] }
        · rw [hgb] at hr; simp at hr
      | false =>
        simp only [Bool.false_eq_true, if_false] at hr
        obtain ⟨l, s3, hrl, hr⟩ := andThen_ok hr
        obtain ⟨r, s4, hrr, hr⟩ := andThen_ok hr
        simp only [Res.ok.injEq] at hr
        obtain ⟨rfl, rfl⟩ := hr
        have ha2 : Arena (buildBranch s1.nnode { s1 with nnode := narrow s1.cfg.hW (s1.nnode + 1) }) :=
          (Arena.congr (t := { s1 with nnode := narrow s1.cfg.hW (s1.nnode + 1) }) ha1 rfl rfl).setNode _ _
        obtain ⟨L, hL⟩ := ih hrl ha2
          (by show narrow s1.cfg.hW (s1.nnode + 1) ≤ s1.cfg.nodeCap; rw [hcount, hc1]; exact hlt) hu
        have hc3 : s3.cfg = s.cfg := hL.cfg.trans hc1
        obtain ⟨R, hR⟩ := ih hrr (hL.arena.setNode _ _)
          (by
            have : (setLeft s1.nnode l s3).cfg = (buildBranch s1.nnode
              { s1 with nnode := narrow s1.cfg.hW (s1.nnode + 1) }).cfg := hL.cfg
            rw [this, setLeft, setNode_nnode]; exact hL.cap) hL.unpacker
        have hc4 : s4.cfg = s.cfg := hR.cfg.trans hc3
        have hcap := hroom hR.arena hc4
        have hcap3 := hroom hL.arena hc3
        have hcap1 := hroom (Arena.congr (t := { s1 with nnode := narrow s1.cfg.hW (s1.nnode + 1) }) ha1 rfl rfl) hc1
        have hn2 : (buildBranch s1.nnode { s1 with nnode := narrow s1.cfg.hW (s1.nnode + 1) }).nnode = s.nnode + 1 := hcount
        have hn3 : (setLeft s1.nnode l s3).nnode = s3.nnode := rfl
        have hLn := hL.count
        have hRn := hR.count
        rw [hn2] at hLn
        rw [hn3] at hRn
        have hkL : ∀ k ∈ treeHandles L, k ≠ s1.nnode := by
          intro k hk hh
          have := (hL.handles k hk).1
          rw [hn2, hh, hnn] at this
          omega
        have hkR : ∀ k ∈ treeHandles R, k ≠ s1.nnode := by
          intro k hk hh
          have := (hR.handles k hk).1
          rw [hn3, hLn, hh, hnn] at this
          omega
        have hnodeh : nodeAt s4 s1.nnode = { innerNode 0 0 0 with left := l } := by
          rw [hR.below s1.nnode (by rw [hn3, hLn, hnn]; omega), setLeft, nodeAt_setNode_same _ _ hcap3,
            hL.below s1.nnode (by rw [hn2, hnn]; omega), buildBranch, nodeAt_setNode_same _ _ hcap1]
        refine ⟨.branch s1.nnode L R, ?_⟩
        exact
          { top := rfl
            first := hnn
            holds := by
              simp only [Holds, setRight, nodeAt_setNode_same _ _ hcap, hnodeh]
              refine ⟨rfl, hL.top.symm, hR.top.symm, ?_, ?_⟩
              · refine hL.holds.agree fun k hk => ?_
                have hlt' := (hL.handles k hk).2
                rw [nodeAt_setNode_ne _ _ (hkL k hk), hR.below k (by rw [hn3]; exact hlt'), setLeft,
                  nodeAt_setNode_ne _ _ (hkL k hk)]
              · refine hR.holds.agree fun k hk => ?_
                rw [nodeAt_setNode_ne _ _ (hkR k hk)]
            handles := by
              intro k hk
              rw [setRight, setNode_nnode, hRn, hLn]
              simp only [treeHandles, List.mem_cons, List.mem_append] at hk
              rcases hk with rfl | hk | hk
              · rw [hnn]; omega
              · have := hL.handles k hk; rw [hn2, hLn] at this; omega
              · have := hR.handles k hk; rw [hn3, hRn, hLn] at this; omega
            nodup := by
              simp only [treeHandles, List.nodup_cons, List.mem_append, List.nodup_append]
              refine ⟨?_, hL.nodup, hR.nodup, ?_⟩
              · rintro (hk | hk)
                · exact hkL _ hk rfl
                · exact hkR _ hk rfl
              · intro x hx y hy hxy
                have h1 := (hL.handles x hx).2
                have h2 := (hR.handles y hy).1
                rw [hn3] at h2
                rw [hxy] at h1
                omega
            count := by
              rw [setRight, setNode_nnode, hRn, hLn]; simp only [shapeOf, shapeSize]; omega
            cap := by
              have := hR.cap
              rw [show (setLeft s1.nnode l s3).cfg = s.cfg from hc3] at this
              exact this
            arena := hR.arena.setNode _ _
            cfg := hc4
            bits := by
              rw [hb]
              have e1 : sourceBits s1 = sourceBits (buildBranch s1.nnode { s1 with nnode := narrow s1.cfg.hW (s1.nnode + 1) }) := rfl
              have e2 : sourceBits s3 = sourceBits (setLeft s1.nnode l s3) := rfl
              rw [e1, hL.bits, e2, hR.bits]
              simp only [shapeOf, shapeHeader, List.cons_append, List.append_assoc]
              rfl
            unpacker := hR.unpacker
            below := by
              intro k hk
              have hne : k ≠ s1.nnode := by intro hh; rw [hh, hnn] at hk; omega
              rw [setRight, nodeAt_setNode_ne _ _ hne, hR.below k (by rw [hn3, hLn]; omega), setLeft,
                nodeAt_setNode_ne _ _ hne, hL.below k (by rw [hn2]; omega), buildBranch, nodeAt_setNode_ne _ _ hne]
              exact nodeAt_congr hf1.node hf1.cfg k
            bare := by
              refine ⟨?_, ?_, ?_⟩
              · simp only [setRight, nodeAt_setNode_same _ _ hcap, hnodeh, hL.top, hR.top]; rfl
              · refine hL.bare.agree fun k hk => ?_
                have hlt' := (hL.handles k hk).2
                rw [setRight, nodeAt_setNode_ne _ _ (hkL k hk), hR.below k (by rw [hn3]; exact hlt'), setLeft,
                  nodeAt_setNode_ne _ _ (hkL k hk)]
              · refine hR.bare.agree fun k hk => ?_
                rw [setRight, nodeAt_setNode_ne _ _ (hkR k hk)]
            preorder := by
              have eL := hL.preorder
              have eR := hR.preorder
              rw [hn2] at eL
              rw [hn3, hLn] at eR
              have hsz : 1 + shapeSize (shapeOf L) + shapeSize (shapeOf R) =
                  (shapeSize (shapeOf L) + shapeSize (shapeOf R)) + 1 := by omega
              simp only [treeHandles, eL, eR, shapeOf, shapeSize, hnn]
              rw [hsz, List.range'_succ, ← List.range'_append_1] }
    · rw [hg] at hr; simp at hr

/-- `ReadTree` succeeds on every header of a tree that fits (R109, R113, R115). -/
theorem readTree_succeeds {n : Nat} {s : State} {sh : Shape} {rest : List Bool} (h8 : s.upCnt.toNat ≤ 8)
    (hs : sourceBits s = shapeHeader sh ++ rest) (hsym : symbolsOk sh)
    (ha : Arena s) (hcap : s.nnode + shapeSize sh ≤ s.cfg.nodeCap) (hn : height sh < n) :
    ∃ h t, readTree n s = .ok h t ∧ sourceBits t = rest := by
  induction sh generalizing n s rest with
  | leaf sym =>
    cases n with
    | zero => exact absurd hn (Nat.not_lt_zero _)
    | succ n =>
      simp only [shapeHeader, List.cons_append] at hs
      obtain ⟨s1, hg, hs1, hu⟩ := getBit_some h8 hs
      have hf1 := getBit_frame s
      rw [hg] at hf1
      have hnn : s1.nnode = s.nnode := hf1.nnode
      have hth : takeHandle s1 = .ok s1.nnode { s1 with nnode := narrow s1.cfg.hW (s1.nnode + 1) } := by
        unfold takeHandle; rw [if_neg]; rw [hnn, hf1.cfg]; simp only [shapeSize] at hcap; omega
      obtain ⟨s2, hg2, hs2, hu2⟩ := getBits_some (bitsOf 9 sym.toNat) (s := { s1 with nnode := narrow s1.cfg.hW (s1.nnode + 1) }) hu hs1
      rw [bitsOf_length, valOf_bitsOf, Nat.mod_eq_of_lt sym.isLt] at hg2
      have hle : sym.toNat ≤ sentinel := hsym ([], sym) (by simp [shapeLeaves])
      refine ⟨s1.nnode, setNode s1.nnode (leafNode (BitVec.ofNat 9 sym.toNat) 0) s2, ?_, hs2⟩
      simp only [readTree, hg, hth, andThen, if_true, readLeaf, hg2, buildLeaf, if_neg (Nat.not_lt.mpr hle)]
  | branch l r ihl ihr =>
    cases n with
    | zero => exact absurd hn (Nat.not_lt_zero _)
    | succ n =>
      simp only [shapeHeader, List.cons_append, List.append_assoc] at hs
      simp only [height] at hn
      simp only [shapeSize] at hcap
      obtain ⟨hsl, hsr⟩ := symbolsOk_branch.mp hsym
      obtain ⟨s1, hg, hs1, hu⟩ := getBit_some h8 hs
      have hf1 := getBit_frame s
      rw [hg] at hf1
      have hnn : s1.nnode = s.nnode := hf1.nnode
      have hth : takeHandle s1 = .ok s1.nnode { s1 with nnode := narrow s1.cfg.hW (s1.nnode + 1) } := by
        unfold takeHandle; rw [if_neg]; rw [hnn, hf1.cfg]; omega
      have ha1 : Arena s1 := ha.source hf1
      have hcf : s1.cfg = s.cfg := hf1.cfg
      have hc1 := (takeHandle_ok hth ha1 (by rw [hnn, hcf]; omega)).2.2.2
      have ha2 : Arena (buildBranch s1.nnode { s1 with nnode := narrow s1.cfg.hW (s1.nnode + 1) }) :=
        (Arena.congr (t := { s1 with nnode := narrow s1.cfg.hW (s1.nnode + 1) }) ha1 rfl rfl).setNode _ _
      have hcf2 : (buildBranch s1.nnode { s1 with nnode := narrow s1.cfg.hW (s1.nnode + 1) }).cfg = s.cfg := hcf
      obtain ⟨hl, s2, hrl, hs2⟩ := ihl (n := n) (s := buildBranch s1.nnode { s1 with nnode := narrow s1.cfg.hW (s1.nnode + 1) })
        hu hs1 hsl ha2 (by
          have : (buildBranch s1.nnode { s1 with nnode := narrow s1.cfg.hW (s1.nnode + 1) }).nnode = s1.nnode + 1 := hc1
          rw [hcf2, this, hnn]; omega) (by omega)
      obtain ⟨L, hL⟩ := readTree_ok hrl ha2 (by
          have : (buildBranch s1.nnode { s1 with nnode := narrow s1.cfg.hW (s1.nnode + 1) }).nnode = s1.nnode + 1 := hc1
          rw [hcf2, this, hnn]; omega) hu
      have hsh : shapeOf L = l := by
        have := hL.bits
        have e1 : sourceBits (buildBranch s1.nnode { s1 with nnode := narrow s1.cfg.hW (s1.nnode + 1) }) = sourceBits s1 := rfl
        rw [e1, hs1] at this
        exact (shapeHeader_inj this).1.symm
      have hLn := hL.count
      have e2 : (buildBranch s1.nnode { s1 with nnode := narrow s1.cfg.hW (s1.nnode + 1) }).nnode = s1.nnode + 1 := hc1
      rw [e2, hsh, hnn] at hLn
      obtain ⟨hr, s3, hrr, hs3⟩ := ihr (n := n) (s := setLeft s1.nnode hl s2) hL.unpacker hs2 hsr (hL.arena.setNode _ _) (by
          rw [show (setLeft s1.nnode hl s2).cfg = s.cfg from hL.cfg.trans hcf2, setLeft, setNode_nnode, hLn]
          omega) (by omega)
      refine ⟨s1.nnode, setRight s1.nnode hr s3, ?_, hs3⟩
      simp only [readTree, hg, hth, andThen, Bool.false_eq_true, if_false, hrl, hrr]

end Sys2Proof.Machine
end

