-- ==== Sys2Proof/Laws/Build.lean ====
section
/-! SUPPORT. What the Tree Builder does (spec 41_tree_builder R80 to R89): `ExtractMin` finds the least live node, the
leaves and every merge keep a forest whose leaves are the used symbols, and the loop ends with one tree. -/

namespace Sys2Proof.Machine

/-! ### The `live` bits -/

theorem addLive_get {h g : Nat} (s : State) (hh : h < s.cfg.nodeCap) :
    (addLive h s).live.testBit g = (s.live.testBit g || decide (g = h)) := by
  rw [addLive_live, narrow_eq (Nat.pow_lt_pow_right (by decide) hh), Nat.testBit_or, Nat.testBit_two_pow]
  congr 1
  exact decide_eq_decide.mpr eq_comm

theorem dropLive_get {h g : Nat} (s : State) :
    (dropLive h s).live.testBit g = (s.live.testBit g && decide (g ≠ h)) := by
  rw [dropLive_live, Nat.testBit_xor, Nat.testBit_and, Nat.testBit_two_pow]
  by_cases e : h = g
  · subst e; simp
  · simp [e, Ne.symm e]

/-- What `TBLD` needs of a state (00_scope R5): parameters that fit together, a slot for each handle, counts and `live`
in their widths. -/
structure BuildRoom (s : State) : Prop where
  config : s.cfg.Consistent
  size : s.node.size = s.cfg.nodeCap
  freq : ∀ k, freqAt s k < 2 ^ s.cfg.cntW
  live : s.live < 2 ^ s.cfg.nodeCap

theorem Fits.build {s : State} (h : Fits s) : BuildRoom s := ⟨h.config, h.arena, h.freq, h.live⟩

theorem BuildRoom.arena {s : State} (h : BuildRoom s) : Arena s := ⟨h.size, h.config.handle⟩

theorem BuildRoom.addNode {s : State} (h : BuildRoom s) (n : Nat) (v : Node) : BuildRoom (addLive n (setNode n v s)) where
  config := h.config
  size := (setNode_size n v s).trans h.size
  freq := h.freq
  live := Nat.or_lt_two_pow h.live (narrow_lt _ _)

theorem BuildRoom.drop {s : State} (h : BuildRoom s) (n : Nat) : BuildRoom (dropLive n s) where
  config := h.config
  size := h.size
  freq := h.freq
  live := Nat.xor_lt_two_pow h.live (lt_of_le_of_lt Nat.and_le_left h.live)

theorem live_lt {s : State} {h : Nat} (hw : s.live < 2 ^ s.cfg.nodeCap) (hl : s.live.testBit h = true) :
    h < s.cfg.nodeCap := by
  by_contra hc
  rw [Nat.testBit_lt_two_pow (lt_of_lt_of_le hw (Nat.pow_le_pow_right (by decide) (Nat.le_of_not_lt hc)))] at hl
  exact absurd hl (by simp)

/-! ### `ExtractMin` -/

theorem comesBefore_iff (s : State) (g h : Nat) : comesBefore s g h = true ↔ Before s g h := by
  simp only [comesBefore, Before, Bool.or_eq_true, Bool.and_eq_true, decide_eq_true_eq]

/-- The order of R82 is total on different handles. -/
theorem comesBefore_total {s : State} {g h : Nat} (hne : g ≠ h) (hn : comesBefore s g h = false) :
    comesBefore s h g = true := by
  have h1 : ¬ comesBefore s g h = true := by simp [hn]
  rw [comesBefore_iff] at h1 ⊢
  unfold Before at *
  omega

theorem comesBefore_trans {s : State} {f g h : Nat} (h1 : comesBefore s f g = true) (h2 : comesBefore s g h = true) :
    comesBefore s f h = true := by
  rw [comesBefore_iff] at *
  unfold Before at *
  omega

/-- What a scan over some handles has found. -/
def Scanned (s : State) (seen : List Nat) : Option Nat → Prop
  | none => ∀ g ∈ seen, s.live.testBit g = false
  | some h =>
    h ∈ seen ∧ s.live.testBit h = true ∧
      ∀ g ∈ seen, s.live.testBit g = true → g ≠ h → comesBefore s h g = true

theorem scan_spec (s : State) (k : Nat) : Scanned s (List.range k) (minBelow k s) := by
  induction k with
  | zero => intro g hg; exact absurd hg (by simp)
  | succ k ih =>
    rw [List.range_succ, minBelow]
    revert ih
    generalize minBelow k s = best
    intro ih
    unfold pickMin
    by_cases hk : s.live.testBit k = true
    · rw [if_pos hk]
      cases best with
      | none =>
        refine ⟨by simp, hk, ?_⟩
        intro g hg hl hne
        simp only [List.mem_append, List.mem_singleton] at hg
        rcases hg with hg | hg
        · rw [ih g hg] at hl; exact absurd hl (by simp)
        · exact absurd hg hne
      | some h =>
        obtain ⟨hm, hl, hmin⟩ := ih
        by_cases hc : comesBefore s k h = true
        · simp only [hc, if_true]
          refine ⟨by simp, hk, ?_⟩
          intro g hg hgl hne
          simp only [List.mem_append, List.mem_singleton] at hg
          rcases hg with hg | hg
          · by_cases hgh : g = h
            · rw [hgh]; exact hc
            · exact comesBefore_trans hc (hmin g hg hgl hgh)
          · exact absurd hg hne
        · simp only [hc]
          refine ⟨by simp [hm], hl, ?_⟩
          intro g hg hgl hne
          simp only [List.mem_append, List.mem_singleton] at hg
          rcases hg with hg | hg
          · exact hmin g hg hgl hne
          · subst hg
            exact comesBefore_total hne (by simpa using hc)
    · rw [if_neg hk]
      cases best with
      | none =>
        intro g hg
        simp only [List.mem_append, List.mem_singleton] at hg
        rcases hg with hg | hg
        · exact ih g hg
        · subst hg; simpa using hk
      | some h =>
        obtain ⟨hm, hl, hmin⟩ := ih
        refine ⟨by simp [hm], hl, ?_⟩
        intro g hg hgl hne
        simp only [List.mem_append, List.mem_singleton] at hg
        rcases hg with hg | hg
        · exact hmin g hg hgl hne
        · subst hg; exact absurd hgl hk

theorem minLive_some {s : State} {h : Nat} (hw : s.live < 2 ^ s.cfg.nodeCap) (hm : minLive s = some h) :
    s.live.testBit h = true ∧ ∀ g, s.live.testBit g = true → g ≠ h → comesBefore s h g = true := by
  have := scan_spec s s.cfg.nodeCap
  unfold minLive at hm
  rw [hm] at this
  exact ⟨this.2.1, fun g hg hne => this.2.2 g (List.mem_range.mpr (live_lt hw hg)) hg hne⟩

theorem minLive_none {s : State} (hw : s.live < 2 ^ s.cfg.nodeCap) (hm : minLive s = none) (g : Nat) :
    s.live.testBit g = false := by
  have := scan_spec s s.cfg.nodeCap
  unfold minLive at hm
  rw [hm] at this
  by_contra hg
  have hg' : s.live.testBit g = true := by simpa using hg
  exact hg (this g (List.mem_range.mpr (live_lt hw hg')))

/-! ### The forest -/

/-- Sum of the counts of some symbols. -/
def countSum (s : State) (ks : List Nat) : Nat := (ks.map fun k => (freqAt s k)).sum

/-- The live nodes are the tops of these trees; together they use the handles below `n` once each, and their leaves
are these symbols, each weighed by its count. -/
structure Forest (s : State) (n : Nat) (used : List Nat) (ts : List HTree) : Prop where
  room : BuildRoom s
  live : ∀ g, s.live.testBit g = true ↔ ∃ T ∈ ts, (topHandle T) = g
  holds : ∀ T ∈ ts, Holds s T
  weights : ∀ T ∈ ts, WeightsOk s T
  nodup : (ts.flatMap treeHandles).Nodup
  below : ∀ T ∈ ts, ∀ k ∈ treeHandles T, k < n
  size : (ts.flatMap treeHandles).length = n
  leaves : (ts.flatMap fun T => leafSymbols (shapeOf T)).Perm used
  few : used.length ≤ nsym

theorem Forest.perm {s : State} {n : Nat} {used : List Nat} {ts us : List HTree} (h : Forest s n used ts)
    (hp : ts.Perm us) : Forest s n used us where
  room := h.room
  live g := by
    rw [h.live g]
    exact ⟨fun ⟨T, hT, e⟩ => ⟨T, hp.mem_iff.mp hT, e⟩, fun ⟨T, hT, e⟩ => ⟨T, hp.mem_iff.mpr hT, e⟩⟩
  holds T hT := h.holds T (hp.mem_iff.mpr hT)
  weights T hT := h.weights T (hp.mem_iff.mpr hT)
  nodup := (hp.flatMap_right _).nodup_iff.mp h.nodup
  below T hT := h.below T (hp.mem_iff.mpr hT)
  size := by rw [← (hp.flatMap_right treeHandles).length_eq]; exact h.size
  leaves := (hp.flatMap_right _).symm.trans h.leaves
  few := h.few

theorem leafSymbols_length (t : Shape) : (leafSymbols t).length = leafCount t := by
  simp [leafSymbols, shapeLeaves_length]

theorem leafSymbols_branch (l r : Shape) : leafSymbols (.branch l r) = leafSymbols l ++ leafSymbols r := by
  simp only [leafSymbols, shapeLeaves, List.map_append, List.map_map]
  rfl

/-- A forest of `k` trees on `L` symbols has `2 L - k` nodes. -/
theorem Forest.node_count {s : State} {n : Nat} {used : List Nat} {ts : List HTree} (h : Forest s n used ts) :
    n + ts.length = 2 * used.length := by
  rw [← h.size, ← h.leaves.length_eq]
  clear h
  induction ts with
  | nil => rfl
  | cons T ts ih =>
    simp only [List.flatMap_cons, List.length_append, List.length_cons, treeHandles_length, leafSymbols_length]
    have h1 := shapeSize_eq (shapeOf T)
    have h2 := leafCount_pos (shapeOf T)
    omega

/-- The weight of a tree is the sum of its leaves' counts. -/
theorem WeightsOk.sum {s : State} {T : HTree} (h : WeightsOk s T) :
    (nodeAt s (topHandle T)).weight = countSum s (leafSymbols (shapeOf T)) := by
  induction T with
  | leaf k sym => simpa [WeightsOk, countSum, leafSymbols, shapeOf, shapeLeaves, topHandle_leaf] using h
  | branch k l r ihl ihr =>
    obtain ⟨h1, hl, hr⟩ := h
    rw [topHandle_branch, h1, ihl hl, ihr hr, shapeOf, leafSymbols_branch]
    simp [countSum]

theorem countSum_append (s : State) (xs ys : List Nat) : countSum s (xs ++ ys) = countSum s xs + countSum s ys := by
  simp [countSum]

theorem countSum_perm {s : State} {xs ys : List Nat} (h : xs.Perm ys) : countSum s xs = countSum s ys :=
  (h.map _).sum_eq

theorem countSum_le {s : State} (hf : ∀ k, freqAt s k < 2 ^ s.cfg.cntW) (ks : List Nat) :
    countSum s ks ≤ ks.length * 2 ^ s.cfg.cntW := by
  induction ks with
  | nil => simp [countSum]
  | cons k ks ih =>
    have := hf k
    simp only [countSum, List.map_cons, List.sum_cons, List.length_cons, Nat.succ_mul] at ih ⊢
    omega

/-- No sum of the counts of at most 257 symbols overflows a weight (R86). -/
theorem countSum_lt {s : State} (h : BuildRoom s) {ks : List Nat} (hk : ks.length ≤ nsym) :
    countSum s ks < 2 ^ s.cfg.wtW := by
  have h1 := countSum_le h.freq ks
  have h2 : ks.length * 2 ^ s.cfg.cntW ≤ 257 * 2 ^ s.cfg.cntW := Nat.mul_le_mul_right _ hk
  have h3 := Nat.two_pow_pos s.cfg.cntW
  rw [h.config.weight, pow_add]
  omega

theorem WeightsOk.agree {s t : State} {T : HTree} (h : WeightsOk s T) (hf : t.freq = s.freq)
    (ha : ∀ k ∈ treeHandles T, nodeAt t k = nodeAt s k) : WeightsOk t T := by
  induction T with
  | leaf k sym =>
    have := ha k (by simp [treeHandles])
    simp only [WeightsOk, this, freqAt_congr hf] at h ⊢
    exact h
  | branch k l r ihl ihr =>
    have hk := ha k (by simp [treeHandles])
    have hl := ha (topHandle l) (by simp [treeHandles, topHandle_mem])
    have hr := ha (topHandle r) (by simp [treeHandles, topHandle_mem])
    simp only [WeightsOk, hk, hl, hr] at h ⊢
    exact ⟨h.1, ihl h.2.1 fun j hj => ha j (by simp [treeHandles, hj]),
      ihr h.2.2 fun j hj => ha j (by simp [treeHandles, hj])⟩

/-! ### One merge -/

theorem nodeAt_setNode_of_lt {n k : Nat} (v : Node) (s : State) (hk : k < n) :
    nodeAt (setNode n v s) k = nodeAt s k := nodeAt_setNode_ne v s (Nat.ne_of_lt hk)

/-- An entry that is within its widths is stored as it is. -/
theorem fitNode_eq {c : Config} {v : Node} (h1 : v.weight < 2 ^ c.wtW) (h2 : v.left < 2 ^ c.hW)
    (h3 : v.right < 2 ^ c.hW) : fitNode c v = v := by
  simp only [fitNode, narrow_eq h1, narrow_eq h2, narrow_eq h3]

theorem mergeInto_freq (n a b : Nat) (s : State) : (mergeInto n a b s).freq = s.freq := rfl

/-- Merging the tops of two trees of the forest. -/
theorem Forest.merge {s : State} {n : Nat} {used : List Nat} {A B : HTree} {rest : List HTree}
    (h : Forest s n used (A :: B :: rest)) :
    Forest (mergeInto n (topHandle A) (topHandle B)
      (dropLive (topHandle B) (dropLive (topHandle A) s))) (n + 1) used
      (.branch n A B :: rest) := by
  have hcount := h.node_count
  have hfew := h.few
  simp only [List.length_cons, nsym] at hcount hfew
  have hcap := h.room.config.arena
  simp only [nsym] at hcap
  have hn : n < s.cfg.nodeCap := by omega
  have hA := h.below A (by simp)
  have hB := h.below B (by simp)
  have hAt := hA _ (topHandle_mem A)
  have hBt := hB _ (topHandle_mem B)
  have hW := h.room.config.handle
  set u := dropLive (topHandle B) (dropLive (topHandle A) s) with hu
  have hru : BuildRoom u := (h.room.drop _).drop _
  have hsum : (nodeAt s (topHandle A)).weight + (nodeAt s (topHandle B)).weight < 2 ^ s.cfg.wtW := by
    rw [(h.weights A (by simp)).sum, (h.weights B (by simp)).sum]
    have hp := countSum_perm (s := s) h.leaves
    simp only [List.flatMap_cons, countSum_append] at hp
    have hle := countSum_lt h.room h.few
    omega
  have hnode : ∀ k : Nat, k < n → nodeAt (mergeInto n (topHandle A) (topHandle B) u) k = nodeAt s k := by
    intro k hk
    show nodeAt (setNode n _ u) k = _
    rw [nodeAt_setNode_of_lt _ _ hk]
    exact nodeAt_congr rfl rfl k
  have hagree : ∀ T ∈ A :: B :: rest, ∀ k ∈ treeHandles T,
      nodeAt (mergeInto n (topHandle A) (topHandle B) u) k = nodeAt s k :=
    fun T hT k hk => hnode k (h.below T hT k hk)
  have hnew : nodeAt (mergeInto n (topHandle A) (topHandle B) u) n =
      innerNode ((nodeAt s (topHandle A)).weight + (nodeAt s (topHandle B)).weight) (topHandle A) (topHandle B) := by
    show nodeAt (setNode n _ u) _ = _
    rw [nodeAt_setNode_same _ _ (by rw [hru.size]; exact hn)]
    exact fitNode_eq hsum (by show topHandle A < _; exact lt_trans hAt (lt_trans hn hW))
      (by show topHandle B < _; exact lt_trans hBt (lt_trans hn hW))
  have hHold : ∀ T ∈ A :: B :: rest, Holds (mergeInto n (topHandle A) (topHandle B) u) T :=
    fun T hT => (h.holds T hT).agree (hagree T hT)
  have hWt : ∀ T ∈ A :: B :: rest, WeightsOk (mergeInto n (topHandle A) (topHandle B) u) T :=
    fun T hT => (h.weights T hT).agree rfl (hagree T hT)
  have hnd := h.nodup
  simp only [List.flatMap_cons] at hnd
  refine
    { room := hru.addNode _ _
      live := ?_
      holds := ?_
      weights := ?_
      nodup := ?_
      below := ?_
      size := ?_
      leaves := ?_
      few := h.few }
  · intro g
    have hl := h.live g
    have e : (mergeInto n (topHandle A) (topHandle B) u).live.testBit g =
        ((s.live.testBit g && decide (g ≠ (topHandle A))) && decide (g ≠ (topHandle B))
          || decide (g = n)) := by
      refine (addLive_get (setNode n _ u) hn).trans ?_
      show (u.live.testBit g || _) = _
      rw [hu, dropLive_get, dropLive_get]
    rw [e]
    simp only [Bool.or_eq_true, Bool.and_eq_true, decide_eq_true_eq, List.mem_cons]
    constructor
    · rintro (⟨⟨hg, hgA⟩, hgB⟩ | hg)
      · obtain ⟨T, hT, hTg⟩ := hl.mp hg
        simp only [List.mem_cons] at hT
        rcases hT with rfl | rfl | hT
        · exact absurd hTg.symm hgA
        · exact absurd hTg.symm hgB
        · exact ⟨T, .inr hT, hTg⟩
      · exact ⟨_, .inl rfl, by rw [topHandle_branch, hg]⟩
    · rintro ⟨T, hT, hTg⟩
      rcases hT with rfl | hT
      · right; rw [topHandle_branch] at hTg; exact hTg.symm
      · left
        have hTm := topHandle_mem T
        have hin : topHandle T ∈ rest.flatMap treeHandles := List.mem_flatMap.mpr ⟨T, hT, hTm⟩
        rw [List.nodup_append, List.nodup_append] at hnd
        refine ⟨⟨hl.mpr ⟨T, by simp [hT], hTg⟩, ?_⟩, ?_⟩
        · intro hh
          have : topHandle T = topHandle A := hTg.trans hh
          exact hnd.2.2 _ (topHandle_mem A) _ (List.mem_append_right _ hin) this.symm
        · intro hh
          have : topHandle T = topHandle B := hTg.trans hh
          exact hnd.2.1.2.2 _ (topHandle_mem B) _ hin this.symm
  · intro T hT
    simp only [List.mem_cons] at hT
    rcases hT with rfl | hT
    · simp only [Holds, hnew]
      exact ⟨rfl, rfl, rfl, hHold A (by simp), hHold B (by simp)⟩
    · exact hHold T (by simp [hT])
  · intro T hT
    simp only [List.mem_cons] at hT
    rcases hT with rfl | hT
    · simp only [WeightsOk, hnew, hnode _ hAt, hnode _ hBt]
      exact ⟨rfl, hWt A (by simp), hWt B (by simp)⟩
    · exact hWt T (by simp [hT])
  · simp only [List.flatMap_cons, treeHandles, List.cons_append, List.nodup_cons, List.append_assoc]
    refine ⟨?_, hnd⟩
    intro hm
    have hmem : ∃ T ∈ A :: B :: rest, n ∈ treeHandles T := by
      simp only [List.mem_append, List.mem_flatMap] at hm
      rcases hm with hm | hm | ⟨T, hT, hm⟩
      · exact ⟨A, by simp, hm⟩
      · exact ⟨B, by simp, hm⟩
      · exact ⟨T, by simp [hT], hm⟩
    obtain ⟨T, hT, hm⟩ := hmem
    have := h.below T hT _ hm
    omega
  · intro T hT k hk
    simp only [List.mem_cons] at hT
    rcases hT with rfl | hT
    · simp only [treeHandles, List.mem_cons, List.mem_append] at hk
      rcases hk with rfl | hk | hk
      · omega
      · have := hA k hk; omega
      · have := hB k hk; omega
    · have := h.below T (by simp [hT]) k hk; omega
  · have hs := h.size
    simp only [List.flatMap_cons, treeHandles, List.length_append, List.length_cons] at hs ⊢
    omega
  · have hl := h.leaves
    simp only [List.flatMap_cons, shapeOf, leafSymbols_branch, List.append_assoc] at hl ⊢
    exact hl

/-! ### The queue during the merges -/

/-- Before node `n` is made, with the leaves below `m`: the queue holds the waiting handles, and every internal node
so far is a merge of the two first waiting. -/
structure Merging (s : State) (m n : Nat) : Prop where
  le : m ≤ n
  queue : ∀ g, s.live.testBit g = true ↔ Waiting s m n g
  merged : ∀ h, m ≤ h → h < n → MergedAt s m h

theorem Before_congr {s t : State} {g h : Nat} (hg : nodeAt t g = nodeAt s g) (hh : nodeAt t h = nodeAt s h) :
    Before t g h ↔ Before s g h := by unfold Before; rw [hg, hh]

theorem Waiting_congr {s t : State} {m h g : Nat} (ha : ∀ k < h, nodeAt t k = nodeAt s k) :
    Waiting t m h g ↔ Waiting s m h g := by
  unfold Waiting
  constructor
  · rintro ⟨h1, h2⟩; exact ⟨h1, fun k hk hkh => by rw [← ha k hkh]; exact h2 k hk hkh⟩
  · rintro ⟨h1, h2⟩; exact ⟨h1, fun k hk hkh => by rw [ha k hkh]; exact h2 k hk hkh⟩

theorem FirstOf_congr {s t : State} {P Q : Nat → Prop} {a h : Nat} (ha : ∀ k < h, nodeAt t k = nodeAt s k)
    (hP : ∀ g, P g → g < h) (hPQ : ∀ g, Q g ↔ P g) (hf : FirstOf s P a) : FirstOf t Q a := by
  refine ⟨(hPQ a).mpr hf.1, fun g hg hne => ?_⟩
  have hg' := (hPQ g).mp hg
  rw [Before_congr (ha a (hP a hf.1)) (ha g (hP g hg'))]
  exact hf.2 g hg' hne

theorem MergedAt_congr {s t : State} {m h : Nat} (ha : ∀ k ≤ h, nodeAt t k = nodeAt s k) (hm : MergedAt s m h) :
    MergedAt t m h := by
  have hh := ha h (Nat.le_refl h)
  have hlt : ∀ k < h, nodeAt t k = nodeAt s k := fun k hk => ha k (Nat.le_of_lt hk)
  have hl := hm.left.1.1
  have hr := hm.right.1.1.1
  refine ⟨by rw [hh]; exact hm.inner, ?_, ?_, ?_⟩
  · rw [hh]; exact FirstOf_congr hlt (fun g hg => hg.1) (fun g => Waiting_congr hlt) hm.left
  · rw [hh]
    exact FirstOf_congr hlt (fun g hg => hg.1.1) (fun g => by rw [Waiting_congr hlt]) hm.right
  · rw [hh, hm.weight, hlt _ hl, hlt _ hr]

/-- One merge of the two first waiting nodes keeps the queue's description. -/
theorem Merging.merge {s : State} {m n a b : Nat} (h : Merging s m n) (hr : BuildRoom s) (hn : n < s.cfg.nodeCap)
    (hsum : (nodeAt s a).weight + (nodeAt s b).weight < 2 ^ s.cfg.wtW)
    (ha : FirstOf s (fun g => s.live.testBit g = true) a)
    (hb : FirstOf s (fun g => s.live.testBit g = true ∧ g ≠ a) b) :
    Merging (mergeInto n a b (dropLive b (dropLive a s))) m (n + 1) := by
  have hW := hr.config.handle
  set u := dropLive b (dropLive a s) with hu
  set t := mergeInto n a b u with ht
  have hru : BuildRoom u := (hr.drop _).drop _
  have hold : ∀ k < n, nodeAt t k = nodeAt s k := by
    intro k hk
    show nodeAt (setNode n _ u) _ = _
    rw [nodeAt_setNode_of_lt _ _ hk]
    exact nodeAt_congr rfl rfl _
  have hwa := (h.queue a).mp ha.1
  have hwb := (h.queue b).mp hb.1.1
  have hnew : nodeAt t n = innerNode ((nodeAt s a).weight + (nodeAt s b).weight) a b := by
    show nodeAt (setNode n _ u) _ = _
    rw [nodeAt_setNode_same _ _ (by rw [hru.size]; exact hn)]
    exact fitNode_eq hsum (lt_trans hwa.1 (lt_trans hn hW)) (lt_trans hwb.1 (lt_trans hn hW))
  have hlive : ∀ g, t.live.testBit g = true ↔ (s.live.testBit g = true ∧ g ≠ a ∧ g ≠ b) ∨ g = n := by
    intro g
    have e : t.live.testBit g =
        ((s.live.testBit g && decide (g ≠ a)) && decide (g ≠ b) || decide (g = n)) := by
      refine (addLive_get (setNode n _ u) hn).trans ?_
      show (u.live.testBit g || _) = _
      rw [hu, dropLive_get, dropLive_get]
    rw [e]
    simp only [Bool.or_eq_true, Bool.and_eq_true, decide_eq_true_eq, and_assoc]
  refine ⟨Nat.le_succ_of_le h.le, fun g => ?_, fun k hmk hk => ?_⟩
  · rw [hlive g, h.queue g]
    unfold Waiting
    constructor
    · rintro (⟨⟨h1, h2⟩, hga, hgb⟩ | rfl)
      · refine ⟨by omega, fun k hmk hk => ?_⟩
        by_cases hkn : k = n
        · subst hkn; rw [hnew]; simp only [innerNode]; exact ⟨Ne.symm hga, Ne.symm hgb⟩
        · rw [hold k (by omega)]; exact h2 k hmk (by omega)
      · refine ⟨by omega, fun k hmk hk => ?_⟩
        by_cases hkn : k = g
        · subst hkn; rw [hnew]; simp only [innerNode]
          have := hwa.1; have := hwb.1
          omega
        · rw [hold k (by omega)]
          have hmd := h.merged k hmk (by omega)
          have := hmd.left.1.1
          have := hmd.right.1.1.1
          omega
    · rintro ⟨h1, h2⟩
      by_cases hgn : g = n
      · exact .inr hgn
      · have hn2 := h2 n h.le (by omega)
        rw [hnew] at hn2
        simp only [innerNode] at hn2
        refine .inl ⟨⟨by omega, fun k hmk hk => ?_⟩, Ne.symm hn2.1, Ne.symm hn2.2⟩
        have := h2 k hmk (by omega)
        rwa [hold k hk] at this
  · by_cases hkn : k = n
    · subst hkn
      have hl : (nodeAt t k).left = a := by rw [hnew]; rfl
      have hrt : (nodeAt t k).right = b := by rw [hnew]; rfl
      refine ⟨by rw [hnew]; exact ⟨rfl, rfl⟩, ?_, ?_, ?_⟩
      · rw [hl]
        exact FirstOf_congr hold (fun g hg => ((h.queue g).mp hg).1)
          (fun g => by rw [Waiting_congr hold, h.queue g]) ha
      · rw [hrt, hl]
        exact FirstOf_congr hold (fun g hg => ((h.queue g).mp hg.1).1)
          (fun g => by rw [Waiting_congr hold, h.queue g]) hb
      · have e1 : nodeAt t (nodeAt t k).left = nodeAt s a := by
          rw [hl, hold a hwa.1]
        have e2 : nodeAt t (nodeAt t k).right = nodeAt s b := by
          rw [hrt, hold b hwb.1]
        rw [e1, e2, hnew]
        rfl
    · exact MergedAt_congr (fun j hj => hold j (by omega)) (h.merged k hmk (by omega))

/-! ### The merge loop -/

/-- `t` differs from `s` only where building a tree may change it. -/
def BuildFrame (s t : State) : Prop := t = { s with node := t.node, live := t.live }

theorem BuildFrame.trans {s t u : State} (h : BuildFrame s t) (k : BuildFrame t u) : BuildFrame s u := by
  unfold BuildFrame at *; rw [k, h]

theorem mergeLoop_frame (k n : Nat) (s : State) : BuildFrame s (mergeLoop k n s).2 := by
  induction k generalizing n s with
  | zero => rfl
  | succ k ih =>
    unfold mergeLoop
    cases h1 : extractMin s with
    | none => rfl
    | some p =>
      obtain ⟨a, s1⟩ := p
      simp only
      cases h2 : extractMin s1 with
      | none => rfl
      | some q =>
        obtain ⟨b, s2⟩ := q
        simp only
        have e1 : s1 = dropLive a s := by
          unfold extractMin at h1
          cases hm : minLive s with
          | none => rw [hm] at h1; simp at h1
          | some x => rw [hm] at h1; simp only [Option.some.injEq, Prod.mk.injEq] at h1; rw [← h1.2, h1.1]
        have e2 : s2 = dropLive b s1 := by
          unfold extractMin at h2
          cases hm : minLive s1 with
          | none => rw [hm] at h2; simp at h2
          | some x => rw [hm] at h2; simp only [Option.some.injEq, Prod.mk.injEq] at h2; rw [← h2.2, h2.1]
        exact BuildFrame.trans (t := mergeInto n a b s2) (by rw [e2, e1]; rfl) (ih _ _)

theorem minLive_first {s : State} {h : Nat} (hw : s.live < 2 ^ s.cfg.nodeCap) (hm : minLive s = some h) :
    FirstOf s (fun g => s.live.testBit g = true) h := by
  obtain ⟨h1, h2⟩ := minLive_some hw hm
  exact ⟨h1, fun g hg hne => (comesBefore_iff s h g).mp (h2 g hg hne)⟩

theorem minLive_second {s : State} {a b : Nat} (hr : BuildRoom s) (hm : minLive (dropLive a s) = some b) :
    FirstOf s (fun g => s.live.testBit g = true ∧ g ≠ a) b := by
  have hd : ∀ g, (dropLive a s).live.testBit g = true ↔ s.live.testBit g = true ∧ g ≠ a := fun g => by
    rw [dropLive_get]; simp
  obtain ⟨h1, h2⟩ := minLive_first (hr.drop a).live hm
  exact ⟨(hd b).mp h1, fun g hg hne => h2 g ((hd g).mpr hg) hne⟩

/-- The merge loop turns a forest into one tree (R83), each merge taking the two first waiting nodes. -/
theorem mergeLoop_spec {k m n : Nat} {s : State} {used : List Nat} {ts : List HTree} (h : Forest s n used ts)
    (hq : Merging s m n) (hne : ts ≠ []) (hk : ts.length ≤ k + 1) :
    ∃ T, Forest (mergeLoop k n s).2 (mergeLoop k n s).1 used [T] ∧
      Merging (mergeLoop k n s).2 m (mergeLoop k n s).1 ∧
      ∀ j < n, nodeAt (mergeLoop k n s).2 j = nodeAt s j := by
  induction k generalizing n s ts with
  | zero =>
    match ts, hne, hk with
    | [T], _, _ => exact ⟨T, h, hq, fun _ _ => rfl⟩
    | _ :: _ :: _, _, hk => simp at hk
  | succ k ih =>
    unfold mergeLoop
    cases hm : minLive s with
    | none =>
      exfalso
      obtain ⟨T, hT⟩ := List.exists_mem_of_ne_nil ts hne
      have := (h.live (topHandle T)).mpr ⟨T, hT, rfl⟩
      rw [minLive_none h.room.live hm] at this
      exact absurd this (by simp)
    | some a =>
      obtain ⟨ha, _⟩ := minLive_some h.room.live hm
      obtain ⟨A, hA, hAa⟩ := (h.live a).mp ha
      obtain ⟨us, hus⟩ : ∃ us, ts.Perm (A :: us) := ⟨_, List.perm_cons_erase hA⟩
      have hF := h.perm hus
      simp only [extractMin, hm]
      cases hm2 : minLive (dropLive a s) with
      | none =>
        have hus0 : us = [] := by
          by_contra hu
          obtain ⟨T, hT⟩ := List.exists_mem_of_ne_nil us hu
          have h1 := (hF.live (topHandle T)).mpr ⟨T, by simp [hT], rfl⟩
          have h2 := minLive_none (h.room.drop a).live hm2 (topHandle T)
          rw [dropLive_get, h1] at h2
          simp only [Bool.true_and, decide_eq_false_iff_not, ne_eq, not_not] at h2
          have hnd := hF.nodup
          rw [List.flatMap_cons, List.nodup_append] at hnd
          exact hnd.2.2 _ (topHandle_mem A) _ (List.mem_flatMap.mpr ⟨T, hT, topHandle_mem T⟩)
            (by rw [hAa, h2])
        rw [hus0] at hF
        exact ⟨A, hF, hq, fun _ _ => rfl⟩
      | some b =>
        obtain ⟨hb, _⟩ := minLive_some (h.room.drop a).live hm2
        rw [dropLive_get] at hb
        simp only [Bool.and_eq_true, decide_eq_true_eq] at hb
        obtain ⟨B, hB, hBb⟩ := (hF.live b).mp hb.1
        simp only [List.mem_cons] at hB
        rcases hB with rfl | hB
        · exact absurd (hBb.symm.trans hAa) hb.2
        · obtain ⟨vs, hvs⟩ : ∃ vs, us.Perm (B :: vs) := ⟨_, List.perm_cons_erase hB⟩
          have hG := hF.perm (hvs.cons A)
          have hM := hG.merge
          rw [hAa, hBb] at hM
          have hlen : ts.length = vs.length + 2 := by rw [hus.length_eq, List.length_cons, hvs.length_eq, List.length_cons]
          have hnb := hG.node_count
          have hfew := hG.few
          simp only [List.length_cons, nsym] at hnb hfew
          have hcap := h.room.config.arena
          simp only [nsym] at hcap
          have hsum : (nodeAt s a).weight + (nodeAt s b).weight < 2 ^ s.cfg.wtW := by
            rw [← hAa, ← hBb, (hG.weights A (by simp)).sum, (hG.weights B (by simp)).sum]
            have hp := countSum_perm (s := s) hG.leaves
            simp only [List.flatMap_cons, countSum_append] at hp
            have hle := countSum_lt hG.room hG.few
            omega
          have hQ := hq.merge h.room (by omega) hsum (minLive_first h.room.live hm) (minLive_second h.room hm2)
          obtain ⟨T, hT, hTq, hTn⟩ := ih hM hQ (by simp) (by simp only [List.length_cons]; omega)
          refine ⟨T, hT, hTq, fun j hj => ?_⟩
          rw [hTn j (by omega)]
          show nodeAt (setNode n _ _) j = _
          rw [nodeAt_setNode_of_lt _ _ hj]
          exact nodeAt_congr rfl rfl j

/-! ### The leaves -/

theorem addLeaves_frame (ks : List Nat) (n : Nat) (s : State) : BuildFrame s (addLeaves ks n s).2 := by
  induction ks generalizing n s with
  | nil => rfl
  | cons k ks ih =>
    unfold addLeaves
    split
    · exact BuildFrame.trans (t := addLive n (setNode n _ s)) rfl (ih _ _)
    · exact ih _ _

/-- The leaf of symbol `k` (R80). -/
def leafFor (s : State) (k : Nat) : Node := leafNode (BitVec.ofNat 9 k) (freqAt s k)

/-- The leaves so far: handle `i` holds the leaf of the `i`-th used symbol, and all of them are live. -/
structure Leaves (s : State) (used : List Nat) : Prop where
  room : BuildRoom s
  nodes : ∀ i (hi : i < used.length), nodeAt s i = leafFor s used[i]
  live : ∀ g, s.live.testBit g = true ↔ g < used.length

theorem addLeaves_spec {ks used : List Nat} {s : State} (h : Leaves s used)
    (hfew : used.length + ks.length ≤ nsym) :
    (addLeaves ks used.length s).1 = (used ++ ks.filter fun k => decide (freqAt s k ≠ 0)).length ∧
      Leaves (addLeaves ks used.length s).2 (used ++ ks.filter fun k => decide (freqAt s k ≠ 0)) := by
  induction ks generalizing used s with
  | nil => simp only [addLeaves, List.filter_nil, List.append_nil]; exact ⟨trivial, h⟩
  | cons k ks ih =>
    simp only [List.length_cons] at hfew
    unfold addLeaves
    by_cases hk : freqAt s k ≠ 0
    · rw [if_pos hk]
      have hcap := h.room.config.arena
      have hn : used.length < s.cfg.nodeCap := by simp only [nsym] at hfew hcap; omega
      have hwt : narrow s.cfg.wtW (freqAt s k) = freqAt s k := by
        refine narrow_eq (lt_trans (h.room.freq k) (Nat.pow_lt_pow_right (by decide) ?_))
        rw [h.room.config.weight]; omega
      set t := addLive used.length (setNode used.length (leafNode (BitVec.ofNat 9 k) (narrow s.cfg.wtW (freqAt s k))) s)
        with ht
      have hft : ∀ j, freqAt t j = freqAt s j := fun j => rfl
      have hL : Leaves t (used ++ [k]) := by
        refine ⟨h.room.addNode _ _, fun i hi => ?_, fun g => ?_⟩
        · simp only [List.length_append, List.length_singleton] at hi
          by_cases hin : i < used.length
          · show nodeAt (setNode used.length _ s) _ = _
            rw [nodeAt_setNode_of_lt _ _ hin, List.getElem_append_left hin]
            exact h.nodes i hin
          · have hie : i = used.length := by omega
            subst hie
            show nodeAt (setNode used.length _ s) _ = _
            rw [nodeAt_setNode_same _ _ (by rw [h.room.size]; exact hn), hwt]
            simp only [List.getElem_append_right (Nat.le_refl _), Nat.sub_self, List.getElem_cons_zero]
            rfl
        · rw [ht, addLive_get (setNode used.length _ s) hn, setNode_live, List.length_append, List.length_singleton, Bool.or_eq_true, h.live g,
            decide_eq_true_eq]
          omega
      have hlen : used.length + 1 = (used ++ [k]).length := by simp
      have ihh := ih hL (by rw [List.length_append, List.length_singleton]; omega)
      rw [hlen]
      have hfe : (k :: ks).filter (fun k => decide (freqAt s k ≠ 0)) = k :: ks.filter fun k => decide (freqAt s k ≠ 0) := by
        rw [List.filter_cons, if_pos (by simpa using hk)]
      have hft' : (fun k => decide (freqAt t k ≠ 0)) = fun k => decide (freqAt s k ≠ 0) := by funext j; rw [hft]
      rw [hft', List.append_assoc, List.singleton_append] at ihh
      rw [hfe]
      exact ihh
    · rw [if_neg hk]
      have hfe : (k :: ks).filter (fun k => decide (freqAt s k ≠ 0)) = ks.filter fun k => decide (freqAt s k ≠ 0) := by
        rw [List.filter_cons, if_neg (by simpa using hk)]
      rw [hfe]
      exact ih h (by omega)

/-- The leaves are a forest of one-node trees. -/
theorem Leaves.forest {s : State} {used : List Nat} (h : Leaves s used) (hfew : used.length ≤ nsym)
    (hs : ∀ k ∈ used, k < nsym) :
    Forest s used.length used
      ((List.range used.length).map fun i => .leaf i (BitVec.ofNat 9 (used.getD i 0))) := by
  simp only [nsym] at hfew hs
  have hgd : ∀ i (hi : i < used.length), used.getD i 0 = used[i] := fun i hi => by simp [hi]
  have hsy : ∀ i (hi : i < used.length), (BitVec.ofNat 9 used[i]).toNat = used[i] := fun i hi => by
    have := hs _ (List.getElem_mem hi)
    simp; omega
  have hfm : ∀ {β : Type} (f : HTree → List β) (g : Nat → β),
      (∀ i, i < used.length → f (.leaf i (BitVec.ofNat 9 (used.getD i 0))) = [g i]) →
      (((List.range used.length).map fun i =>
        HTree.leaf i (BitVec.ofNat 9 (used.getD i 0))).flatMap f) = (List.range used.length).map g := by
    intro β f g hfg
    rw [List.flatMap_map]
    have : ∀ l : List Nat, (∀ i ∈ l, i < used.length) →
        l.flatMap (fun i => f (.leaf i (BitVec.ofNat 9 (used.getD i 0)))) = l.map g := by
      intro l hl
      induction l with
      | nil => rfl
      | cons a l ih =>
        rw [List.flatMap_cons, hfg a (hl a (by simp)), ih fun i hi => hl i (by simp [hi])]
        rfl
    exact this _ fun i hi => List.mem_range.mp hi
  have hmem : ∀ {T : HTree}, T ∈ ((List.range used.length).map fun i =>
      HTree.leaf i (BitVec.ofNat 9 (used.getD i 0))) →
      ∃ i, ∃ hi : i < used.length, T = .leaf i (BitVec.ofNat 9 used[i]) := by
    intro T hT
    obtain ⟨i, hi, rfl⟩ := List.mem_map.mp hT
    have hi' := List.mem_range.mp hi
    exact ⟨i, hi', by rw [hgd i hi']⟩
  refine
    { room := h.room
      live := fun g => ?_
      holds := fun T hT => ?_
      weights := fun T hT => ?_
      nodup := ?_
      below := fun T hT => ?_
      size := ?_
      leaves := ?_
      few := by simp only [nsym]; exact hfew }
  · rw [h.live g]
    constructor
    · intro hg
      exact ⟨_, List.mem_map.mpr ⟨g, List.mem_range.mpr hg, rfl⟩, rfl⟩
    · rintro ⟨T, hT, hTg⟩
      obtain ⟨i, hi, rfl⟩ := hmem hT
      rw [topHandle_leaf] at hTg
      omega
  · obtain ⟨i, hi, rfl⟩ := hmem hT
    have hn : nodeAt s i = leafFor s used[i] := h.nodes i hi
    simp only [Holds, hn, hsy i hi]
    exact ⟨rfl, rfl, Nat.le_of_lt_succ (hs _ (List.getElem_mem hi))⟩
  · obtain ⟨i, hi, rfl⟩ := hmem hT
    have hn : nodeAt s i = leafFor s used[i] := h.nodes i hi
    simp only [WeightsOk, hn, hsy i hi, leafFor, leafNode]
  · rw [hfm treeHandles (fun i => i) (fun i _ => rfl)]
    exact List.Nodup.map_on (fun i hi j hj e => e) List.nodup_range
  · obtain ⟨i, hi, rfl⟩ := hmem hT
    intro k hk
    simp only [treeHandles, List.mem_singleton] at hk
    subst hk
    exact hi
  · rw [hfm treeHandles (fun i => i) (fun i _ => rfl)]; simp
  · rw [hfm (fun T => leafSymbols (shapeOf T)) (fun i => used.getD i 0) (fun i hi => by
      simp [leafSymbols, shapeLeaves, shapeOf]
      have := hsy i hi
      simp at this
      simp [hi, this])]
    refine List.Perm.of_eq (List.ext_getElem (by simp) fun i h1 h2 => ?_)
    simp [h2]

/-- The start of the merges: no internal node yet. -/
theorem Leaves.merging {s : State} {used : List Nat} (h : Leaves s used) : Merging s used.length used.length where
  le := Nat.le_refl _
  queue g := by
    rw [h.live g]
    exact ⟨fun hg => ⟨hg, fun k h1 h2 => absurd h2 (Nat.not_lt.mpr h1)⟩, fun hg => hg.1⟩
  merged k h1 h2 := absurd h2 (Nat.not_lt.mpr h1)

/-! ### The entries above the tree -/

theorem nodeAt_setNode_above {n h : Nat} (v : Node) (s : State) (hn : n < h) :
    nodeAt (setNode n v s) h = nodeAt s h := nodeAt_setNode_ne v s (by omega)

/-- Handles up to the next free one may have been written, the others not. -/
structure AboveKept (n : Nat) (s : State) (m k : Nat) (t : State) : Prop where
  cfg : t.cfg = s.cfg
  le : n ≤ m
  few : m ≤ n + k
  kept : ∀ h : Nat, m ≤ h → nodeAt t h = nodeAt s h

theorem addLeaves_above (ks : List Nat) (n : Nat) (s : State) :
    AboveKept n s (addLeaves ks n s).1 ks.length (addLeaves ks n s).2 := by
  induction ks generalizing n s with
  | nil => exact ⟨rfl, Nat.le_refl _, Nat.le_refl _, fun _ _ => rfl⟩
  | cons k ks ih =>
    unfold addLeaves
    split
    · obtain ⟨h0, h1, h2, h3⟩ := ih (n + 1)
        (addLive n (setNode n (leafNode (BitVec.ofNat 9 k) (narrow s.cfg.wtW (freqAt s k))) s))
      refine ⟨h0, by omega, by rw [List.length_cons]; omega, fun h hh => ?_⟩
      rw [h3 h hh]
      exact nodeAt_setNode_above _ s (by omega)
    · obtain ⟨h0, h1, h2, h3⟩ := ih n s
      exact ⟨h0, h1, by rw [List.length_cons]; omega, h3⟩

theorem extractMin_node {s t : State} {h : Nat} (he : extractMin s = some (h, t)) :
    t.node = s.node ∧ t.cfg = s.cfg := by
  unfold extractMin at he
  cases hm : minLive s with
  | none => rw [hm] at he; simp at he
  | some x => rw [hm] at he; simp only [Option.some.injEq, Prod.mk.injEq] at he; rw [← he.2]; exact ⟨rfl, rfl⟩

theorem mergeLoop_above (k n : Nat) (s : State) :
    AboveKept n s (mergeLoop k n s).1 k (mergeLoop k n s).2 := by
  induction k generalizing n s with
  | zero => exact ⟨rfl, Nat.le_refl _, Nat.le_refl _, fun _ _ => rfl⟩
  | succ k ih =>
    have hstop : AboveKept n s n (k + 1) s := ⟨rfl, Nat.le_refl _, by omega, fun _ _ => rfl⟩
    unfold mergeLoop
    cases h1 : extractMin s with
    | none => exact hstop
    | some p =>
      obtain ⟨a, s1⟩ := p
      simp only
      cases h2 : extractMin s1 with
      | none => exact hstop
      | some q =>
        obtain ⟨b, s2⟩ := q
        simp only
        obtain ⟨i0, i1, i2, i3⟩ := ih (n + 1) (mergeInto n a b s2)
        have hn := (extractMin_node h2).1.trans (extractMin_node h1).1
        have hc := (extractMin_node h2).2.trans (extractMin_node h1).2
        refine ⟨i0.trans hc, by omega, by omega, fun h hh => ?_⟩
        rw [i3 h hh]
        have hm : nodeAt (mergeInto n a b s2) h = nodeAt s2 h := nodeAt_setNode_above _ s2 (by omega)
        rw [hm]
        exact nodeAt_congr hn hc h

/-! ### The body of `TBLD` -/

/-- `t` differs from `s` only where `TBLD` may change it. -/
def TbldFrame (s t : State) : Prop :=
  t = { s with node := t.node, root := t.root, nnode := t.nnode, live := t.live, tv := t.tv, cv := t.cv }

/-- What `TBLD` leaves for `used`, the symbols with a non-zero count (R80 to R86). -/
structure TreeBuilt (s u : State) (T : HTree) : Prop where
  frame : TbldFrame s u
  tree : TreeIn u T
  weights : WeightsOk u T
  symbols : (leafSymbols (shapeOf T)).Perm (usedSymbols s)
  nodes : u.nnode = 2 * (usedSymbols s).length - 1
  root : u.root = 2 * (usedSymbols s).length - 2
  leaves : ∀ i (hi : i < (usedSymbols s).length), nodeAt u i = leafFor s (usedSymbols s)[i]
  merged : ∀ h, (usedSymbols s).length ≤ h → h < 2 * (usedSymbols s).length - 1 →
    MergedAt u (usedSymbols s).length h
  live : u.live = 0
  above : ∀ h, u.nnode ≤ h → nodeAt u h = nodeAt s h
  tv : u.tv = true
  cv : u.cv = false

theorem usedSymbols_length_le (s : State) : (usedSymbols s).length ≤ nsym := by
  have := List.length_filter_le (fun k => decide (freqAt s k ≠ 0)) (List.range nsym)
  rwa [List.length_range] at this

theorem mem_usedSymbols {s : State} {k : Nat} : k ∈ usedSymbols s ↔ k < nsym ∧ freqAt s k ≠ 0 := by
  simp only [usedSymbols, List.mem_filter, List.mem_range, decide_eq_true_eq]

/-- `TBLD` builds the tree of the used symbols, if there is one (R80 to R86). -/
theorem tbldBody_spec {s : State} (hroom : BuildRoom s) (hne : usedSymbols s ≠ []) :
    ∃ u T, tbldBody s = .ok () u ∧ TreeBuilt s u T := by
  set t : State := { clearTvCv s with live := 0 } with ht
  have hft : usedSymbols t = usedSymbols s := rfl
  have h0 : Leaves t [] := ⟨⟨hroom.config, hroom.size, hroom.freq, Nat.two_pow_pos _⟩,
    fun i hi => absurd hi (Nat.not_lt_zero _), fun g => by simp [ht]⟩
  obtain ⟨hcnt, hL⟩ := addLeaves_spec (ks := List.range nsym) h0 (by rw [List.length_range]; exact Nat.le_of_eq (by simp))
  rw [List.nil_append] at hcnt hL
  change (addLeaves (List.range nsym) 0 t).1 = (usedSymbols s).length at hcnt
  change Leaves (addLeaves (List.range nsym) 0 t).2 (usedSymbols s) at hL
  have hfrL := addLeaves_frame (List.range nsym) 0 t
  set s1 := (addLeaves (List.range nsym) 0 t).2 with hs1
  have hF := hL.forest (usedSymbols_length_le s) fun k hk => (mem_usedSymbols.mp hk).1
  have hlen := usedSymbols_length_le s
  have hpos : 0 < (usedSymbols s).length := List.length_pos_iff.mpr hne
  obtain ⟨T, hT, hQ, hnodes⟩ := mergeLoop_spec (k := s.cfg.nodeCap) hF hL.merging
    (by intro hh; have := congrArg List.length hh; simp at this; exact hne this)
    (by rw [List.length_map, List.length_range]; have := hroom.config.arena; simp only [nsym] at hlen this; omega)
  have hfrM := mergeLoop_frame s.cfg.nodeCap (usedSymbols s).length s1
  set s2 := (mergeLoop s.cfg.nodeCap (usedSymbols s).length s1).2 with hs2
  set n := (mergeLoop s.cfg.nodeCap (usedSymbols s).length s1).1 with hn
  have hncount : n + 1 = 2 * (usedSymbols s).length := by
    have := hT.node_count; simpa using this
  simp only [nsym] at hlen
  -- the one live node is the last node made
  have htop : (topHandle T) = n - 1 := by
    have hw : Waiting s2 (usedSymbols s).length n (n - 1) := by
      refine ⟨by omega, fun k hmk hk => ?_⟩
      have hmd := hQ.merged k hmk hk
      have := hmd.left.1.1
      have := hmd.right.1.1.1
      omega
    obtain ⟨T', hT', e⟩ := (hT.live (n - 1)).mp ((hQ.queue (n - 1)).mpr hw)
    simp only [List.mem_singleton] at hT'
    rw [← hT', e]
  have hmin : minLive s2 = some (n - 1) := by
    cases hm : minLive s2 with
    | none =>
      have := (hT.live (n - 1)).mpr ⟨T, by simp, htop⟩
      rw [minLive_none hT.room.live hm] at this
      exact absurd this (by simp)
    | some h =>
      obtain ⟨T', hT', e⟩ := (hT.live h).mp (minLive_some hT.room.live hm).1
      simp only [List.mem_singleton] at hT'
      rw [← e, hT', htop]
  have hcfg : s2.cfg = s.cfg := by
    have hfr : BuildFrame t s2 := hfrL.trans hfrM
    unfold BuildFrame at hfr; rw [hfr]; rfl
  have hcap := hroom.config.arena
  simp only [nsym] at hcap
  have hnw : n < 2 ^ s.cfg.hW := lt_of_le_of_lt (by omega) hroom.config.handle
  have hfr : BuildFrame t s2 := hfrL.trans hfrM
  have hfreq : s2.freq = s.freq := by unfold BuildFrame at hfr; rw [hfr]; rfl
  set u : State := setTv { dropLive (n - 1) s2 with root := narrow s2.cfg.hW (n - 1), nnode := narrow s2.cfg.hW n } with hu
  have hun : u.node = s2.node := rfl
  have hrt : narrow s2.cfg.hW (n - 1) = n - 1 := by rw [hcfg]; exact narrow_eq (by omega)
  have hnn : narrow s2.cfg.hW n = n := by rw [hcfg]; exact narrow_eq hnw
  refine ⟨u, T, ?_, ?_⟩
  · show takeRoot (mergeLoop s.cfg.nodeCap (addLeaves (List.range nsym) 0 t).1 s1).1
      (mergeLoop s.cfg.nodeCap (addLeaves (List.range nsym) 0 t).1 s1).2 = _
    rw [hcnt]
    show takeRoot n s2 = _
    unfold takeRoot
    rw [hmin]
  · have hnodeU : ∀ k, nodeAt u k = nodeAt s2 k := fun k => nodeAt_congr hun rfl _
    exact
      { frame := by
          unfold BuildFrame at hfr
          unfold TbldFrame
          rw [hu, hfr]
          rfl
        tree := by
          refine ⟨?_, (Holds_congr hun rfl T).mpr (hT.holds T (by simp)), ?_, ?_, ?_⟩
          · rw [htop]; exact hrt.symm
          · have := hT.nodup; simpa using this
          · intro k hk
            show k < narrow s2.cfg.hW n
            rw [hnn]; exact hT.below T (by simp) k hk
          · show narrow s2.cfg.hW n ≤ s2.cfg.nodeCap
            rw [hnn, hcfg]; omega
        weights := (hT.weights T (by simp)).agree rfl fun k _ => nodeAt_congr hun rfl k
        symbols := by have := hT.leaves; simpa using this
        nodes := by show narrow s2.cfg.hW n = _; rw [hnn]; omega
        root := by show narrow s2.cfg.hW (n - 1) = _; rw [hrt]; omega
        leaves := by
          intro i hi
          rw [hnodeU]
          refine (hnodes _ hi).trans ((hL.nodes i hi).trans ?_)
          unfold leafFor
          have : freqAt s1 (usedSymbols s)[i] = freqAt s (usedSymbols s)[i] := by
            refine (freqAt_congr (s := t) ?_ _).trans rfl
            unfold BuildFrame at hfrL; rw [hfrL]
          rw [this]
        merged := by
          intro h h1 h2
          exact MergedAt_congr (fun k _ => hnodeU k) (hQ.merged h h1 (by omega))
        above := by
          intro h hh
          have hh' : n ≤ h := by rw [← hnn]; exact hh
          rw [hnodeU]
          exact ((mergeLoop_above s.cfg.nodeCap (usedSymbols s).length s1).kept h hh').trans
            (((addLeaves_above (List.range nsym) 0 t).kept h (by rw [hcnt]; omega)).trans rfl)
        live := by
          apply Nat.eq_of_testBit_eq
          intro i
          show (dropLive (n - 1) s2).live.testBit i = _
          rw [dropLive_get]
          have := hT.live i
          by_cases hi : i = n - 1
          · simp [hi]
          · have : s2.live.testBit i = false := by
              by_contra hc
              obtain ⟨T', hT', e⟩ := (hT.live i).mp (by simpa using hc)
              simp only [List.mem_singleton] at hT'
              rw [hT', htop] at e
              exact hi e.symm
            simp [this]
        tv := rfl
        cv := by unfold BuildFrame at hfr; rw [hu, hfr]; rfl }

theorem addLeaves_none {ks : List Nat} {s : State} (h : ∀ k ∈ ks, freqAt s k = 0) (n : Nat) :
    addLeaves ks n s = (n, s) := by
  induction ks with
  | nil => rfl
  | cons k ks ih =>
    unfold addLeaves
    rw [if_neg (by rw [h k (by simp)]; simp), ih fun j hj => h j (by simp [hj])]

theorem minLive_empty {s : State} (h : s.live = 0) : minLive s = none := by
  unfold minLive
  generalize s.cfg.nodeCap = n
  induction n with
  | zero => rfl
  | succ n ih => rw [minBelow, ih, pickMin, h, if_neg (by simp)]

/-- Without a used symbol there is no node to be the root. -/
theorem tbldBody_stuck {s : State} (h0 : usedSymbols s = []) : tbldBody s = .stuck .noLiveNode := by
  have hz : ∀ k ∈ List.range nsym, freqAt { clearTvCv s with live := 0 } k = 0 := by
    intro k hk
    by_contra hc
    have : k ∈ usedSymbols s := mem_usedSymbols.mpr ⟨List.mem_range.mp hk, hc⟩
    rw [h0] at this
    exact absurd this (by simp)
  have hmin : minLive { clearTvCv s with live := 0 } = none := minLive_empty rfl
  have hloop : mergeLoop s.cfg.nodeCap 0 { clearTvCv s with live := 0 } = (0, { clearTvCv s with live := 0 }) := by
    cases s.cfg.nodeCap with
    | zero => rfl
    | succ n => unfold mergeLoop; simp only [extractMin, hmin]
  unfold tbldBody
  simp only [addLeaves_none hz, hloop, takeRoot, hmin]

/-- `TBLD` ends well or is stuck, and changes only what building the tree changes. -/
theorem tbldBody_cases (s : State) :
    (∃ u, tbldBody s = .ok () u ∧ TbldFrame s u ∧ u.tv = true) ∨ tbldBody s = .stuck .noLiveNode := by
  have h := (addLeaves_frame (List.range nsym) 0 { clearTvCv s with live := 0 }).trans
    (mergeLoop_frame s.cfg.nodeCap (addLeaves (List.range nsym) 0 { clearTvCv s with live := 0 }).1 _)
  unfold tbldBody takeRoot
  simp only
  generalize mergeLoop s.cfg.nodeCap _ _ = m at h ⊢
  cases minLive m.2 with
  | none => exact .inr rfl
  | some k =>
    refine .inl ⟨_, rfl, ?_, rfl⟩
    unfold BuildFrame at h
    unfold TbldFrame
    rw [h]
    rfl

/-! ### One merge order -/

theorem FirstOf.unique {s : State} {P : Nat → Prop} {a b : Nat} (ha : FirstOf s P a) (hb : FirstOf s P b) : a = b := by
  by_contra hne
  have h1 := ha.2 b hb.1 (Ne.symm hne)
  have h2 := hb.2 a ha.1 hne
  unfold Before at h1 h2
  omega

/-- Two merges over the same earlier nodes make the same node. -/
theorem MergedAt.unique {s t : State} {n h : Nat} (hs : MergedAt s n h) (ht : MergedAt t n h)
    (hb : ∀ k < h, nodeAt s k = nodeAt t k) : nodeAt s h = nodeAt t h := by
  have hw : ∀ g, Waiting t n h g ↔ Waiting s n h g := fun g => Waiting_congr fun k hk => (hb k hk).symm
  have l1 := FirstOf_congr (s := s) (t := t) (h := h) (Q := Waiting t n h) (fun k hk => (hb k hk).symm)
    (fun g hg => hg.1) hw hs.left
  have el : (nodeAt s h).left = (nodeAt t h).left := l1.unique ht.left
  have r1 := FirstOf_congr (s := s) (t := t) (h := h)
    (Q := fun g => Waiting t n h g ∧ g ≠ (nodeAt t h).left) (fun k hk => (hb k hk).symm)
    (fun g hg => hg.1.1) (fun g => by rw [hw, el]) hs.right
  have er : (nodeAt s h).right = (nodeAt t h).right := r1.unique ht.right
  have ew : (nodeAt s h).weight = (nodeAt t h).weight := by
    rw [hs.weight, ht.weight, ← el, ← er, hb _ hs.left.1.1, hb _ hs.right.1.1.1]
  have e1 := hs.inner
  have e2 := ht.inner
  clear hb hs ht l1 r1 hw
  revert el er ew e1 e2
  generalize nodeAt s h = x
  generalize nodeAt t h = y
  cases x
  cases y
  intro el er ew e1 e2
  simp only [Node.mk.injEq] at *
  exact ⟨by rw [e1.1, e2.1], by rw [e1.2, e2.2], ew, el, er⟩

end Sys2Proof.Machine
end

