-- ==== Sys2Proof/Laws/Count.lean ====
section
/-! SUPPORT. What the counting loop of `FCNT` does (spec 40_frequency_counter R70 to R79): both of its ends. -/

namespace Sys2Proof.Machine

theorem freqAt_setFreq (k j : Nat) (v : Nat) (s : State) (hk : k < nsym) :
    freqAt (setFreq k v s) j = if k = j then v else freqAt s j := by
  have hk' : k < 257 := hk
  simp only [freqAt, setFreq_freq, Vector.getElem?_setIfInBounds]
  split
  · rfl
  · rfl

theorem byte_lt_nsym (x : Byte) : x.toNat < nsym := Nat.lt_of_lt_of_le x.isLt (by decide)

theorem byte_ne_sentinel (x : Byte) : x.toNat ≠ sentinel := Nat.ne_of_lt x.isLt

/-- `t` differs from `s` only where counting may change it. -/
def CountFrame (s t : State) : Prop := t = { s with freq := t.freq, pos := t.pos, events := t.events }

theorem CountFrame.refl (s : State) : CountFrame s s := rfl

theorem CountFrame.trans {s t u : State} (h : CountFrame s t) (k : CountFrame t u) : CountFrame s u := by
  unfold CountFrame at *; rw [k, h]

theorem CountFrame.cfg {s t : State} (h : CountFrame s t) : t.cfg = s.cfg := by rw [h]

theorem readEvents_cons (x : Byte) (xs : List Byte) : readEvents (x :: xs) = readEvents xs ++ [.read (some x)] := by
  simp [readEvents]

/-- The bytes `xs` have been read from `s` on and counted. -/
structure Counted (s u : State) (xs : List Byte) : Prop where
  frame : CountFrame s u
  counts : ∀ b : Byte, freqAt u b.toNat = freqAt s b.toNat + xs.count b
  sentinel : freqAt u Sys2Proof.sentinel = freqAt s Sys2Proof.sentinel

/-- Counting ends at the end of the source with every byte counted, or at the first byte whose count is at its
greatest value (R75). -/
theorem countLoop_cases {n : Nat} {s : State} (hn : srcLeft s = n)
    (hc : ∀ b : Byte, freqAt s b.toNat ≤ cntMax s.cfg) :
    (∃ u, countLoop n s = .ok () u ∧ Counted s u (s.src.drop s.pos) ∧
        (∀ b : Byte, freqAt u b.toNat ≤ cntMax s.cfg) ∧
        u.pos = s.pos + (s.src.drop s.pos).length ∧
        u.events = .read none :: (readEvents (s.src.drop s.pos) ++ s.events)) ∨
      (∃ u pre x post, countLoop n s = .raised .cntOvf u ∧ s.src.drop s.pos = pre ++ x :: post ∧ Counted s u pre ∧
        freqAt u x.toNat = cntMax s.cfg ∧ u.pos = s.pos + pre.length + 1 ∧
        u.events = readEvents (pre ++ [x]) ++ s.events) := by
  induction n generalizing s with
  | zero =>
    have hd : s.src.drop s.pos = [] := List.length_eq_zero_iff.mp (by rw [← srcLeft_eq]; exact hn)
    refine .inl ⟨_, rfl, ?_⟩
    rw [srcReadByte_nil hd, hd]
    exact ⟨⟨rfl, fun b => by simp [freqAt], rfl⟩, hc, by simp, by simp [readEvents]⟩
  | succ n ih =>
    cases hd : s.src.drop s.pos with
    | nil => rw [srcLeft_eq, hd] at hn; simp at hn
    | cons x rest =>
      obtain ⟨hr, hx⟩ := srcReadByte_cons hd
      set s1 : State := { s with pos := s.pos + 1, events := .read (some x) :: s.events } with hs1
      have hf1 : ∀ k, freqAt s1 k = freqAt s k := fun k => rfl
      have hrest : s1.src.drop s1.pos = rest := hx
      by_cases hm : freqAt s x.toNat = cntMax s.cfg
      · refine .inr ⟨s1, [], x, rest, ?_, rfl, ⟨rfl, fun b => by simp [hf1], rfl⟩, hm, rfl, by simp [readEvents, hs1]⟩
        unfold countLoop
        rw [hr]
        exact if_pos hm
      · have hlt : freqAt s x.toNat < cntMax s.cfg :=
          lt_of_le_of_ne (hc x) hm
        have hinc : narrow s.cfg.cntW (freqAt s x.toNat + 1) = freqAt s x.toNat + 1 :=
          narrow_eq (by have := Nat.two_pow_pos s.cfg.cntW; unfold cntMax at hlt; omega)
        set s2 := setFreq x.toNat (narrow s1.cfg.cntW (freqAt s1 x.toNat + 1)) s1 with hs2
        have hf2 : ∀ b : Byte, freqAt s2 b.toNat = freqAt s b.toNat + if x = b then 1 else 0 := by
          intro b
          rw [hs2, freqAt_setFreq _ _ _ _ (byte_lt_nsym x)]
          by_cases hxb : x = b
          · subst hxb; simp only [if_true]; exact hinc
          · have : x.toNat ≠ b.toNat := fun h => hxb (BitVec.eq_of_toNat_eq h)
            simp [this, hxb, hf1]
        have hfs : freqAt s2 sentinel = freqAt s sentinel := by
          rw [hs2, freqAt_setFreq _ _ _ _ (byte_lt_nsym x), if_neg (byte_ne_sentinel x)]; rfl
        have hfr : CountFrame s s2 := rfl
        have hd2 : s2.src.drop s2.pos = rest := hrest
        have hstep : countLoop (n + 1) s = countLoop n s2 := by
          conv_lhs => unfold countLoop
          rw [hr]
          exact if_neg hm
        have hcnt : ∀ (b : Byte) (ys : List Byte), (x :: ys).count b = ys.count b + if x = b then 1 else 0 := by
          intro b ys
          rw [List.count_cons]
          by_cases hxb : x = b
          · simp [hxb]
          · simp [hxb]
        have hcounted : ∀ {u : State} {ys : List Byte}, Counted s2 u ys → Counted s u (x :: ys) := by
          intro u ys h
          refine ⟨hfr.trans h.frame, fun b => ?_, h.sentinel.trans hfs⟩
          rw [h.counts b, hf2 b, hcnt]; omega
        have ih2 := ih (s := s2) (by rw [srcLeft_eq, hd2]; rw [srcLeft_eq, hd] at hn; simpa using hn) (by
          intro b
          rw [hf2 b]
          by_cases hxb : x = b
          · subst hxb; simp only [if_true]; exact hlt
          · simp only [hxb, if_false]; exact hc b)
        rw [hd2] at ih2
        rcases ih2 with ⟨u, h1, h2, h3, h4, h5⟩ | ⟨u, pre, y, post, h1, h2, h3, h4, h5, h6⟩
        · refine .inl ⟨u, hstep.trans h1, hcounted h2, h3, ?_, ?_⟩
          · rw [h4]; show s.pos + 1 + _ = _; simp only [List.length_cons]; omega
          · rw [h5, readEvents_cons]; simp [hs2, hs1]
        · refine .inr ⟨u, x :: pre, y, post, hstep.trans h1, by rw [h2]; rfl, hcounted h3, h4, ?_, ?_⟩
          · rw [h5]; show s.pos + 1 + _ + 1 = _; simp only [List.length_cons]; omega
          · rw [h6, List.cons_append, readEvents_cons]; simp [hs2, hs1]

/-! ### The body of `FCNT` -/

theorem freqAt_clearFreq (s : State) (k : Nat) : freqAt (clearFreq s) k = 0 := by
  by_cases hk : k < 257 <;> simp [freqAt, clearFreq, hk]

/-- `t` differs from `s` only where `FCNT` may change it. -/
def FcntFrame (s t : State) : Prop :=
  t = { s with
    freq := t.freq, fv := t.fv, tv := t.tv, cv := t.cv, src := t.src, pos := t.pos, srcLater := t.srcLater,
    events := t.events }

/-- What a complete count leaves (R70 to R78). -/
structure CountDone (s u : State) : Prop where
  frame : FcntFrame s u
  counts : ∀ b : Byte, freqAt u b.toNat = restCount s b
  sentinel : freqAt u Sys2Proof.sentinel = narrow s.cfg.cntW 1
  fv : u.fv = true
  tv : u.tv = false
  cv : u.cv = false
  pos : u.pos = 0
  src : u.src = s.srcLater.headD s.src
  later : u.srcLater = s.srcLater.tail
  events : u.events = .rewind :: .read none :: (readEvents (s.src.drop s.pos) ++ s.events)

/-- The sentinel's count is 1 where a count has a bit (R76, spec G4). -/
theorem CountDone.one {s u : State} (h : CountDone s u) (hc : s.cfg.Consistent) : freqAt u Sys2Proof.sentinel = 1 := by
  rw [h.sentinel]
  exact narrow_eq (Nat.one_lt_two_pow (by have := hc.count; omega))

/-- What an overflow leaves (R71, R75): `x` is the byte that could not be counted, `pre` the bytes before it. -/
structure CountOverflow (s u : State) (pre : List Byte) (x : Byte) (post : List Byte) : Prop where
  frame : FcntFrame s u
  rest : s.src.drop s.pos = pre ++ x :: post
  counts : ∀ b : Byte, freqAt u b.toNat = pre.count b
  full : freqAt u x.toNat = cntMax s.cfg
  fv : u.fv = false
  tv : u.tv = false
  cv : u.cv = false
  pos : u.pos = s.pos + pre.length + 1
  src : u.src = s.src
  later : u.srcLater = s.srcLater
  events : u.events = readEvents (pre ++ [x]) ++ s.events

/-- `FCNT` ends with a complete count exactly when every byte's occurrences fit a count (R75). -/
theorem fcntBody_cases (s : State) :
    (CountsFit s ∧ ∃ u, fcntBody s = .ok () u ∧ CountDone s u) ∨
      (¬ CountsFit s ∧ ∃ u pre x post, fcntBody s = .raised .cntOvf u ∧ CountOverflow s u pre x post) := by
  have hz : ∀ k, freqAt (clearFreq (clearFvTvCv s)) k = 0 := freqAt_clearFreq _
  rcases countLoop_cases (s := clearFreq (clearFvTvCv s)) rfl (fun b => by rw [hz]; exact Nat.zero_le _) with
    ⟨u, h1, h2, h3, h4, h5⟩ | ⟨u, pre, x, post, h1, h2, h3, h4, h5, h6⟩
  · have hsen : freqAt u sentinel = 0 := by rw [h2.sentinel, hz]
    have hcnt : ∀ b : Byte, freqAt u b.toNat = restCount s b := fun b => by
      rw [h2.counts b, hz]; exact Nat.zero_add _
    refine .inl ⟨fun b => by rw [← hcnt b]; exact h3 b, _, by simp only [fcntBody, h1, andThen]; rfl, ?_⟩
    have hfs : forceSentinel u = setFreq sentinel (narrow u.cfg.cntW 1) u := by unfold forceSentinel; rw [if_pos hsen]
    have hfr := h2.frame
    rw [hfs]
    have hsrc : u.src = s.src := by rw [hfr]; rfl
    have hlat : u.srcLater = s.srcLater := by rw [hfr]; rfl
    exact
      { frame := by unfold FcntFrame; rw [hfr]; rfl
        counts := fun b => by
          show freqAt (setFreq sentinel (narrow u.cfg.cntW 1) u) b.toNat = _
          rw [freqAt_setFreq _ _ _ _ (by decide), if_neg (Ne.symm (byte_ne_sentinel b)), hcnt]
        sentinel := by
          show freqAt (setFreq sentinel (narrow u.cfg.cntW 1) u) _ = _
          rw [freqAt_setFreq _ _ _ _ (by decide), if_pos rfl, hfr]; rfl
        fv := rfl
        tv := by rw [hfr]; rfl
        cv := by rw [hfr]; rfl
        pos := rfl
        src := by show u.srcLater.headD u.src = _; rw [hsrc, hlat]
        later := by show u.srcLater.tail = _; rw [hlat]
        events := by show StreamEvent.rewind :: u.events = _; rw [h5]; rfl }
  · have hcnt : ∀ b : Byte, freqAt u b.toNat = pre.count b := fun b => by
      rw [h3.counts b, hz]; exact Nat.zero_add _
    have hfr := h3.frame
    refine .inr ⟨fun hfit => ?_, u, pre, x, post, by simp only [fcntBody, h1, andThen], ?_⟩
    · have h7 := hfit x
      have h8 : restCount s x = (pre ++ x :: post).count x := congrArg (List.count x) h2
      have h9 := hcnt x
      rw [h4] at h9
      have h9' : cntMax s.cfg = pre.count x := h9
      rw [h8, List.count_append, List.count_cons_self] at h7
      omega
    · exact
        { frame := by unfold FcntFrame; rw [hfr]; rfl
          rest := h2
          counts := hcnt
          full := h4
          fv := by rw [hfr]; rfl
          tv := by rw [hfr]; rfl
          cv := by rw [hfr]; rfl
          pos := h5
          src := by rw [hfr]; rfl
          later := by rw [hfr]; rfl
          events := h6 }

/-! ### All counts together -/

theorem sum_map_add (l : List Nat) (f g : Nat → Nat) : (l.map fun k => f k + g k).sum = (l.map f).sum + (l.map g).sum := by
  induction l with
  | nil => rfl
  | cons a l ih => simp only [List.map_cons, List.sum_cons, ih]; omega

theorem sum_hits (x : Byte) {n : Nat} (hn : n ≤ 256) :
    ((List.range n).map fun k => if x == BitVec.ofNat 8 k then 1 else 0).sum = if x.toNat < n then 1 else 0 := by
  induction n with
  | zero => rfl
  | succ n ih =>
    have hx : (x == BitVec.ofNat 8 n) = decide (x.toNat = n) := by
      rw [Bool.eq_iff_iff]
      simp only [beq_iff_eq, decide_eq_true_eq]
      constructor
      · rintro rfl; simp; omega
      · intro h; apply BitVec.eq_of_toNat_eq; rw [h]; simp; omega
    rw [List.range_succ, List.map_append, List.sum_append, ih (by omega)]
    simp only [List.map_cons, List.map_nil, List.sum_cons, List.sum_nil, hx]
    by_cases h1 : x.toNat < n
    · have h2 : x.toNat ≠ n := by omega
      simp [h1, h2]; omega
    · by_cases h2 : x.toNat = n
      · simp [h2]
      · simp [h1, h2]; omega

/-- The counts of all byte values add up to the number of bytes. -/
theorem sum_counts (xs : List Byte) : ((List.range 256).map fun k => xs.count (BitVec.ofNat 8 k)).sum = xs.length := by
  induction xs with
  | nil => generalize 256 = n; simp
  | cons x xs ih =>
    simp only [List.count_cons, List.length_cons, ← ih]
    rw [sum_map_add, sum_hits x (Nat.le_refl _), if_pos x.isLt]

end Sys2Proof.Machine
end

