-- ==== Sys2Proof/Laws/Encode.lean ====
section
/-! SUPPORT. What `CGEN`, `HSER` and `SENC` do (spec 42 R90 to R99, 43 R100 to R107, 44 R120 to R129): the table of the
tree, the header's bits, the payload's bits, and both ends of the encoding loop. -/

namespace Sys2Proof.Machine

/-! ### `CGEN` -/

/-- `t` differs from `s` only where `CGEN` may change it. -/
def CgenFrame (s t : State) : Prop := t = { s with code := t.code, cv := t.cv }

theorem CgenFrame.trans {s t u : State} (h : CgenFrame s t) (k : CgenFrame t u) : CgenFrame s u := by
  unfold CgenFrame at *; rw [k, h]

theorem walk_frame {n : Nat} {h : Nat} {path : List Bool} {s t : State} (hw : walk n h path s = some t) :
    CgenFrame s t := by
  induction n generalizing h path s t with
  | zero => simp [walk] at hw
  | succ n ih =>
    unfold walk at hw
    split at hw
    · rw [← Option.some.inj hw]; rfl
    · split at hw
      · simp at hw
      · rename_i u hl
        exact (ih hl).trans (ih hw)

/-- `CGEN` ends well or is stuck, and changes only the code table and its flag. -/
theorem cgenBody_cases (s : State) :
    (∃ u, cgenBody s = .ok () u ∧ CgenFrame s u ∧ u.cv = true) ∨ cgenBody s = .stuck .walkNotFinite := by
  unfold cgenBody
  cases h : walk s.cfg.nodeCap s.root [] (invalidateCodes (clearCv s)) with
  | none => exact .inr rfl
  | some t =>
    have := walk_frame h
    refine .inl ⟨_, rfl, ?_, rfl⟩
    unfold CgenFrame at *
    rw [this]
    rfl

/-- The table `CGEN` leaves for a tree (R91, R92, R97, conflict C13). -/
structure CodesMade (s u : State) (t : Shape) : Prop where
  frame : CgenFrame s u
  codes : CodesOf u t
  others : ∀ k < nsym, keptPath t k = none → codeAt u k = { codeAt s k with valid := false }
  cv : u.cv = true

/-- `CGEN` makes the code table of the tree in the arena. -/
theorem cgenBody_spec {s : State} {T : HTree} (h : TreeIn s T) :
    ∃ u, cgenBody s = .ok () u ∧ CodesMade s u (shapeOf T) := by
  have hh := h.height_lt
  obtain ⟨h1, h2, _⟩ := h
  have hw := walk_eq (n := s.cfg.nodeCap) (s := invalidateCodes (clearCv s)) (path := [])
    ((Holds_congr (s := s) (t := invalidateCodes (clearCv s)) rfl rfl T).mpr h2)
    hh
  rw [h1] at hw
  refine ⟨setCv (withCode (bindCodes s.cfg (invalidateCodes (clearCv s)).code [] (shapeLeaves (shapeOf T)))
    (invalidateCodes (clearCv s))), by unfold cgenBody; rw [hw]; rfl, rfl, codesOf_bindCodes (tbl := s.code) rfl, ?_, rfl⟩
  intro k hk hn
  have hk' : k < 257 := hk
  have hg := bindCodes_get s.cfg (s.code.map fun e => { e with valid := false }) [] (shapeLeaves (shapeOf T)) k hk
  have hnone : ((shapeLeaves (shapeOf T)).filter fun p => decide (p.2.toNat = k)).getLast? = none := by
    unfold keptPath at hn
    cases hf : ((shapeLeaves (shapeOf T)).filter fun p => decide (p.2.toNat = k)).getLast? with
    | none => rfl
    | some p => rw [hf] at hn; simp at hn
  rw [hnone] at hg
  show (bindCodes s.cfg (s.code.map fun e => { e with valid := false }) [] (shapeLeaves (shapeOf T)))[k]?.getD _ = _
  rw [hg]
  simp [codeAt, hk']

/-! ### Stream events -/

theorem sourceEvents_cons_read (x : Option Byte) (es : List StreamEvent) :
    sourceEvents (.read x :: es) = .read x :: sourceEvents es := rfl

theorem sourceEvents_cons_rewind (es : List StreamEvent) : sourceEvents (.rewind :: es) = .rewind :: sourceEvents es := rfl

theorem sourceEvents_cons_write (b : Byte) (es : List StreamEvent) :
    sourceEvents (.write b :: es) = sourceEvents es := rfl

theorem sourceEvents_cons_close (es : List StreamEvent) : sourceEvents (.close :: es) = sourceEvents es := rfl

theorem sinkEvents_cons_read (x : Option Byte) (es : List StreamEvent) :
    sinkEvents (.read x :: es) = sinkEvents es := rfl

theorem sinkEvents_cons_rewind (es : List StreamEvent) : sinkEvents (.rewind :: es) = sinkEvents es := rfl

theorem sinkEvents_cons_write (b : Byte) (es : List StreamEvent) :
    sinkEvents (.write b :: es) = .write b :: sinkEvents es := rfl

theorem sinkEvents_cons_close (es : List StreamEvent) : sinkEvents (.close :: es) = .close :: sinkEvents es := rfl

theorem sourceEvents_reads (xs : List Byte) (es : List StreamEvent) :
    sourceEvents (readEvents xs ++ es) = readEvents xs ++ sourceEvents es := by
  have : ∀ ys : List Byte, sourceEvents (ys.map (fun x => StreamEvent.read (some x)) ++ es) =
      ys.map (fun x => StreamEvent.read (some x)) ++ sourceEvents es := by
    intro ys
    induction ys with
    | nil => rfl
    | cons y ys ih => rw [List.map_cons, List.cons_append, sourceEvents_cons_read, ih]; rfl
  exact this _

theorem sinkEvents_reads (xs : List Byte) (es : List StreamEvent) :
    sinkEvents (readEvents xs ++ es) = sinkEvents es := by
  have : ∀ ys : List Byte, sinkEvents (ys.map (fun x => StreamEvent.read (some x)) ++ es) = sinkEvents es := by
    intro ys
    induction ys with
    | nil => rfl
    | cons y ys ih => rw [List.map_cons, List.cons_append, sinkEvents_cons_read, ih]
  exact this _

theorem writeEvents_append (xs ys : List Byte) : writeEvents (xs ++ ys) = writeEvents ys ++ writeEvents xs := by
  simp [writeEvents]

/-- What has gone to an open sink from `s` to `u`: these bits, and some bytes with their events. -/
structure Sent (s u : State) (bits : List Bool) : Prop where
  bits : sinkBits u = sinkBits s ++ bits
  wrote : ∃ ws, u.out = s.out ++ ws ∧ sinkEvents u.events = writeEvents ws ++ sinkEvents s.events
  reads : sourceEvents u.events = sourceEvents s.events
  closed : u.closed = false

theorem Sent.trans {s t u : State} {x y : List Bool} (h : Sent s t x) (k : Sent t u y) : Sent s u (x ++ y) := by
  obtain ⟨ws, h1, h2⟩ := h.wrote
  obtain ⟨vs, k1, k2⟩ := k.wrote
  refine ⟨by rw [k.bits, h.bits, List.append_assoc], ⟨ws ++ vs, ?_, ?_⟩, by rw [k.reads, h.reads], k.closed⟩
  · rw [k1, h1, List.append_assoc]
  · rw [k2, h2, writeEvents_append, List.append_assoc]

theorem putBit_sent (b : Bool) {s : State} (ho : s.closed = false) : Sent s (putBit b s) [b] := by
  refine ⟨sinkBits_putBit b s ho, ?_, ?_, by simp [ho]⟩
  · unfold putBit
    split
    · refine ⟨[packBit s.pkAcc b], ?_, ?_⟩
      · simp [sinkWriteByte, ho]
      · simp [sinkWriteByte, ho, sinkEvents_cons_write, writeEvents]
    · exact ⟨[], by simp, by simp [writeEvents]⟩
  · unfold putBit
    split
    · simp [sinkWriteByte, ho, sourceEvents_cons_write]
    · rfl

theorem putBitList_sent (bs : List Bool) {s : State} (ho : s.closed = false) : Sent s (putBitList bs s) bs := by
  induction bs generalizing s with
  | nil => exact ⟨by simp [putBitList], ⟨[], by simp [putBitList], by simp [putBitList, writeEvents]⟩, rfl, ho⟩
  | cons b bs ih => exact (putBit_sent b ho).trans (ih (by simp [ho]))

theorem flush_sent {s : State} (ho : s.closed = false) : Sent s (flush s) (padding (sinkBits s).length) := by
  rw [flush_eq, padding, sinkBits_mod]
  exact putBitList_sent _ ho

/-! ### `HSER` -/

/-- `HSER` writes the magic and the header of the tree in the arena, from an empty packer (R100 to R104). -/
theorem hserBody_spec {s : State} {T : HTree} (h : TreeIn s T) :
    hserBody s = .ok ()
      (putBitList (bitsOf 32 s.cfg.magic.toNat ++ shapeHeader (shapeOf T)) (emptyPacker s)) := by
  have hh := h.height_lt
  obtain ⟨h1, h2, _⟩ := h
  have hw := writeTree_eq (n := s.cfg.nodeCap) (s := putMagic s.cfg.magic (emptyPacker s))
    ((Holds_congr (s := s) (t := putMagic s.cfg.magic (emptyPacker s)) (by simp [putMagic, putBits, emptyPacker])
      (by simp [putMagic, putBits, emptyPacker]) T).mpr h2)
    hh
  rw [h1] at hw
  unfold hserBody
  rw [hw, putBitList_append]
  rfl

theorem writeTree_frame {n : Nat} {h : Nat} {s t : State} (hw : writeTree n h s = some t) : SinkFrame s t := by
  induction n generalizing h s t with
  | zero => simp [writeTree] at hw
  | succ n ih =>
    unfold writeTree at hw
    split at hw
    · rw [← Option.some.inj hw]
      exact (putBitList_frame _ _).trans (putBitList_frame _ _)
    · split at hw
      · simp at hw
      · rename_i u hl
        exact ((putBitList_frame _ _).trans (ih hl)).trans (ih hw)

/-- `HSER` ends well or is stuck, and changes only what writing the sink changes. -/
theorem hserBody_cases (s : State) :
    (∃ u, hserBody s = .ok () u ∧ SinkFrame s u) ∨ hserBody s = .stuck .walkNotFinite := by
  unfold hserBody
  cases h : writeTree s.cfg.nodeCap s.root (putMagic s.cfg.magic (emptyPacker s)) with
  | none => exact .inr rfl
  | some t =>
    have h1 : SinkFrame s (emptyPacker s) := rfl
    exact .inl ⟨t, rfl, (h1.trans (putBitList_frame _ _)).trans (writeTree_frame h)⟩

/-! ### `SENC` -/

/-- `t` differs from `s` only where `SENC` may change it. -/
def SencFrame (s t : State) : Prop :=
  t = { s with
    pkAcc := t.pkAcc, pkCnt := t.pkCnt, pos := t.pos, out := t.out, closed := t.closed, events := t.events,
    freeIdx := t.freeIdx }

theorem SencFrame.refl (s : State) : SencFrame s s := rfl

theorem SencFrame.trans {s t u : State} (h : SencFrame s t) (k : SencFrame t u) : SencFrame s u := by
  unfold SencFrame at *; rw [k, h]

theorem SinkFrame.senc {s t : State} (h : SinkFrame s t) : SencFrame s t := by
  unfold SinkFrame at h; unfold SencFrame; rw [h]

theorem SencFrame.cfg {s t : State} (h : SencFrame s t) : t.cfg = s.cfg := by rw [h]

theorem SencFrame.code {s t : State} (h : SencFrame s t) : t.code = s.code := by rw [h]

theorem sinkClose_senc (s : State) : SencFrame s (sinkClose s) := rfl

theorem flushClose_senc (s : State) : SencFrame s (flushClose s) := (flush_frame s).senc.trans (sinkClose_senc _)

theorem srcReadByte_senc (s : State) : SencFrame s (srcReadByte s).2 := by
  unfold SencFrame srcReadByte; split <;> rfl

/-- Both ends of encoding one symbol. -/
theorem encodeSymbol_cases (k : Nat) (s : State) :
    ((codeAt s k).valid = true ∧ encodeSymbol k s = .ok () (putBitList (codeBits (codeAt s k)) s)) ∨
      ((codeAt s k).valid = false ∧ encodeSymbol k s = .raised .noCode (flushClose s)) := by
  unfold encodeSymbol
  by_cases h : (codeAt s k).valid = true
  · exact .inl ⟨h, by rw [if_pos h]; rfl⟩
  · exact .inr ⟨by simpa using h, by rw [if_neg h]⟩

theorem putBitList_sourceEvents (bs : List Bool) (s : State) :
    sourceEvents (putBitList bs s).events = sourceEvents s.events := by
  induction bs generalizing s with
  | nil => rfl
  | cons b bs ih =>
    show sourceEvents (putBitList bs (putBit b s)).events = _
    rw [ih]
    unfold putBit sinkWriteByte
    split
    · split <;> rfl
    · rfl

/-- How far an encoding loop has come: these bytes read, their codes sent. -/
structure Encoded (s u : State) (xs : List Byte) : Prop where
  frame : SencFrame s u
  sent : s.closed = false →
    sinkBits u = sinkBits s ++ xs.flatMap (fun x => codeBits (codeAt s x.toNat)) ∧
      (∃ ws, u.out = s.out ++ ws ∧ sinkEvents u.events = writeEvents ws ++ sinkEvents s.events)
  closed : u.closed = s.closed
  packer : s.pkAcc.toNat < 2 ^ s.pkCnt.toNat → u.pkAcc.toNat < 2 ^ u.pkCnt.toNat

/-- Every end of the encoding loop: all bytes encoded, or the first byte without a code (R120, R123). -/
theorem encodeLoop_cases {n : Nat} {s : State} (hn : srcLeft s = n) :
    (∃ u, encodeLoop n s = .ok () u ∧ (∀ x ∈ s.src.drop s.pos, (codeAt s x.toNat).valid = true) ∧
        Encoded s u (s.src.drop s.pos) ∧ u.pos = s.pos + (s.src.drop s.pos).length ∧
        sourceEvents u.events = .read none :: (readEvents (s.src.drop s.pos) ++ sourceEvents s.events)) ∨
      (∃ u pre x post, encodeLoop n s = .raised .noCode (flushClose u) ∧ s.src.drop s.pos = pre ++ x :: post ∧
        (∀ y ∈ pre, (codeAt s y.toNat).valid = true) ∧ (codeAt s x.toNat).valid = false ∧ Encoded s u pre ∧
        u.pos = s.pos + pre.length + 1 ∧
        sourceEvents u.events = readEvents (pre ++ [x]) ++ sourceEvents s.events) := by
  induction n generalizing s with
  | zero =>
    have hd : s.src.drop s.pos = [] := List.length_eq_zero_iff.mp (by rw [← srcLeft_eq]; exact hn)
    refine .inl ⟨_, rfl, ?_⟩
    rw [srcReadByte_nil hd, hd]
    exact ⟨by simp, ⟨rfl, fun _ => ⟨by simp [sinkBits], [], by simp, by simp [writeEvents, sinkEvents_cons_read]⟩, rfl,
      fun h => h⟩, by simp, by simp [readEvents, sourceEvents_cons_read]⟩
  | succ n ih =>
    cases hd : s.src.drop s.pos with
    | nil => rw [srcLeft_eq, hd] at hn; simp at hn
    | cons x rest =>
      obtain ⟨hr, hx⟩ := srcReadByte_cons hd
      set s1 : State := { s with pos := s.pos + 1, events := .read (some x) :: s.events } with hs1
      have hc1 : ∀ k, codeAt s1 k = codeAt s k := fun k => rfl
      have hf1 : SencFrame s s1 := rfl
      rcases encodeSymbol_cases x.toNat s1 with ⟨hv, he⟩ | ⟨hv, he⟩
      · set s2 := putBitList (codeBits (codeAt s1 x.toNat)) s1 with hs2
        have hf2 : SinkFrame s1 s2 := putBitList_frame _ _
        have hc2 : ∀ k, codeAt s2 k = codeAt s k := fun k => (codeAt_congr hf2.code k).trans (hc1 k)
        have hd2 : s2.src.drop s2.pos = rest := by rw [hf2.src, hf2.pos]; exact hx
        have hstep : encodeLoop (n + 1) s = encodeLoop n s2 := by
          conv_lhs => unfold encodeLoop
          rw [hr]
          simp only [he, andThen]
        have hev2 : sourceEvents s2.events = .read (some x) :: sourceEvents s.events := by
          rw [hs2, putBitList_sourceEvents]; rfl
        have henc : ∀ {u : State} {ys : List Byte}, Encoded s2 u ys → Encoded s u (x :: ys) := by
          intro u ys h
          refine ⟨(hf1.trans hf2.senc).trans h.frame, fun ho => ?_, ?_, fun hp => h.packer (putBitList_packer _ _ hp)⟩
          · have hs := putBitList_sent (codeBits (codeAt s1 x.toNat)) (s := s1) ho
            obtain ⟨hb, ws, hw1, hw2⟩ := h.sent hs.closed
            obtain ⟨vs, hv1, hv2⟩ := hs.wrote
            refine ⟨?_, vs ++ ws, ?_, ?_⟩
            · rw [hb, ← hs2] at *
              rw [hs.bits, List.flatMap_cons, ← List.append_assoc]
              have hcc : (fun x : Byte => codeBits (codeAt s2 x.toNat)) = fun x : Byte => codeBits (codeAt s x.toNat) := by
                funext y; rw [hc2]
              rw [hcc]; rfl
            · rw [hw1, hv1, List.append_assoc]
            · rw [hw2, hv2, writeEvents_append, List.append_assoc]; rfl
          · rw [h.closed, hf2.closed]
        have ih2 := ih (s := s2) (by rw [srcLeft_eq, hd2]; rw [srcLeft_eq, hd] at hn; simpa using hn)
        rw [hd2] at ih2
        have hpos2 : s2.pos = s.pos + 1 := hf2.pos
        rcases ih2 with ⟨u, h1, h2, h3, h4, h5⟩ | ⟨u, pre, y, post, h1, h2, h3, h4, h5, h6, h7⟩
        · refine .inl ⟨u, hstep.trans h1, ?_, henc h3, ?_, ?_⟩
          · intro z hz
            rcases List.mem_cons.mp hz with rfl | hz
            · exact hv
            · rw [← hc2]; exact h2 z hz
          · rw [h4, hpos2, List.length_cons]; omega
          · rw [h5, hev2]; simp [readEvents]
        · refine .inr ⟨u, x :: pre, y, post, hstep.trans h1, by rw [h2]; rfl, ?_, by rw [← hc2]; exact h4, henc h5, ?_, ?_⟩
          · intro z hz
            rcases List.mem_cons.mp hz with rfl | hz
            · exact hv
            · rw [← hc2]; exact h3 z hz
          · rw [h6, hpos2, List.length_cons]; omega
          · rw [h7, hev2]; simp [readEvents]
      · refine .inr ⟨s1, [], x, rest, ?_, rfl, by simp, hv, ?_, rfl, by simp [readEvents, hs1, sourceEvents_cons_read]⟩
        · unfold encodeLoop
          rw [hr]
          simp only [he, andThen]
        · exact ⟨rfl, fun _ => ⟨by simp [sinkBits, hs1], [], by simp [hs1], by simp [writeEvents, hs1, sinkEvents_cons_read]⟩,
            rfl, fun h => h⟩

/-- An output that has been completed: these bits, the padding, the close (R124). -/
structure Completed (s t : State) (bits : List Bool) : Prop where
  frame : SencFrame s t
  closed : t.closed = true
  empty : t.pkCnt = 0
  clean : s.pkAcc.toNat < 2 ^ s.pkCnt.toNat → t.pkAcc = 0
  sent : s.closed = false →
    bytesBits t.out = sinkBits s ++ bits ++ padding (sinkBits s ++ bits).length ∧
      ∃ ws, t.out = s.out ++ ws ∧ sinkEvents t.events = .close :: (writeEvents ws ++ sinkEvents s.events)

theorem flushClose_sourceEvents (s : State) : sourceEvents (flushClose s).events = sourceEvents s.events := by
  show sourceEvents (flush s).events = _
  rw [flush_eq, putBitList_sourceEvents]

/-- Bits sent after an encoding loop and completed. -/
theorem Encoded.complete {s u : State} {xs : List Byte} (h : Encoded s u xs) (bs : List Bool) :
    Completed s (flushClose (putBitList bs u)) (xs.flatMap (fun x => codeBits (codeAt s x.toNat)) ++ bs) := by
  have hp : s.pkAcc.toNat < 2 ^ s.pkCnt.toNat → (putBitList bs u).pkAcc.toNat < 2 ^ (putBitList bs u).pkCnt.toNat :=
    fun hp => putBitList_packer bs u (h.packer hp)
  refine ⟨(h.frame.trans (putBitList_frame bs u).senc).trans (flushClose_senc _), rfl, flush_pkCnt _,
    fun hs => flush_pkAcc _ (hp hs), fun ho => ?_⟩
  obtain ⟨hb, ws, hw1, hw2⟩ := h.sent ho
  have hou : u.closed = false := h.closed.trans ho
  have h1 := putBitList_sent bs hou
  have h2 := flush_sent h1.closed
  obtain ⟨vs, hv1, hv2⟩ := h1.wrote
  obtain ⟨zs, hz1, hz2⟩ := h2.wrote
  refine ⟨?_, ws ++ (vs ++ zs), ?_, ?_⟩
  · show bytesBits (flush (putBitList bs u)).out = _
    rw [← sinkBits_of_empty _ (flush_pkCnt _), h2.bits, h1.bits, hb]
    simp only [List.append_assoc]
  · show (flush (putBitList bs u)).out = _
    rw [hz1, hv1, hw1]; simp only [List.append_assoc]
  · show StreamEvent.close :: sinkEvents (flush (putBitList bs u)).events = _
    rw [hz2, hv2, hw2]; simp only [writeEvents_append, List.append_assoc]

/-- Every end of `SENC` (R120 to R124). -/
theorem sencBody_cases (s : State) :
    (∃ t, sencBody s = .ok () t ∧
        ((∀ x ∈ s.src.drop s.pos, (codeAt s x.toNat).valid = true) ∧ (codeAt s sentinel).valid = true) ∧
        Completed s t (payloadBits s (s.src.drop s.pos)) ∧ t.pos = s.pos + (s.src.drop s.pos).length ∧
        sourceEvents t.events = .read none :: (readEvents (s.src.drop s.pos) ++ sourceEvents s.events)) ∨
      (∃ t, sencBody s = .raised .noCode t ∧
        ((∀ x ∈ s.src.drop s.pos, (codeAt s x.toNat).valid = true) ∧ (codeAt s sentinel).valid = false) ∧
        Completed s t ((s.src.drop s.pos).flatMap fun x => codeBits (codeAt s x.toNat)) ∧
        t.pos = s.pos + (s.src.drop s.pos).length ∧
        sourceEvents t.events = .read none :: (readEvents (s.src.drop s.pos) ++ sourceEvents s.events)) ∨
      (∃ t pre x post, sencBody s = .raised .noCode t ∧ s.src.drop s.pos = pre ++ x :: post ∧
        (∀ y ∈ pre, (codeAt s y.toNat).valid = true) ∧ (codeAt s x.toNat).valid = false ∧
        Completed s t (pre.flatMap fun y => codeBits (codeAt s y.toNat)) ∧ t.pos = s.pos + pre.length + 1 ∧
        sourceEvents t.events = readEvents (pre ++ [x]) ++ sourceEvents s.events) := by
  have hnil : ∀ {u : State} {xs : List Byte}, Encoded s u xs →
      Completed s (flushClose u) (xs.flatMap fun x => codeBits (codeAt s x.toNat)) := by
    intro u xs h
    have := h.complete []
    rwa [List.append_nil] at this
  rcases encodeLoop_cases (s := s) rfl with ⟨u, h1, h2, h3, h4, h5⟩ | ⟨u, pre, x, post, h1, h2, h3, h4, h5, h6, h7⟩
  · have hc : codeAt u sentinel = codeAt s sentinel := codeAt_congr h3.frame.code _
    rcases encodeSymbol_cases sentinel u with ⟨hv, he⟩ | ⟨hv, he⟩
    · rw [hc] at hv he
      refine .inl ⟨_, by simp only [sencBody, h1, andThen, he], ⟨h2, hv⟩, h3.complete _, ?_, ?_⟩
      · show (flush _).pos = _
        rw [flush_pos, putBitList_pos, h4]
      · rw [flushClose_sourceEvents, putBitList_sourceEvents, h5]
    · rw [hc] at hv
      refine .inr (.inl ⟨_, by simp only [sencBody, h1, andThen, he], ⟨h2, hv⟩, hnil h3, ?_, ?_⟩)
      · show (flush _).pos = _
        rw [flush_pos, h4]
      · rw [flushClose_sourceEvents, h5]
  · refine .inr (.inr ⟨_, pre, x, post, by simp only [sencBody, h1, andThen], h2, h3, h4, hnil h5, ?_, ?_⟩)
    · show (flush _).pos = _
      rw [flush_pos, h6]
    · rw [flushClose_sourceEvents, h7]

end Sys2Proof.Machine
end

