-- ==== Sys2Proof/Laws/Decode.lean ====
section
/-! SUPPORT. What `SDEC` does (spec 45_stream_decoder R130 to R139): a leaf at a time, then the sentinel or the end of
the source. -/

namespace Sys2Proof.Machine

/-- `t` differs from `s` only where `SDEC` may change it. -/
def SdecFrame (s t : State) : Prop :=
  t = { s with
    cur := t.cur, upAcc := t.upAcc, upCnt := t.upCnt, pos := t.pos, out := t.out, closed := t.closed,
    events := t.events, freeIdx := t.freeIdx }

theorem SdecFrame.refl (s : State) : SdecFrame s s := rfl

theorem SdecFrame.trans {s t u : State} (h : SdecFrame s t) (k : SdecFrame t u) : SdecFrame s u := by
  unfold SdecFrame at *; rw [k, h]

theorem SdecFrame.node {s t : State} (h : SdecFrame s t) : t.node = s.node := by rw [h]

theorem SdecFrame.cfg {s t : State} (h : SdecFrame s t) : t.cfg = s.cfg := by rw [h]

theorem SdecFrame.root {s t : State} (h : SdecFrame s t) : t.root = s.root := by rw [h]

theorem SdecFrame.src {s t : State} (h : SdecFrame s t) : t.src = s.src := by rw [h]

theorem SourceFrame.sdec {s t : State} (h : SourceFrame s t) : SdecFrame s t := by
  unfold SourceFrame at h; unfold SdecFrame; rw [h]

theorem SinkFrame.sdec_write (b : Byte) (s : State) : SdecFrame s (sinkWriteByte b s) := by
  unfold SdecFrame sinkWriteByte; split <;> rfl

theorem arrive_frame (s : State) : SdecFrame s (arrive s).2 := by
  unfold arrive
  split
  · split
    · rfl
    · exact (SinkFrame.sdec_write _ s).trans rfl
  · rfl

theorem stepBit_frame (b : Bool) (s : State) : SdecFrame s (stepBit b s).2 :=
  SdecFrame.trans (t := moveCur b s) rfl (arrive_frame _)

/-- The end of the decoding loop: success or `PAY_TRUNC`, the sink closed. -/
theorem decodeLoop_cases (n : Nat) (s : State) :
    (∃ u, decodeLoop n s = .ok () u ∧ SdecFrame s u ∧ u.closed = true) ∨
      (∃ u, decodeLoop n s = .raised .payTrunc u ∧ SdecFrame s u ∧ u.closed = true) := by
  induction n generalizing s with
  | zero => exact .inr ⟨_, rfl, (getBit_frame s).sdec.trans rfl, rfl⟩
  | succ n ih =>
    have hf := (getBit_frame s).sdec
    unfold decodeLoop
    split
    · rename_i t heq; rw [heq] at hf; exact .inr ⟨_, rfl, hf.trans rfl, rfl⟩
    · rename_i b t heq
      rw [heq] at hf
      have hs := stepBit_frame b t
      split
      · rename_i u hu; rw [hu] at hs; exact .inl ⟨_, rfl, (hf.trans hs).trans rfl, rfl⟩
      · rename_i u hu
        rw [hu] at hs
        rcases ih u with ⟨v, h1, h2, h3⟩ | ⟨v, h1, h2, h3⟩
        · exact .inl ⟨v, h1, (hf.trans hs).trans h2, h3⟩
        · exact .inr ⟨v, h1, (hf.trans hs).trans h2, h3⟩

/-- Every end of `SDEC`: success or one of its two faults, the sink closed (R138). -/
theorem sdecBody_cases (s : State) :
    (∃ u, sdecBody s = .ok () u ∧ SdecFrame s u ∧ u.closed = true) ∨
      (∃ u e, sdecBody s = .raised e u ∧ (e = .payTrunc ∨ e = .hdrRoot) ∧ SdecFrame s u ∧ u.closed = true) := by
  unfold sdecBody
  split
  · unfold rootLeafEnd
    split
    · exact .inl ⟨_, rfl, rfl, rfl⟩
    · exact .inr ⟨_, _, rfl, .inr rfl, rfl, rfl⟩
  · rcases decodeLoop_cases (bitsLeft s) { s with cur := s.root } with ⟨u, h1, h2, h3⟩ | ⟨u, h1, h2, h3⟩
    · exact .inl ⟨u, h1, SdecFrame.trans (t := { s with cur := s.root }) rfl h2, h3⟩
    · exact .inr ⟨u, _, h1, .inl rfl, SdecFrame.trans (t := { s with cur := s.root }) rfl h2, h3⟩

/-! ### One leaf -/

theorem getBit_sinkEvents (s : State) : sinkEvents (getBit s).2.events = sinkEvents s.events := by
  have hr : sinkEvents (srcReadByte s).2.events = sinkEvents s.events := by unfold srcReadByte; split <;> rfl
  unfold getBit
  split
  · split
    · rename_i t heq; rw [heq] at hr; exact hr
    · rename_i x t heq; rw [heq] at hr; exact hr
  · rfl

/-- From `s` to `u` bits have been taken and the decoder has moved, with nothing emitted. -/
structure Moved (s u : State) : Prop where
  frame : SdecFrame s u
  out : u.out = s.out
  closed : u.closed = s.closed
  events : sinkEvents u.events = sinkEvents s.events
  unpacker : u.upCnt.toNat ≤ 8

/-- One bit taken and the decoder at the child. -/
theorem takeBit_moved {s : State} {b : Bool} {rest : List Bool} (h8 : s.upCnt.toNat ≤ 8)
    (hb : sourceBits s = b :: rest) :
    ∃ t, getBit s = (some b, t) ∧ sourceBits (moveCur b t) = rest ∧ Moved s (moveCur b t) ∧
      (moveCur b t).cur = (if b then (nodeAt s s.cur).right else (nodeAt s s.cur).left) := by
  obtain ⟨t, ht, hs, hu⟩ := getBit_some h8 hb
  have hf := getBit_frame s
  have he := getBit_sinkEvents s
  rw [ht] at hf he
  refine ⟨t, ht, hs, ⟨hf.sdec.trans rfl, hf.out, hf.closed, he, hu⟩, ?_⟩
  show (if b then (nodeAt t t.cur).right else (nodeAt t t.cur).left) = _
  rw [hf.cur, nodeAt_congr hf.node hf.cfg]

theorem Moved.trans {s t u : State} (h : Moved s t) (k : Moved t u) : Moved s u :=
  ⟨h.frame.trans k.frame, k.out.trans h.out, k.closed.trans h.closed, k.events.trans h.events, k.unpacker⟩

/-- The child of a branch that a bit leads to. -/
def childOf (b : Bool) (l r : HTree) : HTree := if b then r else l

theorem mem_shapeLeaves_branch {p : List Bool} {sym : Sym} {l r : HTree} {k : Nat} :
    (p, sym) ∈ shapeLeaves (shapeOf (.branch k l r)) ↔
      ∃ b q, p = b :: q ∧ (q, sym) ∈ shapeLeaves (shapeOf (childOf b l r)) := by
  simp only [shapeOf, shapeLeaves, List.mem_append, List.mem_map, Prod.mk.injEq]
  constructor
  · rintro (⟨⟨q, y⟩, hq, rfl, rfl⟩ | ⟨⟨q, y⟩, hq, rfl, rfl⟩)
    · exact ⟨false, q, rfl, hq⟩
    · exact ⟨true, q, rfl, hq⟩
  · rintro ⟨b, q, rfl, hq⟩
    cases b
    · exact .inl ⟨(q, sym), hq, rfl, rfl⟩
    · exact .inr ⟨(q, sym), hq, rfl, rfl⟩

/-- The state after a byte leaf has been reached in `u`. -/
def emitted (sym : Sym) (u : State) : State := { sinkWriteByte (outByte sym) u with cur := u.root }

theorem decodeLoop_bit {n : Nat} {s t : State} {b : Bool} (h : getBit s = (some b, t)) :
    decodeLoop (n + 1) s =
      match arrive (moveCur b t) with
      | (true, u) => .ok () (sinkClose u)
      | (false, u) => decodeLoop n u := by
  conv_lhs => unfold decodeLoop
  rw [h]
  rfl

/-- The bits of one leaf's path take the decoder to that leaf (R133, R134 to R136). -/
theorem decodeLoop_leaf {U : HTree} {s : State} {p : List Bool} {sym : Sym} {rest : List Bool}
    (hcur : s.cur = topHandle U) (hh : Holds s U) (hbr : (nodeAt s s.cur).leaf = false)
    (hp : (p, sym) ∈ shapeLeaves (shapeOf U)) (h8 : s.upCnt.toNat ≤ 8) (hb : sourceBits s = p ++ rest) :
    ∃ u, Moved s u ∧ sourceBits u = rest ∧
      (sym.toNat = sentinel → decodeLoop (p.length + rest.length) s = .ok () (sinkClose u)) ∧
      (sym.toNat ≠ sentinel → decodeLoop (p.length + rest.length) s = decodeLoop rest.length (emitted sym u)) := by
  induction U generalizing s p with
  | leaf k y =>
    rw [hcur, topHandle_leaf, hh.1] at hbr
    exact absurd hbr (by simp)
  | branch k l r ihl ihr =>
    obtain ⟨b, q, rfl, hq⟩ := mem_shapeLeaves_branch.mp hp
    obtain ⟨t, hg, hs, hm, hc⟩ := takeBit_moved h8 (rest := q ++ rest) (by rw [hb]; rfl)
    rw [hcur, topHandle_branch] at hc
    obtain ⟨_, hl, hr, hHl, hHr⟩ := hh
    set v := moveCur b t with hv
    have hcv : v.cur = topHandle (childOf b l r) := by
      rw [hc]; cases b
      · exact hl
      · exact hr
    have hHv : Holds v (childOf b l r) := by
      refine (Holds_congr hm.frame.node hm.frame.cfg _).mpr ?_
      cases b
      · exact hHl
      · exact hHr
    have hlen : (b :: q).length + rest.length = (q.length + rest.length) + 1 := by simp only [List.length_cons]; omega
    rw [hlen]
    have hstep := decodeLoop_bit (n := q.length + rest.length) hg
    rw [← hv] at hstep
    cases hC : childOf b l r with
    | leaf k' y =>
      rw [hC] at hcv hHv hq
      simp only [shapeOf, shapeLeaves, List.mem_singleton, Prod.mk.injEq] at hq
      obtain ⟨rfl, rfl⟩ := hq
      rw [topHandle_leaf] at hcv
      have hnl : (nodeAt v v.cur).leaf = true := by rw [hcv]; exact hHv.1
      have hns : (nodeAt v v.cur).sym = sym := by rw [hcv]; exact hHv.2.1
      refine ⟨v, hm, hs, fun hsen => ?_, fun hsen => ?_⟩
      · have ha : arrive v = (true, v) := by unfold arrive; rw [if_pos hnl, hns, if_pos hsen]
        rw [hstep, ha]
      · have ha : arrive v = (false, emitted sym v) := by
          unfold arrive; rw [if_pos hnl, hns, if_neg hsen]
          have : (sinkWriteByte (outByte sym) v).root = v.root := by simp
          unfold emitted
          rfl
        rw [hstep, ha]
        simp
    | branch k' l' r' =>
      have hnl : (nodeAt v v.cur).leaf = false := by
        rw [hcv]; rw [hC] at hHv ⊢; exact hHv.1
      have ha : arrive v = (false, v) := by unfold arrive; rw [if_neg (by rw [hnl]; simp)]
      have ih : ∃ u, Moved v u ∧ sourceBits u = rest ∧
          (sym.toNat = sentinel → decodeLoop (q.length + rest.length) v = .ok () (sinkClose u)) ∧
          (sym.toNat ≠ sentinel → decodeLoop (q.length + rest.length) v = decodeLoop rest.length (emitted sym u)) := by
        cases b
        · exact ihl hcv hHv hnl hq hm.unpacker hs
        · exact ihr hcv hHv hnl hq hm.unpacker hs
      obtain ⟨u, h1, h2, h3, h4⟩ := ih
      refine ⟨u, hm.trans h1, h2, fun hsen => ?_, fun hsen => ?_⟩
      · rw [hstep, ha]; exact h3 hsen
      · rw [hstep, ha]; exact h4 hsen

/-- Bits that reach no leaf end in `PAY_TRUNC` (R132). -/
theorem decodeLoop_trunc {U : HTree} {s : State} {q : List Bool} (hcur : s.cur = topHandle U) (hh : Holds s U)
    (hbr : (nodeAt s s.cur).leaf = false) (hp : NoLeafIn (shapeOf U) q) (h8 : s.upCnt.toNat ≤ 8)
    (hb : sourceBits s = q) :
    ∃ u, Moved s u ∧ sourceBits u = [] ∧ decodeLoop q.length s = .raised .payTrunc (sinkClose u) := by
  induction U generalizing s q with
  | leaf k y =>
    rw [hcur, topHandle_leaf, hh.1] at hbr
    exact absurd hbr (by simp)
  | branch k l r ihl ihr =>
    cases q with
    | nil =>
      have hf := getBit_frame s
      have he := getBit_sinkEvents s
      obtain ⟨hg, _, _⟩ := getBit_none h8 hb
      refine ⟨(getBit s).2, ⟨hf.sdec, hf.out, hf.closed, he, ?_⟩, ?_, rfl⟩
      · rw [hg]; exact h8
      · rw [hg]; exact hb
    | cons b q =>
      obtain ⟨t, hg, hs, hm, hc⟩ := takeBit_moved h8 hb
      rw [hcur, topHandle_branch] at hc
      obtain ⟨_, hl, hr, hHl, hHr⟩ := hh
      set v := moveCur b t with hv
      have hcv : v.cur = topHandle (childOf b l r) := by
        rw [hc]; cases b
        · exact hl
        · exact hr
      have hHv : Holds v (childOf b l r) := by
        refine (Holds_congr hm.frame.node hm.frame.cfg _).mpr ?_
        cases b
        · exact hHl
        · exact hHr
      have hpv : NoLeafIn (shapeOf (childOf b l r)) q := by
        rintro ⟨p, y⟩ hpy hpre
        exact hp (b :: p, y) (mem_shapeLeaves_branch.mpr ⟨b, p, rfl, hpy⟩) (List.cons_prefix_cons.mpr ⟨rfl, hpre⟩)
      have hnl : (nodeAt v v.cur).leaf = false := by
        rw [hcv]
        cases hC : childOf b l r with
        | leaf k' y =>
          rw [hC] at hpv
          exact absurd List.nil_prefix (hpv ([], y) (by simp [shapeOf, shapeLeaves]))
        | branch k' l' r' => rw [hC] at hHv; exact hHv.1
      have ha : arrive v = (false, v) := by unfold arrive; rw [if_neg (by rw [hnl]; simp)]
      have ih : ∃ u, Moved v u ∧ sourceBits u = [] ∧ decodeLoop q.length v = .raised .payTrunc (sinkClose u) := by
        cases b
        · exact ihl hcv hHv hnl hpv hm.unpacker hs
        · exact ihr hcv hHv hnl hpv hm.unpacker hs
      obtain ⟨u, h1, h2, h3⟩ := ih
      refine ⟨u, hm.trans h1, h2, ?_⟩
      have hstep := decodeLoop_bit (n := q.length) hg
      rw [← hv, ha] at hstep
      rw [List.length_cons, hstep]
      exact h3

/-! ### The whole loop -/

/-- From `s` to `u` these bytes have been emitted. -/
structure Emitted (s u : State) (bs : List Byte) : Prop where
  frame : SdecFrame s u
  closed : u.closed = s.closed
  sent : s.closed = false → u.out = s.out ++ bs ∧ sinkEvents u.events = writeEvents bs ++ sinkEvents s.events
  unpacker : u.upCnt.toNat ≤ 8

theorem Emitted.trans {s t u : State} {xs ys : List Byte} (h : Emitted s t xs) (k : Emitted t u ys) :
    Emitted s u (xs ++ ys) := by
  refine ⟨h.frame.trans k.frame, k.closed.trans h.closed, fun ho => ?_, k.unpacker⟩
  obtain ⟨h1, h2⟩ := h.sent ho
  obtain ⟨k1, k2⟩ := k.sent (h.closed.trans ho)
  exact ⟨by rw [k1, h1, List.append_assoc], by rw [k2, h2, writeEvents_append, List.append_assoc]⟩

theorem Moved.emitted {s u : State} (h : Moved s u) : Emitted s u [] :=
  ⟨h.frame, h.closed, fun _ => ⟨by rw [h.out, List.append_nil], by rw [h.events]; rfl⟩, h.unpacker⟩

theorem emitted_spec (sym : Sym) (u : State) (h8 : u.upCnt.toNat ≤ 8) :
    Emitted u (emitted sym u) [outByte sym] ∧ sourceBits (emitted sym u) = sourceBits u ∧
      (emitted sym u).cur = u.root := by
  refine ⟨⟨(SinkFrame.sdec_write _ u).trans rfl, by simp [emitted], fun ho => ?_, ?_⟩, ?_, rfl⟩
  · simp [emitted, sinkWriteByte, ho, writeEvents, sinkEvents_cons_write]
  · show (sinkWriteByte (outByte sym) u).upCnt.toNat ≤ 8
    simpa using h8
  · exact sourceBits_congr (sinkWriteByte_upAcc _ _) (sinkWriteByte_upCnt _ _) (sinkWriteByte_src _ _)
      (sinkWriteByte_pos _ _)

/-- Some byte leaves, then more bits: the decoder stands at the root with the bytes emitted. -/
theorem decodeLoop_leaves {T : HTree} {ls : List (List Bool × Sym)} {s : State} {q : List Bool}
    (hroot : topHandle T = s.root) (hh : Holds s T) (hbr : (nodeAt s s.root).leaf = false) (hcur : s.cur = s.root)
    (hls : ByteLeaves (shapeOf T) ls) (h8 : s.upCnt.toNat ≤ 8) (hb : sourceBits s = leafBits ls ++ q) :
    ∃ u, Emitted s u (leafBytes ls) ∧ sourceBits u = q ∧ u.cur = s.root ∧
      decodeLoop (leafBits ls ++ q).length s = decodeLoop q.length u := by
  induction ls generalizing s with
  | nil =>
    refine ⟨s, ⟨rfl, rfl, fun _ => ⟨by simp [leafBytes], by simp [leafBytes, writeEvents]⟩, h8⟩, hb, hcur, ?_⟩
    simp [leafBits]
  | cons p ls ih =>
    obtain ⟨p, sym⟩ := p
    have hp := hls (p, sym) (by simp)
    have hb' : sourceBits s = p ++ (leafBits ls ++ q) := by rw [hb]; simp [leafBits]
    obtain ⟨u, hm, hs, _, hne⟩ := decodeLoop_leaf (U := T) (by rw [hcur, hroot]) hh (by rw [hcur]; exact hbr) hp.1 h8 hb'
    obtain ⟨he, hes, hec⟩ := emitted_spec sym u hm.unpacker
    have hE := hm.emitted.trans he
    have hnode := hE.frame.node
    have hrt := hE.frame.root
    obtain ⟨v, hv, hvs, hvc, hvl⟩ := ih (s := emitted sym u) (by rw [hrt]; exact hroot) ((Holds_congr hnode hE.frame.cfg T).mpr hh)
      (by rw [hrt, nodeAt_congr hnode hE.frame.cfg]; exact hbr) (by rw [hec, hrt, hm.frame.root])
      (fun x hx => hls x (by simp [hx])) he.unpacker (by rw [hes, hs])
    refine ⟨v, ?_, hvs, by rw [hvc, hrt], ?_⟩
    · have := hE.trans hv
      simpa [leafBytes] using this
    · rw [← hvl, ← hne hp.2]
      simp [leafBits]

/-- Every bit string splits into byte leaves and either a sentinel leaf or bits that reach no leaf. -/
theorem payload_splits {t : Shape} (ht : ∀ p ∈ shapeLeaves t, p.1 ≠ []) (bits : List Bool) :
    ∃ ls q, ByteLeaves t ls ∧ bits = leafBits ls ++ q ∧
      ((∃ p sym rest, (p, sym) ∈ shapeLeaves t ∧ sym.toNat = sentinel ∧ q = p ++ rest) ∨ NoLeafIn t q) := by
  induction hn : bits.length using Nat.strong_induction_on generalizing bits with
  | _ n ih =>
    by_cases h : NoLeafIn t bits
    · exact ⟨[], bits, by intro p hp; simp at hp, by simp [leafBits], .inr h⟩
    · have h' : ∃ p ∈ shapeLeaves t, p.1 <+: bits := by
        by_contra hc
        exact h fun p hp hpre => hc ⟨p, hp, hpre⟩
      obtain ⟨⟨p, sym⟩, hp, rest, hpre⟩ := h'
      by_cases hs : sym.toNat = sentinel
      · exact ⟨[], bits, by intro p hp; simp at hp, by simp [leafBits], .inl ⟨p, sym, rest, hp, hs, hpre.symm⟩⟩
      · have hpl : 0 < p.length := List.length_pos_iff.mpr (ht _ hp)
        have hlen : rest.length < n := by
          have := congrArg List.length hpre
          simp only [List.length_append] at this
          omega
        obtain ⟨ls, q, h1, h2, h3⟩ := ih rest.length hlen rest rfl
        refine ⟨(p, sym) :: ls, q, ?_, ?_, h3⟩
        · intro x hx
          rcases List.mem_cons.mp hx with rfl | hx
          · exact ⟨hp, hs⟩
          · exact h1 x hx
        · rw [← hpre, h2]; simp [leafBits]

/-! ### The body of `SDEC` -/

/-- Decoding ended in `t`: these bytes emitted, the sink closed. -/
structure DecodeEnd (s t : State) (bs : List Byte) : Prop where
  frame : SdecFrame s t
  closed : t.closed = true
  sent : s.closed = false → t.out = s.out ++ bs ∧ sinkEvents t.events = .close :: (writeEvents bs ++ sinkEvents s.events)
  unpacker : t.upCnt.toNat ≤ 8

theorem Emitted.close {s u : State} {bs : List Byte} (h : Emitted s u bs) : DecodeEnd s (sinkClose u) bs := by
  refine ⟨h.frame.trans rfl, rfl, fun ho => ?_, h.unpacker⟩
  obtain ⟨h1, h2⟩ := h.sent ho
  exact ⟨h1, by show StreamEvent.close :: sinkEvents u.events = _; rw [h2]⟩

theorem sdecBody_start {s : State} (hbr : (nodeAt s s.root).leaf = false) (h8 : s.upCnt.toNat ≤ 8) :
    sdecBody s = decodeLoop (sourceBits s).length { s with cur := s.root } := by
  unfold sdecBody
  rw [if_neg (by rw [hbr]; simp), bitsLeft_eq s h8]

/-- The codes of byte leaves and a sentinel leaf decode to the bytes (R130 to R136). -/
theorem sdecBody_sentinel {T : HTree} {s : State} {ls : List (List Bool × Sym)} {p rest : List Bool} {sym : Sym}
    (hroot : topHandle T = s.root) (hh : Holds s T) (hbr : (nodeAt s s.root).leaf = false)
    (hls : ByteLeaves (shapeOf T) ls) (hp : (p, sym) ∈ shapeLeaves (shapeOf T)) (hsen : sym.toNat = sentinel)
    (h8 : s.upCnt.toNat ≤ 8) (hb : sourceBits s = leafBits ls ++ (p ++ rest)) :
    ∃ t, sdecBody s = .ok () t ∧ DecodeEnd s t (leafBytes ls) ∧ sourceBits t = rest := by
  set s0 : State := { s with cur := s.root } with hs0
  have hf0 : SdecFrame s s0 := rfl
  obtain ⟨u, hu, hus, huc, hul⟩ := decodeLoop_leaves (T := T) (s := s0) hroot
    ((Holds_congr (s := s) (t := s0) rfl rfl T).mpr hh) hbr rfl hls h8 hb
  obtain ⟨v, hm, hvs, hend, _⟩ := decodeLoop_leaf (U := T) (s := u) (by rw [huc]; exact hroot.symm)
    ((Holds_congr (s := s) hu.frame.node hu.frame.cfg T).mpr hh)
    (by rw [huc, nodeAt_congr hu.frame.node hu.frame.cfg]; exact hbr) hp hu.unpacker hus
  refine ⟨sinkClose v, ?_, ?_, hvs⟩
  · rw [sdecBody_start hbr h8, hb, hul, List.length_append]
    exact hend hsen
  · have hE := (hu.trans hm.emitted).close
    rw [List.append_nil] at hE
    exact ⟨hf0.trans hE.frame, hE.closed, hE.sent, hE.unpacker⟩

/-- The codes of byte leaves and bits that reach no leaf end in `PAY_TRUNC` (R132, R138). -/
theorem sdecBody_truncated {T : HTree} {s : State} {ls : List (List Bool × Sym)} {q : List Bool}
    (hroot : topHandle T = s.root) (hh : Holds s T) (hbr : (nodeAt s s.root).leaf = false)
    (hls : ByteLeaves (shapeOf T) ls) (hq : NoLeafIn (shapeOf T) q)
    (h8 : s.upCnt.toNat ≤ 8) (hb : sourceBits s = leafBits ls ++ q) :
    ∃ t, sdecBody s = .raised .payTrunc t ∧ DecodeEnd s t (leafBytes ls) ∧ sourceBits t = [] := by
  set s0 : State := { s with cur := s.root } with hs0
  have hf0 : SdecFrame s s0 := rfl
  obtain ⟨u, hu, hus, huc, hul⟩ := decodeLoop_leaves (T := T) (s := s0) hroot
    ((Holds_congr (s := s) (t := s0) rfl rfl T).mpr hh) hbr rfl hls h8 hb
  obtain ⟨v, hm, hvs, hend⟩ := decodeLoop_trunc (U := T) (s := u) (by rw [huc]; exact hroot.symm)
    ((Holds_congr (s := s) hu.frame.node hu.frame.cfg T).mpr hh)
    (by rw [huc, nodeAt_congr hu.frame.node hu.frame.cfg]; exact hbr) hq hu.unpacker hus
  refine ⟨sinkClose v, ?_, ?_, hvs⟩
  · rw [sdecBody_start hbr h8, hb, hul]
    exact hend
  · have hE := (hu.trans hm.emitted).close
    rw [List.append_nil] at hE
    exact ⟨hf0.trans hE.frame, hE.closed, hE.sent, hE.unpacker⟩

/-! ### One reading -/

/-- Two leaves whose paths begin one bit string are one leaf. -/
theorem leaf_unique {t : Shape} {p q : List Bool} {a b : Sym} {x y : List Bool} (hp : (p, a) ∈ shapeLeaves t)
    (hq : (q, b) ∈ shapeLeaves t) (h : p ++ x = q ++ y) : p = q ∧ a = b ∧ x = y := by
  have hpw := leaf_paths_prefix_free t
  rw [List.pairwise_iff_getElem] at hpw
  obtain ⟨i, hi, ei⟩ := List.getElem_of_mem hp
  obtain ⟨j, hj, ej⟩ := List.getElem_of_mem hq
  have hpre : p <+: q ∨ q <+: p := List.prefix_or_prefix_of_prefix ⟨x, h⟩ ⟨y, rfl⟩
  have hij : i = j := by
    rcases Nat.lt_trichotomy i j with h1 | h1 | h1
    · have := hpw i j hi hj h1
      rw [ei, ej] at this
      exact absurd hpre (by rintro (h | h); exacts [this.1 h, this.2 h])
    · exact h1
    · have := hpw j i hj hi h1
      rw [ei, ej] at this
      exact absurd hpre (by rintro (h | h); exacts [this.2 h, this.1 h])
  subst hij
  rw [ei, Prod.mk.injEq] at ej
  obtain ⟨rfl, rfl⟩ := ej
  exact ⟨rfl, rfl, List.append_cancel_left h⟩

/-- A payload is read in one way only (30_encoding R61). -/
theorem payload_unique {t : Shape} {ls ms : List (List Bool × Sym)} {p q : List Bool} {a b : Sym} {x y : List Bool}
    (hl : ByteLeaves t ls) (hm : ByteLeaves t ms) (hp : (p, a) ∈ shapeLeaves t) (hq : (q, b) ∈ shapeLeaves t)
    (ha : a.toNat = sentinel) (hb : b.toNat = sentinel) (h : leafBits ls ++ (p ++ x) = leafBits ms ++ (q ++ y)) :
    ls = ms ∧ p = q ∧ x = y := by
  induction ls generalizing ms with
  | nil =>
    cases ms with
    | nil => obtain ⟨h1, _, h3⟩ := leaf_unique hp hq h; exact ⟨rfl, h1, h3⟩
    | cons m ms =>
      have hm0 := hm m List.mem_cons_self
      have h' : p ++ x = m.1 ++ (leafBits ms ++ (q ++ y)) := by simpa [leafBits] using h
      obtain ⟨_, h2, _⟩ := leaf_unique (b := m.2) hp hm0.1 h'
      exact absurd (h2 ▸ ha) hm0.2
  | cons l ls ih =>
    have hl0 := hl l List.mem_cons_self
    cases ms with
    | nil =>
      have h' : l.1 ++ (leafBits ls ++ (p ++ x)) = q ++ y := by simpa [leafBits] using h
      obtain ⟨_, h2, _⟩ := leaf_unique (a := l.2) hl0.1 hq h'
      exact absurd (h2 ▸ hb) hl0.2
    | cons m ms =>
      have hm0 := hm m List.mem_cons_self
      have h' : l.1 ++ (leafBits ls ++ (p ++ x)) = m.1 ++ (leafBits ms ++ (q ++ y)) := by simpa [leafBits] using h
      obtain ⟨h1, h2, h3⟩ := leaf_unique (a := l.2) (b := m.2) hl0.1 hm0.1 h'
      obtain ⟨k1, k2, k3⟩ := ih (fun z hz => hl z (List.mem_cons_of_mem _ hz))
        (fun z hz => hm z (List.mem_cons_of_mem _ hz)) h3
      exact ⟨by rw [k1, Prod.ext h1 h2], k2, k3⟩

end Sys2Proof.Machine
end

