-- ==== Sys2Proof/Laws/Deserialize.lean ====
section
/-! SUPPORT. What `HDES` does with any source (spec 43_header_codec R108 to R119): the magic check, the tokens one after
another, the fault that ends an incomplete header, and the tree that a complete one builds. -/

namespace Sys2Proof.Machine

/-! ### Headers as tokens -/

/-- The bits of a token list. -/
def tokenBits (ts : List Instr) : List Bool := ts.flatMap encode

theorem tokenBits_append (xs ys : List Instr) : tokenBits (xs ++ ys) = tokenBits xs ++ tokenBits ys := by
  simp [tokenBits]

theorem tokenBits_cons (x : Instr) (xs : List Instr) : tokenBits (x :: xs) = encode x ++ tokenBits xs := rfl

/-- A header is the bits of its tokens (30_encoding R52). -/
theorem shapeHeader_tokens (t : Shape) : shapeHeader t = tokenBits (headerTokens t) := by
  induction t with
  | leaf sym => simp [shapeHeader, headerTokens, tokenBits, encode]
  | branch l r ihl ihr =>
    simp only [shapeHeader, headerTokens, tokenBits_cons, tokenBits_append, ihl, ihr]
    rfl

theorem headerTokens_length (t : Shape) : (headerTokens t).length = shapeSize t := by
  induction t with
  | leaf sym => rfl
  | branch l r ihl ihr => simp only [headerTokens, List.length_cons, List.length_append, ihl, ihr, shapeSize]; omega

theorem stillOpen_zero (ts : List Instr) : stillOpen 0 ts = false := by
  cases ts <;> simp [stillOpen]

theorem HeaderTokens.tail {i : Instr} {ts : List Instr} (h : HeaderTokens (i :: ts)) : HeaderTokens ts :=
  fun j hj => h j (by simp [hj])

theorem HeaderTokens.right {xs ys : List Instr} (h : HeaderTokens (xs ++ ys)) : HeaderTokens ys :=
  fun j hj => h j (by simp [hj])

/-! ### Reading tokens -/

/-- The reader is ready: its bits, the arena's fill, and enough levels left. -/
structure ReaderAt (c : Config) (n : Nat) (s : State) (k : Nat) (bits : List Bool) : Prop where
  unpacker : s.upCnt.toNat ≤ 8
  cfg : s.cfg = c
  width : c.nodeCap < 2 ^ c.hW
  count : s.nnode = k
  levels : c.nodeCap ≤ n + k
  bits : sourceBits s = bits

/-- What reading tokens that begin a tree does: it completes the first tree, or it is where the tokens end. -/
def TokensRead (c : Config) (n : Nat) (s : State) (k : Nat) (ts : List Instr) (tail : List Bool) : Prop :=
  (∃ h t xs ys, ts = xs ++ ys ∧ readTree n s = .ok h t ∧ t.upCnt.toNat ≤ 8 ∧ t.cfg = c ∧ t.nnode = k + xs.length ∧
      sourceBits t = tokenBits ys ++ tail ∧ ∀ m, stillOpen (m + 1) ts = stillOpen m ys) ∨
    ((∀ m, stillOpen (m + 1) ts = true) ∧
      ∀ e, (∀ n' s', ReaderAt c n' s' (k + ts.length) tail → ∃ u, readTree n' s' = .raised e u) →
        ∃ u, readTree n s = .raised e u)

/-- Reading a branch marker. -/
theorem readTree_branch {c : Config} {n : Nat} {s : State} {k : Nat} {bits : List Bool} (h : ReaderAt c (n + 1) s k (false :: bits))
    (hk : k < c.nodeCap) :
    ∃ (h0 : Nat) (s1 : State), ReaderAt c n s1 (k + 1) bits ∧
      readTree (n + 1) s =
        andThen (readTree n s1) fun l v =>
          andThen (readTree n (setLeft h0 l v)) fun r w => .ok h0 (setRight h0 r w) := by
  obtain ⟨s1, hg, hs1, hu⟩ := getBit_some h.unpacker h.bits
  have hf1 := getBit_frame s
  rw [hg] at hf1
  have hnn : s1.nnode = s.nnode := hf1.nnode
  have hcf : s1.cfg = c := hf1.cfg.trans h.cfg
  have hth : takeHandle s1 = .ok s1.nnode { s1 with nnode := narrow s1.cfg.hW (s1.nnode + 1) } := by
    unfold takeHandle; rw [if_neg]; rw [hnn, h.count, hcf]; omega
  refine ⟨s1.nnode, buildBranch s1.nnode { s1 with nnode := narrow s1.cfg.hW (s1.nnode + 1) }, ⟨hu, hcf, h.width, ?_, ?_, hs1⟩, ?_⟩
  · show narrow s1.cfg.hW (s1.nnode + 1) = _
    have hw := h.width
    rw [hnn, hcf, h.count, narrow_eq (by omega)]
  · have := h.levels; omega
  · simp only [readTree, hg, andThen, hth]
    simp

/-- Reading a leaf token. -/
theorem readTree_leaf {c : Config} {n : Nat} {s : State} {k : Nat} {sym : Sym} {bits : List Bool}
    (h : ReaderAt c (n + 1) s k (true :: (bitsOf 9 sym.toNat ++ bits))) (hk : k < c.nodeCap) :
    ∃ (h0 : Nat) (t : State), t.upCnt.toNat ≤ 8 ∧ t.cfg = c ∧ t.nnode = k + 1 ∧ sourceBits t = bits ∧
      readTree (n + 1) s =
        (if sentinel < sym.toNat then .raised .hdrSym t
         else .ok h0 (setNode h0 (leafNode (BitVec.ofNat 9 sym.toNat) 0) t)) := by
  obtain ⟨s1, hg, hs1, hu⟩ := getBit_some h.unpacker h.bits
  have hf1 := getBit_frame s
  rw [hg] at hf1
  have hnn : s1.nnode = s.nnode := hf1.nnode
  have hcf : s1.cfg = c := hf1.cfg.trans h.cfg
  have hth : takeHandle s1 = .ok s1.nnode { s1 with nnode := narrow s1.cfg.hW (s1.nnode + 1) } := by
    unfold takeHandle; rw [if_neg]; rw [hnn, h.count, hcf]; omega
  obtain ⟨s2, hg2, hs2, hu2⟩ := getBits_some (bitsOf 9 sym.toNat) (s := { s1 with nnode := narrow s1.cfg.hW (s1.nnode + 1) }) hu hs1
  have hf2 := getBits_frame 9 { s1 with nnode := narrow s1.cfg.hW (s1.nnode + 1) }
  rw [bitsOf_length] at hg2
  rw [hg2] at hf2
  rw [valOf_bitsOf, Nat.mod_eq_of_lt sym.isLt] at hg2
  refine ⟨s1.nnode, s2, hu2, hf2.cfg.trans hcf, ?_, hs2, ?_⟩
  · have : s2.nnode = narrow s1.cfg.hW (s1.nnode + 1) := hf2.nnode
    have hw := h.width
    rw [this, hnn, hcf, h.count, narrow_eq (by omega)]
  · simp only [readTree, hg, hth, andThen, if_true, readLeaf, hg2, buildLeaf]
    by_cases hs : sentinel < sym.toNat
    · simp only [if_pos hs]
    · simp only [if_neg hs]

theorem readTree_tokens {c : Config} {ts : List Instr} {n : Nat} {s : State} {k : Nat} {tail : List Bool} (ht : HeaderTokens ts)
    (hc : k + ts.length ≤ c.nodeCap) (h : ReaderAt c n s k (tokenBits ts ++ tail)) : TokensRead c n s k ts tail := by
  induction hlen : ts.length using Nat.strong_induction_on generalizing ts n s k with
  | _ len ih =>
    cases ts with
    | nil =>
      refine .inr ⟨fun m => rfl, fun e he => he n s ?_⟩
      simpa [tokenBits] using h
    | cons i ts =>
      simp only [List.length_cons] at hc hlen
      have hk : k < c.nodeCap := by omega
      have hl := h.levels
      rcases ht i (by simp) with rfl | ⟨sym, hsym, rfl⟩
      · -- a branch: its left subtree, then its right subtree
        have hb : tokenBits (.hdrBranch :: ts) ++ tail = false :: (tokenBits ts ++ tail) := rfl
        rw [hb] at h
        cases n with
        | zero => omega
        | succ n =>
          obtain ⟨h0, s1, hr1, heq⟩ := readTree_branch h hk
          rcases ih ts.length (by omega) (HeaderTokens.tail ht) (by omega) hr1 rfl with
            ⟨l, t, xs, ys, hxy, hrd, hu, hcf, hnn, hbits, hopen⟩ | ⟨hopen, hfail⟩
          · have hxl : ts.length = xs.length + ys.length := by rw [hxy, List.length_append]
            have hyt : HeaderTokens ys := by
              have := HeaderTokens.tail ht; rw [hxy] at this; exact this.right
            have hr2 : ReaderAt c n (setLeft h0 l t) (k + 1 + xs.length) (tokenBits ys ++ tail) :=
              ⟨hu, hcf, h.width, hnn, by omega, hbits⟩
            have hob : ∀ m, stillOpen (m + 1) (.hdrBranch :: ts) = stillOpen (m + 1) ys := fun m => hopen (m + 1)
            rcases ih ys.length (by omega) hyt (by omega) hr2 rfl with
              ⟨r, w, zs, vs, hzv, hrd2, hu2, hcf2, hnn2, hbits2, hopen2⟩ | ⟨hopen2, hfail2⟩
            · refine .inl ⟨h0, setRight h0 r w, .hdrBranch :: (xs ++ zs), vs, ?_, ?_, hu2, hcf2, ?_, hbits2, ?_⟩
              · rw [hxy, hzv]; simp
              · rw [heq, hrd]; simp only [andThen]; rw [hrd2]
              · show w.nnode = _
                rw [hnn2]; simp only [List.length_cons, List.length_append]; omega
              · intro m; rw [hob, hopen2]
            · refine .inr ⟨fun m => by rw [hob]; exact hopen2 m, fun e he => ?_⟩
              obtain ⟨u, hu'⟩ := hfail2 e fun n' s' hr' => he n' s' (by
                have : k + 1 + xs.length + ys.length = k + (Instr.hdrBranch :: ts).length := by
                  rw [List.length_cons, hxl]; omega
                rwa [this] at hr')
              refine ⟨u, ?_⟩
              rw [heq, hrd]
              simp only [andThen]
              rw [hu']
          · refine .inr ⟨fun m => hopen (m + 1), fun e he => ?_⟩
            obtain ⟨u, hu'⟩ := hfail e fun n' s' hr' => he n' s' (by
              have : k + 1 + ts.length = k + (Instr.hdrBranch :: ts).length := by rw [List.length_cons]; omega
              rwa [this] at hr')
            exact ⟨u, by rw [heq, hu']; rfl⟩
      · -- a leaf
        have hb : tokenBits (.hdrLeaf sym :: ts) ++ tail = true :: (bitsOf 9 sym.toNat ++ (tokenBits ts ++ tail)) := by
          simp [tokenBits, encode]
        rw [hb] at h
        cases n with
        | zero => omega
        | succ n =>
          obtain ⟨h0, t, hu, hcf, hnn, hbits, heq⟩ := readTree_leaf h hk
          rw [if_neg (Nat.not_lt.mpr hsym)] at heq
          exact .inl ⟨h0, _, [.hdrLeaf sym], ts, rfl, heq, hu, hcf, by simpa using hnn, hbits, fun m => rfl⟩

theorem readTree_upCnt {n : Nat} {s t : State} {h : Nat} (hr : readTree n s = .ok h t) (h8 : s.upCnt.toNat ≤ 8) :
    t.upCnt.toNat ≤ 7 := by
  induction n generalizing s t h with
  | zero => unfold readTree at hr; split at hr <;> simp at hr
  | succ n ih =>
    unfold readTree at hr
    rcases getBit_cases s h8 with ⟨b, s1, hg, hb, hu⟩ | ⟨_, s1, hg, _, _⟩
    · have hu7 := (getBit_upCnt hg h8).1
      rw [hg] at hr
      obtain ⟨a, s2, hth, hr⟩ := andThen_ok hr
      have hs2 : s2.upCnt = s1.upCnt := by
        unfold takeHandle at hth
        split at hth
        · simp at hth
        · simp only [Res.ok.injEq] at hth; rw [← hth.2]
      cases b with
      | true =>
        simp only [if_true, readLeaf] at hr
        have hk := (getBits_upCnt 9 (s := s2) (by rw [hs2]; omega)).1
        split at hr
        · simp at hr
        · rename_i v s3 heq
          rw [heq] at hk
          obtain ⟨_, s4, hbl, hr⟩ := andThen_ok hr
          simp only [Res.ok.injEq] at hr
          rw [← hr.2]
          unfold buildLeaf at hbl
          split at hbl
          · simp at hbl
          · simp only [Res.ok.injEq, true_and] at hbl
            rw [← hbl]
            show s3.upCnt.toNat ≤ 7
            rw [hs2] at hk
            simp only at hk
            omega
      | false =>
        simp only [Bool.false_eq_true, if_false] at hr
        obtain ⟨l, s3, hrl, hr⟩ := andThen_ok hr
        obtain ⟨r, s4, hrr, hr⟩ := andThen_ok hr
        simp only [Res.ok.injEq] at hr
        rw [← hr.2]
        have h3 := ih hrl (by show s2.upCnt.toNat ≤ 8; rw [hs2]; exact hu)
        have h4 := ih hrr (by show s3.upCnt.toNat ≤ 8; omega)
        exact h4
    · rw [hg] at hr; simp at hr

/-! ### Where the tokens end -/

/-- The source ends at a marker (R112, R109). -/
theorem readTree_eos_marker {c : Config} {n k : Nat} {s : State} (h : ReaderAt c n s k []) : ∃ u, readTree n s = .raised .hdrEos u := by
  have hg := (getBit_none h.unpacker h.bits).1
  cases n <;> exact ⟨_, by simp only [readTree, hg]; rfl⟩

/-- The source ends inside a symbol (R112). -/
theorem readTree_eos_symbol {c : Config} {n k : Nat} {s : State} {part : List Bool} (h : ReaderAt c n s k (true :: part))
    (hp : part.length < 9) (hk : k < c.nodeCap) : ∃ u, readTree n s = .raised .hdrEos u := by
  obtain ⟨s1, hg, hs1, hu⟩ := getBit_some h.unpacker h.bits
  have hf1 := getBit_frame s
  rw [hg] at hf1
  have hnn : s1.nnode = s.nnode := hf1.nnode
  have hcf : s1.cfg = c := hf1.cfg.trans h.cfg
  have hth : takeHandle s1 = .ok s1.nnode { s1 with nnode := narrow s1.cfg.hW (s1.nnode + 1) } := by
    unfold takeHandle; rw [if_neg]; rw [hnn, h.count, hcf]; omega
  obtain ⟨s2, hg2, _, _⟩ := getBits_none 9 (s := { s1 with nnode := narrow s1.cfg.hW (s1.nnode + 1) }) hu (by
    show (sourceBits s1).length < 9
    rw [hs1]; exact hp)
  have hl := h.levels
  cases n with
  | zero => omega
  | succ n => exact ⟨s2, by simp only [readTree, hg, hth, andThen, if_true, readLeaf, hg2]⟩

/-- The marker of one node more than the arena has slots (R115). -/
theorem readTree_cap {c : Config} {n : Nat} {s : State} {b : Bool} {rest : List Bool} (h : ReaderAt c n s c.nodeCap (b :: rest)) :
    ∃ u, readTree n s = .raised .hdrCap u := by
  obtain ⟨s1, hg, hs1, hu⟩ := getBit_some h.unpacker h.bits
  have hf1 := getBit_frame s
  rw [hg] at hf1
  have hth : takeHandle s1 = .raised .hdrCap s1 := by
    unfold takeHandle; rw [if_pos]; rw [hf1.nnode, hf1.cfg, h.cfg]; exact h.count
  cases n with
  | zero => exact ⟨s1, by simp only [readTree, hg]⟩
  | succ n => exact ⟨s1, by simp only [readTree, hg, hth, andThen]⟩

/-- A reserved symbol (R114). -/
theorem readTree_sym {c : Config} {n k : Nat} {s : State} {sym : Sym} {rest : List Bool}
    (h : ReaderAt c n s k (true :: (bitsOf 9 sym.toNat ++ rest))) (hk : k < c.nodeCap) (hs : sentinel < sym.toNat) :
    ∃ u, readTree n s = .raised .hdrSym u := by
  have hl := h.levels
  cases n with
  | zero => omega
  | succ n =>
    obtain ⟨_, t, _, _, _, _, heq⟩ := readTree_leaf h hk
    rw [if_pos hs] at heq
    exact ⟨t, heq⟩

/-! ### The body of `HDES` -/

/-- `t` differs from `s` only where `HDES` may change it. -/
def HdesFrame (s t : State) : Prop :=
  t = { s with
    node := t.node, root := t.root, nnode := t.nnode, tv := t.tv, cv := t.cv, upAcc := t.upAcc, upCnt := t.upCnt,
    pos := t.pos, events := t.events }

theorem HdesFrame.trans {s t u : State} (h : HdesFrame s t) (k : HdesFrame t u) : HdesFrame s u := by
  unfold HdesFrame at *; rw [k, h]

theorem SourceFrame.hdes {s t : State} (h : SourceFrame s t) : HdesFrame s t := by
  unfold SourceFrame at h; unfold HdesFrame; rw [h]

theorem TreeFrame.hdes {s t : State} (h : TreeFrame s t) : HdesFrame s t := by
  unfold TreeFrame at h; unfold HdesFrame; rw [h]

theorem TreeFrame.tv {s t : State} (h : TreeFrame s t) : t.tv = s.tv := by rw [h]
theorem TreeFrame.cv {s t : State} (h : TreeFrame s t) : t.cv = s.cv := by rw [h]

/-- The start of `HDES`: flags and unpacker cleared (R108, R111). -/
def hdesStart (s : State) : State := emptyUnpacker (clearTvCv s)

theorem sourceBits_hdesStart (s : State) : sourceBits (hdesStart s) = restBits s := by
  show (bitsOf 8 0).take 0 ++ _ = _
  rw [List.take_zero, List.nil_append]; rfl

/-- Any other first 32 bits, or fewer, are `HDR_MAGIC` (R111), with at most four bytes read and no node written. -/
theorem hdesBody_magic {s : State} (h : ¬ bitsOf 32 s.cfg.magic.toNat <+: restBits s) :
    ∃ u, hdesBody s = .raised .hdrMagic u ∧ HdesFrame s u ∧ u.tv = false ∧ u.cv = false ∧ u.node = s.node ∧
      u.pos ≤ s.pos + 4 ∧ u.upCnt.toNat ≤ 8 := by
  have hf0 : HdesFrame s (hdesStart s) := rfl
  have hf := getBits_frame 32 (hdesStart s)
  have hu := getBits_upCnt 32 (s := hdesStart s) (by show 0 ≤ 8; omega)
  have hup : (hdesStart s).upCnt.toNat = 0 := rfl
  have hpos : (hdesStart s).pos = s.pos := rfl
  rw [hup, hpos] at hu
  have hall : ∀ {o : Option Nat} {t : State}, getBits 32 (hdesStart s) = (o, t) →
      HdesFrame s t ∧ t.tv = false ∧ t.cv = false ∧ t.node = s.node ∧ t.pos ≤ s.pos + 4 ∧ t.upCnt.toNat ≤ 8 := by
    intro o t ht
    rw [ht] at hf hu
    simp only at hu
    exact ⟨hf0.trans hf.hdes, hf.tv, hf.cv, hf.node, by omega, by omega⟩
  rcases getBits_cases 32 (hdesStart s) (by show 0 ≤ 8; omega) with ⟨bs, t, hl, hg, hb, _⟩ | ⟨_, t, hg, _, _⟩
  · have hne : BitVec.ofNat 32 (valOf bs) ≠ s.cfg.magic := by
      intro he
      apply h
      have hv := valOf_lt bs
      rw [hl] at hv
      have hm : s.cfg.magic.toNat = valOf bs := by rw [← he]; simp; omega
      rw [sourceBits_hdesStart] at hb
      refine ⟨sourceBits t, ?_⟩
      have hbs := bitsOf_valOf bs
      rw [hl] at hbs
      rw [hm, hbs, ← hb]
    have hcfg : t.cfg = s.cfg := by
      have := hf.cfg; rw [hg] at this; exact this
    refine ⟨t, ?_, hall hg⟩
    show andThen (readMagic (hdesStart s)) _ = _
    unfold readMagic checkMagic
    rw [hg]
    simp only [hcfg]
    rw [if_neg hne]
    rfl
  · refine ⟨t, ?_, hall hg⟩
    show andThen (readMagic (hdesStart s)) _ = _
    unfold readMagic
    rw [hg]
    rfl

/-- After the magic the reader stands at the tree's header (R108). -/
theorem hdesBody_after {s : State} {q : List Bool} (hw : s.cfg.nodeCap < 2 ^ s.cfg.hW)
    (h : restBits s = bitsOf 32 s.cfg.magic.toNat ++ q) :
    ∃ s1, ReaderAt s.cfg s.cfg.nodeCap s1 0 q ∧ s1.node = s.node ∧ HdesFrame s s1 ∧ s1.tv = false ∧ s1.cv = false ∧
      hdesBody s = andThen (readTree s.cfg.nodeCap s1) fun h u => .ok () (setTv { u with root := h }) := by
  have hf0 : HdesFrame s (hdesStart s) := rfl
  obtain ⟨t, hg, hb, hu⟩ := getBits_some (bitsOf 32 s.cfg.magic.toNat) (s := hdesStart s) (by show 0 ≤ 8; omega)
    ((sourceBits_hdesStart s).trans h)
  rw [bitsOf_length, valOf_bitsOf, Nat.mod_eq_of_lt s.cfg.magic.isLt] at hg
  have hf := getBits_frame 32 (hdesStart s)
  rw [hg] at hf
  have hcfg : t.cfg = s.cfg := hf.cfg
  have hm : BitVec.ofNat 32 s.cfg.magic.toNat = t.cfg.magic := by rw [hcfg]; simp
  refine ⟨{ t with nnode := 0 }, ⟨hu, hcfg, hw, rfl, Nat.le_refl _, hb⟩, hf.node, (hf0.trans hf.hdes).trans rfl, hf.tv, hf.cv, ?_⟩
  show andThen (readMagic (hdesStart s)) _ = _
  unfold readMagic checkMagic
  rw [hg]
  simp only [if_pos hm]
  rw [← hcfg]
  rfl

/-- An incomplete header ends in the fault of what follows its tokens (R112, R114, R115). -/
theorem hdesBody_fault {s : State} (hw : s.cfg.nodeCap < 2 ^ s.cfg.hW)
    {ts : List Instr} {tail : List Bool} {e : Err}
    (h : restBits s = bitsOf 32 s.cfg.magic.toNat ++ (tokenBits ts ++ tail)) (ht : HeaderTokens ts)
    (ho : stillOpen 1 ts = true) (hc : ts.length ≤ s.cfg.nodeCap)
    (he : ∀ n' s', ReaderAt s.cfg n' s' ts.length tail → ∃ u, readTree n' s' = .raised e u) :
    ∃ u, hdesBody s = .raised e u ∧ HdesFrame s u ∧ u.tv = false ∧ u.cv = false ∧
      (e = .hdrEos ∨ e = .hdrCap ∨ e = .hdrSym) := by
  obtain ⟨s1, hr, _, hf, htv, hcv, heq⟩ := hdesBody_after hw h
  have hout := readTree_outcome s.cfg.nodeCap s1
  rcases readTree_tokens ht (by omega) hr with ⟨_, _, xs, ys, _, _, _, _, _, _, hopen⟩ | ⟨_, hfail⟩
  · have := hopen 0
    rw [ho, stillOpen_zero] at this
    exact absurd this (by simp)
  · obtain ⟨u, hu⟩ := hfail e fun n' s' hr' => he n' s' (by rwa [Nat.zero_add] at hr')
    rw [hu] at hout
    refine ⟨u, by rw [heq, hu]; rfl, hf.trans hout.1.hdes, ?_, ?_, hout.2⟩
    · exact hout.1.tv.trans htv
    · exact hout.1.cv.trans hcv

/-- What a good header leaves (R108 to R110, R118). -/
structure Rebuilt (s u : State) (T : HTree) (rest : List Bool) : Prop where
  frame : HdesFrame s u
  tree : TreeIn u T
  bare : BareTree u T
  preorder : treeHandles T = List.range (shapeSize (shapeOf T))
  root : u.root = 0
  nodes : u.nnode = shapeSize (shapeOf T)
  tv : u.tv = true
  cv : u.cv = false
  bits : restBits s = bitsOf 32 s.cfg.magic.toNat ++ (shapeHeader (shapeOf T) ++ rest)
  rest : sourceBits u = rest
  unpacker : u.upCnt.toNat ≤ 7
  arena : Arena u

/-- `HDES` always ends, well or with one of four faults, and changes only what reading a header changes. -/
theorem hdesBody_ends (s : State) :
    (∃ u, hdesBody s = .ok () u ∧ HdesFrame s u ∧ u.tv = true ∧ u.cv = false) ∨
      (∃ u e, hdesBody s = .raised e u ∧ (e = .hdrMagic ∨ e = .hdrEos ∨ e = .hdrCap ∨ e = .hdrSym) ∧ HdesFrame s u ∧
        u.tv = false ∧ u.cv = false) := by
  have hs : HdesFrame s (hdesStart s) := rfl
  have hf := getBits_frame 32 (hdesStart s)
  show (∃ u, andThen (readMagic (hdesStart s)) _ = _ ∧ _) ∨ ∃ u e, andThen (readMagic (hdesStart s)) _ = _ ∧ _
  unfold readMagic
  generalize getBits 32 (hdesStart s) = p at hf ⊢
  obtain ⟨o, t⟩ := p
  have h1 : HdesFrame s t := hs.trans hf.hdes
  cases o with
  | none => exact .inr ⟨t, _, rfl, .inl rfl, h1, hf.tv, hf.cv⟩
  | some m =>
    simp only [checkMagic]
    split
    · have hout := readTree_outcome t.cfg.nodeCap { t with nnode := 0 }
      simp only [andThen]
      cases hr : readTree t.cfg.nodeCap { t with nnode := 0 } with
      | ok h v =>
        rw [hr] at hout
        have hv : HdesFrame s v := (h1.trans (u := { t with nnode := 0 }) rfl).trans (TreeFrame.hdes hout)
        exact .inl ⟨_, rfl, hv.trans rfl, rfl, (TreeFrame.cv hout).trans hf.cv⟩
      | raised e v =>
        rw [hr] at hout
        have hv : HdesFrame s v := (h1.trans (u := { t with nnode := 0 }) rfl).trans hout.1.hdes
        exact .inr ⟨v, e, rfl, .inr hout.2, hv, hout.1.tv.trans hf.tv, hout.1.cv.trans hf.cv⟩
      | stuck f => rw [hr] at hout; exact absurd hout id
    · exact .inr ⟨t, _, rfl, .inl rfl, h1, hf.tv, hf.cv⟩

/-- Every end of `HDES`, and what the good one leaves. -/
theorem hdesBody_cases {s : State} (ha : Arena s) :
    (∃ u T rest, hdesBody s = .ok () u ∧ Rebuilt s u T rest) ∨
      (∃ u e, hdesBody s = .raised e u ∧ (e = .hdrMagic ∨ e = .hdrEos ∨ e = .hdrCap ∨ e = .hdrSym) ∧ HdesFrame s u ∧
        u.tv = false ∧ u.cv = false) := by
  rcases hdesBody_ends s with ⟨u, hu, hF, htv, hcv⟩ | h
  · by_cases hm : bitsOf 32 s.cfg.magic.toNat <+: restBits s
    · obtain ⟨q, hq⟩ := hm
      obtain ⟨s1, hr, hnd, _, _, _, heq⟩ := hdesBody_after ha.width hq.symm
      have ha1 : Arena s1 := ha.congr (by rw [hnd]) hr.cfg
      cases hrd : readTree s.cfg.nodeCap s1 with
      | ok h t =>
        obtain ⟨T, hT⟩ := readTree_ok hrd ha1 (by rw [hr.count]; exact Nat.zero_le _) hr.unpacker
        have hcount := hT.count
        rw [hr.count, Nat.zero_add] at hcount
        have hu' : setTv { t with root := h } = u := by
          rw [hrd] at heq
          exact (Res.ok.inj (heq.symm.trans hu)).2
        have hnode : u.node = t.node := by rw [← hu']; rfl
        have hcfg : u.cfg = t.cfg := by rw [← hu']; rfl
        refine .inl ⟨u, T, sourceBits t, hu, ?_⟩
        exact
          { frame := hF
            tree := ⟨by rw [← hu']; exact hT.top, (Holds_congr hnode hcfg T).mpr hT.holds, hT.nodup,
              fun k hk => by rw [← hu']; exact (hT.handles k hk).2, by rw [hcfg, hT.cfg, ← hu']; exact hT.cap⟩
            bare := hT.bare.agree fun k _ => nodeAt_congr hnode hcfg k
            preorder := by rw [hT.preorder, hr.count, List.range_eq_range']
            root := by rw [← hu']; show h = 0; rw [hT.first, hr.count]
            nodes := by rw [← hu']; exact hcount
            tv := htv
            cv := hcv
            bits := by rw [← hq, ← hT.bits, hr.bits]
            rest := by rw [← hu']; rfl
            unpacker := by rw [← hu']; exact (readTree_upCnt hrd hr.unpacker : t.upCnt.toNat ≤ 7)
            arena := Arena.congr (s := t) hT.arena (by rw [hnode]) hcfg }
      | raised e t => rw [hrd] at heq; rw [heq] at hu; simp [andThen] at hu
      | stuck f => rw [hrd] at heq; rw [heq] at hu; simp [andThen] at hu
    · obtain ⟨_, h1, _⟩ := hdesBody_magic hm
      rw [h1] at hu
      cases hu
  · exact .inr h

/-- A magic and the header of a tree that fits: the tree is rebuilt (R109, R113, R115). -/
theorem hdesBody_good {s : State} (ha : Arena s) {sh : Shape} {rest : List Bool}
    (h : restBits s = bitsOf 32 s.cfg.magic.toNat ++ (shapeHeader sh ++ rest)) (hsym : symbolsOk sh)
    (hsz : shapeSize sh ≤ s.cfg.nodeCap) : ∃ u T, hdesBody s = .ok () u ∧ Rebuilt s u T rest ∧ shapeOf T = sh := by
  obtain ⟨s1, hr, hnd, _, _, _, heq⟩ := hdesBody_after ha.width h
  have ha1 : Arena s1 := ha.congr (by rw [hnd]) hr.cfg
  have hh := height_size sh
  obtain ⟨h0, t, hrd, _⟩ := readTree_succeeds hr.unpacker hr.bits hsym ha1
    (by rw [hr.count, hr.cfg]; omega) (n := s.cfg.nodeCap) (by omega)
  rcases hdesBody_cases ha with ⟨u, T, rest', hu, hT⟩ | ⟨u, e, hu, _⟩
  · have hb := hT.bits
    rw [h] at hb
    obtain ⟨h1, h2⟩ := shapeHeader_inj (List.append_cancel_left hb)
    rw [← h2] at hT
    exact ⟨u, T, hu, hT, h1.symm⟩
  · rw [heq, hrd] at hu
    simp [andThen] at hu

/-! ### A header cut short -/

/-- A whole subtree takes one awaited place (30_encoding R61). -/
theorem stillOpen_header (t : Shape) (n : Nat) (ts : List Instr) :
    stillOpen (n + 1) (headerTokens t ++ ts) = stillOpen n ts := by
  induction t generalizing n ts with
  | leaf sym => rfl
  | branch l r il ir =>
    show stillOpen (n + 2) (headerTokens l ++ headerTokens r ++ ts) = _
    rw [List.append_assoc, il, ir]

theorem headerTokens_ok {t : Shape} (h : symbolsOk t) : HeaderTokens (headerTokens t) := by
  induction t with
  | leaf sym =>
    intro i hi
    rcases List.mem_singleton.mp hi with rfl
    exact .inr ⟨sym, h ([], sym) (List.mem_singleton.mpr rfl), rfl⟩
  | branch l r il ir =>
    obtain ⟨hl, hr⟩ := symbolsOk_branch.mp h
    intro i hi
    rcases List.mem_cons.mp hi with rfl | hi
    · exact .inl rfl
    · rcases List.mem_append.mp hi with hi | hi
      · exact il hl i hi
      · exact ir hr i hi

/-- A proper prefix of a tree's header ends at a marker or inside a symbol, some subtree still missing. -/
theorem header_prefix {t : Shape} (hs : symbolsOk t) (n : Nat) {q w : List Bool} (h : q ++ w = shapeHeader t)
    (hw : w ≠ []) :
    ∃ ts tail, HeaderTokens ts ∧ stillOpen (n + 1) ts = true ∧ ts.length < shapeSize t ∧ q = tokenBits ts ++ tail ∧
      (tail = [] ∨ ∃ part, tail = true :: part ∧ part.length < 9) := by
  have hnil : HeaderTokens [] := fun i hi => absurd hi List.not_mem_nil
  induction t generalizing n q w with
  | leaf sym =>
    refine ⟨[], q, hnil, rfl, by simp [shapeSize], rfl, ?_⟩
    cases q with
    | nil => exact .inl rfl
    | cons b part =>
      simp only [shapeHeader, List.cons_append, List.cons.injEq] at h
      refine .inr ⟨part, by rw [h.1], ?_⟩
      have hl := congrArg List.length h.2
      rw [List.length_append, bitsOf_length] at hl
      have := List.length_pos_iff.mpr hw
      omega
  | branch l r il ir =>
    obtain ⟨hl, hr⟩ := symbolsOk_branch.mp hs
    cases q with
    | nil => exact ⟨[], [], hnil, rfl, by simp only [shapeSize, List.length_nil]; omega, rfl, .inl rfl⟩
    | cons b q =>
      simp only [shapeHeader, List.cons_append, List.cons.injEq] at h
      obtain ⟨rfl, h⟩ := h
      rcases List.append_eq_append_iff.mp h with ⟨v, hv1, hv2⟩ | ⟨v, hv1, hv2⟩
      · by_cases hv : v = []
        · rw [hv, List.append_nil] at hv1
          rw [hv, List.nil_append] at hv2
          obtain ⟨ts, tail, k1, k2, k3, k4, k5⟩ := ir hr n (q := []) (w := shapeHeader r) rfl (by rw [← hv2]; exact hw)
          refine ⟨.hdrBranch :: (headerTokens l ++ ts), tail, ?_, ?_, ?_, ?_, k5⟩
          · intro i hi
            rcases List.mem_cons.mp hi with rfl | hi
            · exact .inl rfl
            · rcases List.mem_append.mp hi with hi | hi
              · exact headerTokens_ok hl i hi
              · exact k1 i hi
          · show stillOpen (n + 2) (headerTokens l ++ ts) = true
            rw [stillOpen_header]; exact k2
          · rw [List.length_cons, List.length_append, headerTokens_length, shapeSize]; omega
          · rw [tokenBits_cons, tokenBits_append, ← shapeHeader_tokens, hv1, List.append_assoc, List.append_assoc, ← k4]
            simp [encode]
        · obtain ⟨ts, tail, k1, k2, k3, k4, k5⟩ := il hl (n + 1) hv1.symm hv
          refine ⟨.hdrBranch :: ts, tail, ?_, k2, ?_, ?_, k5⟩
          · intro i hi
            rcases List.mem_cons.mp hi with rfl | hi
            · exact .inl rfl
            · exact k1 i hi
          · rw [List.length_cons, shapeSize]; omega
          · rw [k4]; rfl
      · obtain ⟨ts, tail, k1, k2, k3, k4, k5⟩ := ir hr n hv2.symm hw
        refine ⟨.hdrBranch :: (headerTokens l ++ ts), tail, ?_, ?_, ?_, ?_, k5⟩
        · intro i hi
          rcases List.mem_cons.mp hi with rfl | hi
          · exact .inl rfl
          · rcases List.mem_append.mp hi with hi | hi
            · exact headerTokens_ok hl i hi
            · exact k1 i hi
        · show stillOpen (n + 2) (headerTokens l ++ ts) = true
          rw [stillOpen_header]; exact k2
        · rw [List.length_cons, List.length_append, headerTokens_length, shapeSize]; omega
        · rw [tokenBits_cons, tokenBits_append, ← shapeHeader_tokens, hv1, k4]
          simp [encode]

end Sys2Proof.Machine
end

