-- ==== Sys2Proof/Laws/Above.lean ====
section
/-! SUPPORT. The arena entries above the tree: `HDES` writes no node from `nnode` on (spec 43_header_codec R108). -/

namespace Sys2Proof.Machine

/-! ### `HDES` -/

/-- Handles left to give, and wide enough to count them. -/
structure Filling (s : State) : Prop where
  cap : s.nnode ≤ s.cfg.nodeCap
  width : s.cfg.nodeCap < 2 ^ s.cfg.hW

/-- From `s` to `t` the arena has filled up, and no entry from the new `nnode` on has been written. -/
structure Filled (s t : State) : Prop where
  cfg : t.cfg = s.cfg
  le : s.nnode ≤ t.nnode
  cap : t.nnode ≤ t.cfg.nodeCap
  kept : ∀ k : Nat, t.nnode ≤ k → nodeAt t k = nodeAt s k

theorem Filling.refl {s : State} (h : Filling s) : Filled s s := ⟨rfl, Nat.le_refl _, h.cap, fun _ _ => rfl⟩

theorem Filled.filling {s t : State} (h : Filled s t) (k : Filling s) : Filling t :=
  ⟨h.cap, by rw [h.cfg]; exact k.width⟩

theorem Filled.trans {s t u : State} (h : Filled s t) (k : Filled t u) : Filled s u :=
  ⟨k.cfg.trans h.cfg, Nat.le_trans h.le k.le, k.cap, fun j hj => by rw [k.kept j hj, h.kept j (Nat.le_trans k.le hj)]⟩

/-- Whichever way a part of the header's reading ends: the arena has filled up; a node that was read lies below it. -/
def KeepsAbove (s : State) : Res Nat → Prop
  | .ok h t => Filled s t ∧ h < t.nnode
  | .raised _ t => Filled s t
  | .stuck _ => True

theorem KeepsAbove.after {s t : State} {r : Res Nat} (h : Filled s t) (k : KeepsAbove t r) : KeepsAbove s r := by
  cases r with
  | ok a u => exact ⟨h.trans k.1, k.2⟩
  | raised e u => exact h.trans k
  | stuck f => trivial

theorem KeepsAbove.bind {s : State} {r : Res Nat} {f : Nat → State → Res Nat} (h : KeepsAbove s r)
    (k : ∀ a t, Filled s t → a < t.nnode → KeepsAbove t (f a t)) : KeepsAbove s (andThen r f) := by
  cases r with
  | ok a t => exact (k a t h.1 h.2).after h.1
  | raised e t => exact h
  | stuck x => trivial

theorem SourceFrame.filled {s t : State} (h : SourceFrame s t) (k : Filling s) : Filled s t :=
  ⟨h.cfg, Nat.le_of_eq h.nnode.symm, by rw [h.nnode, h.cfg]; exact k.cap, fun j _ => nodeAt_congr h.node h.cfg j⟩

theorem setNode_filled {s : State} {h : Nat} (v : Node) (k : Filling s) (hh : h < s.nnode) : Filled s (setNode h v s) :=
  ⟨rfl, Nat.le_refl _, k.cap, fun _ hj => nodeAt_setNode_above v s (Nat.lt_of_lt_of_le hh hj)⟩

theorem takeHandle_above {s : State} (k : Filling s) : KeepsAbove s (takeHandle s) := by
  unfold takeHandle
  split
  · exact k.refl
  · rename_i hne
    have hc := k.cap
    have hw := k.width
    have h1 : ({ s with nnode := narrow s.cfg.hW (s.nnode + 1) } : State).nnode = s.nnode + 1 := narrow_eq (by omega)
    exact ⟨⟨rfl, by rw [h1]; omega, by rw [h1]; show s.nnode + 1 ≤ s.cfg.nodeCap; omega, fun _ _ => rfl⟩,
      by rw [h1]; omega⟩

theorem readLeaf_above {h : Nat} {s : State} (k : Filling s) (hh : h < s.nnode) : KeepsAbove s (readLeaf h s) := by
  have hf := getBits_frame 9 s
  unfold readLeaf
  split
  · rename_i t heq
    rw [heq] at hf
    exact hf.filled k
  · rename_i v t heq
    rw [heq] at hf
    have hF : Filled s t := hf.filled k
    have hh' : h < t.nnode := Nat.lt_of_lt_of_le hh hF.le
    unfold buildLeaf
    split
    · exact hF
    · exact ⟨hF.trans (setNode_filled _ (hF.filling k) hh'), hh'⟩

theorem readTree_above (n : Nat) {s : State} (k : Filling s) : KeepsAbove s (readTree n s) := by
  induction n generalizing s with
  | zero =>
    have hf := (getBit_frame s).filled k
    unfold readTree
    split <;>
      (rename_i heq
       rw [heq] at hf
       exact hf)
  | succ n ih =>
    have hf := (getBit_frame s).filled k
    unfold readTree
    split
    · rename_i heq
      rw [heq] at hf
      exact hf
    · rename_i b t heq
      rw [heq] at hf
      have hF : Filled s t := hf
      refine KeepsAbove.after hF ((takeHandle_above (hF.filling k)).bind fun h u hu hlt => ?_)
      have ku := hu.filling (hF.filling k)
      cases b with
      | true => exact readLeaf_above ku hlt
      | false =>
        have hb := setNode_filled (innerNode 0 0 0) ku hlt
        refine KeepsAbove.after hb ((ih (s := buildBranch h u) (hb.filling ku)).bind fun l v hv _ => ?_)
        have kv := hv.filling (hb.filling ku)
        have h1 : h < v.nnode := Nat.lt_of_lt_of_le hlt hv.le
        have hl := setNode_filled { nodeAt v h with left := l } kv h1
        refine KeepsAbove.after hl ((ih (s := setLeft h l v) (hl.filling kv)).bind fun r w hw _ => ?_)
        have kw := hw.filling (hl.filling kv)
        have h2 : h < w.nnode := Nat.lt_of_lt_of_le h1 hw.le
        exact ⟨setNode_filled _ kw h2, h2⟩

/-- `HDES`, however it ends, leaves every entry from the new `nnode` on as it was. -/
theorem hdesBody_above {s : State} (hw : s.cfg.nodeCap < 2 ^ s.cfg.hW) (u : State)
    (hu : hdesBody s = .ok () u ∨ ∃ e, hdesBody s = .raised e u)
    (k : Nat) (hk : u.nnode ≤ k) : nodeAt u k = nodeAt s k := by
  have h0 : nodeAt (emptyUnpacker (clearTvCv s)) k = nodeAt s k := nodeAt_congr rfl rfl k
  have hf := getBits_frame 32 (emptyUnpacker (clearTvCv s))
  unfold hdesBody readMagic at hu
  generalize getBits 32 (emptyUnpacker (clearTvCv s)) = p at hu hf
  obtain ⟨o, t⟩ := p
  have ht : nodeAt t k = nodeAt s k := (nodeAt_congr hf.node hf.cfg k).trans h0
  cases o with
  | none =>
    rcases hu with hu | ⟨e, hu⟩
    · simp [andThen] at hu
    · simp only [andThen, Res.raised.injEq] at hu
      rw [← hu.2]; exact ht
  | some m =>
    simp only [checkMagic] at hu
    split at hu
    · simp only [andThen] at hu
      have hcf : t.cfg = s.cfg := hf.cfg
      have hr := readTree_above t.cfg.nodeCap (s := { t with nnode := 0 }) ⟨Nat.zero_le _, by
        show t.cfg.nodeCap < 2 ^ t.cfg.hW
        rw [hcf]; exact hw⟩
      have ht' : nodeAt ({ t with nnode := 0 } : State) k = nodeAt s k := (nodeAt_congr rfl rfl k).trans ht
      generalize readTree t.cfg.nodeCap { t with nnode := 0 } = r at hu hr
      cases r with
      | ok h v =>
        rcases hu with hu | ⟨e, hu⟩
        · simp only [Res.ok.injEq, true_and] at hu
          rw [← hu] at hk ⊢
          rw [← ht', ← hr.1.kept k hk]
          exact nodeAt_congr rfl rfl k
        · simp at hu
      | raised e v =>
        rcases hu with hu | ⟨e', hu⟩
        · simp at hu
        · simp only [Res.raised.injEq] at hu
          rw [← hu.2] at hk ⊢
          rw [hr.kept k hk]; exact ht'
      | stuck f =>
        rcases hu with hu | ⟨e', hu⟩ <;> simp at hu
    · rcases hu with hu | ⟨e, hu⟩
      · simp [andThen] at hu
      · simp only [andThen, Res.raised.injEq] at hu
        rw [← hu.2]; exact ht

end Sys2Proof.Machine
end

