-- ==== Sys2Proof/Laws/Control.lean ====
section
/-! SUPPORT. No operation reads `BUSY`, `DONE` or `PHASE`, and none writes them before its end: each commutes with
setting them (spec 46_commands R151). -/

namespace Sys2Proof.Machine

/-- The control bits of a running command. -/
structure Ctl where
  busy : Bool
  done : Bool
  phase : BitVec 4

/-- The state with other control bits. -/
def withCtl (c : Ctl) (s : State) : State := { s with busy := c.busy, done := c.done, phase := c.phase }

/-- A result with its state changed. -/
def mapRes {α : Type} (f : State → State) : Res α → Res α
  | .ok a s => .ok a (f s)
  | .raised e s => .raised e (f s)
  | .stuck x => .stuck x

variable (c : Ctl)

theorem withCtl_node (s : State) (h : Nat) : nodeAt (withCtl c s) h = nodeAt s h := rfl
theorem withCtl_freq (s : State) (k : Nat) : freqAt (withCtl c s) k = freqAt s k := rfl
theorem withCtl_code (s : State) (k : Nat) : codeAt (withCtl c s) k = codeAt s k := rfl
theorem withCtl_withCtl (d : Ctl) (s : State) : withCtl c (withCtl d s) = withCtl c s := rfl

theorem andThen_map {α β : Type} (r : Res α) (f : α → State → Res β)
    (h : ∀ a s, f a (withCtl c s) = mapRes (withCtl c) (f a s)) :
    andThen (mapRes (withCtl c) r) f = mapRes (withCtl c) (andThen r f) := by
  cases r with
  | ok a s => exact h a s
  | raised e s => rfl
  | stuck x => rfl

theorem srcReadByte_ctl (s : State) :
    srcReadByte (withCtl c s) = ((srcReadByte s).1, withCtl c (srcReadByte s).2) := by
  unfold srcReadByte
  show (match s.src[s.pos]? with | some x => _ | none => _) = _
  cases s.src[s.pos]? <;> rfl

theorem sinkWriteByte_ctl (b : Byte) (s : State) : sinkWriteByte b (withCtl c s) = withCtl c (sinkWriteByte b s) := by
  unfold sinkWriteByte
  show (if s.closed then _ else _) = _
  split <;> rfl

theorem putBit_ctl (b : Bool) (s : State) : putBit b (withCtl c s) = withCtl c (putBit b s) := by
  unfold putBit
  show (if s.pkCnt = 7#3 then _ else _) = _
  split
  · have := sinkWriteByte_ctl c (packBit s.pkAcc b) s
    show ({ sinkWriteByte (packBit s.pkAcc b) (withCtl c s) with pkAcc := 0, pkCnt := 0 } : State) = _
    rw [this]; rfl
  · rfl

theorem putBitList_ctl (bs : List Bool) (s : State) : putBitList bs (withCtl c s) = withCtl c (putBitList bs s) := by
  induction bs generalizing s with
  | nil => rfl
  | cons b bs ih => show putBitList bs (putBit b (withCtl c s)) = _; rw [putBit_ctl, ih]; rfl

theorem flushUpTo_ctl (n : Nat) (s : State) : flushUpTo n (withCtl c s) = withCtl c (flushUpTo n s) := by
  induction n generalizing s with
  | zero => rfl
  | succ n ih =>
    unfold flushUpTo
    show (if s.pkCnt = 0#3 then _ else _) = _
    split
    · rfl
    · rw [putBit_ctl, ih]

theorem flushClose_ctl (s : State) : flushClose (withCtl c s) = withCtl c (flushClose s) := by
  unfold flushClose flush
  rw [flushUpTo_ctl]; rfl

theorem getBit_ctl (s : State) : getBit (withCtl c s) = ((getBit s).1, withCtl c (getBit s).2) := by
  unfold getBit
  show (if s.upCnt = 0#4 then _ else _) = _
  split
  · rw [srcReadByte_ctl]
    obtain ⟨o, t⟩ := srcReadByte s
    cases o <;> rfl
  · rfl

theorem getBitsFrom_ctl (n v : Nat) (s : State) :
    getBitsFrom n v (withCtl c s) = ((getBitsFrom n v s).1, withCtl c (getBitsFrom n v s).2) := by
  induction n generalizing v s with
  | zero => rfl
  | succ n ih =>
    unfold getBitsFrom
    rw [getBit_ctl]
    obtain ⟨o, t⟩ := getBit s
    cases o with
    | none => rfl
    | some b => exact ih _ _

theorem getBits_ctl (n : Nat) (s : State) : getBits n (withCtl c s) = ((getBits n s).1, withCtl c (getBits n s).2) :=
  getBitsFrom_ctl c n 0 s

/-! ### `FCNT` -/

theorem countLoop_ctl (n : Nat) (s : State) : countLoop n (withCtl c s) = mapRes (withCtl c) (countLoop n s) := by
  induction n generalizing s with
  | zero => unfold countLoop; rw [srcReadByte_ctl]; rfl
  | succ n ih =>
    unfold countLoop
    rw [srcReadByte_ctl]
    obtain ⟨o, t⟩ := srcReadByte s
    cases o with
    | none => rfl
    | some x =>
      show (if freqAt t x.toNat = cntMax t.cfg then _ else _) = mapRes _ (if freqAt t x.toNat = cntMax t.cfg then _ else _)
      split
      · rfl
      · exact ih (setFreq x.toNat (narrow t.cfg.cntW (freqAt t x.toNat + 1)) t)

theorem fcntBody_ctl (s : State) : fcntBody (withCtl c s) = mapRes (withCtl c) (fcntBody s) := by
  have h0 : clearFreq (clearFvTvCv (withCtl c s)) = withCtl c (clearFreq (clearFvTvCv s)) := rfl
  have hl : ∀ t, srcLeft (withCtl c t) = srcLeft t := fun _ => rfl
  simp only [fcntBody]
  rw [h0, hl, countLoop_ctl]
  refine andThen_map c _ _ fun a t => ?_
  have : forceSentinel (withCtl c t) = withCtl c (forceSentinel t) := by
    unfold forceSentinel
    show (if freqAt t sentinel = 0 then _ else _) = _
    split <;> rfl
  rw [this]; rfl

/-! ### `TBLD` -/

theorem addLeaves_ctl (ks : List Nat) (n : Nat) (s : State) :
    addLeaves ks n (withCtl c s) = ((addLeaves ks n s).1, withCtl c (addLeaves ks n s).2) := by
  induction ks generalizing n s with
  | nil => rfl
  | cons k ks ih =>
    unfold addLeaves
    show (if freqAt s k ≠ 0 then _ else _) = _
    split
    · exact ih (n + 1) (addLive n (setNode n (leafNode (BitVec.ofNat 9 k) (narrow s.cfg.wtW (freqAt s k))) s))
    · exact ih n s

theorem minBelow_ctl (k : Nat) (s : State) : minBelow k (withCtl c s) = minBelow k s := by
  induction k with
  | zero => rfl
  | succ k ih => unfold minBelow; rw [ih]; rfl

theorem minLive_ctl (s : State) : minLive (withCtl c s) = minLive s := minBelow_ctl c s.cfg.nodeCap s

theorem extractMin_ctl (s : State) :
    extractMin (withCtl c s) = (extractMin s).map fun p => (p.1, withCtl c p.2) := by
  unfold extractMin
  rw [minLive_ctl]
  cases minLive s <;> rfl

theorem mergeLoop_ctl (k n : Nat) (s : State) :
    mergeLoop k n (withCtl c s) = ((mergeLoop k n s).1, withCtl c (mergeLoop k n s).2) := by
  induction k generalizing n s with
  | zero => rfl
  | succ k ih =>
    unfold mergeLoop
    rw [extractMin_ctl]
    cases extractMin s with
    | none => rfl
    | some p =>
      obtain ⟨a, s1⟩ := p
      simp only [Option.map_some]
      rw [extractMin_ctl]
      cases extractMin s1 with
      | none => rfl
      | some q => exact ih (n + 1) (mergeInto n a q.1 q.2)

theorem tbldBody_ctl (s : State) : tbldBody (withCtl c s) = mapRes (withCtl c) (tbldBody s) := by
  unfold tbldBody
  have hc : (withCtl c s).cfg = s.cfg := rfl
  have h0 : ({ clearTvCv (withCtl c s) with live := 0 } : State) = withCtl c { clearTvCv s with live := 0 } := rfl
  simp only [hc, h0, addLeaves_ctl, mergeLoop_ctl]
  unfold takeRoot
  rw [minLive_ctl]
  cases minLive (mergeLoop s.cfg.nodeCap (addLeaves (List.range nsym) 0 { clearTvCv s with live := 0 }).1
    (addLeaves (List.range nsym) 0 { clearTvCv s with live := 0 }).2).2 <;> rfl

/-! ### `CGEN`, `HSER`, `SENC` -/

theorem walk_ctl (n : Nat) (h : Nat) (path : List Bool) (s : State) :
    walk n h path (withCtl c s) = (walk n h path s).map (withCtl c) := by
  induction n generalizing h path s with
  | zero => rfl
  | succ n ih =>
    unfold walk
    show (if (nodeAt s h).leaf then _ else _) = _
    split
    · rfl
    · simp only [withCtl_node]
      rw [ih]
      cases walk n (nodeAt s h).left (path ++ [false]) s with
      | none => rfl
      | some t => exact ih _ _ _

theorem cgenBody_ctl (s : State) : cgenBody (withCtl c s) = mapRes (withCtl c) (cgenBody s) := by
  unfold cgenBody
  have hc : (withCtl c s).cfg = s.cfg := rfl
  have h0 : invalidateCodes (clearCv (withCtl c s)) = withCtl c (invalidateCodes (clearCv s)) := rfl
  have hr : (withCtl c s).root = s.root := rfl
  rw [h0, hc, walk_ctl, hr]
  cases walk s.cfg.nodeCap s.root [] (invalidateCodes (clearCv s)) <;> rfl

theorem writeTree_ctl (n : Nat) (h : Nat) (s : State) :
    writeTree n h (withCtl c s) = (writeTree n h s).map (withCtl c) := by
  induction n generalizing h s with
  | zero => rfl
  | succ n ih =>
    unfold writeTree
    show (if (nodeAt s h).leaf then _ else _) = _
    split
    · show some (putBitList _ (putBitList _ (withCtl c s))) = _
      rw [putBitList_ctl, putBitList_ctl]; rfl
    · have h1 : putBranch (withCtl c s) = withCtl c (putBranch s) := putBitList_ctl c _ s
      simp only [withCtl_node, h1]
      rw [ih]
      cases writeTree n (nodeAt s h).left (putBranch s) with
      | none => rfl
      | some t => exact ih _ _

theorem hserBody_ctl (s : State) : hserBody (withCtl c s) = mapRes (withCtl c) (hserBody s) := by
  unfold hserBody
  have h0 : putMagic (withCtl c s).cfg.magic (emptyPacker (withCtl c s)) =
      withCtl c (putMagic s.cfg.magic (emptyPacker s)) := putBitList_ctl c _ (emptyPacker s)
  have hr : (withCtl c s).root = s.root := rfl
  have hc : (withCtl c s).cfg = s.cfg := rfl
  rw [h0, hc, writeTree_ctl, hr]
  cases writeTree s.cfg.nodeCap s.root (putMagic s.cfg.magic (emptyPacker s)) <;> rfl

theorem encodeSymbol_ctl (k : Nat) (s : State) :
    encodeSymbol k (withCtl c s) = mapRes (withCtl c) (encodeSymbol k s) := by
  unfold encodeSymbol
  show (if (codeAt s k).valid then _ else _) = _
  split
  · show Res.ok () (putBitList _ (withCtl c s)) = _
    rw [putBitList_ctl]; rfl
  · rw [flushClose_ctl]; rfl

theorem encodeLoop_ctl (n : Nat) (s : State) : encodeLoop n (withCtl c s) = mapRes (withCtl c) (encodeLoop n s) := by
  induction n generalizing s with
  | zero => unfold encodeLoop; rw [srcReadByte_ctl]; rfl
  | succ n ih =>
    unfold encodeLoop
    rw [srcReadByte_ctl]
    obtain ⟨o, t⟩ := srcReadByte s
    cases o with
    | none => rfl
    | some x =>
      simp only [encodeSymbol_ctl]
      exact andThen_map c _ _ fun _ t => ih t

theorem sencBody_ctl (s : State) : sencBody (withCtl c s) = mapRes (withCtl c) (sencBody s) := by
  have hl : srcLeft (withCtl c s) = srcLeft s := rfl
  unfold sencBody
  rw [hl, encodeLoop_ctl]
  refine andThen_map c _ _ fun _ t => ?_
  rw [encodeSymbol_ctl]
  refine andThen_map c _ _ fun _ u => ?_
  rw [flushClose_ctl]; rfl

/-! ### `HDES`, `SDEC` -/

theorem takeHandle_ctl (s : State) : takeHandle (withCtl c s) = mapRes (withCtl c) (takeHandle s) := by
  unfold takeHandle
  show (if s.nnode = s.cfg.nodeCap then _ else _) = _
  split <;> rfl

theorem readLeaf_ctl (h : Nat) (s : State) : readLeaf h (withCtl c s) = mapRes (withCtl c) (readLeaf h s) := by
  unfold readLeaf
  rw [getBits_ctl]
  obtain ⟨o, t⟩ := getBits 9 s
  cases o with
  | none => rfl
  | some v =>
    simp only [buildLeaf]
    split <;> rfl

theorem readTree_ctl (n : Nat) (s : State) : readTree n (withCtl c s) = mapRes (withCtl c) (readTree n s) := by
  induction n generalizing s with
  | zero =>
    unfold readTree
    rw [getBit_ctl]
    obtain ⟨o, t⟩ := getBit s
    cases o <;> rfl
  | succ n ih =>
    unfold readTree
    rw [getBit_ctl]
    obtain ⟨o, t⟩ := getBit s
    cases o with
    | none => rfl
    | some b =>
      simp only [takeHandle_ctl]
      refine andThen_map c _ _ fun h u => ?_
      cases b with
      | true => exact readLeaf_ctl c h u
      | false =>
        simp only [Bool.false_eq_true, if_false]
        have h1 : buildBranch h (withCtl c u) = withCtl c (buildBranch h u) := rfl
        rw [h1, ih]
        refine andThen_map c _ _ fun l v => ?_
        have h2 : setLeft h l (withCtl c v) = withCtl c (setLeft h l v) := rfl
        rw [h2, ih]
        exact andThen_map c _ _ fun r w => rfl

theorem hdesBody_ctl (s : State) : hdesBody (withCtl c s) = mapRes (withCtl c) (hdesBody s) := by
  unfold hdesBody
  have h0 : emptyUnpacker (clearTvCv (withCtl c s)) = withCtl c (emptyUnpacker (clearTvCv s)) := rfl
  have hm : ∀ t, readMagic (withCtl c t) = mapRes (withCtl c) (readMagic t) := by
    intro t
    unfold readMagic
    rw [getBits_ctl]
    obtain ⟨o, u⟩ := getBits 32 t
    cases o with
    | none => rfl
    | some m =>
      simp only [checkMagic]
      show (if BitVec.ofNat 32 m = u.cfg.magic then _ else _) = mapRes _ (if BitVec.ofNat 32 m = u.cfg.magic then _ else _)
      split <;> rfl
  rw [h0, hm]
  refine andThen_map c _ _ fun _ t => ?_
  have h1 : ({ withCtl c t with nnode := 0 } : State) = withCtl c { t with nnode := 0 } := rfl
  have hc : (withCtl c t).cfg = t.cfg := rfl
  rw [h1, hc, readTree_ctl]
  exact andThen_map c _ _ fun h u => rfl

theorem stepBit_ctl (b : Bool) (s : State) :
    stepBit b (withCtl c s) = ((stepBit b s).1, withCtl c (stepBit b s).2) := by
  have h0 : moveCur b (withCtl c s) = withCtl c (moveCur b s) := rfl
  unfold stepBit
  rw [h0]
  generalize moveCur b s = t
  unfold arrive
  show (if (nodeAt t t.cur).leaf then (if (nodeAt t t.cur).sym.toNat = sentinel then _ else _) else _) = _
  split
  · split
    · rfl
    · have := sinkWriteByte_ctl c (outByte (nodeAt t t.cur).sym) t
      show (false, ({ sinkWriteByte (outByte (nodeAt t t.cur).sym) (withCtl c t) with cur := t.root } : State)) = _
      rw [this]; rfl
  · rfl

theorem decodeLoop_ctl (n : Nat) (s : State) : decodeLoop n (withCtl c s) = mapRes (withCtl c) (decodeLoop n s) := by
  induction n generalizing s with
  | zero => unfold decodeLoop; rw [getBit_ctl]; rfl
  | succ n ih =>
    unfold decodeLoop
    rw [getBit_ctl]
    obtain ⟨o, t⟩ := getBit s
    cases o with
    | none => rfl
    | some b =>
      simp only [stepBit_ctl]
      obtain ⟨f, u⟩ := stepBit b t
      cases f with
      | true => rfl
      | false => exact ih u

theorem sdecBody_ctl (s : State) : sdecBody (withCtl c s) = mapRes (withCtl c) (sdecBody s) := by
  unfold sdecBody rootLeafEnd
  show (if (nodeAt s s.root).leaf then (if (nodeAt s s.root).sym.toNat = sentinel then _ else _) else _) = _
  split
  · split <;> rfl
  · exact decodeLoop_ctl c _ { s with cur := s.root }

end Sys2Proof.Machine
end

