-- ==== Sys2Proof/Laws/Widths.lean ====
section
/-! SUPPORT. Every place of a width that is a parameter keeps a value of that width (spec 00_scope R5, R6): each
operation and each unit's body goes from a state that fits to states that fit. -/

namespace Sys2Proof.Machine

/-! ### The end of an operation -/

/-- Whichever way an operation ends, `P` holds of the state. -/
def Keeps {α : Type} (P : State → Prop) : Res α → Prop
  | .ok _ s => P s
  | .raised _ s => P s
  | .stuck _ => True

theorem Keeps.bind {α β : Type} {P : State → Prop} {r : Res α} {f : α → State → Res β} (h : Keeps P r)
    (hf : ∀ a s, P s → Keeps P (f a s)) : Keeps P (andThen r f) := by
  cases r with
  | ok a s => exact hf a s h
  | raised e s => exact h
  | stuck x => trivial

/-! ### Entries -/

theorem fitNode_fitNode (c : Config) (n : Node) : fitNode c (fitNode c n) = fitNode c n := by
  simp only [fitNode, narrow_narrow]

theorem fitCode_fitCode (c : Config) (e : CodeEntry) : fitCode c (fitCode c e) = fitCode c e := by
  simp only [fitCode, narrow_narrow]

theorem fitNode_leafNode {c : Config} (sym : Sym) {w : Nat} (h : w < 2 ^ c.wtW) :
    fitNode c (leafNode sym w) = leafNode sym w := by
  simp only [fitNode, leafNode, narrow_eq h, narrow_eq (Nat.two_pow_pos _)]

theorem fitNode_left {c : Config} {n : Node} (h : fitNode c n = n) {l : Nat} (hl : l < 2 ^ c.hW) :
    fitNode c { n with left := l } = { n with left := l } := by
  have hw : narrow c.wtW n.weight = n.weight := congrArg Node.weight h
  have hr : narrow c.hW n.right = n.right := congrArg Node.right h
  simp only [fitNode, hw, hr, narrow_eq hl]

theorem fitNode_right {c : Config} {n : Node} (h : fitNode c n = n) {r : Nat} (hr : r < 2 ^ c.hW) :
    fitNode c { n with right := r } = { n with right := r } := by
  have hw : narrow c.wtW n.weight = n.weight := congrArg Node.weight h
  have hl : narrow c.hW n.left = n.left := congrArg Node.left h
  simp only [fitNode, hw, hl, narrow_eq hr]

theorem Fits.left_lt {s : State} (h : Fits s) (k : Nat) : (nodeAt s k).left < 2 ^ s.cfg.hW := by
  have : narrow s.cfg.hW (nodeAt s k).left = (nodeAt s k).left := congrArg Node.left (h.node k)
  rw [← this]; exact narrow_lt _ _

theorem Fits.right_lt {s : State} (h : Fits s) (k : Nat) : (nodeAt s k).right < 2 ^ s.cfg.hW := by
  have : narrow s.cfg.hW (nodeAt s k).right = (nodeAt s k).right := congrArg Node.right (h.node k)
  rw [← this]; exact narrow_lt _ _

/-! ### Operations -/

/-- A state with the same tables, handles and parameters. -/
theorem Fits.congr {s t : State} (h : Fits s) (hc : t.cfg = s.cfg) (hf : t.freq = s.freq) (hn : t.node = s.node)
    (ho : t.code = s.code) (hr : t.root = s.root) (hm : t.nnode = s.nnode) (hu : t.cur = s.cur) (hl : t.live = s.live) :
    Fits t where
  config := by rw [hc]; exact h.config
  arena := by rw [hn, hc]; exact h.arena
  freq k := by rw [freqAt_congr hf, hc]; exact h.freq k
  node k := by rw [nodeAt_congr hn hc, hc]; exact h.node k
  code k := by rw [codeAt_congr ho, hc]; exact h.code k
  root := by rw [hr, hc]; exact h.root
  nnode := by rw [hm, hc]; exact h.nnode
  cur := by rw [hu, hc]; exact h.cur
  live := by rw [hl, hc]; exact h.live

theorem Fits.source {s t : State} (h : Fits s) (k : SourceFrame s t) : Fits t :=
  h.congr k.cfg k.freq k.node k.code k.root k.nnode k.cur k.live

theorem Fits.sink {s t : State} (h : Fits s) (k : SinkFrame s t) : Fits t :=
  h.congr k.cfg k.freq k.node k.code k.root k.nnode k.cur k.live

theorem Fits.senc {s t : State} (h : Fits s) (k : SencFrame s t) : Fits t := by
  unfold SencFrame at k
  refine h.congr ?_ ?_ ?_ ?_ ?_ ?_ ?_ ?_ <;> rw [k]

theorem Fits.enterPhase {s : State} (h : Fits s) (p : BitVec 4) : Fits (enterPhase p s) :=
  h.congr rfl rfl rfl rfl rfl rfl rfl rfl

theorem Fits.setFreq {s : State} (h : Fits s) {k v : Nat} (hv : v < 2 ^ s.cfg.cntW) : Fits (setFreq k v s) :=
  { h with
    freq := fun j => by
      simp only [freqAt, setFreq_freq, Vector.getElem?_setIfInBounds]
      split
      · split
        · exact hv
        · exact Nat.two_pow_pos _
      · exact h.freq j }

theorem Fits.setNode {s : State} (h : Fits s) (k : Nat) {v : Node} (hv : fitNode s.cfg v = v) : Fits (setNode k v s) :=
  { h with
    arena := (setNode_size k v s).trans h.arena
    node := fun j => by
      show fitNode s.cfg (nodeAt (Machine.setNode k v s) j) = nodeAt (Machine.setNode k v s) j
      by_cases hj : j = k
      · subst hj
        by_cases hs : j < s.node.size
        · rw [nodeAt_setNode_same v s hs]; exact hv
        · have : nodeAt (Machine.setNode j v s) j = nodeAt s j := by
            simp only [nodeAt, Machine.setNode, Array.setIfInBounds, dif_neg hs]
          rw [this]; exact h.node j
      · rw [nodeAt_setNode_ne v s hj]; exact h.node j }

theorem Fits.setCode {s : State} (h : Fits s) (k : Nat) {v : CodeEntry} (hv : fitCode s.cfg v = v) :
    Fits (setCode k v s) :=
  { h with
    code := fun j => by
      show fitCode s.cfg (codeAt (Machine.setCode k v s) j) = codeAt (Machine.setCode k v s) j
      have hz : fitCode s.cfg { valid := false, len := 0, bits := 0 } = { valid := false, len := 0, bits := 0 } := by
        simp only [fitCode, narrow_eq (Nat.two_pow_pos _)]
      simp only [codeAt, Machine.setCode, Vector.getElem?_setIfInBounds]
      split
      · split
        · exact hv
        · exact hz
      · exact h.code j }

theorem Fits.addLive {s : State} (h : Fits s) (k : Nat) : Fits (addLive k s) :=
  { h with live := Nat.or_lt_two_pow h.live (narrow_lt _ _) }

theorem Fits.dropLive {s : State} (h : Fits s) (k : Nat) : Fits (dropLive k s) :=
  { h with live := Nat.xor_lt_two_pow h.live (lt_of_le_of_lt Nat.and_le_left h.live) }

theorem Fits.clearLive {s : State} (h : Fits s) : Fits { s with live := 0 } := { h with live := Nat.two_pow_pos _ }

/-! ### `FCNT` -/

theorem countLoop_fits (n : Nat) {s : State} (h : Fits s) : Keeps Fits (countLoop n s) := by
  induction n generalizing s with
  | zero => exact h.source (srcReadByte_frame s)
  | succ n ih =>
    have hr := h.source (srcReadByte_frame s)
    unfold countLoop
    split
    · rename_i t heq; rw [heq] at hr; exact hr
    · rename_i x t heq
      rw [heq] at hr
      split
      · exact hr
      · exact ih (Fits.setFreq hr (narrow_lt _ _))

theorem fcntBody_fits {s : State} (h : Fits s) : Keeps Fits (fcntBody s) := by
  have h0 : Fits (clearFreq (clearFvTvCv s)) :=
    { h with freq := fun k => by rw [freqAt_clearFreq]; exact Nat.two_pow_pos _ }
  refine (countLoop_fits _ h0).bind fun _ u hu => ?_
  have hs : Fits (forceSentinel u) := by
    unfold forceSentinel
    split
    · exact hu.setFreq (narrow_lt _ _)
    · exact hu
  exact hs.congr rfl rfl rfl rfl rfl rfl rfl rfl

/-! ### `TBLD` -/

theorem addLeaves_fits (ks : List Nat) (n : Nat) {s : State} (h : Fits s) : Fits (addLeaves ks n s).2 := by
  induction ks generalizing n s with
  | nil => exact h
  | cons k ks ih =>
    unfold addLeaves
    split
    · exact ih _ ((h.setNode n (fitNode_leafNode _ (narrow_lt _ _))).addLive n)
    · exact ih _ h

theorem extractMin_fits {s t : State} {k : Nat} (h : Fits s) (he : extractMin s = some (k, t)) : Fits t := by
  unfold extractMin at he
  cases hm : minLive s with
  | none => rw [hm] at he; simp at he
  | some x => rw [hm] at he; simp only [Option.some.injEq, Prod.mk.injEq] at he; rw [← he.2]; exact h.dropLive x

theorem mergeLoop_fits (k n : Nat) {s : State} (h : Fits s) : Fits (mergeLoop k n s).2 := by
  induction k generalizing n s with
  | zero => exact h
  | succ k ih =>
    unfold mergeLoop
    split
    · exact h
    · rename_i a s1 h1
      split
      · exact h
      · rename_i b s2 h2
        have hf := extractMin_fits (extractMin_fits h h1) h2
        exact ih _ ((hf.setNode n (fitNode_fitNode _ _)).addLive n)

theorem tbldBody_fits {s : State} (h : Fits s) : Keeps Fits (tbldBody s) := by
  have h0 : Fits ({ clearTvCv s with live := 0 } : State) :=
    (Fits.congr (t := clearTvCv s) h rfl rfl rfl rfl rfl rfl rfl rfl).clearLive
  have h1 := mergeLoop_fits s.cfg.nodeCap (addLeaves (List.range nsym) 0 { clearTvCv s with live := 0 }).1
    (addLeaves_fits (List.range nsym) 0 h0)
  unfold tbldBody takeRoot
  simp only
  split
  · trivial
  · rename_i k _
    exact { Fits.dropLive h1 k with root := narrow_lt _ _, nnode := narrow_lt _ _ }

/-! ### `CGEN`, `HSER`, `SENC` -/

theorem walk_fits {n k : Nat} {path : List Bool} {s t : State} (h : Fits s) (hw : walk n k path s = some t) : Fits t := by
  induction n generalizing k path s t with
  | zero => simp [walk] at hw
  | succ n ih =>
    unfold walk at hw
    split at hw
    · rw [← Option.some.inj hw]; exact h.setCode _ (fitCode_fitCode _ _)
    · split at hw
      · simp at hw
      · rename_i u hl
        exact ih (ih h hl) hw

theorem cgenBody_fits {s : State} (h : Fits s) : Keeps Fits (cgenBody s) := by
  have h0 : Fits (invalidateCodes (clearCv s)) :=
    { h with
      code := fun k => by
        show fitCode s.cfg (codeAt (invalidateCodes (clearCv s)) k) = codeAt (invalidateCodes (clearCv s)) k
        have hk := h.code k
        have : codeAt (invalidateCodes (clearCv s)) k = { codeAt s k with valid := false } := by
          by_cases hb : k < 257 <;> simp [codeAt, invalidateCodes, clearCv, hb]
        rw [this]
        have h1 : narrow s.cfg.lenW (codeAt s k).len = (codeAt s k).len := congrArg CodeEntry.len hk
        have h2 : narrow s.cfg.maxLen (codeAt s k).bits = (codeAt s k).bits := congrArg CodeEntry.bits hk
        simp only [fitCode, h1, h2] }
  unfold cgenBody
  split
  · trivial
  · rename_i t hw
    exact (walk_fits h0 hw).congr rfl rfl rfl rfl rfl rfl rfl rfl

theorem hserBody_fits {s : State} (h : Fits s) : Keeps Fits (hserBody s) := by
  rcases hserBody_cases s with ⟨u, hu, hf⟩ | hu <;> rw [hu]
  · exact h.sink hf
  · trivial

theorem sencBody_fits {s : State} (h : Fits s) : Keeps Fits (sencBody s) := by
  rcases sencBody_cases s with ⟨t, ht, _, hC, _⟩ | ⟨t, ht, _, hC, _⟩ | ⟨t, pre, x, post, ht, _, _, _, hC, _⟩
  all_goals rw [ht]; exact h.senc hC.frame

/-! ### `HDES` -/

/-- Fitting, and a handle that was read fits too. -/
def FitsRead : Res Nat → Prop
  | .ok h t => Fits t ∧ h < 2 ^ t.cfg.hW
  | .raised _ t => Fits t
  | .stuck _ => True

theorem FitsRead.bind {r : Res Nat} {f : Nat → State → Res Nat} (h : FitsRead r)
    (k : ∀ a t, Fits t → a < 2 ^ t.cfg.hW → FitsRead (f a t)) : FitsRead (andThen r f) := by
  cases r with
  | ok a t => exact k a t h.1 h.2
  | raised e t => exact h
  | stuck x => trivial

theorem readLeaf_fits {s : State} {k : Nat} (h : Fits s) (hk : k < 2 ^ s.cfg.hW) : FitsRead (readLeaf k s) := by
  have hg := h.source (getBits_frame 9 s)
  have hc := (getBits_frame 9 s).cfg
  unfold readLeaf
  split
  · rename_i t heq; rw [heq] at hg; exact hg
  · rename_i v t heq
    rw [heq] at hg hc
    unfold buildLeaf
    split
    · exact hg
    · refine ⟨Fits.setNode hg k (fitNode_leafNode _ (Nat.two_pow_pos _)), ?_⟩
      show k < 2 ^ t.cfg.hW
      rw [hc]; exact hk

theorem readTree_cfg {n k : Nat} {s t : State} (h : readTree n s = .ok k t) : t.cfg = s.cfg := by
  have := readTree_outcome n s
  rw [h] at this
  exact TreeFrame.cfg this

theorem readTree_fits (n : Nat) {s : State} (h : Fits s) : FitsRead (readTree n s) := by
  induction n generalizing s with
  | zero =>
    have hg := h.source (getBit_frame s)
    unfold readTree
    split <;> (rename_i heq; rw [heq] at hg; exact hg)
  | succ n ih =>
    have hg := h.source (getBit_frame s)
    unfold readTree
    split
    · rename_i heq; rw [heq] at hg; exact hg
    · rename_i b t heq
      rw [heq] at hg
      have ht : FitsRead (takeHandle t) := by
        unfold takeHandle
        split
        · exact hg
        · exact ⟨{ hg with nnode := narrow_lt _ _ }, hg.nnode⟩
      refine ht.bind fun k u hu hk => ?_
      cases b with
      | true => exact readLeaf_fits hu hk
      | false =>
        simp only [Bool.false_eq_true, if_false]
        have hb : Fits (buildBranch k u) := hu.setNode k (by
          simp only [fitNode, innerNode, narrow_eq (Nat.two_pow_pos _)])
        have hl := ih hb
        cases hrl : readTree n (buildBranch k u) with
        | stuck x => trivial
        | raised e v => rw [hrl] at hl; exact hl
        | ok l v =>
          rw [hrl] at hl
          have hcv : v.cfg = u.cfg := (readTree_cfg hrl).trans rfl
          have hsl : Fits (setLeft k l v) := Fits.setNode hl.1 k (fitNode_left (hl.1.node k) hl.2)
          have hr := ih hsl
          simp only [andThen]
          cases hrr : readTree n (setLeft k l v) with
          | stuck x => trivial
          | raised e w => rw [hrr] at hr; exact hr
          | ok r w =>
            rw [hrr] at hr
            have hcw : w.cfg = v.cfg := (readTree_cfg hrr).trans rfl
            refine ⟨Fits.setNode hr.1 k (fitNode_right (hr.1.node k) hr.2), ?_⟩
            show k < 2 ^ w.cfg.hW
            rw [hcw, hcv]; exact hk

theorem hdesBody_fits {s : State} (h : Fits s) : Keeps Fits (hdesBody s) := by
  have h0 : Fits (emptyUnpacker (clearTvCv s)) := h.congr rfl rfl rfl rfl rfl rfl rfl rfl
  have hm : Keeps Fits (readMagic (emptyUnpacker (clearTvCv s))) := by
    have hg := h0.source (getBits_frame 32 _)
    unfold readMagic
    split
    · rename_i heq; rw [heq] at hg; exact hg
    · rename_i m t heq
      rw [heq] at hg
      unfold checkMagic
      split <;> exact hg
  refine hm.bind fun _ t ht => ?_
  have hn : Fits ({ t with nnode := 0 } : State) := { ht with nnode := Nat.two_pow_pos _ }
  have hr := readTree_fits t.cfg.nodeCap hn
  cases hrd : readTree t.cfg.nodeCap { t with nnode := 0 } with
  | stuck x => trivial
  | raised e u => rw [hrd] at hr; exact hr
  | ok k u => rw [hrd] at hr; exact { hr.1 with root := hr.2 }

/-! ### `SDEC` -/

theorem stepBit_fits (b : Bool) {s : State} (h : Fits s) : Fits (stepBit b s).2 := by
  have hm : Fits (moveCur b s) :=
    { h with cur := by show (if b then _ else _) < _; split; exacts [h.right_lt _, h.left_lt _] }
  unfold stepBit arrive
  split
  · split
    · exact hm
    · exact { Fits.sink hm (sinkWriteByte_frame _ _) with
        cur := by
          show (moveCur b s).root < 2 ^ (sinkWriteByte _ (moveCur b s)).cfg.hW
          rw [sinkWriteByte_cfg]; exact hm.root }
  · exact hm

theorem decodeLoop_fits (n : Nat) {s : State} (h : Fits s) : Keeps Fits (decodeLoop n s) := by
  induction n generalizing s with
  | zero => exact (h.source (getBit_frame s)).congr rfl rfl rfl rfl rfl rfl rfl rfl
  | succ n ih =>
    have hg := h.source (getBit_frame s)
    unfold decodeLoop
    split
    · rename_i heq; rw [heq] at hg; exact Fits.congr hg rfl rfl rfl rfl rfl rfl rfl rfl
    · rename_i b t heq
      rw [heq] at hg
      have hs := stepBit_fits b hg
      split
      · rename_i u hu; rw [hu] at hs; exact Fits.congr hs rfl rfl rfl rfl rfl rfl rfl rfl
      · rename_i u hu; rw [hu] at hs; exact ih hs

theorem sdecBody_fits {s : State} (h : Fits s) : Keeps Fits (sdecBody s) := by
  unfold sdecBody
  split
  · unfold rootLeafEnd
    split <;> exact Fits.congr (t := sinkClose s) h rfl rfl rfl rfl rfl rfl rfl rfl
  · exact decodeLoop_fits _ (s := { s with cur := s.root }) { h with cur := h.root }

/-! ### Reset -/

theorem freqAt_assertReset (s : State) (k : Nat) :
    freqAt (assertReset s) k = if k < nsym then narrow s.cfg.cntW (Config.resetFreq s.freeIdx k) else 0 := by
  by_cases hk : k < 257 <;> simp [freqAt, assertReset, hk]

theorem nodeAt_assertReset (s : State) (k : Nat) :
    nodeAt (assertReset s) k =
      fitNode s.cfg (if k < s.cfg.nodeCap then Config.resetNode s.freeIdx k else Config.nodeOutside k) := by
  by_cases hk : k < s.cfg.nodeCap <;> simp [nodeAt, assertReset, clearRegisters, hk]

theorem codeAt_assertReset (s : State) (k : Nat) :
    codeAt (assertReset s) k =
      if k < nsym then fitCode s.cfg (Config.resetCode s.freeIdx k) else { valid := false, len := 0, bits := 0 } := by
  by_cases hk : k < 257 <;> simp [codeAt, assertReset, hk]

theorem assertReset_cfg (s : State) : (assertReset s).cfg = s.cfg := by simp only [assertReset, clearRegisters]

/-- Reset leaves free values of the right widths (70_reset_and_hazards R190). -/
theorem assertReset_fits {s : State} (h : s.cfg.Consistent) : Fits (assertReset s) where
  config := by rw [assertReset_cfg]; exact h
  arena := by simp [assertReset, clearRegisters]
  freq k := by
    rw [freqAt_assertReset, assertReset_cfg]
    split
    · exact narrow_lt _ _
    · exact Nat.two_pow_pos _
  node k := by rw [nodeAt_assertReset, assertReset_cfg, fitNode_fitNode]
  code k := by
    rw [codeAt_assertReset, assertReset_cfg]
    split
    · rw [fitCode_fitCode]
    · simp only [fitCode, narrow_eq (Nat.two_pow_pos _)]
  root := Nat.two_pow_pos _
  nnode := Nat.two_pow_pos _
  cur := Nat.two_pow_pos _
  live := Nat.two_pow_pos _

end Sys2Proof.Machine
end

