-- ==== Sys2Proof/Laws/HostPort.lean ====
section
/-! SUPPORT. What reset leaves, and what the streams hold when it abandons a command (spec 70_reset_and_hazards R190 to
R192). -/

namespace Sys2Proof.Machine

theorem sinkEvents_append (a b : List StreamEvent) : sinkEvents (a ++ b) = sinkEvents a ++ sinkEvents b := by simp [sinkEvents]

/-- Replaying stream events touches the streams alone, and never the sink's mark. -/
theorem replayStreams_frame (es : List StreamEvent) (s : State) :
    replayStreams es s = { s with
      src := (replayStreams es s).src, pos := (replayStreams es s).pos, srcLater := (replayStreams es s).srcLater,
      out := (replayStreams es s).out, events := (replayStreams es s).events,
      freeIdx := (replayStreams es s).freeIdx } := by
  induction es generalizing s with
  | nil => rfl
  | cons e es ih =>
    cases e with
    | read x =>
      have := ih (srcReadByte s).2
      simp only [replayStreams]
      rw [this]; unfold srcReadByte; split <;> rfl
    | rewind => simp only [replayStreams]; rw [ih (srcRewind s)]; rfl
    | write b => simp only [replayStreams]; rw [ih (sinkWriteByte b s)]; unfold sinkWriteByte; split <;> rfl
    | close => rfl

/-- An open sink gets the writes before the first close. -/
theorem replayStreams_out (es : List StreamEvent) (s : State) (h : s.closed = false) :
    ∃ ws, (replayStreams es s).out = s.out ++ ws ∧ ws.map StreamEvent.write <+: sinkEvents es := by
  induction es generalizing s with
  | nil => exact ⟨[], by simp [replayStreams]⟩
  | cons e es ih =>
    cases e with
    | read x =>
      obtain ⟨ws, h1, h2⟩ := ih (srcReadByte s).2 (by unfold srcReadByte; split <;> exact h)
      refine ⟨ws, ?_, h2⟩
      simp only [replayStreams]; rw [h1]; unfold srcReadByte; split <;> rfl
    | rewind =>
      obtain ⟨ws, h1, h2⟩ := ih (srcRewind s) h
      exact ⟨ws, h1, h2⟩
    | write b =>
      obtain ⟨ws, h1, h2⟩ := ih (sinkWriteByte b s) (by simp [sinkWriteByte, h])
      refine ⟨b :: ws, ?_, ?_⟩
      · simp only [replayStreams]; rw [h1]; simp [sinkWriteByte, h]
      · simpa [sinkEvents] using h2
    | close => exact ⟨[], by simp [replayStreams]⟩

/-- Every register is clear after reset, whatever the state was. -/
theorem assertReset_status (s : State) : statusWord (assertReset s) = 0 := by
  show (0#4 ++ BitVec.ofNat 4 (narrow s.cfg.errW (errCode Err.none)) ++ 0#3 ++ BitVec.ofBool false ++ BitVec.ofBool false ++ BitVec.ofBool false
    ++ BitVec.ofBool false ++ BitVec.ofBool false : BitVec 16) = 0
  rw [show errCode Err.none = 0 from rfl, narrow_eq (Nat.two_pow_pos _)]
  decide

/-- Reset writes the registers and the tables, and nothing else. -/
theorem assertReset_frame (s : State) :
    assertReset s = { s with
      busy := false, done := false, fv := false, tv := false, cv := false, err := .none, phase := 0, root := 0,
      nnode := 0, cur := 0, pkAcc := 0, pkCnt := 0, upAcc := 0, upCnt := 0, live := 0, freq := (assertReset s).freq,
      node := (assertReset s).node, code := (assertReset s).code, freeIdx := (assertReset s).freeIdx } := rfl

@[simp] theorem assertReset_out (s : State) : (assertReset s).out = s.out := by rw [assertReset_frame]

theorem assertReset_inv {s : State} (h : s.cfg.Consistent) : Inv (assertReset s) where
  fits := assertReset_fits h
  idle := ⟨rfl, rfl, rfl, fun h => absurd rfl h⟩
  buffers := ⟨by show 0 < 1; decide, by show 0 ≤ 8; decide⟩
  tables := ⟨fun h => (by cases h), fun h => (by cases h), fun h => (by cases h)⟩

end Sys2Proof.Machine
end

