-- ==== Sys2Proof/Laws/Run.lean ====
section
/-! SUPPORT. How a command starts and ends (spec 46_commands R140 to R144), and what the two macros are made of (R145 to
R148). -/

namespace Sys2Proof.Machine

/-! ### The gate -/

theorem gate_ready {s : State} (h : Ready s) (run : State → Host.Outcome State Fault Refusal) :
    gate s run = run { s with done := false } := by
  unfold gate
  rw [if_neg (by rw [h.1]; simp), if_neg (by simp [h.2])]

theorem gate_ignored {s : State} (h : ¬ Ready s) (run : State → Host.Outcome State Fault Refusal) :
    gate s run = .next s := by
  unfold gate
  by_cases hb : s.busy = true
  · rw [if_pos hb]
  · rw [if_neg hb, if_pos]
    intro he
    exact h ⟨by simpa using hb, he⟩

/-- The state in which a unit's body starts. -/
def started (op : BitVec 4) (s : State) : State := { s with done := false, busy := true, phase := op }

/-- The state in which a macro's body starts. -/
def startedMacro (s : State) : State := { s with done := false, busy := true }

theorem runUnit_started {s : State} (h : Ready s) {needs : State → Bool} (hn : needs { s with done := false } = true)
    (op : BitVec 4) (body : State → Res Unit) : runUnit op needs body s = conclude (body (started op s)) := by
  unfold runUnit
  rw [gate_ready h, if_pos hn]
  rfl

theorem runUnit_seq {s : State} (h : Ready s) {needs : State → Bool} (hn : needs { s with done := false } = false)
    (op : BitVec 4) (body : State → Res Unit) :
    runUnit op needs body s = .next (refuse .seq { s with done := false }) := by
  unfold runUnit
  rw [gate_ready h, if_neg (by rw [hn]; simp)]

theorem runUnit_ignored {s : State} (h : ¬ Ready s) (op : BitVec 4) (needs : State → Bool) (body : State → Res Unit) :
    runUnit op needs body s = .next s := gate_ignored h _

theorem runMacro_started {s : State} (h : Ready s) (body : State → Res Unit) :
    runMacro body s = conclude (body (startedMacro s)) := by
  unfold runMacro
  rw [gate_ready h]
  rfl

theorem runMacro_ignored {s : State} (h : ¬ Ready s) (body : State → Res Unit) : runMacro body s = .next s :=
  gate_ignored h _

/-! ### Codes of a tree -/

/-- A symbol with a leaf has a kept path, and it is one of its leaves' paths (42 R92, R97). -/
theorem keptPath_some {t : Shape} {k : Nat} (h : k ∈ leafSymbols t) :
    ∃ p sym, keptPath t k = some p ∧ (p, sym) ∈ shapeLeaves t ∧ sym.toNat = k := by
  obtain ⟨q, hq, hk⟩ := List.mem_map.mp h
  unfold keptPath
  cases hf : ((shapeLeaves t).filter fun p => decide (p.2.toNat = k)).getLast? with
  | none =>
    rw [List.getLast?_eq_none_iff] at hf
    have : q ∈ (shapeLeaves t).filter fun p => decide (p.2.toNat = k) := List.mem_filter.mpr ⟨hq, by simpa using hk⟩
    rw [hf] at this
    exact absurd this (by simp)
  | some p =>
    have hm := List.mem_of_getLast? hf
    obtain ⟨h1, h2⟩ := List.mem_filter.mp hm
    exact ⟨p.1, p.2, rfl, h1, by simpa using h2⟩

/-- The stored code of a symbol with a leaf is the bits of one of its paths. -/
theorem CodesOf.code {s : State} {t : Shape} (h : CodesOf s t) (hf : s.cfg.Consistent)
    (hh : height t ≤ s.cfg.maxLen) {k : Nat} (hk : k < nsym)
    (hl : k ∈ leafSymbols t) :
    ∃ p sym, (p, sym) ∈ shapeLeaves t ∧ sym.toNat = k ∧ (codeAt s k).valid = true ∧ codeBits (codeAt s k) = p := by
  obtain ⟨p, sym, h1, h2, h3⟩ := keptPath_some hl
  have hc := h k hk
  rw [h1] at hc
  simp only at hc
  have hp : p.length ≤ s.cfg.maxLen := Nat.le_trans (leaf_path_le t _ h2) hh
  exact ⟨p, sym, h2, h3, by rw [hc]; rfl, by rw [hc, codeBits_pathCode hf hp]⟩

/-! ### `COMP` -/

/-- `t` differs from `s` only where `COMP` may change it. -/
def CompFrame (s t : State) : Prop :=
  t = { s with
    freq := t.freq, node := t.node, code := t.code, fv := t.fv, tv := t.tv, cv := t.cv, phase := t.phase,
    root := t.root, nnode := t.nnode, live := t.live, pkAcc := t.pkAcc, pkCnt := t.pkCnt, src := t.src, pos := t.pos,
    srcLater := t.srcLater, out := t.out, closed := t.closed, events := t.events, freeIdx := t.freeIdx }

theorem CompFrame.trans {s t u : State} (h : CompFrame s t) (k : CompFrame t u) : CompFrame s u := by
  unfold CompFrame at *; rw [k, h]

theorem FcntFrame.comp {s t : State} (h : FcntFrame s t) : CompFrame s t := by
  unfold FcntFrame at h; unfold CompFrame; rw [h]

theorem TbldFrame.comp {s t : State} (h : TbldFrame s t) : CompFrame s t := by
  unfold TbldFrame at h; unfold CompFrame; rw [h]

theorem CgenFrame.comp {s t : State} (h : CgenFrame s t) : CompFrame s t := by
  unfold CgenFrame at h; unfold CompFrame; rw [h]

theorem SencFrame.comp {s t : State} (h : SencFrame s t) : CompFrame s t := by
  unfold SencFrame at h; unfold CompFrame; rw [h]

theorem enterPhase_comp (p : BitVec 4) (s : State) : CompFrame s (enterPhase p s) := rfl

theorem TbldFrame.sink {s t : State} (h : TbldFrame s t) :
    t.cfg = s.cfg ∧ t.freq = s.freq ∧ t.fv = s.fv ∧ t.src = s.src ∧ t.pos = s.pos ∧ t.srcLater = s.srcLater ∧
      t.out = s.out ∧ t.closed = s.closed ∧ t.events = s.events := by
  unfold TbldFrame at h; rw [h]; exact ⟨rfl, rfl, rfl, rfl, rfl, rfl, rfl, rfl, rfl⟩

theorem CgenFrame.rest {s t : State} (h : CgenFrame s t) :
    t.cfg = s.cfg ∧ t.freq = s.freq ∧ t.fv = s.fv ∧ t.tv = s.tv ∧ t.node = s.node ∧ t.root = s.root ∧
      t.nnode = s.nnode ∧ t.live = s.live ∧ t.src = s.src ∧ t.pos = s.pos ∧ t.srcLater = s.srcLater ∧
      t.out = s.out ∧ t.closed = s.closed ∧ t.events = s.events := by
  unfold CgenFrame at h; rw [h]
  exact ⟨rfl, rfl, rfl, rfl, rfl, rfl, rfl, rfl, rfl, rfl, rfl, rfl, rfl, rfl⟩

/-- The state in which `COMP` starts its last unit: this input counted, its tree built, its codes made, its header
sent. -/
structure CompMid (s e : State) (T : HTree) : Prop where
  frame : CompFrame s e
  fits : Fits e
  counts : ∀ b : Byte, freqAt e b.toNat = restCount s b
  sentinel : freqAt e Sys2Proof.sentinel = 1
  tree : TreeIn e T
  weights : WeightsOk e T
  symbols : (leafSymbols (shapeOf T)).Perm (usedSymbols e)
  codes : CodesOf e (shapeOf T)
  fv : e.fv = true
  tv : e.tv = true
  cv : e.cv = true
  live : e.live = 0
  src : e.src = s.srcLater.headD s.src
  pos : e.pos = 0
  later : e.srcLater = s.srcLater.tail
  closed : e.closed = s.closed
  packer : e.pkAcc.toNat < 2 ^ e.pkCnt.toNat
  sent : s.closed = false →
    sinkBits e = bytesBits s.out ++ (bitsOf 32 s.cfg.magic.toNat ++ shapeHeader (shapeOf T)) ∧
      ∃ ws, e.out = s.out ++ ws ∧ sinkEvents e.events = writeEvents ws ++ sinkEvents s.events
  reads : sourceEvents e.events =
    .rewind :: .read none :: (readEvents (s.src.drop s.pos) ++ sourceEvents s.events)

theorem usedSymbols_sentinel {s : State} (h : freqAt s sentinel ≠ 0) : sentinel ∈ usedSymbols s :=
  mem_usedSymbols.mpr ⟨by decide, h⟩

theorem usedSymbols_ne_nil {s : State} (h : freqAt s sentinel ≠ 0) : usedSymbols s ≠ [] :=
  List.ne_nil_of_mem (usedSymbols_sentinel h)

/-- `COMP` on an input that can be counted is the first four units, then `SENC`. -/
theorem compBody_mid {s : State} (hs : Fits s) (hc : CountsFit s) : ∃ e T, CompMid s e T ∧ compBody s = sencBody e := by
  rcases fcntBody_cases (enterPhase 1 s) with ⟨_, a, ha, hA⟩ | ⟨hn, _⟩
  · have ha1 : freqAt a sentinel = 1 := hA.one hs.config
    have hone : freqAt a sentinel ≠ 0 := by rw [ha1]; decide
    have fa : Fits a := by have := fcntBody_fits (hs.enterPhase 1); rwa [ha] at this
    obtain ⟨b, T, hb, hB⟩ := tbldBody_spec (s := enterPhase 2 a) (fa.enterPhase 2).build (usedSymbols_ne_nil hone)
    have fb : Fits b := by have := tbldBody_fits (fa.enterPhase 2); rwa [hb] at this
    have hT : TreeIn (enterPhase 3 b) T := TreeIn_congr (s := b) (t := enterPhase 3 b) rfl rfl rfl rfl hB.tree
    obtain ⟨d, hd, hD⟩ := cgenBody_spec hT
    have fd : Fits d := by have := cgenBody_fits (fb.enterPhase 3); rwa [hd] at this
    obtain ⟨dcfg, dfreq, dfv, dtv, dnode, droot, dnn, dlive, dsrc, dpos, dlat, dout, dclosed, devents⟩ := hD.frame.rest
    obtain ⟨bcfg, bfreq, bfv, bsrc, bpos, blat, bout, bclosed, bevents⟩ := hB.frame.sink
    have hTd : TreeIn (enterPhase 4 d) T := TreeIn_congr (t := enterPhase 4 d) dnode droot dnn dcfg hT
    have hE := hserBody_spec hTd
    set e0 := putBitList (bitsOf 32 (enterPhase 4 d).cfg.magic.toNat ++ shapeHeader (shapeOf T))
      (emptyPacker (enterPhase 4 d)) with he0
    have hf0 : SinkFrame (emptyPacker (enterPhase 4 d)) e0 := putBitList_frame _ _
    have hfe : SinkFrame (enterPhase 4 d) e0 := SinkFrame.trans (t := emptyPacker (enterPhase 4 d)) rfl hf0
    have afr := hA.frame
    have acfg : a.cfg = s.cfg := by unfold FcntFrame at afr; rw [afr]; rfl
    have aout : a.out = s.out := by unfold FcntFrame at afr; rw [afr]; rfl
    have aclosed : a.closed = s.closed := by unfold FcntFrame at afr; rw [afr]; rfl
    have acomp : CompFrame s a := (enterPhase_comp 1 s).trans hA.frame.comp
    have hframe : CompFrame s (enterPhase 5 e0) :=
      (((((((acomp.trans (enterPhase_comp 2 a)).trans hB.frame.comp).trans (enterPhase_comp 3 b)).trans
        hD.frame.comp).trans (enterPhase_comp 4 d)).trans hfe.senc.comp).trans (enterPhase_comp 5 e0))
    refine ⟨enterPhase 5 e0, T, ?_, ?_⟩
    · have efreq : (enterPhase 5 e0).freq = a.freq := by
        show e0.freq = _
        rw [hfe.freq]; exact dfreq.trans bfreq
      have eused : usedSymbols (enterPhase 5 e0) = usedSymbols (enterPhase 2 a) := by
        unfold usedSymbols
        congr 1
        funext k
        rw [freqAt_congr efreq k]; rfl
      have enode : (enterPhase 5 e0).node = b.node := hfe.node.trans dnode
      have ecfg : (enterPhase 4 d).cfg = s.cfg := dcfg.trans (bcfg.trans acfg)
      exact
        { frame := hframe
          fits := (((fd.enterPhase 4).sink hfe).enterPhase 5)
          counts := fun x => by rw [freqAt_congr efreq]; exact hA.counts x
          sentinel := by rw [freqAt_congr efreq]; exact ha1
          tree := TreeIn_congr (s := enterPhase 4 d) (t := enterPhase 5 e0) hfe.node hfe.root hfe.nnode hfe.cfg hTd
          weights := hB.weights.agree (efreq.trans bfreq.symm) fun k _ => nodeAt_congr enode (hfe.cfg.trans dcfg) k
          symbols := by rw [eused]; exact hB.symbols
          codes := CodesOf_congr (s := d) hfe.code hfe.cfg hD.codes
          fv := hfe.fv.trans (dfv.trans (bfv.trans hA.fv))
          tv := hfe.tv.trans (dtv.trans hB.tv)
          cv := hfe.cv.trans hD.cv
          live := hfe.live.trans (dlive.trans hB.live)
          src := hfe.src.trans (dsrc.trans (bsrc.trans hA.src))
          pos := hfe.pos.trans (dpos.trans (bpos.trans hA.pos))
          later := hfe.srcLater.trans (dlat.trans (blat.trans hA.later))
          closed := hfe.closed.trans (dclosed.trans (bclosed.trans aclosed))
          packer := putBitList_packer _ _ (by show 0 < 2 ^ 0; decide)
          sent := by
            intro ho
            have hod : (emptyPacker (enterPhase 4 d)).closed = false := dclosed.trans (bclosed.trans (aclosed.trans ho))
            have hS := putBitList_sent (bitsOf 32 (enterPhase 4 d).cfg.magic.toNat ++ shapeHeader (shapeOf T)) hod
            have hod2 : (emptyPacker (enterPhase 4 d)).out = s.out := dout.trans (bout.trans aout)
            have hev : sinkEvents (emptyPacker (enterPhase 4 d)).events = sinkEvents s.events := by
              show sinkEvents d.events = _
              rw [devents]
              show sinkEvents b.events = _
              rw [bevents]
              show sinkEvents a.events = _
              rw [hA.events, sinkEvents_cons_rewind, sinkEvents_cons_read, sinkEvents_reads]
              rfl
            obtain ⟨ws, hw1, hw2⟩ := hS.wrote
            refine ⟨?_, ws, ?_, ?_⟩
            · show sinkBits e0 = _
              rw [he0, hS.bits, sinkBits_of_empty _ rfl, hod2, ecfg]
            · show e0.out = _
              rw [he0, hw1, hod2]
            · show sinkEvents e0.events = _
              rw [he0, hw2, hev]
          reads := by
            show sourceEvents e0.events = _
            rw [he0, putBitList_sourceEvents]
            show sourceEvents d.events = _
            rw [devents]
            show sourceEvents b.events = _
            rw [bevents]
            show sourceEvents a.events = _
            rw [hA.events, sourceEvents_cons_rewind, sourceEvents_cons_read, sourceEvents_reads]
            rfl }
    · unfold compBody
      simp only [ha, onRaise, andThen, hb, hd, hE]
  · exact absurd hc hn

/-- `COMP` on an input that cannot be counted closes the sink and writes nothing (R146). -/
theorem compBody_overflow {s : State} (hc : ¬ CountsFit s) :
    ∃ u pre x post, compBody s = .raised .cntOvf (sinkClose u) ∧
      fcntBody (enterPhase 1 s) = .raised .cntOvf u ∧ CountOverflow (enterPhase 1 s) u pre x post := by
  rcases fcntBody_cases (enterPhase 1 s) with ⟨hn, _⟩ | ⟨_, u, pre, x, post, hu, hU⟩
  · exact absurd hn hc
  · exact ⟨u, pre, x, post, by unfold compBody; simp only [hu, onRaise, andThen], hu, hU⟩

/-- However `COMP` ends, it has changed only what its units change. -/
theorem compBody_frame (s : State) : Keeps (CompFrame s) (compBody s) := by
  have h1 : Keeps (CompFrame s) (onRaise (fcntBody (enterPhase 1 s)) sinkClose) := by
    rcases fcntBody_cases (enterPhase 1 s) with ⟨_, a, ha, hA⟩ | ⟨_, u, _, _, _, hu, hU⟩
    · rw [ha]; exact (enterPhase_comp 1 s).trans hA.frame.comp
    · rw [hu]; exact ((enterPhase_comp 1 s).trans hU.frame.comp).trans (SencFrame.comp (sinkClose_senc u))
  refine h1.bind fun _ a ha => Keeps.bind ?_ fun _ b hb => Keeps.bind ?_ fun _ d hd => Keeps.bind ?_ fun _ e he => ?_
  · rcases tbldBody_cases (enterPhase 2 a) with ⟨u, hu, hf, _⟩ | hu <;> rw [hu]
    · exact (ha.trans (enterPhase_comp 2 a)).trans hf.comp
    · trivial
  · rcases cgenBody_cases (enterPhase 3 b) with ⟨u, hu, hf, _⟩ | hu <;> rw [hu]
    · exact (hb.trans (enterPhase_comp 3 b)).trans hf.comp
    · trivial
  · rcases hserBody_cases (enterPhase 4 d) with ⟨u, hu, hf⟩ | hu <;> rw [hu]
    · exact (hd.trans (enterPhase_comp 4 d)).trans hf.senc.comp
    · trivial
  · rcases sencBody_cases (enterPhase 5 e) with ⟨u, hu, _, hf, _⟩ | ⟨u, hu, _, hf, _⟩ |
      ⟨u, _, _, _, hu, _, _, _, hf, _⟩ <;> rw [hu] <;>
      exact (he.trans (enterPhase_comp 5 e)).trans hf.frame.comp

/-- The bytes that were counted have codes, and so has the sentinel. -/
theorem CompMid.codes_valid {s e : State} {T : HTree} (h : CompMid s e T) :
    (∀ x ∈ s.src.drop s.pos, (codeAt e x.toNat).valid = true) ∧ (codeAt e Sys2Proof.sentinel).valid = true := by
  have hh := height_le_maxLen h.fits.config h.tree.size_le
  have hv : ∀ k ∈ usedSymbols e, (codeAt e k).valid = true := by
    intro k hk
    obtain ⟨_, _, _, _, hv, _⟩ := h.codes.code h.fits.config hh (mem_usedSymbols.mp hk).1 (h.symbols.mem_iff.mpr hk)
    exact hv
  refine ⟨fun x hx => hv _ (mem_usedSymbols.mpr ⟨byte_lt_nsym x, fun h0 => ?_⟩), hv _ (usedSymbols_sentinel ?_)⟩
  · have h1 := h.counts x
    rw [h0] at h1
    have h2 : 0 < restCount s x := List.count_pos_iff.mpr hx
    omega
  · rw [h.sentinel]; decide

/-! ### `DECOMP` -/

/-- `t` differs from `s` only where `DECOMP` may change it. -/
def DecompFrame (s t : State) : Prop :=
  t = { s with
    node := t.node, root := t.root, nnode := t.nnode, tv := t.tv, cv := t.cv, cur := t.cur, phase := t.phase,
    upAcc := t.upAcc, upCnt := t.upCnt, pos := t.pos, out := t.out, closed := t.closed, events := t.events,
    freeIdx := t.freeIdx }

theorem DecompFrame.trans {s t u : State} (h : DecompFrame s t) (k : DecompFrame t u) : DecompFrame s u := by
  unfold DecompFrame at *; rw [k, h]

theorem HdesFrame.decomp {s t : State} (h : HdesFrame s t) : DecompFrame s t := by
  unfold HdesFrame at h; unfold DecompFrame; rw [h]

theorem SdecFrame.decomp {s t : State} (h : SdecFrame s t) : DecompFrame s t := by
  unfold SdecFrame at h; unfold DecompFrame; rw [h]

theorem enterPhase_decomp (p : BitVec 4) (s : State) : DecompFrame s (enterPhase p s) := rfl

theorem sinkClose_decomp (s : State) : DecompFrame s (sinkClose s) := rfl

theorem HdesFrame.sink {s t : State} (h : HdesFrame s t) :
    t.cfg = s.cfg ∧ t.out = s.out ∧ t.closed = s.closed ∧ t.src = s.src := by
  unfold HdesFrame at h; rw [h]; exact ⟨rfl, rfl, rfl, rfl⟩

theorem decompBody_ok {s a : State} (h : hdesBody (enterPhase 6 s) = .ok () a) :
    decompBody s = sdecBody (enterPhase 7 a) := by
  unfold decompBody
  simp only [h, onRaise, andThen]

theorem decompBody_raised {s u : State} {e : Err} (h : hdesBody (enterPhase 6 s) = .raised e u) :
    decompBody s = .raised e (sinkClose u) := by
  unfold decompBody
  simp only [h, onRaise, andThen]

/-- Every end of `DECOMP`. -/
theorem decompBody_cases (s : State) :
    ∃ u, DecompFrame s u ∧ u.closed = true ∧
      (decompBody s = .ok () u ∨
        ∃ e, decompBody s = .raised e u ∧
          (e = .hdrMagic ∨ e = .hdrEos ∨ e = .hdrCap ∨ e = .hdrSym ∨ e = .hdrRoot ∨ e = .payTrunc)) := by
  rcases hdesBody_ends (enterPhase 6 s) with ⟨a, ha, hA, _⟩ | ⟨u, e, hu, he, hf, _⟩
  · have h1 : DecompFrame s (enterPhase 7 a) :=
      ((enterPhase_decomp 6 s).trans hA.decomp).trans (enterPhase_decomp 7 a)
    rcases sdecBody_cases (enterPhase 7 a) with ⟨u, hu, hf, hc⟩ | ⟨u, e, hu, he, hf, hc⟩
    · exact ⟨u, h1.trans hf.decomp, hc, .inl ((decompBody_ok ha).trans hu)⟩
    · refine ⟨u, h1.trans hf.decomp, hc, .inr ⟨e, (decompBody_ok ha).trans hu, ?_⟩⟩
      rcases he with he | he
      · exact .inr (.inr (.inr (.inr (.inr he))))
      · exact .inr (.inr (.inr (.inr (.inl he))))
  · refine ⟨sinkClose u, ((enterPhase_decomp 6 s).trans hf.decomp).trans (sinkClose_decomp u), rfl,
      .inr ⟨e, decompBody_raised hu, ?_⟩⟩
    rcases he with he | he | he | he
    · exact .inl he
    · exact .inr (.inl he)
    · exact .inr (.inr (.inl he))
    · exact .inr (.inr (.inr (.inl he)))

end Sys2Proof.Machine
end

