-- ==== Sys2Proof/Laws/Invariant.lean ====
section
/-! SUPPORT. Every unit's body keeps what the invariant says of the buffers, the queue and the tables, and is not stuck
where it holds. -/

namespace Sys2Proof.Machine

/-- The part of the invariant that holds inside a command too, between its units. -/
structure Sound (s : State) : Prop where
  buffers : Buffers s
  tables : Tables s
  live : s.live = 0
  fits : Fits s

/-- Whichever way an operation ends, `P` holds of the state, and it is not stuck. -/
def Ends {α : Type} (P : State → Prop) : Res α → Prop
  | .ok _ s => P s
  | .raised _ s => P s
  | .stuck _ => False

theorem Ends.bind {α β : Type} {P Q : State → Prop} {r : Res α} {f : α → State → Res β} (h : Ends P r)
    (hr : ∀ s, P s → Q s) (hf : ∀ a s, P s → Ends Q (f a s)) : Ends Q (andThen r f) := by
  cases r with
  | ok a s => exact hf a s h
  | raised e s => exact hr s h
  | stuck x => exact h

theorem Sound.congr {s t : State} (h : Sound s) (hb : Buffers t) (hF : Fits t)
    (hg : t.cfg = s.cfg) (hfv : t.fv = s.fv) (htv : t.tv = s.tv)
    (hcv : t.cv = s.cv) (hf : t.freq = s.freq) (hn : t.node = s.node) (hc : t.code = s.code) (hr : t.root = s.root)
    (hm : t.nnode = s.nnode) (hl : t.live = s.live) : Sound t where
  buffers := hb
  live := hl.trans h.live
  fits := hF
  tables :=
    { counts := fun hh => by rw [freqAt_congr hf]; exact h.tables.counts (hfv ▸ hh)
      tree := fun hh => by
        obtain ⟨T, hT⟩ := h.tables.tree (htv ▸ hh)
        exact ⟨T, TreeIn_congr hn hr hm hg hT⟩
      codes := fun hh => by
        obtain ⟨h1, T, hT, hC⟩ := h.tables.codes (hcv ▸ hh)
        exact ⟨htv ▸ h1, T, TreeIn_congr hn hr hm hg hT, CodesOf_congr hc hg hC⟩ }

/-! ### The unpacker -/

theorem getBit_le8 {s : State} (h8 : s.upCnt.toNat ≤ 8) : (getBit s).2.upCnt.toNat ≤ 8 := by
  rcases getBit_cases s h8 with ⟨b, t, ht, _, hu⟩ | ⟨_, t, ht, _, hu⟩ <;> (rw [ht]; exact hu)

theorem getBits_le8 (n : Nat) {s : State} (h8 : s.upCnt.toNat ≤ 8) : (getBits n s).2.upCnt.toNat ≤ 8 := by
  have := (getBits_upCnt n h8).1; omega

theorem readTree_le8 (n : Nat) {s : State} (h8 : s.upCnt.toNat ≤ 8) :
    Ends (fun t => t.upCnt.toNat ≤ 8) (readTree n s) := by
  induction n generalizing s with
  | zero =>
    have h := getBit_le8 h8
    unfold readTree
    split <;> (rename_i heq; rw [heq] at h; exact h)
  | succ n ih =>
    have h := getBit_le8 h8
    unfold readTree
    split
    · rename_i heq; rw [heq] at h; exact h
    · rename_i b t heq
      rw [heq] at h
      have ht : Ends (fun t => t.upCnt.toNat ≤ 8) (takeHandle t) := by
        unfold takeHandle; split <;> exact h
      refine ht.bind (fun _ hs => hs) fun k u hu => ?_
      cases b with
      | true =>
        simp only [if_true, readLeaf]
        have h9 := getBits_le8 9 hu
        split
        · rename_i heq; rw [heq] at h9; exact h9
        · rename_i v w heq
          rw [heq] at h9
          unfold buildLeaf
          split <;> exact h9
      | false =>
        simp only [Bool.false_eq_true, if_false]
        refine (ih (s := buildBranch k u) hu).bind (fun _ hs => hs) fun l v hv => ?_
        exact (ih (s := setLeft k l v) hv).bind (fun _ hs => hs) fun r w hw => hw

theorem hdesBody_le8 (s : State) : Ends (fun t => t.upCnt.toNat ≤ 8) (hdesBody s) := by
  have h0 : (hdesStart s).upCnt.toNat ≤ 8 := by show 0 ≤ 8; omega
  have h1 := getBits_le8 32 h0
  have hm : Ends (fun t => t.upCnt.toNat ≤ 8) (readMagic (hdesStart s)) := by
    unfold readMagic
    split
    · rename_i heq; rw [heq] at h1; exact h1
    · rename_i m t heq
      rw [heq] at h1
      unfold checkMagic
      split <;> exact h1
  exact hm.bind (fun _ hs => hs) fun _ t ht =>
    (readTree_le8 t.cfg.nodeCap (s := { t with nnode := 0 }) ht).bind (fun _ hs => hs) fun _ _ hu => hu

theorem stepBit_upCnt (b : Bool) (s : State) : (stepBit b s).2.upCnt = s.upCnt := by
  unfold stepBit arrive
  split
  · split
    · rfl
    · show (sinkWriteByte _ (moveCur b s)).upCnt = _; rw [sinkWriteByte_upCnt]; rfl
  · rfl

theorem decodeLoop_le8 (n : Nat) {s : State} (h8 : s.upCnt.toNat ≤ 8) :
    Ends (fun t => t.upCnt.toNat ≤ 8) (decodeLoop n s) := by
  induction n generalizing s with
  | zero => exact getBit_le8 h8
  | succ n ih =>
    have h := getBit_le8 h8
    unfold decodeLoop
    split
    · rename_i heq; rw [heq] at h; exact h
    · rename_i b t heq
      rw [heq] at h
      have hs : (stepBit b t).2.upCnt.toNat ≤ 8 := by rw [stepBit_upCnt]; exact h
      split
      · rename_i u hu; rw [hu] at hs; exact hs
      · rename_i u hu; rw [hu] at hs; exact ih hs

theorem sdecBody_le8 {s : State} (h8 : s.upCnt.toNat ≤ 8) : Ends (fun t => t.upCnt.toNat ≤ 8) (sdecBody s) := by
  unfold sdecBody
  split
  · unfold rootLeafEnd; split <;> exact h8
  · exact decodeLoop_le8 _ (s := { s with cur := s.root }) h8

/-! ### The units -/

theorem fcntBody_sound {s : State} (h : Sound s) : Ends (fun u => Sound u ∧ (u.err = s.err)) (fcntBody s) := by
  have hF := fcntBody_fits h.fits
  rcases fcntBody_cases s with ⟨_, u, hu, hU⟩ | ⟨_, u, pre, x, post, hu, hU⟩
  · have hfr := hU.frame
    unfold FcntFrame at hfr
    rw [hu] at hF ⊢
    refine ⟨⟨⟨?_, ?_⟩, ⟨fun _ => ?_, fun ht => ?_, fun ht => ?_⟩, ?_, hF⟩, ?_⟩
    · rw [hfr]; exact h.buffers.packer
    · rw [hfr]; exact h.buffers.unpacker
    · rw [hU.one h.fits.config]; decide
    · rw [hU.tv] at ht; exact absurd ht (by simp)
    · rw [hU.cv] at ht; exact absurd ht (by simp)
    · rw [hfr]; exact h.live
    · rw [hfr]
  · have hfr := hU.frame
    unfold FcntFrame at hfr
    rw [hu] at hF ⊢
    refine ⟨⟨⟨?_, ?_⟩, ⟨fun ht => ?_, fun ht => ?_, fun ht => ?_⟩, ?_, hF⟩, ?_⟩
    · rw [hfr]; exact h.buffers.packer
    · rw [hfr]; exact h.buffers.unpacker
    · rw [hU.fv] at ht; exact absurd ht (by simp)
    · rw [hU.tv] at ht; exact absurd ht (by simp)
    · rw [hU.cv] at ht; exact absurd ht (by simp)
    · rw [hfr]; exact h.live
    · rw [hfr]

theorem tbldBody_sound {s : State} (h : Sound s) (hv : s.fv = true) :
    Ends (fun u => Sound u ∧ u.err = s.err ∧ u.tv = true) (tbldBody s) := by
  have hne := h.tables.counts hv
  have hF := tbldBody_fits h.fits
  obtain ⟨u, T, hu, hU⟩ := tbldBody_spec h.fits.build (usedSymbols_ne_nil hne)
  have hfr := hU.frame
  unfold TbldFrame at hfr
  rw [hu] at hF ⊢
  refine ⟨⟨⟨?_, ?_⟩, ⟨fun _ => ?_, fun _ => ⟨T, hU.tree⟩, fun ht => ?_⟩, hU.live, hF⟩, ?_, hU.tv⟩
  · rw [hfr]; exact h.buffers.packer
  · rw [hfr]; exact h.buffers.unpacker
  · rw [hfr]; exact hne
  · rw [hU.cv] at ht; exact absurd ht (by simp)
  · rw [hfr]

theorem cgenBody_sound {s : State} (h : Sound s) (hv : s.tv = true) :
    Ends (fun u => Sound u ∧ u.err = s.err ∧ u.tv = true ∧ u.cv = true) (cgenBody s) := by
  obtain ⟨T, hT⟩ := h.tables.tree hv
  obtain ⟨u, hu, hU⟩ := cgenBody_spec hT
  have hfr := hU.frame
  unfold CgenFrame at hfr
  have hn : u.node = s.node := by rw [hfr]
  have hr : u.root = s.root := by rw [hfr]
  have hm : u.nnode = s.nnode := by rw [hfr]
  have hg : u.cfg = s.cfg := by rw [hfr]
  have hF := cgenBody_fits h.fits
  have hTu := TreeIn_congr hn hr hm hg hT
  have htv : u.tv = true := by rw [hfr]; exact hv
  rw [hu] at hF ⊢
  refine ⟨⟨⟨?_, ?_⟩, ⟨fun hf => ?_, fun _ => ⟨T, hTu⟩, fun _ => ⟨htv, T, hTu, hU.codes⟩⟩, ?_, hF⟩, ?_, htv, hU.cv⟩
  · rw [hfr]; exact h.buffers.packer
  · rw [hfr]; exact h.buffers.unpacker
  · rw [hfr] at hf ⊢; exact h.tables.counts hf
  · rw [hfr]; exact h.live
  · rw [hfr]

theorem hserBody_sound {s : State} (h : Sound s) (hv : s.tv = true) :
    Ends (fun u => Sound u ∧ u.err = s.err ∧ u.cv = s.cv) (hserBody s) := by
  obtain ⟨T, hT⟩ := h.tables.tree hv
  have hu := hserBody_spec hT
  have hf : SinkFrame s (putBitList (bitsOf 32 s.cfg.magic.toNat ++ shapeHeader (shapeOf T)) (emptyPacker s)) :=
    SinkFrame.trans (t := emptyPacker s) rfl (putBitList_frame _ _)
  rw [hu]
  refine ⟨h.congr ⟨putBitList_packer _ _ (by show 0 < 2 ^ 0; decide), ?_⟩ (h.fits.sink hf) hf.cfg hf.fv hf.tv hf.cv hf.freq hf.node hf.code
    hf.root hf.nnode hf.live, hf.err, hf.cv⟩
  rw [hf.upCnt]; exact h.buffers.unpacker

theorem Completed.sound {s u : State} {bits : List Bool} (hC : Completed s u bits) (h : Sound s) :
    Sound u ∧ u.err = s.err := by
  have hf := hC.frame
  have hF := h.fits.senc hf
  unfold SencFrame at hf
  refine ⟨h.congr ⟨?_, ?_⟩ hF ?_ ?_ ?_ ?_ ?_ ?_ ?_ ?_ ?_ ?_, ?_⟩
  · rw [hC.clean h.buffers.packer, hC.empty]; decide
  · have : u.upCnt = s.upCnt := by rw [hf]
    rw [this]; exact h.buffers.unpacker
  all_goals rw [hf]

theorem sencBody_sound {s : State} (h : Sound s) : Ends (fun u => Sound u ∧ u.err = s.err) (sencBody s) := by
  rcases sencBody_cases s with ⟨t, ht, _, hC, _⟩ | ⟨t, ht, _, hC, _⟩ | ⟨t, pre, x, post, ht, _, _, _, hC, _⟩
  all_goals rw [ht]; exact hC.sound h

theorem hdesBody_sound {s : State} (h : Sound s) :
    Ends (fun u => Sound u ∧ u.err = s.err) (hdesBody s) := by
  have h8 := hdesBody_le8 s
  have hF := hdesBody_fits h.fits
  rcases hdesBody_cases h.fits.room with ⟨u, T, rest, hu, hU⟩ | ⟨u, e, hu, _, hf, htv, hcv⟩
  · rw [hu] at h8
    have hfr := hU.frame
    unfold HdesFrame at hfr
    rw [hu] at hF ⊢
    refine ⟨⟨⟨?_, h8⟩, ⟨fun hv => ?_, fun _ => ⟨T, hU.tree⟩, fun hv => ?_⟩, ?_, hF⟩, ?_⟩
    · rw [hfr]; exact h.buffers.packer
    · rw [hfr] at hv ⊢; exact h.tables.counts hv
    · rw [hU.cv] at hv; exact absurd hv (by simp)
    · rw [hfr]; exact h.live
    · rw [hfr]
  · rw [hu] at h8
    unfold HdesFrame at hf
    rw [hu] at hF ⊢
    refine ⟨⟨⟨?_, h8⟩, ⟨fun hv => ?_, fun hv => ?_, fun hv => ?_⟩, ?_, hF⟩, ?_⟩
    · rw [hf]; exact h.buffers.packer
    · rw [hf] at hv ⊢; exact h.tables.counts hv
    · rw [htv] at hv; exact absurd hv (by simp)
    · rw [hcv] at hv; exact absurd hv (by simp)
    · rw [hf]; exact h.live
    · rw [hf]

theorem sdecBody_sound {s : State} (h : Sound s) : Ends (fun u => Sound u ∧ u.err = s.err) (sdecBody s) := by
  have h8 := sdecBody_le8 h.buffers.unpacker
  have hF := sdecBody_fits h.fits
  have key : ∀ u, SdecFrame s u → u.upCnt.toNat ≤ 8 → Fits u → Sound u ∧ u.err = s.err := by
    intro u hf hu hF
    unfold SdecFrame at hf
    refine ⟨h.congr ⟨?_, hu⟩ hF ?_ ?_ ?_ ?_ ?_ ?_ ?_ ?_ ?_ ?_, ?_⟩
    · have h1 : u.pkAcc = s.pkAcc := by rw [hf]
      have h2 : u.pkCnt = s.pkCnt := by rw [hf]
      rw [h1, h2]; exact h.buffers.packer
    all_goals rw [hf]
  rcases sdecBody_cases s with ⟨u, hu, hf, _⟩ | ⟨u, e, hu, _, hf, _⟩
  all_goals rw [hu] at h8 hF ⊢; exact key u hf h8 hF

/-! ### The macros -/

theorem Sound.enterPhase {s : State} (h : Sound s) (p : BitVec 4) : Sound (enterPhase p s) :=
  h.congr ⟨h.buffers.packer, h.buffers.unpacker⟩ (h.fits.enterPhase p) rfl rfl rfl rfl rfl rfl rfl rfl rfl rfl

theorem Sound.sinkClose {s : State} (h : Sound s) : Sound (sinkClose s) :=
  h.congr ⟨h.buffers.packer, h.buffers.unpacker⟩ (h.fits.congr rfl rfl rfl rfl rfl rfl rfl rfl) rfl rfl rfl rfl rfl rfl rfl rfl rfl rfl

theorem Ends.onRaise {α : Type} {P : State → Prop} {r : Res α} {f : State → State} (h : Ends P r)
    (hf : ∀ s, P s → P (f s)) : Ends P (onRaise r f) := by
  cases r with
  | ok a s => exact h
  | raised e s => exact hf s h
  | stuck x => exact h

theorem compBody_sound {s : State} (h : Sound s) : Ends (fun u => Sound u ∧ u.err = s.err) (compBody s) := by
  by_cases hc : CountsFit s
  · obtain ⟨e, T, he, hb⟩ := compBody_mid h.fits hc
    rw [hb]
    have hf := he.frame
    unfold CompFrame at hf
    have hS : Sound e :=
      { buffers := ⟨he.packer, by
          have : e.upCnt = s.upCnt := by rw [hf]
          rw [this]; exact h.buffers.unpacker⟩
        live := he.live
        fits := he.fits
        tables :=
          { counts := fun _ => by rw [he.sentinel]; decide
            tree := fun _ => ⟨T, he.tree⟩
            codes := fun _ => ⟨he.tv, T, he.tree, he.codes⟩ } }
    have herr : e.err = s.err := by rw [hf]
    have := sencBody_sound hS
    rwa [herr] at this
  · obtain ⟨u, pre, x, post, hb, hu, hU⟩ := compBody_overflow hc
    have fu : Fits u := by have := fcntBody_fits (h.fits.enterPhase 1); rwa [hu] at this
    rw [hb]
    have hfr := hU.frame
    unfold FcntFrame at hfr
    have hS : Sound u :=
      { buffers := ⟨by rw [hfr]; exact h.buffers.packer, by rw [hfr]; exact h.buffers.unpacker⟩
        live := by rw [hfr]; exact h.live
        fits := fu
        tables :=
          { counts := fun hv => by rw [hU.fv] at hv; exact absurd hv (by simp)
            tree := fun hv => by rw [hU.tv] at hv; exact absurd hv (by simp)
            codes := fun hv => by rw [hU.cv] at hv; exact absurd hv (by simp) } }
    exact ⟨hS.sinkClose, by show u.err = _; rw [hfr]; rfl⟩

theorem decompBody_sound {s : State} (h : Sound s) : Ends (fun u => Sound u ∧ u.err = s.err) (decompBody s) := by
  have h1 := hdesBody_sound (h.enterPhase 6)
  have h2 := h1.onRaise (f := Machine.sinkClose) fun t ht => ⟨ht.1.sinkClose, ht.2⟩
  refine h2.bind (fun t ht => ht) fun _ t ht => ?_
  have := sdecBody_sound (ht.1.enterPhase 7)
  rwa [show (Machine.enterPhase 7 t).err = s.err from ht.2] at this

/-! ### Between commands -/

theorem Sound.inv {s : State} (h : Sound s) (hb : s.busy = false) (hp : s.phase = 0)
    (hd : s.err ≠ .none → s.done = true) : Inv s :=
  ⟨h.fits, ⟨hb, hp, h.live, hd⟩, h.buffers, h.tables⟩

theorem Inv.sound {s : State} (h : Inv s) : Sound s := ⟨h.buffers, h.tables, h.idle.live, h.fits⟩

/-- A command whose body ends soundly answers a next state that meets the invariant. -/
theorem conclude_inv {r : Res Unit} (h : Ends (fun u => Sound u ∧ u.err = .none) r) :
    ∃ t, conclude r = .next t ∧ Inv t := by
  cases r with
  | ok a u =>
    have hs : Sound (finish u) := h.1.congr ⟨h.1.buffers.packer, h.1.buffers.unpacker⟩
      (h.1.fits.congr rfl rfl rfl rfl rfl rfl rfl rfl) rfl rfl rfl rfl rfl rfl rfl rfl rfl rfl
    exact ⟨_, rfl, hs.inv rfl rfl fun hh => absurd h.2 hh⟩
  | raised e u =>
    have hs : Sound (raise e u) := h.1.congr ⟨h.1.buffers.packer, h.1.buffers.unpacker⟩
      (h.1.fits.congr rfl rfl rfl rfl rfl rfl rfl rfl) rfl rfl rfl rfl rfl rfl rfl rfl rfl rfl
    exact ⟨_, rfl, hs.inv rfl rfl fun _ => rfl⟩
  | stuck f => exact absurd h id

end Sys2Proof.Machine
end

