-- ==== Sys2Proof/Laws/PerInstr.lean ====
section
/-! SUPPORT. A statement about every instruction as syntax: how many bits it has (spec/opcode_table.json; 30_encoding
R51 to R64). -/

namespace Sys2Proof.Laws.WordForm

/-- How many bits the opcode table gives a row: `CMD4` rows 4; the tokens as in 30_encoding R51 to R60. -/
def Bits (c : Config) : Instr → Nat → Prop
  | .nop, n | .fcnt, n | .tbld, n | .cgen, n | .hser, n | .senc, n | .hdes, n | .sdec, n => n = 4
  | .comp, n | .decomp, n | .clr, n => n = 4
  | .rsvdB, n | .rsvdC, n | .rsvdD, n | .rsvdE, n | .rsvdF, n => n = 4
  | .magic _, n => n = 32
  | .hdrBranch, n => n = 1
  | .hdrLeaf _, n | .hdrLeafRsvd _, n => n = 10
  | .payloadCode _, n => n ≤ c.maxLen
  | .pad _, n => n ≤ 7

/-- A well-formed instruction is encoded in as many bits as its row has. -/
def Statement (i : Instr) : Prop := ∀ c : Config, i.wf c = true → Bits c i (encode i).length

theorem nop : Statement .nop := fun _ _ => rfl
theorem fcnt : Statement .fcnt := fun _ _ => rfl
theorem tbld : Statement .tbld := fun _ _ => rfl
theorem cgen : Statement .cgen := fun _ _ => rfl
theorem hser : Statement .hser := fun _ _ => rfl
theorem senc : Statement .senc := fun _ _ => rfl
theorem hdes : Statement .hdes := fun _ _ => rfl
theorem sdec : Statement .sdec := fun _ _ => rfl
theorem comp : Statement .comp := fun _ _ => rfl
theorem decomp : Statement .decomp := fun _ _ => rfl
theorem clr : Statement .clr := fun _ _ => rfl
theorem rsvdB : Statement .rsvdB := fun _ _ => rfl
theorem rsvdC : Statement .rsvdC := fun _ _ => rfl
theorem rsvdD : Statement .rsvdD := fun _ _ => rfl
theorem rsvdE : Statement .rsvdE := fun _ _ => rfl
theorem rsvdF : Statement .rsvdF := fun _ _ => rfl
theorem magic (m : BitVec 32) : Statement (.magic m) := fun _ _ => bitsOf_length 32 m.toNat
theorem hdrBranch : Statement .hdrBranch := fun _ _ => rfl
theorem hdrLeaf (sym : Sym) : Statement (.hdrLeaf sym) := fun _ _ => rfl
theorem hdrLeafRsvd (sym : Sym) : Statement (.hdrLeafRsvd sym) := fun _ _ => rfl
theorem payloadCode (code : List Bool) : Statement (.payloadCode code) := fun c h => by
  show code.length ≤ c.maxLen
  exact of_decide_eq_true h
theorem pad (n : Nat) : Statement (.pad n) := fun c h => by
  show (List.replicate n false).length ≤ 7
  rw [List.length_replicate]
  exact of_decide_eq_true h

end Sys2Proof.Laws.WordForm
end

