-- ==== Sys2Proof/Laws/Tokens.lean ====
section
/-! SUPPORT. The walk of a code token through the arena (spec 45_stream_decoder R133 to R136). -/

namespace Sys2Proof.Machine

/-- Walking the path of a leaf from the top of a tree: the sentinel stops the walk, another leaf emits its byte and
`cur` returns to the root. -/
theorem walkBits_path {U : HTree} {p : List Bool} {sym : Sym} {s : State} (hh : Holds s U) (hc : s.cur = topHandle U)
    (hne : p ≠ []) (hp : (p, sym) ∈ shapeLeaves (shapeOf U)) :
    ∃ k, (sym.toNat = sentinel → walkBits p s = (true, { s with cur := k })) ∧
      (sym.toNat ≠ sentinel →
        walkBits p s = (false, { sinkWriteByte (outByte sym) { s with cur := k } with cur := s.root })) := by
  induction U generalizing p s with
  | leaf k y => simp [shapeOf, shapeLeaves] at hp; exact absurd hp.1 hne
  | branch k l r il ir =>
    rw [mem_shapeLeaves_branch] at hp
    obtain ⟨b, q, rfl, hq⟩ := hp
    have hm : (moveCur b s).cur = topHandle (childOf b l r) := by
      unfold moveCur childOf
      rw [hc]
      cases b
      · exact hh.2.1
      · exact hh.2.2.1
    have hhc : Holds (moveCur b s) (childOf b l r) := by
      refine (Holds_congr (s := s) (t := moveCur b s) rfl rfl _).mpr ?_
      unfold childOf; cases b
      · exact hh.2.2.2.1
      · exact hh.2.2.2.2
    by_cases hq0 : q = []
    · subst hq0
      have hch : ∃ k, childOf b l r = .leaf k sym := by
        cases hcc : childOf b l r with
        | leaf k y => rw [hcc] at hq; simp [shapeOf, shapeLeaves] at hq; exact ⟨k, by rw [hq]⟩
        | branch k x y =>
          rw [hcc, mem_shapeLeaves_branch] at hq
          obtain ⟨_, _, h, _⟩ := hq
          cases h
      obtain ⟨k2, hk⟩ := hch
      rw [hk] at hhc hm
      have h1 : (nodeAt (moveCur b s) (moveCur b s).cur).leaf = true := by rw [hm]; exact hhc.1
      have h2 : (nodeAt (moveCur b s) (moveCur b s).cur).sym = sym := by rw [hm]; exact hhc.2.1
      refine ⟨(moveCur b s).cur, fun hs => ?_, fun hs => ?_⟩
      · unfold walkBits stepBit arrive
        rw [if_pos h1, h2, if_pos hs]; rfl
      · unfold walkBits stepBit arrive
        rw [if_pos h1, h2, if_neg hs]; rfl
    · have hb : (nodeAt (moveCur b s) (moveCur b s).cur).leaf = false := by
        rw [hm]
        cases hcc : childOf b l r with
        | leaf k y => rw [hcc] at hq; simp [shapeOf, shapeLeaves] at hq; exact absurd hq.1 hq0
        | branch k x y => rw [hcc] at hhc; exact hhc.1
      have step : stepBit b s = (false, moveCur b s) := by
        unfold stepBit arrive
        rw [if_neg (by rw [hb]; simp)]
      have hrec : ∃ k, (sym.toNat = sentinel → walkBits q (moveCur b s) = (true, { moveCur b s with cur := k })) ∧
          (sym.toNat ≠ sentinel → walkBits q (moveCur b s) =
            (false, { sinkWriteByte (outByte sym) { moveCur b s with cur := k } with cur := s.root })) := by
        cases b
        · exact il (s := moveCur false s) hhc hm hq0 hq
        · exact ir (s := moveCur true s) hhc hm hq0 hq
      obtain ⟨k, k1, k2⟩ := hrec
      refine ⟨k, fun hs => ?_, fun hs => ?_⟩ <;> (unfold walkBits; rw [step]; simp only)
      · rw [k1 hs]; rfl
      · rw [k2 hs]; rfl

end Sys2Proof.Machine
end

