-- ==== Sys2Proof/Tests/Slice0.lean ====
section
/-! SUPPORT. The model's own tests: ill-formed terms, hand-written words, one step of each instruction against the
vectors of spec/95_test_vectors.md (its own numbers F3, T3, ... in the comments), and, for each statement with
hypotheses, a state that meets them. -/

namespace Sys2Proof.Tests

open Sys2Proof Sys2Proof.Machine

/- The evaluations run one after another: each waits for the kernel, and each that waits holds a stack of its own. -/
set_option Elab.async false

/-! ### Ill-formed terms (WellFormed) -/

/-- 257 is no symbol of a leaf token (30_encoding R54). -/
theorem test_wf_leaf : Instr.wf Config.default (.hdrLeaf 257) = false ∧ Instr.wf Config.default (.hdrLeaf 256) = true := by decide
/-- 256 is no reserved symbol field (30_encoding R60). -/
theorem test_wf_leaf_rsvd : Instr.wf Config.default (.hdrLeafRsvd 256) = false ∧ Instr.wf Config.default (.hdrLeafRsvd 257) = true := by decide
/-- A code of 257 bits is too long for the default `MAXLEN`, not for a greater one (00_scope R5, 10_state R13). -/
theorem test_wf_code :
    Instr.wf Config.default (.payloadCode (List.replicate 257 true)) = false ∧
      Instr.wf Config.default (.payloadCode []) = true ∧
      Instr.wf { Config.default with maxLen := 257 } (.payloadCode (List.replicate 257 true)) = true := by decide +kernel
/-- Eight padding bits are too many (30_encoding R57). -/
theorem test_wf_pad : Instr.wf Config.default (.pad 8) = false ∧ Instr.wf Config.default (.pad 7) = true := by decide

/-! ### Hand-written words -/

/-- The sixteen opcodes (30_encoding R63, R64). -/
theorem test_decode_commands :
    [0x0, 0x1, 0x2, 0x3, 0x4, 0x5, 0x6, 0x7, 0x8, 0x9, 0xA, 0xB, 0xC, 0xD, 0xE, 0xF].map (decodeTableWord 8) =
      [Instr.nop, .fcnt, .tbld, .cgen, .hser, .senc, .hdes, .sdec, .comp, .decomp, .clr, .rsvdB, .rsvdC, .rsvdD,
        .rsvdE, .rsvdF].map some := by decide
/-- The four opcode bits of `SENC`, most significant first. -/
theorem test_decode_command_bits : decode .command [false, true, false, true, true] = .ok (.senc, [true]) := by rfl
/-- Bits above bit 3 are ignored (10_state R19). -/
theorem test_decode_high_bits : decodeWord 4 0xABC8 = .comp := by decide
/-- The default magic, FA CE 82 01 (30_encoding R51). -/
theorem test_decode_magic :
    decode .magic [true, true, true, true, true, false, true, false, true, true, false, false, true, true, true, false,
      true, false, false, false, false, false, true, false, false, false, false, false, false, false, false, true] =
      .ok (.magic 0xFACE8201, []) := by rfl
theorem test_decode_branch : decode .header [false, true] = .ok (.hdrBranch, [true]) := by rfl
/-- Leaf 0x41: `1 001000001` (95, 2.4 S2). -/
theorem test_decode_leaf :
    decode .header [true, false, false, true, false, false, false, false, false, true] = .ok (.hdrLeaf 0x41, []) := by
  rfl
/-- Symbol field 257: `1 100000001` (95, 2.4 H13). -/
theorem test_decode_leaf_rsvd :
    decode .header [true, true, false, false, false, false, false, false, false, true] =
      .ok (.hdrLeafRsvd 257, []) := by rfl
/-- The codes of G3, read from `01 1`. -/
theorem test_decode_code :
    decode (.payload [[true], [false, false], [false, true]]) [false, true, true] =
      .ok (.payloadCode [false, true], [true]) := by rfl
theorem test_decode_pad : decode (.padding 2) [false, false] = .ok (.pad 2, []) := by rfl
/-- Bit strings that are no token, each with its reason. -/
theorem test_decode_rejects :
    decode .command [true] = .error .shortCommand ∧ decode .magic [true] = .error .shortMagic ∧
      decode .header [true, false] = .error .endOfHeader ∧ decode (.payload [[true]]) [] = .error .endOfPayload ∧
      decode (.padding 1) [] = .error .endOfPadding ∧ decode (.padding 1) [true] = .error .padNotZero :=
  ⟨rfl, rfl, rfl, rfl, rfl, rfl⟩

/-! ### Small states -/

/-- A value of the next state, if there is one. -/
def after {α : Type} (o : Host.Outcome State Fault Refusal) (f : State → α) : Option α :=
  match o with
  | .next s => some (f s)
  | .fault _ => none
  | .refused _ => none

/-- After reset, with a source (70_reset_and_hazards R193). -/
def fresh (xs : List Byte) : State := { State.reset with src := xs }

/-- A core with counts of another width (00_scope R5: the weights are 9 bits wider). -/
def withCounts (w : Nat) (s : State) : State := { s with cfg := { s.cfg with cntW := w, wtW := w + 9 } }

/-- "AAAB" (95, 1.1). -/
def aaab : List Byte := [0x41, 0x41, 0x41, 0x42]

/-- The counts of F3. -/
def counted : State := { setFreq 256 1 (setFreq 0x42 1 (setFreq 0x41 3 (fresh aaab))) with fv := true }

/-- The tree of T3, `((42, S), 41)`. -/
def treed : State :=
  { setNode 4 (innerNode 5 3 0) (setNode 3 (innerNode 2 1 2) (setNode 2 (leafNode 256 1) (setNode 1 (leafNode 0x42 1)
      (setNode 0 (leafNode 0x41 3) counted)))) with root := 4, nnode := 5, tv := true }

/-- The codes of G3: 41 `1`, 42 `00`, S `01`. -/
def coded : State :=
  { setCode 256 (pathCode Config.default [false, true]) (setCode 0x42 (pathCode Config.default [false, false])
      (setCode 0x41 (pathCode Config.default [true]) treed)) with cv := true }

/-- A lone sentinel leaf (T1). -/
def lone : State := { setNode 0 (leafNode 256 1) State.reset with nnode := 1, tv := true }

/-- The tree `(41, (41, S))` of H12. -/
def twice : State :=
  { setNode 0 (innerNode 0 1 2) (setNode 1 (leafNode 0x41 0) (setNode 2 (innerNode 0 3 4) (setNode 3 (leafNode 0x41 0)
      (setNode 4 (leafNode 256 0) State.reset)))) with nnode := 5, tv := true }

/-- The AAAB container (E3). -/
def aaabBox : List Byte := [0xFA, 0xCE, 0x82, 0x01, 0x24, 0x2C, 0x02, 0x41, 0xE2]

/-! ### One step of each instruction -/

/-- 95, Q5. -/
theorem test_nop : after (exec .nop State.reset) statusWord = some 0x0002 := by decide
/-- 95, F3. -/
theorem test_fcnt_aaab :
    after (exec .fcnt (fresh aaab)) (fun t => (freqAt t 0x41, freqAt t 0x42, freqAt t 256, t.pos, statusWord t)) =
      some (3, 1, 1, 0, 0x0006) := by decide +kernel
/-- 95, 2.1: with `CNT_W` = 2 the fourth byte overflows. -/
theorem test_fcnt_overflow :
    after (exec .fcnt (withCounts 2 (fresh [0x41, 0x41, 0x41, 0x41])))
      (fun t => (freqAt t 0x41, t.pos, statusWord t)) = some (3, 4, 0x0702) := by decide +kernel
/-- 95, T3. -/
theorem test_tbld_aaab :
    after (exec .tbld counted) (fun t => (nodeAt t 3, nodeAt t 4, t.root, t.nnode, statusWord t)) =
      some (innerNode 2 1 2, innerNode 5 3 0, 4, 5, 0x000E) := by decide +kernel
/-- 95, T2: equal weights, the lower handle goes left; here counts of 40 bits, each above what 32 bits hold. -/
theorem test_tbld_tie :
    after (exec .tbld (withCounts 40 { setFreq 256 (2 ^ 39) (setFreq 0x41 (2 ^ 39) State.reset) with fv := true }))
      (fun t => nodeAt t 2) = some (innerNode (2 ^ 40) 0 1) := by decide +kernel
/-- 95, G3. -/
theorem test_cgen_aaab :
    after (exec .cgen treed) (fun t => ((codeAt t 0x42).len, (codeAt t 0x42).bits, (codeAt t 256).bits, statusWord t)) =
      some (2, 0, 1, 0x001E) := by decide +kernel
/-- 95, G10: the leaf visited last wins. -/
theorem test_cgen_last_leaf :
    after (exec .cgen twice) (fun t => (codeBits (codeAt t 0x41), codeBits (codeAt t 256))) =
      some ([true, false], [true, true]) := by decide +kernel
/-- 95, S3. -/
theorem test_hser_aaab :
    after (exec .hser treed) (fun t => (t.out, t.pkCnt, t.closed)) =
      some ([0xFA, 0xCE, 0x82, 0x01, 0x24, 0x2C, 0x02, 0x41], 0, false) := by decide +kernel
/-- 95, S1: two bits stay in the packer. -/
theorem test_hser_lone :
    after (exec .hser lone) (fun t => (t.out, t.pkCnt, t.pkAcc)) = some ([0xFA, 0xCE, 0x82, 0x01, 0xC0], 2, 0) := by
  decide +kernel
/-- 95, E3. -/
theorem test_senc_aaab :
    after (exec .senc coded) (fun t => (t.out, t.closed, t.pos, statusWord t)) =
      some ([0xE2], true, 4, 0x001E) := by decide +kernel
/-- 95, E10: byte 43 has no code. -/
theorem test_senc_no_code :
    after (exec .senc { coded with src := [0x41, 0x41, 0x41, 0x43] }) (fun t => (t.out, t.closed, t.pos, statusWord t)) =
      some ([0xE0], true, 4, 0x081E) := by decide +kernel
/-- 95, H9. -/
theorem test_hdes_aaab :
    after (exec .hdes (fresh aaabBox)) (fun t => (nodeAt t 0, nodeAt t 1, nodeAt t 4, t.nnode, t.pos, statusWord t)) =
      some (innerNode 0 1 4, innerNode 0 2 3, leafNode 0x41 0, 5, 8, 0x000A) := by decide +kernel
/-- 95, H13: symbol 257; and with `NODE_CAP` = 3 the marker of a fourth node (R115). -/
theorem test_hdes_out_of_range :
    after (exec .hdes (fresh [0xFA, 0xCE, 0x82, 0x01, 0xC0, 0x40])) (fun t => (t.nnode, t.pos, t.upCnt, statusWord t)) =
        some (1, 6, 6, 0x0302) ∧
      after (exec .hdes { fresh (aaabBox) with cfg := { Config.default with nodeCap := 3 } })
        (fun t => (t.nnode, t.pos, statusWord t)) = some (3, 6, 0x0402) := by decide +kernel
/-- 95, X0's payload from its own byte. -/
theorem test_sdec_aaab :
    after (exec .sdec { treed with src := [0xE2] }) (fun t => (t.out, t.upCnt, t.closed, t.err)) =
      some ([0x41, 0x41, 0x41, 0x42], 1, true, .none) := by decide +kernel
/-- 95, X2's payload: the bits end before the sentinel. -/
theorem test_sdec_truncated :
    after (exec .sdec { treed with src := [0xE0] }) (fun t => (t.out, t.upCnt, t.closed, t.err)) =
      some ([0x41, 0x41, 0x41, 0x42, 0x42], 0, true, .payTrunc) := by decide +kernel
/-- 95, P1. -/
theorem test_comp_aaab :
    after (exec .comp (fresh aaab)) (fun t => (t.out, t.err, t.closed, statusWord t)) =
      some (aaabBox, .none, true, 0x001E) := by decide +kernel
/-- 95, 1.2 and E1: the empty input. -/
theorem test_comp_empty :
    after (exec .comp (fresh [])) (fun t => t.out) = some [0xFA, 0xCE, 0x82, 0x01, 0xC0, 0x00] := by decide +kernel
/-- 95, X0 and X7: bytes after the container are not read. -/
theorem test_decomp_aaab :
    after (exec .decomp (fresh (aaabBox ++ [0xFF]))) (fun t => (t.out, t.closed, t.pos, statusWord t)) =
      some (aaab, true, 9, 0x000A) := by decide +kernel
/-- 95, X6: a lone leaf that is not the sentinel. -/
theorem test_decomp_root :
    after (exec .decomp (fresh [0xFA, 0xCE, 0x82, 0x01, 0x90, 0x40])) (fun t => (t.out, t.closed, statusWord t)) =
      some ([], true, 0x050A) := by decide +kernel
/-- 95, Q9. -/
theorem test_clr : after (exec .clr { coded with done := true, err := .seq }) statusWord = some 0x0000 := by decide
/-- 95, Q4. -/
theorem test_rsvd :
    [Instr.rsvdB, .rsvdC, .rsvdD, .rsvdE, .rsvdF].map (fun i => after (exec i State.reset) statusWord) =
      List.replicate 5 (some 0x0A02) := by decide
/-- 95, Q1 to Q3. -/
theorem test_seq :
    [Instr.tbld, .cgen, .hser, .sdec, .senc].map (fun i => after (exec i State.reset) statusWord) =
      List.replicate 5 (some 0x0902) := by decide
/-- 95, Q6, Q7: the first error stays. -/
theorem test_sticky :
    after (exec .fcnt { fresh aaab with err := .seq, done := true }) (fun t => (t.pos, statusWord t)) =
      some (0, 0x0902) := by decide

/-- `HSER` writes a magic token as 32 bits (30_encoding R51). -/
theorem test_magic_written :
    after (exec (.magic 0xFACE8201) { State.reset with phase := 4 }) (fun t => t.out) =
      some [0xFA, 0xCE, 0x82, 0x01] := by decide
/-- `HDES` rejects another magic (43_header_codec R111). -/
theorem test_magic_read :
    after (exec (.magic 0xFACE8200) { State.reset with phase := 6, busy := true }) statusWord = some 0x0102 := by decide
/-- One bit 0 (30_encoding R53). -/
theorem test_branch_written :
    after (exec .hdrBranch { State.reset with phase := 4 }) (fun t => (t.pkCnt, t.pkAcc)) = some (1, 0) := by decide
/-- 95, H6: a branch marker takes a handle. -/
theorem test_branch_read :
    after (exec .hdrBranch { State.reset with phase := 6 }) (fun t => (t.nnode, nodeAt t 0)) =
      some (1, innerNode 0 0 0) := by decide +kernel
/-- Leaf 0x41 after six bits `000000` completes the byte 02 and leaves 41 (95, section 3, bits 48 to 63). -/
theorem test_leaf_written :
    after (exec (.hdrLeaf 0x41) { State.reset with phase := 4, pkCnt := 6 }) (fun t => (t.out, t.pkCnt)) =
      some ([0x02, 0x41], 0) := by decide
/-- 95, H8. -/
theorem test_leaf_read :
    after (exec (.hdrLeaf 256) { State.reset with phase := 6 }) (fun t => (t.nnode, nodeAt t 0)) =
      some (1, leafNode 256 0) := by decide +kernel
/-- 95, H13: allocated, not written. -/
theorem test_leaf_rsvd :
    after (exec (.hdrLeafRsvd 257) { lone with phase := 6, nnode := 0 }) (fun t => (t.nnode, nodeAt t 0, t.err)) =
      some (1, leafNode 256 1, .hdrSym) := by decide +kernel
/-- 95, section 3, bits 67 and 68. -/
theorem test_code_written :
    after (exec (.payloadCode [false, true]) { State.reset with phase := 5 }) (fun t => (t.pkCnt, t.pkAcc)) =
      some (2, 1) := by decide
/-- 95, X0: the code `00` emits 42, and `cur` is back at the root. -/
theorem test_code_read :
    after (exec (.payloadCode [false, false]) { treed with phase := 7, cur := 4 }) (fun t => (t.out, t.cur)) =
      some ([0x42], 4) := by decide +kernel
/-- 95, section 3, bit 71. -/
theorem test_pad :
    after (exec (.pad 1) { State.reset with phase := 5, pkCnt := 7, pkAcc := 0x71 }) (fun t => (t.out, t.pkCnt)) =
      some ([0xE2], 0) := by decide

/-- The word placed by `withFetchWord` runs in the very next step. -/
theorem test_step_runs_word : after (step (State.reset.withFetchWord 8 0xB)) statusWord = some 0x0A02 := by decide
/-- The host reads `STATUS` (10_state R18). -/
theorem test_host_reads :
    after (step { State.reset with host := [.read .status], done := true }) (fun t => t.rdata) = some 0x0002 := by decide

/-! ### States that meet the hypotheses of the statements -/

theorem after_some {α : Type} {o : Host.Outcome State Fault Refusal} {f : State → α} {x : α} (h : after o f = some x) :
    ∃ t, o = .next t ∧ f t = x := by
  cases o with
  | next s => exact ⟨s, rfl, Option.some.inj h⟩
  | fault f => cases h
  | refused r => cases h

/-- The fault of an outcome, if it is one. -/
def faultOf (o : Host.Outcome State Fault Refusal) : Option Fault :=
  match o with
  | .next _ => none
  | .fault f => some f
  | .refused _ => none

theorem fault_of {o : Host.Outcome State Fault Refusal} {f : Fault} (h : faultOf o = some f) : o = .fault f := by
  cases o with
  | next s => cases h
  | fault g => rw [Option.some.inj h]
  | refused r => cases h

/-- Bits as bytes, eight at a time; the last byte is completed with zeros. -/
def toBytes : Nat → List Bool → List Byte
  | 0, _ => []
  | n + 1, bs => BitVec.ofNat 8 (valOf ((bs.take 8) ++ List.replicate (8 - (bs.take 8).length) false)) :: toBytes n (bs.drop 8)

/-- The four bytes of the default magic. -/
def magicBytes : List Byte := [0xFA, 0xCE, 0x82, 0x01]

theorem consistent_withCounts {w : Nat} (h : 1 ≤ w) :
    Config.Consistent { Config.default with cntW := w, wtW := w + 9 } :=
  ⟨h, rfl, (by decide : 2 * nsym - 1 ≤ Config.default.nodeCap), (by decide : Config.default.nodeCap < 2 ^ 10),
    (by decide : Config.default.nodeCap ≤ 2 * 256 + 1), (by decide : 256 < 2 ^ 9), rfl, rfl⟩

theorem consistent_default : Config.default.Consistent := consistent_withCounts (w := 32) (by decide)

/-- The parameters fit together, in a state with an error and a phase. -/
theorem witness_StatusWordFields :
    ∃ s : State, s.cfg.Consistent ∧ s.err = .badCmd ∧ s.phase = 7#4 ∧ statusWord s = 0x7A00#16 :=
  ⟨{ State.reset with err := .badCmd, phase := 7#4 }, consistent_default, rfl, rfl, by decide⟩

/-- The state after reset fits whatever the width of the counts is. -/
theorem fits_reset {w : Nat} (h : 1 ≤ w) : Fits (withCounts w State.reset) where
  config := consistent_withCounts h
  arena := Array.size_replicate
  freq k := by
    have : freqAt (withCounts w State.reset) k = 0 := by
      by_cases hk : k < 257 <;> simp [freqAt, withCounts, State.reset, hk]
    rw [this]; exact Nat.two_pow_pos _
  node k := by
    by_cases hk : k < Config.default.nodeCap
    · have : nodeAt (withCounts w State.reset) k = { leaf := false, sym := 0, weight := 0, left := 0, right := 0 } := by
        simp [nodeAt, withCounts, State.reset, hk]
      rw [this]; simp only [fitNode, narrow_eq (Nat.two_pow_pos _)]
    · have : nodeAt (withCounts w State.reset) k = fitNode (withCounts w State.reset).cfg (Config.nodeOutside k) := by
        simp [nodeAt, withCounts, State.reset, hk]
      rw [this, fitNode_fitNode]
  code k := by
    have : codeAt (withCounts w State.reset) k = { valid := false, len := 0, bits := 0 } := by
      by_cases hk : k < 257 <;> simp [codeAt, withCounts, State.reset, hk]
    rw [this]; simp only [fitCode, narrow_eq (Nat.two_pow_pos _)]
  root := Nat.two_pow_pos _
  nnode := Nat.two_pow_pos _
  cur := Nat.two_pow_pos _
  live := Nat.two_pow_pos _

/-- A state that differs from one that fits in other fields than the tables, the handles and the parameters. -/
theorem fits_like {s t : State} (h : Fits s) (e : t = { t with
    cfg := s.cfg, freq := s.freq, node := s.node, code := s.code, root := s.root, nnode := s.nnode, cur := s.cur,
    live := s.live }) : Fits t :=
  h.congr ((congrArg State.cfg e).trans rfl) ((congrArg State.freq e).trans rfl) ((congrArg State.node e).trans rfl) ((congrArg State.code e).trans rfl)
    ((congrArg State.root e).trans rfl) ((congrArg State.nnode e).trans rfl) ((congrArg State.cur e).trans rfl) ((congrArg State.live e).trans rfl)

theorem fits_handles {s : State} (h : Fits s) {r n : Nat} (hr : r < 2 ^ s.cfg.hW) (hn : n < 2 ^ s.cfg.hW)
    (p : BitVec 4) (b : Bool) : Fits { s with root := r, nnode := n, phase := p, tv := b } :=
  { h with root := hr, nnode := hn }

/-- The tree of a state with other control bits and another source. -/
theorem tree_like {s : State} {T : HTree} (h : TreeIn s T) (p : BitVec 4) (k : Nat) (xs : List Byte)
    (hs : List HostAction) : TreeIn { s with phase := p, cur := k, src := xs, host := hs } T :=
  TreeIn_congr (s := s) (t := { s with phase := p, cur := k, src := xs, host := hs }) rfl rfl rfl rfl h

theorem fits_default : Fits State.reset := fits_reset (w := 32) (by decide)

theorem fits_fresh (xs : List Byte) : Fits (fresh xs) := fits_like fits_default rfl

theorem fits_counted : Fits counted := by
  have h1 := (fits_fresh aaab).setFreq (k := 0x41) (v := 3) (by decide)
  have h2 := h1.setFreq (k := 0x42) (v := 1) (by decide)
  exact fits_like (h2.setFreq (k := 256) (v := 1) (by decide)) rfl

theorem fits_leaf {s : State} (h : Fits s) (hc : s.cfg = Config.default) (k : Nat) (sym : Sym) {w : Nat} (hw : w < 2 ^ 41) :
    Fits (setNode k (leafNode sym w) s) := h.setNode k (fitNode_leafNode sym (by rw [hc]; exact hw))

theorem fits_inner {s : State} (h : Fits s) (hc : s.cfg = Config.default) (k : Nat) {w a b : Nat}
    (hn : fitNode Config.default (innerNode w a b) = innerNode w a b) : Fits (setNode k (innerNode w a b) s) :=
  h.setNode k (by rw [hc]; exact hn)

theorem fits_treed : Fits treed := by
  have h0 := fits_leaf fits_counted rfl 0 0x41 (w := 3) (by decide)
  have h1 := fits_leaf h0 rfl 1 0x42 (w := 1) (by decide)
  have h2 := fits_leaf h1 rfl 2 256 (w := 1) (by decide)
  have h3 := fits_inner h2 rfl 3 (w := 2) (a := 1) (b := 2) (by decide)
  have h4 := fits_inner h3 rfl 4 (w := 5) (a := 3) (b := 0) (by decide)
  exact fits_handles h4 (r := 4) (n := 5) (by show 4 < 2 ^ 10; decide) (by show 5 < 2 ^ 10; decide) 0 true

theorem fits_lone : Fits lone :=
  fits_handles (fits_leaf fits_default rfl 0 256 (w := 1) (by decide)) (r := 0) (n := 1)
    (by show 0 < 2 ^ 10; decide) (by show 1 < 2 ^ 10; decide) 0 true

theorem ready_fresh (xs : List Byte) : Ready (fresh xs) := ⟨rfl, rfl⟩

theorem counts_short {s : State} (h : (s.src.drop s.pos).length ≤ cntMax s.cfg) : CountsFit s :=
  fun _ => Nat.le_trans List.count_le_length h

/-- The tree of T3. -/
def aaabTree : HTree := .branch 4 (.branch 3 (.leaf 1 0x42) (.leaf 2 256)) (.leaf 0 0x41)

theorem treed_tree : TreeIn treed aaabTree :=
  ⟨rfl, ⟨by decide +kernel, by decide +kernel, by decide +kernel,
      ⟨by decide +kernel, by decide +kernel, by decide +kernel, ⟨by decide +kernel, by decide +kernel, by decide⟩,
        ⟨by decide +kernel, by decide +kernel, by decide⟩⟩,
      ⟨by decide +kernel, by decide +kernel, by decide⟩⟩, by decide, by decide, by decide⟩

theorem lone_tree : TreeIn lone (.leaf 0 256) :=
  ⟨rfl, ⟨by decide +kernel, by decide +kernel, by decide⟩, by decide, by decide, by decide⟩

/-- A lone leaf 0x41 (H15). -/
def lonely : State := { setNode 0 (leafNode 0x41 0) State.reset with nnode := 1, tv := true }

theorem lonely_tree : TreeIn lonely (.leaf 0 0x41) :=
  ⟨rfl, ⟨by decide +kernel, by decide +kernel, by decide⟩, by decide, by decide, by decide⟩

/-- 70_reset_and_hazards R192: `FCNT` abandoned after two of its reads leaves the source at 2 and the core reset. -/
theorem test_reset_during_fcnt :
    (match step { State.reset with src := [0x41, 0x42, 0x43], done := true, host := [.resetDuring 1 2] } with
      | .next t => t.pos == 2 && !t.fv && !t.done && !t.closed
      | _ => false) = true := by decide +kernel

theorem witness_ResetInputClearsRegistersOnly :
    ({ coded with host := [.reset] } : State).host = .reset :: [] ∧
      ({ State.reset with src := [0x41], host := [.resetDuring 1 2] } : State).host = .resetDuring 1 2 :: [] ∧
      ∃ u, exec (decodeWord 4 1) { State.reset with src := [0x41], host := [] } = .next u :=
  ⟨rfl, rfl, _, rfl⟩

theorem witness_StepRunsTheDecodedCommand :
    ({ State.reset with host := [.write .cmd 0xFFF3] } : State).host = .write .cmd 0xFFF3 :: [] ∧
      (0xFFF3 : BitVec 16).extractLsb' 0 4 = (3 : BitVec 16).extractLsb' 0 4 ∧ 0 < 1 := ⟨rfl, by decide, by decide⟩

theorem witness_HostRegisterAndStreamAccess :
    (∃ s : State, s.host = .write .status 0xFFFF :: []) ∧ (∃ s : State, s.host = .read .cmd :: []) ∧
      (∃ s : State, s.host = .read .status :: []) ∧ (∃ s : State, s.host = .presentSource aaab 4 [[]] :: []) ∧
      (∃ s : State, s.host = .presentSink [0] true :: []) ∧ ∃ s : State, s.host = [] :=
  ⟨⟨{ State.reset with host := _ }, rfl⟩, ⟨{ State.reset with host := _ }, rfl⟩, ⟨{ State.reset with host := _ }, rfl⟩,
    ⟨{ State.reset with host := _ }, rfl⟩, ⟨{ State.reset with host := _ }, rfl⟩, ⟨State.reset, rfl⟩⟩

theorem witness_BusyOrFaultedCoreIgnoresCommands :
    isCommand .clr = true ∧ ({ State.reset with busy := true } : State).busy = true ∧ isCommand .rsvdF = true ∧
      Instr.rsvdF ≠ .clr ∧ ({ State.reset with err := .badCmd } : State).err ≠ .none :=
  ⟨rfl, rfl, rfl, by decide, by decide⟩

theorem witness_ClrClearsRegistersOnly : ({ coded with err := .seq } : State).busy = false := rfl

theorem witness_NopSetsDone :
    Ready State.reset ∧ State.reset.phase = 0 ∧ ({ State.reset with err := .cntOvf } : State).err ≠ .none :=
  ⟨⟨rfl, rfl⟩, rfl, by decide⟩

theorem witness_ReservedOpcodesAreRefused : Ready coded ∧ Instr.rsvdB ∈ [Instr.rsvdB, .rsvdC, .rsvdD, .rsvdE, .rsvdF] :=
  ⟨⟨rfl, rfl⟩, by decide⟩

theorem witness_MissingFlagIsRefused :
    Ready State.reset ∧ State.reset.fv = false ∧ State.reset.tv = false ∧ State.reset.cv = false ∧
      Instr.sdec ∈ [Instr.cgen, .hser, .sdec] := ⟨⟨rfl, rfl⟩, rfl, rfl, rfl, by decide⟩

theorem witness_CommandEndsWithDone :
    isCommand .tbld = true ∧ Instr.tbld ≠ .clr ∧ Ready State.reset ∧ State.reset.phase = 0 ∧
      ∃ t, exec .tbld State.reset = .next t := ⟨rfl, by decide, ⟨rfl, rfl⟩, rfl, _, rfl⟩

theorem witness_PackerAppendsBitsInOrder :
    ({ State.reset with pkCnt := 6 } : State).closed = false ∧ ({ State.reset with pkCnt := 6 } : State).pkCnt ≠ 7#3 :=
  ⟨rfl, by decide⟩

theorem witness_FlushCompletesTheByte :
    (∃ s : State, s.pkAcc.toNat < 2 ^ s.pkCnt.toNat ∧ s.pkCnt = 7 ∧ s.closed = false) ∧
      ∃ s : State, s.pkAcc.toNat < 2 ^ s.pkCnt.toNat ∧ s.pkCnt = 0 :=
  ⟨⟨{ State.reset with pkAcc := 127, pkCnt := 7 }, by decide, rfl, rfl⟩, ⟨State.reset, by decide, rfl⟩⟩

theorem witness_UnpackerTakesBitsInOrder :
    (∃ s : State, s.upCnt.toNat ≤ 8 ∧ s.upCnt ≠ 0#4 ∧ ∃ b rest, sourceBits s = b :: rest) ∧
      (∃ s : State, s.upCnt.toNat ≤ 8 ∧ s.upCnt = 0#4 ∧ ∃ b rest, sourceBits s = b :: rest) ∧
      (∃ s : State, s.upCnt.toNat ≤ 8 ∧ sourceBits s = []) ∧
      (∃ s : State, s.upCnt.toNat ≤ 8 ∧ sourceBits s = [true] ++ []) ∧
      ∃ s : State, s.upCnt.toNat ≤ 8 ∧ (sourceBits s).length < 9 :=
  ⟨⟨{ State.reset with upCnt := 8 }, by decide, by decide, false, List.replicate 7 false, by decide⟩,
    ⟨fresh [0x80], by decide, by decide, true, List.replicate 7 false, by decide⟩, ⟨State.reset, by decide, by decide⟩,
    ⟨{ State.reset with upAcc := 0x80, upCnt := 1 }, by decide, by decide⟩, ⟨fresh [0], by decide, by decide⟩⟩

theorem witness_StreamPrimitives :
    (fresh [7]).src.drop (fresh [7]).pos = 7 :: [] ∧ (fresh []).src.drop (fresh []).pos = [] ∧
      State.reset.srcLater = [] ∧ ({ State.reset with srcLater := [[1]] } : State).srcLater = [1] :: [] ∧
      State.reset.closed = false := ⟨rfl, rfl, rfl, rfl, rfl⟩

/-- The greatest count is met exactly. -/
theorem witness_FcntCountsTheSource :
    ∃ s : State, Ready s ∧ Fits s ∧ CountsFit s ∧ restCount s 0x41 = 3 ∧ cntMax s.cfg = 3 :=
  ⟨withCounts 2 (fresh [0x41, 0x41, 0x41]), ⟨rfl, rfl⟩, fits_like (fits_reset (w := 2) (by decide)) rfl,
    counts_short (by decide), by decide, by decide⟩

/-- The greatest count is passed by one. -/
theorem witness_FcntOverflowRaises :
    ∃ s : State, Ready s ∧ ¬ CountsFit s ∧ restCount s 0x41 = 4 ∧ cntMax s.cfg = 3 :=
  ⟨withCounts 2 (fresh [0x41, 0x41, 0x41, 0x41]), ⟨rfl, rfl⟩, fun h => absurd (h 0x41) (by decide), by decide, by decide⟩

theorem witness_ExtractMinTakesTheFirst :
    ∃ (s : State) (h : Nat) (t : State), s.live < 2 ^ s.cfg.nodeCap ∧ extractMin s = some (h, t) ∧ h = 512 := by
  have h : (extractMin { State.reset with live := 2 ^ 512 }).map Prod.fst = some 512 := by decide +kernel
  obtain ⟨⟨k, t⟩, h1, h2⟩ := Option.map_eq_some_iff.mp h
  exact ⟨_, k, t, Nat.pow_lt_pow_right (by decide) (by decide), h1, h2⟩

theorem counted_used : usedSymbols counted ≠ [] := by decide +kernel

theorem witness_TbldBuildsTheMergeTree :
    Ready counted ∧ Fits counted ∧ counted.fv = true ∧ usedSymbols counted ≠ [] :=
  ⟨⟨rfl, rfl⟩, fits_counted, rfl, counted_used⟩

theorem witness_TbldIsAFunctionOfTheCounts :
    ∃ s s' t t' : State, Ready s ∧ Ready s' ∧ Fits s ∧ Fits s' ∧ s.fv = true ∧ s'.fv = true ∧ s.freq = s'.freq ∧
      exec .tbld s = .next t ∧ exec .tbld s' = .next t' ∧ s.node ≠ s'.node := by
  have h1 : after (exec .tbld counted) State.root = some 4 := by decide +kernel
  have h2 : after (exec .tbld treed) State.root = some 4 := by decide +kernel
  obtain ⟨t, ht, _⟩ := after_some h1
  obtain ⟨t', ht', _⟩ := after_some h2
  exact ⟨counted, treed, t, t', ⟨rfl, rfl⟩, ⟨rfl, rfl⟩, fits_counted, fits_treed, rfl, rfl, rfl, ht, ht',
    fun h => absurd (congrArg (fun n : Array Node => n[0]?.map Node.leaf) h) (by decide +kernel)⟩

theorem witness_StopsOnlyOnBrokenTables :
    (∃ s : State, Ready s ∧ Fits s ∧ s.fv = true ∧ usedSymbols s = [] ∧ ∃ f, exec .tbld s = .fault f) ∧
      ∃ s : State, Ready s ∧ Fits s ∧ s.tv = true ∧ (nodeAt s s.root).leaf = false ∧ (nodeAt s s.root).left = s.root := by
  have h : faultOf (exec .tbld { State.reset with fv := true }) = some .noLiveNode := by decide +kernel
  exact ⟨⟨_, ⟨rfl, rfl⟩, fits_like fits_default rfl, rfl, by decide +kernel, _, fault_of h⟩,
    { State.reset with tv := true }, ⟨rfl, rfl⟩, fits_like fits_default rfl, rfl, by decide +kernel, by decide +kernel⟩

theorem witness_CgenBindsThePaths :
    Ready treed ∧ treed.tv = true ∧ TreeIn treed aaabTree ∧ keptPath (shapeOf aaabTree) 0x43 = none :=
  ⟨⟨rfl, rfl⟩, rfl, treed_tree, by decide⟩

theorem witness_CodesArePrefixFree :
    ∃ t, Ready treed ∧ Fits treed ∧ treed.tv = true ∧ TreeOk treed ∧ exec .cgen treed = .next t ∧ (codeAt t 0x41).valid = true ∧
      (codeAt t 256).valid = true := by
  have h : after (exec .cgen treed) (fun t => ((codeAt t 0x41).valid, (codeAt t 256).valid)) = some (true, true) := by
    decide +kernel
  obtain ⟨t, ht, hv⟩ := after_some h
  exact ⟨t, ⟨rfl, rfl⟩, fits_treed, rfl, ⟨_, treed_tree⟩, ht, congrArg Prod.fst hv, congrArg Prod.snd hv⟩

theorem witness_SentinelAlwaysHasACode : Ready (fresh aaab) ∧ Fits (fresh aaab) ∧ CountsFit (fresh aaab) :=
  ⟨⟨rfl, rfl⟩, fits_fresh _, counts_short (by decide)⟩

theorem witness_HserWritesMagicAndHeader :
    Ready lone ∧ lone.tv = true ∧ TreeIn lone (.leaf 0 256) ∧ lone.closed = false := ⟨⟨rfl, rfl⟩, rfl, lone_tree, rfl⟩

theorem witness_HserWritesItsTokens : Ready treed ∧ treed.tv = true ∧ TreeIn treed aaabTree := ⟨⟨rfl, rfl⟩, rfl, treed_tree⟩

theorem witness_SencEncodesTheSource :
    Ready coded ∧ coded.cv = true ∧ coded.pkAcc.toNat < 2 ^ coded.pkCnt.toNat ∧
      (∀ x ∈ coded.src.drop coded.pos, (codeAt coded x.toNat).valid = true) ∧ (codeAt coded sentinel).valid = true ∧
      coded.closed = false := ⟨⟨rfl, rfl⟩, rfl, by decide, by decide +kernel, by decide +kernel, rfl⟩

/-- The codes of G3, and a second pass that holds 0x43. -/
def foreign : State := { coded with src := [0x41, 0x43, 0x41] }

theorem witness_SencRaisesNoCode :
    (Ready foreign ∧ foreign.cv = true ∧ foreign.pkAcc.toNat < 2 ^ foreign.pkCnt.toNat ∧
      foreign.src.drop foreign.pos = [0x41] ++ 0x43 :: [0x41] ∧
      (∀ y ∈ [(0x41 : Byte)], (codeAt foreign y.toNat).valid = true) ∧
      (codeAt foreign (0x43 : Byte).toNat).valid = false) ∧
    ∃ s : State, Ready s ∧ s.cv = true ∧ s.pkAcc.toNat < 2 ^ s.pkCnt.toNat ∧
      (∀ x ∈ s.src.drop s.pos, (codeAt s x.toNat).valid = true) ∧ (codeAt s sentinel).valid = false :=
  ⟨⟨⟨rfl, rfl⟩, rfl, by decide, rfl, by decide +kernel, by decide +kernel⟩,
    { State.reset with cv := true }, ⟨rfl, rfl⟩, rfl, by decide, by decide, by decide +kernel⟩

theorem witness_HdesRebuildsTheTree :
    Ready (fresh (magicBytes ++ [0xC0, 0x00])) ∧ Fits (fresh (magicBytes ++ [0xC0, 0x00])) ∧
      restBits (fresh (magicBytes ++ [0xC0, 0x00])) =
        bitsOf 32 (fresh (magicBytes ++ [0xC0, 0x00])).cfg.magic.toNat ++
          (shapeHeader (.leaf 256) ++ List.replicate 6 false) ∧
      symbolsOk (.leaf 256) ∧ shapeSize (.leaf 256) ≤ (fresh (magicBytes ++ [0xC0, 0x00])).cfg.nodeCap :=
  ⟨⟨rfl, rfl⟩, fits_fresh _, by decide +kernel, fun p hp => by rw [List.mem_singleton.mp hp]; decide, by decide⟩

/-- Three bytes of the magic, and a last bit that differs (H2, H3). -/
theorem witness_HdesRejectsAnotherMagic :
    (Ready (fresh [0xFA, 0xCE, 0x82]) ∧
      ¬ bitsOf 32 (fresh [0xFA, 0xCE, 0x82]).cfg.magic.toNat <+: restBits (fresh [0xFA, 0xCE, 0x82])) ∧
    Ready (fresh [0xFA, 0xCE, 0x82, 0x00]) ∧
      ¬ bitsOf 32 (fresh [0xFA, 0xCE, 0x82, 0x00]).cfg.magic.toNat <+: restBits (fresh [0xFA, 0xCE, 0x82, 0x00]) :=
  ⟨⟨⟨rfl, rfl⟩, by decide +kernel⟩, ⟨rfl, rfl⟩, by decide +kernel⟩

/-- Branch markers and sentinel leaves that keep a header open. -/
def openTokens (a b : Nat) : List Instr := List.replicate a .hdrBranch ++ List.replicate b (.hdrLeaf 256)

theorem openTokens_ok (a b : Nat) : HeaderTokens (openTokens a b) := by
  intro i hi
  rcases List.mem_append.mp hi with h | h
  · exact .inl (List.eq_of_mem_replicate h)
  · exact .inr ⟨256, by decide, List.eq_of_mem_replicate h⟩

/-- A source that holds these bits after the magic. -/
def headerSource (n : Nat) (bits : List Bool) : State := fresh (magicBytes ++ toBytes n bits)

/-- The end at the first marker (H5), at a full arena's marker (506 branches and 7 leaves), and inside a symbol (H6). -/
theorem witness_HdesRaisesEndOfHeader :
    (HeaderTokens (openTokens 0 0) ∧ stillOpen 1 (openTokens 0 0) = true ∧
      restBits (headerSource 0 []) =
        bitsOf 32 (headerSource 0 []).cfg.magic.toNat ++ ((openTokens 0 0).flatMap encode ++ [])) ∧
    (Ready (headerSource 72 ((openTokens 506 7).flatMap encode)) ∧
      Fits (headerSource 72 ((openTokens 506 7).flatMap encode)) ∧ HeaderTokens (openTokens 506 7) ∧
      stillOpen 1 (openTokens 506 7) = true ∧ (openTokens 506 7).length = Config.default.nodeCap ∧
      restBits (headerSource 72 ((openTokens 506 7).flatMap encode)) =
        bitsOf 32 (headerSource 72 ((openTokens 506 7).flatMap encode)).cfg.magic.toNat ++
          ((openTokens 506 7).flatMap encode ++ [])) ∧
    HeaderTokens (openTokens 2 0) ∧ stillOpen 1 (openTokens 2 0) = true ∧ (openTokens 2 0).length < Config.default.nodeCap ∧
      restBits (fresh (magicBytes ++ [0x24])) = bitsOf 32 (fresh (magicBytes ++ [0x24])).cfg.magic.toNat ++
        ((openTokens 2 0).flatMap encode ++ true :: [false, false, true, false, false]) :=
  ⟨⟨openTokens_ok 0 0, by decide, by decide +kernel⟩,
    ⟨⟨rfl, rfl⟩, fits_fresh _, openTokens_ok 506 7, by decide +kernel, by decide +kernel, by decide +kernel⟩,
    openTokens_ok 2 0, by decide, by decide, by decide +kernel⟩

/-- Symbol 257 at once (H13), and the 514th marker (H16). -/
theorem witness_HdesRejectsSymbolsAndNodesOutOfRange :
    (Ready (fresh (magicBytes ++ [0xC0, 0x40])) ∧ Fits (fresh (magicBytes ++ [0xC0, 0x40])) ∧ HeaderTokens (openTokens 0 0) ∧ stillOpen 1 (openTokens 0 0) = true ∧
      (openTokens 0 0).length < Config.default.nodeCap ∧ sentinel < (257 : Sym).toNat ∧
      restBits (fresh (magicBytes ++ [0xC0, 0x40])) =
        bitsOf 32 (fresh (magicBytes ++ [0xC0, 0x40])).cfg.magic.toNat ++
          ((openTokens 0 0).flatMap encode ++ (encode (.hdrLeafRsvd 257) ++ List.replicate 6 false))) ∧
    Ready (headerSource 65 []) ∧ Fits (headerSource 65 []) ∧ HeaderTokens (openTokens 513 0) ∧ stillOpen 1 (openTokens 513 0) = true ∧
      (openTokens 513 0).length = Config.default.nodeCap ∧
      restBits (headerSource 65 []) = bitsOf 32 (headerSource 65 []).cfg.magic.toNat ++
        ((openTokens 513 0).flatMap encode ++ false :: List.replicate 6 false) :=
  ⟨⟨⟨rfl, rfl⟩, fits_fresh _, openTokens_ok 0 0, by decide, by decide, by decide, by decide +kernel⟩, ⟨rfl, rfl⟩,
    fits_fresh _, openTokens_ok 513 0,
    by decide +kernel, by decide +kernel, by decide +kernel⟩

theorem witness_HdesFaultLeavesFlagsClear : Ready (fresh [0]) ∧ Fits (fresh [0]) := ⟨⟨rfl, rfl⟩, fits_fresh _⟩

theorem witness_SdecChecksALoneLeafFirst :
    (Ready lone ∧ lone.tv = true ∧ (nodeAt lone lone.root).leaf = true) ∧
      Ready lonely ∧ lonely.tv = true ∧ (nodeAt lonely lonely.root).leaf = true :=
  ⟨⟨⟨rfl, rfl⟩, rfl, by decide +kernel⟩, ⟨rfl, rfl⟩, rfl, by decide +kernel⟩

/-- X0's payload, E2 = `1 1 1 00 01 0`. -/
def payload : State := { treed with src := [0xE2] }

theorem payload_tree : TreeIn payload aaabTree := tree_like treed_tree 0 0 [0xE2] []

/-- The leaves of "AAAB". -/
def aaabLeaves : List (List Bool × Sym) := [([true], 0x41), ([true], 0x41), ([true], 0x41), ([false, false], 0x42)]

theorem aaabLeaves_ok : ByteLeaves (shapeOf aaabTree) aaabLeaves := by unfold ByteLeaves; decide

theorem witness_SdecDecodesToTheSentinel :
    (Ready payload ∧ payload.tv = true ∧ TreeIn payload aaabTree ∧ payload.upCnt.toNat ≤ 8 ∧
      ByteLeaves (shapeOf aaabTree) aaabLeaves ∧ ([false, true], 256) ∈ shapeLeaves (shapeOf aaabTree) ∧
      (256 : Sym).toNat = sentinel ∧ sourceBits payload = leafBits aaabLeaves ++ ([false, true] ++ [false])) ∧
    Ready lone ∧ lone.tv = true ∧ TreeIn lone (.leaf 0 256) ∧ lone.upCnt.toNat ≤ 8 ∧
      ByteLeaves (shapeOf (.leaf 0 256)) [] ∧ ([], 256) ∈ shapeLeaves (shapeOf (.leaf 0 256)) ∧
      sourceBits lone = leafBits [] ++ ([] ++ []) :=
  ⟨⟨⟨rfl, rfl⟩, rfl, payload_tree, by decide, aaabLeaves_ok, by decide, by decide, by decide +kernel⟩, ⟨rfl, rfl⟩, rfl,
    lone_tree, by decide, by unfold ByteLeaves; decide, by decide, by decide⟩

/-- No bit at all (X1), and one bit too few (X2). -/
theorem witness_SdecRaisesPayloadTruncated :
    (Ready treed ∧ treed.tv = true ∧ TreeIn treed aaabTree ∧ treed.upCnt.toNat ≤ 8 ∧
      ByteLeaves (shapeOf aaabTree) [] ∧ NoLeafIn (shapeOf aaabTree) []) ∧
    sourceBits { treed with src := [] } = leafBits [] ++ [] ∧
    ByteLeaves (shapeOf aaabTree) (aaabLeaves ++ [([false, false], 0x42)]) ∧ NoLeafIn (shapeOf aaabTree) [false] ∧
    sourceBits { treed with src := [0xE0] } = leafBits (aaabLeaves ++ [([false, false], 0x42)]) ++ [false] :=
  ⟨⟨⟨rfl, rfl⟩, rfl, treed_tree, by decide, by unfold ByteLeaves; decide, by unfold NoLeafIn; decide⟩, by decide +kernel,
    by unfold ByteLeaves; decide, by unfold NoLeafIn; decide, by decide +kernel⟩

theorem witness_SdecClosesOnEveryPath : Ready treed ∧ treed.tv = true := ⟨⟨rfl, rfl⟩, rfl⟩

theorem witness_CompWritesTheContainer :
    Ready (fresh aaab) ∧ Fits (fresh aaab) ∧ CountsFit (fresh aaab) ∧ aaab = (fresh aaab).srcLater.headD (fresh aaab).src ∧
      (∀ x ∈ aaab, x ∈ (fresh aaab).src.drop (fresh aaab).pos) ∧ (fresh aaab).closed = false :=
  ⟨⟨rfl, rfl⟩, fits_fresh _, counts_short (by decide), rfl, by decide, rfl⟩

theorem witness_CompClosesOnItsFaults :
    (∃ s : State, Ready s ∧ Fits s ∧ ¬ CountsFit s) ∧
      ∃ s : State, Ready s ∧ Fits s ∧ CountsFit s ∧ ∃ x ∈ s.srcLater.headD s.src, x ∉ s.src.drop s.pos :=
  ⟨⟨withCounts 1 (fresh aaab), ⟨rfl, rfl⟩, fits_like (fits_reset (w := 1) (by decide)) rfl,
      fun h => absurd (h 0x41) (by decide)⟩,
    { fresh aaab with srcLater := [[0x43]] }, ⟨rfl, rfl⟩, fits_like fits_default rfl, counts_short (by decide), 0x43, by decide, by decide⟩

theorem aaab_symbols : symbolsOk (shapeOf aaabTree) := by unfold symbolsOk; decide

theorem witness_DecompDecodesTheContainer :
    Ready (fresh aaabBox) ∧ Fits (fresh aaabBox) ∧ symbolsOk (shapeOf aaabTree) ∧
      shapeSize (shapeOf aaabTree) ≤ (fresh aaabBox).cfg.nodeCap ∧
      ByteLeaves (shapeOf aaabTree) aaabLeaves ∧ ([false, true], 256) ∈ shapeLeaves (shapeOf aaabTree) ∧
      (256 : Sym).toNat = sentinel ∧
      restBits (fresh aaabBox) = bitsOf 32 (fresh aaabBox).cfg.magic.toNat ++
        (shapeHeader (shapeOf aaabTree) ++ (leafBits aaabLeaves ++ ([false, true] ++ [false]))) :=
  ⟨⟨rfl, rfl⟩, fits_fresh _, aaab_symbols, by decide, aaabLeaves_ok, by decide, by decide, by decide +kernel⟩

theorem witness_DecompClosesOnItsFaults :
    (∃ t, Ready (fresh [0]) ∧ Fits (fresh [0]) ∧ exec .decomp (fresh [0]) = .next t ∧ malformedHeader t.err = true) ∧
      ¬ bitsOf 32 (fresh [0]).cfg.magic.toNat <+: restBits (fresh [0]) ∧
      symbolsOk (shapeOf aaabTree) ∧ shapeSize (shapeOf aaabTree) ≤ (fresh [0]).cfg.nodeCap ∧ ByteLeaves (shapeOf aaabTree) [] ∧
      NoLeafIn (shapeOf aaabTree) [] ∧
      restBits (fresh (aaabBox.take 8)) = bitsOf 32 (fresh (aaabBox.take 8)).cfg.magic.toNat ++
        (shapeHeader (shapeOf aaabTree) ++ (leafBits [] ++ [])) := by
  have h : after (exec .decomp (fresh [0])) (fun t => malformedHeader t.err) = some true := by decide +kernel
  obtain ⟨t, ht, hv⟩ := after_some h
  exact ⟨⟨t, ⟨rfl, rfl⟩, fits_fresh _, ht, hv⟩, by decide +kernel, aaab_symbols, by decide, by unfold ByteLeaves; decide,
    by unfold NoLeafIn; decide, by decide +kernel⟩

/-- What `COMP` of "AAAB" ends in. -/
theorem comp_aaab :
    ∃ t, exec .comp (fresh aaab) = .next t ∧ t.out = aaabBox ∧ t.err = .none := by
  obtain ⟨t, ht, hv⟩ := after_some test_comp_aaab
  exact ⟨t, ht, congrArg Prod.fst hv, congrArg (fun x => x.2.1) hv⟩

theorem decomp_aaab : ∃ t, exec .decomp (fresh aaabBox) = .next t ∧ t.err = .none := by
  have h : after (exec .decomp (fresh aaabBox)) State.err = some .none := by decide +kernel
  exact after_some h

theorem witness_MacrosAreTheirUnits :
    Ready (fresh aaab) ∧ (∃ t, exec .comp (fresh aaab) = .next t ∧ t.err = .none) ∧
      (∃ t, exec .decomp (fresh aaabBox) = .next t ∧ t.err = .none) ∧
      (∃ s t : State, Ready s ∧ exec .fcnt s = .next t ∧ t.err ≠ .none) ∧
      ∃ t, exec .hdes (fresh [0xFA, 0xCE, 0x82, 0x01, 0xC0, 0x40]) = .next t ∧ t.err ≠ .none := by
  have h1 : after (exec .fcnt (withCounts 1 (fresh aaab))) State.err = some .cntOvf := by
    decide +kernel
  have h2 : after (exec .hdes (fresh [0xFA, 0xCE, 0x82, 0x01, 0xC0, 0x40])) State.err = some .hdrSym := by decide +kernel
  obtain ⟨t, ht, he⟩ := after_some h1
  obtain ⟨u, hu, hf⟩ := after_some h2
  exact ⟨⟨rfl, rfl⟩, comp_aaab.imp fun _ h => ⟨h.1, h.2.2⟩, decomp_aaab,
    ⟨_, t, ⟨rfl, rfl⟩, ht, by rw [he]; decide⟩, u, hu, by rw [hf]; decide⟩

theorem witness_MacrosEndWithTheirOwnErrors :
    Ready (fresh aaab) ∧ Fits (fresh aaab) ∧ (fresh aaab).pos = 0 ∧ (fresh aaab).srcLater = [] ∧
      (∃ t, exec .tbld (fresh aaab) = .next t ∧ t.err = .seq) ∧ ∃ t, exec .rsvdB (fresh aaab) = .next t ∧ t.err = .badCmd :=
  ⟨⟨rfl, rfl⟩, fits_fresh _, rfl, rfl, ⟨_, rfl, rfl⟩, ⟨_, rfl, rfl⟩⟩

theorem witness_MacroStreamEvents :
    Ready (fresh aaab) ∧ Fits (fresh aaab) ∧ (fresh aaab).closed = false ∧ (∃ t, exec .comp (fresh aaab) = .next t ∧ t.err = .none) ∧
      ∃ t, exec .decomp (fresh aaabBox) = .next t :=
  ⟨⟨rfl, rfl⟩, fits_fresh _, rfl, comp_aaab.imp fun _ h => ⟨h.1, h.2.2⟩, decomp_aaab.imp fun _ h => h.1⟩

theorem freshRun_fresh (xs : List Byte) : FreshRun (fresh xs) xs := ⟨⟨rfl, rfl⟩, fits_fresh _, rfl, rfl, rfl, rfl, rfl⟩

theorem witness_DecompressionUndoesCompression :
    FreshRun (fresh aaab) aaab ∧ CountsFit (fresh aaab) ∧
      ∃ t, exec .comp (fresh aaab) = .next t ∧ FreshRun (fresh aaabBox) t.out ∧
        (fresh aaabBox).cfg.magic = (fresh aaab).cfg.magic := by
  obtain ⟨t, ht, hv, _⟩ := comp_aaab
  exact ⟨freshRun_fresh _, counts_short (by decide), t, ht, hv ▸ freshRun_fresh _, rfl⟩

/-- The container without its last byte. -/
theorem witness_EveryProperPrefixFails :
    FreshRun (fresh aaab) aaab ∧ CountsFit (fresh aaab) ∧ FreshRun (fresh (aaabBox.take 8)) (aaabBox.take 8) ∧
      (fresh (aaabBox.take 8)).cfg.magic = (fresh aaab).cfg.magic ∧
      ∃ t, exec .comp (fresh aaab) = .next t ∧ aaabBox.take 8 <+: t.out ∧ aaabBox.take 8 ≠ t.out :=
  ⟨freshRun_fresh _, counts_short (by decide), freshRun_fresh _, rfl,
    comp_aaab.imp fun _ h => ⟨h.1, by rw [h.2.1]; decide, by rw [h.2.1]; decide⟩⟩

/-- Two cores with counts of different widths. -/
theorem witness_CompIsAFunctionOfInputAndMagic :
    FreshRun (fresh aaab) aaab ∧ FreshRun (withCounts 2 (fresh aaab)) aaab ∧ CountsFit (fresh aaab) ∧
      CountsFit (withCounts 2 (fresh aaab)) ∧ (fresh aaab).cfg.magic = (withCounts 2 (fresh aaab)).cfg.magic ∧
      (∃ t, exec .comp (fresh aaab) = .next t) ∧ ∃ t, exec .comp (withCounts 2 (fresh aaab)) = .next t := by
  have h : after (exec .comp (withCounts 2 (fresh aaab))) State.err = some .none := by decide +kernel
  exact ⟨freshRun_fresh _, ⟨⟨rfl, rfl⟩, fits_like (fits_reset (w := 2) (by decide)) rfl, rfl, rfl, rfl, rfl, rfl⟩,
    counts_short (by decide), by unfold CountsFit; decide, rfl, comp_aaab.imp fun _ h => h.1,
    (after_some h).imp fun _ h => h.1⟩

theorem witness_EmptyInputMakesSixBytes :
    FreshRun (fresh []) [] ∧
      ∃ t, exec .comp (fresh []) = .next t ∧ FreshRun (fresh (magicBytes ++ [0xC0, 0x00])) t.out ∧
        (fresh (magicBytes ++ [0xC0, 0x00])).cfg.magic = (fresh []).cfg.magic := by
  obtain ⟨t, ht, hv⟩ := after_some test_comp_empty
  exact ⟨freshRun_fresh _, t, ht, hv ▸ freshRun_fresh _, rfl⟩

theorem witness_HeaderRoundTripKeepsTheCodes :
    Ready counted ∧ Fits counted ∧ counted.fv = true ∧ usedSymbols counted ≠ [] ∧ counted.out = [] ∧ counted.closed = false ∧
      ∃ a b d more, execAll [.tbld, .cgen] counted = .next a ∧ exec .hser a = .next b ∧ Ready d ∧ Fits d ∧
        d.cfg.magic = counted.cfg.magic ∧ restBits d = sinkBits b ++ more := by
  have h : after (execAll [.tbld, .cgen] counted) (fun a => after (exec .hser a) sinkBits) =
      some (some (restBits (fresh (aaabBox.take 8)))) := by decide +kernel
  obtain ⟨a, ha, hb⟩ := after_some h
  obtain ⟨b, hb, hs⟩ := after_some hb
  exact ⟨⟨rfl, rfl⟩, fits_counted, rfl, counted_used, rfl, rfl, a, b, fresh (aaabBox.take 8), [], ha, hb, ⟨rfl, rfl⟩,
    fits_fresh _, rfl,
    by rw [hs, List.append_nil]⟩

theorem witness_WrittenTokensAppendTheirBits :
    (Instr.magic 0).wf Config.default = true ∧ Instr.hdrBranch.wf Config.default = true ∧ (Instr.hdrLeaf 256).wf Config.default = true ∧
      ({ State.reset with phase := 4 } : State).phase = 4#4 ∧ (Instr.payloadCode []).wf Config.default = true ∧
      (Instr.pad 7).wf Config.default = true ∧ ({ State.reset with phase := 5 } : State).phase = 5#4 :=
  ⟨rfl, rfl, by decide, rfl, by decide, by decide, rfl⟩

theorem witness_HeaderTokensReadByHdes :
    (∃ s : State, s.phase = 6#4 ∧ Fits s ∧ s.nnode < s.cfg.nodeCap ∧ s.nnode = 512) ∧
      (∃ s : State, s.phase = 6#4 ∧ Fits s ∧ s.nnode = s.cfg.nodeCap) ∧ (256 : Sym).toNat ≤ sentinel ∧
      sentinel < (257 : Sym).toNat :=
  ⟨⟨{ State.reset with phase := 6, nnode := 512 }, rfl,
      fits_handles fits_default (r := 0) (n := 512) (by decide) (by decide) 6 false, by decide, rfl⟩,
    ⟨{ State.reset with phase := 6, nnode := 513 }, rfl,
      fits_handles fits_default (r := 0) (n := 513) (by decide) (by decide) 6 false, rfl⟩, by decide, by decide⟩

/-- `SDEC` at the root of T3, and at a lone leaf. -/
theorem witness_PayloadCodesReadBySdec :
    (∃ s : State, s.phase = 7#4 ∧ TreeIn s aaabTree ∧ s.cur = s.root ∧
      ([false, true], 256) ∈ shapeLeaves (shapeOf aaabTree) ∧ ([false, false], 0x42) ∈ shapeLeaves (shapeOf aaabTree)) ∧
    (∃ s : State, s.phase = 7#4 ∧ TreeIn s (.leaf 0 0x41) ∧ s.cur = s.root ∧
      ([], 0x41) ∈ shapeLeaves (shapeOf (.leaf 0 0x41))) ∧
    isCommand (.pad 0) = false ∧ State.reset.phase ≠ 5#4 :=
  ⟨⟨{ treed with phase := 7, cur := 4 }, rfl, tree_like treed_tree 7 4 aaab [], rfl, by decide, by decide⟩,
    ⟨{ lonely with phase := 7 }, rfl, tree_like lonely_tree 7 0 [] [], rfl, by decide⟩, rfl, by decide⟩

theorem witness_FrameOfTableUnits :
    (∃ t, exec .fcnt (fresh aaab) = .next t) ∧ (∃ t, exec .tbld counted = .next t) ∧ ∃ t, exec .cgen treed = .next t :=
  ⟨(after_some test_fcnt_aaab).imp fun _ h => h.1, (after_some test_tbld_aaab).imp fun _ h => h.1,
    (after_some test_cgen_aaab).imp fun _ h => h.1⟩

theorem witness_FrameOfStreamCommands :
    (∃ t, exec .hser treed = .next t) ∧ (∃ t, exec .senc coded = .next t) ∧ (∃ t, exec .hdes (fresh aaabBox) = .next t) ∧
      (∃ t, exec .sdec payload = .next t) ∧ (∃ t, exec .comp (fresh aaab) = .next t) ∧
      ∃ t, exec .decomp (fresh aaabBox) = .next t :=
  ⟨(after_some test_hser_aaab).imp fun _ h => h.1, (after_some test_senc_aaab).imp fun _ h => h.1,
    (after_some test_hdes_aaab).imp fun _ h => h.1, (after_some test_sdec_aaab).imp fun _ h => h.1,
    comp_aaab.imp fun _ h => h.1, decomp_aaab.imp fun _ h => h.1⟩

theorem witness_FrameOfSystemCommandsAndTokens :
    (∃ t, exec .rsvdF State.reset = .next t) ∧ (∃ t, exec .clr coded = .next t) ∧
      (∃ t, exec (.hdrLeafRsvd 257) { State.reset with phase := 6 } = .next t) ∧
      ∃ t, exec (.pad 7) { State.reset with phase := 5 } = .next t :=
  ⟨⟨_, rfl⟩, ⟨_, rfl⟩, ⟨_, rfl⟩, ⟨_, rfl⟩⟩

theorem witness_DecodingUndoesEncoding :
    (Instr.comp.wf Config.default = true ∧ fits .command .comp = true) ∧ ((Instr.magic 1).wf Config.default = true ∧ fits .magic (.magic 1) = true) ∧
      ((Instr.hdrLeaf 256).wf Config.default = true ∧ fits .header (.hdrLeaf 256) = true) ∧
      ((Instr.hdrLeafRsvd 257).wf Config.default = true ∧ fits .header (.hdrLeafRsvd 257) = true) ∧
      ((Instr.payloadCode [false, true]).wf Config.default = true ∧
        fits (.payload [[true], [false, false], [false, true]]) (.payloadCode [false, true]) = true) ∧
      (Instr.pad 7).wf Config.default = true ∧ fits (.padding 7) (.pad 7) = true :=
  ⟨⟨rfl, rfl⟩, ⟨rfl, rfl⟩, ⟨by decide, rfl⟩, ⟨by decide, rfl⟩, ⟨by decide, by decide⟩, by decide, by decide⟩

/-- A state with a tree, the host about to issue `SDEC`. -/
theorem witness_StepKeepsTheInvariant : Inv { lone with host := [.write .cmd 7] } :=
  { fits := fits_like fits_lone rfl
    idle := ⟨rfl, rfl, rfl, fun h => absurd rfl h⟩
    buffers := ⟨by decide, by decide⟩
    tables := ⟨fun h => absurd h (by decide), fun _ => ⟨.leaf 0 256, tree_like lone_tree 0 0 [] [.write .cmd 7]⟩, fun h => absurd h (by decide)⟩ }

theorem witness_StepKeepsTheConfiguration : ∃ t, step (State.reset.withFetchWord 8 1) = .next t := ⟨_, rfl⟩

end Sys2Proof.Tests
end

section
/-! The invariant holds after reset, and every step answers a next state and keeps it (spec 10_state R10 to R27,
46_commands R140 to R154): a command by the soundness of its body, any other host action because it touches only the
host's side of the core or ends in reset. -/

namespace Sys2Proof.Machine

/-! ### Reset -/

theorem config_default_consistent : Config.default.Consistent where
  count := by decide
  weight := rfl
  arena := by decide
  handle := by decide
  depth := by decide
  length := by decide
  opcode := rfl
  error := rfl

theorem freqAt_reset (k : Nat) : freqAt State.reset k = 0 := by
  by_cases hk : k < 257 <;> simp [freqAt, State.reset, hk]

theorem codeAt_reset (k : Nat) : codeAt State.reset k = { valid := false, len := 0, bits := 0 } := by
  by_cases hk : k < 257 <;> simp [codeAt, State.reset, hk]

/-- Inside the arena an entry of zeros, outside it the free value in its widths (log 10). -/
theorem nodeAt_reset (k : Nat) :
    nodeAt State.reset k =
      fitNode Config.default
        (if k < Config.default.nodeCap then { leaf := false, sym := 0, weight := 0, left := 0, right := 0 }
          else Config.nodeOutside k) := by
  by_cases hk : k < Config.default.nodeCap <;> simp [nodeAt, State.reset, hk, fitNode, narrow]

theorem reset_fits : Fits State.reset where
  config := config_default_consistent
  arena := Array.size_replicate
  freq k := by rw [freqAt_reset]; exact Nat.two_pow_pos _
  node k := by rw [nodeAt_reset]; exact fitNode_fitNode _ _
  code k := by rw [codeAt_reset]; simp only [fitCode, narrow_eq (Nat.two_pow_pos _)]
  root := Nat.two_pow_pos _
  nnode := Nat.two_pow_pos _
  cur := Nat.two_pow_pos _
  live := Nat.two_pow_pos _

/-- With every register clear no flag vouches for a table, so only the widths are left to ask for (46_commands R150,
10_state R27). -/
theorem clearRegisters_inv_of_fits {s : State} (h : Fits (clearRegisters s)) : Inv (clearRegisters s) where
  fits := h
  idle := ⟨rfl, rfl, rfl, fun he => absurd rfl he⟩
  buffers := ⟨by show 0 < 1; decide, by show 0 ≤ 8; decide⟩
  tables := ⟨fun hf => (by cases hf), fun hf => (by cases hf), fun hf => (by cases hf)⟩

/-! ### What the invariant does not look at -/

/-- `t` differs from `s` only in `BUSY`, `DONE`, `ERR`, `PHASE` and on the host's side of the core. -/
def ControlFrame (s t : State) : Prop :=
  t = { s with
    busy := t.busy, done := t.done, err := t.err, phase := t.phase, src := t.src, pos := t.pos, srcLater := t.srcLater,
    out := t.out, closed := t.closed, events := t.events, host := t.host, rdata := t.rdata, freeIdx := t.freeIdx }

/-- What holds inside a command too speaks of neither the control bits nor the host's side. -/
theorem Sound.control {s t : State} (h : Sound s) (k : ControlFrame s t) : Sound t := by
  unfold ControlFrame at k
  refine h.congr (k ▸ ⟨h.buffers.packer, h.buffers.unpacker⟩) (h.fits.congr ?_ ?_ ?_ ?_ ?_ ?_ ?_ ?_)
    ?_ ?_ ?_ ?_ ?_ ?_ ?_ ?_ ?_ ?_
  all_goals rw [k]

/-- A state with the same control bits keeps the whole invariant. -/
theorem Inv.control {s t : State} (h : Inv s) (k : ControlFrame s t) (hb : t.busy = s.busy) (hp : t.phase = s.phase)
    (he : t.err = s.err) (hd : t.done = s.done) : Inv t :=
  (h.sound.control k).inv (hb.trans h.idle.busy) (hp.trans h.idle.phase) (by rw [he, hd]; exact h.idle.done)

/-! ### Commands -/

theorem Ends.imp {α : Type} {P Q : State → Prop} {r : Res α} (h : Ends P r) (hr : ∀ s, P s → Q s) : Ends Q r := by
  cases r with
  | ok a s => exact hr s h
  | raised e s => exact hr s h
  | stuck x => exact h

/-- A body that starts in state `s` ends soundly and holds no new error but the one it raises. -/
def SoundFrom (body : State → Res Unit) (s : State) : Prop := Ends (fun u => Sound u ∧ u.err = s.err) (body s)

theorem gate_inv {s : State} (h : Inv s) {run : State → Host.Outcome State Fault Refusal}
    (hr : Ready s → ∃ t, run { s with done := false } = .next t ∧ Inv t) :
    ∃ t, gate s run = .next t ∧ Inv t := by
  by_cases hs : Ready s
  · rw [gate_ready hs]; exact hr hs
  · exact ⟨s, gate_ignored hs run, h⟩

/-- A refusal raises `DONE` with its error (46_commands R142, R143). -/
theorem refuse_inv {s : State} (h : Inv s) (e : Err) : Inv (refuse e { s with done := false }) :=
  (h.sound.control (t := refuse e { s with done := false }) rfl).inv h.idle.busy h.idle.phase fun _ => rfl

theorem runReserved_inv {s : State} (h : Inv s) : ∃ t, runReserved s = .next t ∧ Inv t :=
  gate_inv h fun _ => ⟨_, rfl, refuse_inv h .badCmd⟩

/-- A body run on a ready core starts without an error, so it ends as `conclude_inv` asks. -/
theorem SoundFrom.conclude {body : State → Res Unit} {s : State} (h : SoundFrom body s) (he : s.err = .none) :
    ∃ t, Machine.conclude (body s) = .next t ∧ Inv t :=
  conclude_inv (h.imp fun _ hu => ⟨hu.1, hu.2.trans he⟩)

/-- A unit command keeps the invariant when its body ends soundly wherever the flag it needs is set. -/
theorem runUnit_inv {s : State} (h : Inv s) {op : BitVec 4} {needs : State → Bool} {body : State → Res Unit}
    (hb : Sound (started op s) → needs { s with done := false } = true → SoundFrom body (started op s)) :
    ∃ t, runUnit op needs body s = .next t ∧ Inv t :=
  gate_inv h fun hs => by
    by_cases hn : needs { s with done := false } = true
    · rw [if_pos hn]; exact (hb (h.sound.control rfl) hn).conclude hs.2
    · rw [if_neg hn]; exact ⟨_, rfl, refuse_inv h .seq⟩

theorem runMacro_inv {s : State} (h : Inv s) {body : State → Res Unit}
    (hb : Sound (startedMacro s) → SoundFrom body (startedMacro s)) : ∃ t, runMacro body s = .next t ∧ Inv t :=
  gate_inv h fun hs => (hb (h.sound.control rfl)).conclude hs.2

theorem clearRegisters_fits {s : State} (h : Fits s) : Fits (clearRegisters s) :=
  { h with
    root := Nat.two_pow_pos _, nnode := Nat.two_pow_pos _, cur := Nat.two_pow_pos _, live := Nat.two_pow_pos _ }

theorem execClr_inv {s : State} (h : Inv s) : ∃ t, execClr s = .next t ∧ Inv t :=
  ⟨_, if_neg (by rw [h.idle.busy]; decide), clearRegisters_inv_of_fits (clearRegisters_fits h.fits)⟩

/-- Every command the host can issue ends in a next state that meets the invariant. -/
theorem exec_command_inv {i : Instr} (hi : isCommand i = true) {s : State} (h : Inv s) :
    ∃ t, exec i s = .next t ∧ Inv t := by
  cases i with
  | nop => exact runMacro_inv h fun hs => ⟨hs, rfl⟩
  | fcnt => exact runUnit_inv h fun hs _ => fcntBody_sound hs
  | tbld => exact runUnit_inv h fun hs hv => (tbldBody_sound hs hv).imp fun _ ⟨hu, he, _⟩ => ⟨hu, he⟩
  | cgen => exact runUnit_inv h fun hs hv => (cgenBody_sound hs hv).imp fun _ ⟨hu, he, _⟩ => ⟨hu, he⟩
  | hser => exact runUnit_inv h fun hs hv => (hserBody_sound hs hv).imp fun _ ⟨hu, he, _⟩ => ⟨hu, he⟩
  | senc => exact runUnit_inv h fun hs _ => sencBody_sound hs
  | hdes => exact runUnit_inv h fun hs _ => hdesBody_sound hs
  | sdec => exact runUnit_inv h fun hs _ => sdecBody_sound hs
  | comp => exact runMacro_inv h compBody_sound
  | decomp => exact runMacro_inv h decompBody_sound
  | clr => exact execClr_inv h
  | rsvdB | rsvdC | rsvdD | rsvdE | rsvdF => exact runReserved_inv h
  | magic | hdrBranch | hdrLeaf | hdrLeafRsvd | payloadCode | pad => cases hi

/-! ### The host's actions -/

/-- Every word is a command (30_encoding R63, R64). -/
theorem decodeWord_isCommand (opW : Nat) (w : BitVec 16) : isCommand (decodeWord opW w) = true :=
  (by decide : ∀ op : BitVec 4, isCommand (decodeCommand op) = true) _

theorem writeReg_inv (r : HostReg) (w : BitVec 16) {s : State} (h : Inv s) :
    ∃ t, writeReg r w s = .next t ∧ Inv t := by
  cases r with
  | cmd => exact exec_command_inv (decodeWord_isCommand _ w) h
  | status => exact ⟨s, rfl, h⟩

/-- The command that is abandoned would have ended in a next state, and reset needs only the parameters. -/
theorem resetDuring_inv (w : BitVec 16) (n : Nat) {s : State} (h : Inv s) :
    ∃ t, resetDuring w n s = .next t ∧ Inv t := by
  obtain ⟨t, ht, -⟩ := exec_command_inv (decodeWord_isCommand s.cfg.opW w) h
  have hc : (replayStreams ((newEvents s t).take n) s).cfg = s.cfg := by rw [replayStreams_frame]
  exact ⟨_, by rw [resetDuring, ht], assertReset_inv (by rw [hc]; exact h.fits.config)⟩

theorem hostAct_inv (a : HostAction) {s : State} (h : Inv s) : ∃ t, hostAct a s = .next t ∧ Inv t := by
  cases a with
  | write r w => exact writeReg_inv r w h
  | read r => exact ⟨_, rfl, h.control rfl rfl rfl rfl rfl⟩
  | presentSource bytes position later => exact ⟨_, rfl, h.control rfl rfl rfl rfl rfl⟩
  | presentSink content closed => exact ⟨_, rfl, h.control rfl rfl rfl rfl rfl⟩
  | reset => exact ⟨_, rfl, assertReset_inv h.fits.config⟩
  | resetDuring w n => exact resetDuring_inv w n h

theorem hostStep_inv {s : State} (h : Inv s) : ∃ t, hostStep s = .next t ∧ Inv t := by
  unfold hostStep
  split
  · exact ⟨s, rfl, h⟩
  · exact hostAct_inv _ (h.control rfl rfl rfl rfl rfl)

/-! ### The obligations -/

/-- Settles O58: every register is clear after reset, so only the widths of the places are to be shown. -/
theorem resetMeetsTheInvariant : Obligations.ResetMeetsTheInvariant :=
  clearRegisters_inv_of_fits (s := State.reset) reset_fits

/-- Settles O59: a step is one host action, and each of them keeps the invariant. -/
theorem stepKeepsTheInvariant : Obligations.StepKeepsTheInvariant := fun _ h => hostStep_inv h

end Sys2Proof.Machine
end

section
/-! Which commands can stop, and on which tables (spec 10_state R10, R12; log 11): an outcome is a fault only if the
body of the command is stuck, `FCNT`, `SENC`, `HDES`, `SDEC`, the macros and the tokens never are, and the other three
are stuck only where their table is broken. -/

namespace Sys2Proof.Machine

/-! ### A fault is a stuck body -/

/-- The operation ends, normally or with a fault of R170. -/
def Completes {α : Type} (r : Res α) : Prop := ∀ f, r ≠ .stuck f

theorem completes_ok {α : Type} (a : α) (s : State) : Completes (.ok a s) := nofun

theorem completes_raised {α : Type} (e : Err) (s : State) : Completes (.raised e s : Res α) := nofun

theorem Completes.bind {α β : Type} {r : Res α} {f : α → State → Res β} (h : Completes r)
    (hf : ∀ a s, Completes (f a s)) : Completes (andThen r f) := by
  cases r with
  | ok a s => exact hf a s
  | raised e s => exact completes_raised e s
  | stuck x => exact absurd rfl (h x)

theorem Completes.ite {α : Type} {p : Prop} [Decidable p] {a b : Res α} (ha : Completes a) (hb : Completes b) :
    Completes (if p then a else b) := by
  split
  · exact ha
  · exact hb

theorem conclude_fault_iff {r : Res Unit} {f : Fault} : conclude r = .fault f ↔ r = .stuck f := by
  cases r <;> simp [conclude]

theorem concludeToken_fault_iff {r : Res Unit} {f : Fault} : concludeToken r = .fault f ↔ r = .stuck f := by
  cases r <;> simp [concludeToken]

/-- An ignored command does not stop the machine. -/
theorem gate_fault {s : State} {run : State → Host.Outcome State Fault Refusal} {f : Fault}
    (h : gate s run = .fault f) : run { s with done := false } = .fault f := by
  by_cases hs : Ready s
  · rwa [gate_ready hs] at h
  · rw [gate_ignored hs] at h; cases h

theorem runUnit_fault {op : BitVec 4} {needs : State → Bool} {body : State → Res Unit} {s : State} {f : Fault}
    (h : runUnit op needs body s = .fault f) : body (started op s) = .stuck f := by
  have hg := gate_fault h
  by_cases hn : needs { s with done := false } = true
  · rw [if_pos hn] at hg; exact conclude_fault_iff.mp hg
  · rw [if_neg hn] at hg; cases hg

theorem runMacro_fault {body : State → Res Unit} {s : State} {f : Fault} (h : runMacro body s = .fault f) :
    body (startedMacro s) = .stuck f := conclude_fault_iff.mp (gate_fault h)

/-- A unit that is taken stops the machine when its body is stuck. -/
theorem runUnit_stuck {s : State} (hs : Ready s) {op : BitVec 4} {needs : State → Bool} {body : State → Res Unit}
    {f : Fault} (hn : needs { s with done := false } = true) (hb : body (started op s) = .stuck f) :
    runUnit op needs body s = .fault f := by
  rw [runUnit_started hs hn, conclude_fault_iff, hb]

/-! ### What a body starts from -/

theorem Fits.started {s : State} (h : Fits s) (op : BitVec 4) : Fits (started op s) :=
  h.congr rfl rfl rfl rfl rfl rfl rfl rfl

theorem Fits.startedMacro {s : State} (h : Fits s) : Fits (startedMacro s) :=
  h.congr rfl rfl rfl rfl rfl rfl rfl rfl

theorem TreeOk.started {s : State} (h : TreeOk s) (op : BitVec 4) : TreeOk (started op s) := by
  obtain ⟨T, hT⟩ := h
  exact ⟨T, TreeIn_congr (s := s) (t := Machine.started op s) rfl rfl rfl rfl hT⟩

/-! ### Bodies that always end -/

theorem fcntBody_completes (s : State) : Completes (fcntBody s) := by
  rcases fcntBody_cases s with ⟨_, u, hu, _⟩ | ⟨_, u, _, _, _, hu, _⟩
  · rw [hu]; exact completes_ok _ _
  · rw [hu]; exact completes_raised _ _

theorem sencBody_completes (s : State) : Completes (sencBody s) := by
  rcases sencBody_cases s with ⟨u, hu, _⟩ | ⟨u, hu, _⟩ | ⟨u, _, _, _, hu, _⟩
  · rw [hu]; exact completes_ok _ _
  · rw [hu]; exact completes_raised _ _
  · rw [hu]; exact completes_raised _ _

theorem hdesBody_completes (s : State) : Completes (hdesBody s) := by
  rcases hdesBody_ends s with ⟨u, hu, _⟩ | ⟨u, e, hu, _⟩
  · rw [hu]; exact completes_ok _ _
  · rw [hu]; exact completes_raised _ _

theorem sdecBody_completes (s : State) : Completes (sdecBody s) := by
  rcases sdecBody_cases s with ⟨u, hu, _⟩ | ⟨u, e, hu, _⟩
  · rw [hu]; exact completes_ok _ _
  · rw [hu]; exact completes_raised _ _

theorem decompBody_completes (s : State) : Completes (decompBody s) := by
  obtain ⟨u, _, _, hu | ⟨e, hu, _⟩⟩ := decompBody_cases s
  · rw [hu]; exact completes_ok _ _
  · rw [hu]; exact completes_raised _ _

/-- `COMP` makes its own counts, and with them a tree, whatever the tables held before (46_commands R145). -/
theorem compBody_completes {s : State} (h : Fits s) : Completes (compBody s) := by
  by_cases hc : CountsFit s
  · obtain ⟨e, _, _, hb⟩ := compBody_mid h hc
    rw [hb]; exact sencBody_completes e
  · obtain ⟨u, _, _, _, hb, _⟩ := compBody_overflow hc
    rw [hb]; exact completes_raised _ _

theorem rootLeafEnd_completes (s : State) : Completes (rootLeafEnd s) :=
  .ite (completes_ok _ _) (completes_raised _ _)

theorem checkMagic_completes (m : BitVec 32) (s : State) : Completes (checkMagic m s) :=
  .ite (completes_ok _ _) (completes_raised _ _)

theorem takeHandle_completes (s : State) : Completes (takeHandle s) :=
  .ite (completes_raised _ _) (completes_ok _ _)

theorem buildLeaf_completes (h v : Nat) (s : State) : Completes (buildLeaf h v s) :=
  .ite (completes_raised _ _) (completes_ok _ _)

theorem takeLeaf_completes (v : Nat) (s : State) : Completes (takeLeaf v s) :=
  (takeHandle_completes s).bind fun h t => buildLeaf_completes h v t

theorem takeBranch_completes (s : State) : Completes (takeBranch s) :=
  (takeHandle_completes s).bind fun _ _ => completes_ok _ _

/-! ### Outcomes that are never a fault -/

/-- The machine does not stop with a fault. -/
def NoFault (o : Host.Outcome State Fault Refusal) : Prop := ∀ f, o ≠ .fault f

theorem noFault_next (s : State) : NoFault (.next s) := nofun

theorem Completes.runUnit_noFault {op : BitVec 4} {needs : State → Bool} {body : State → Res Unit} {s : State}
    (h : Completes (body (started op s))) : NoFault (runUnit op needs body s) := fun f hf => h f (runUnit_fault hf)

theorem Completes.runMacro_noFault {body : State → Res Unit} {s : State} (h : Completes (body (startedMacro s))) :
    NoFault (runMacro body s) := fun f hf => h f (runMacro_fault hf)

theorem Completes.conclude_noFault {r : Res Unit} (h : Completes r) : NoFault (conclude r) :=
  fun f hf => h f (conclude_fault_iff.mp hf)

theorem Completes.concludeToken_noFault {r : Res Unit} (h : Completes r) : NoFault (concludeToken r) :=
  fun f hf => h f (concludeToken_fault_iff.mp hf)

theorem NoFault.ite {p : Prop} [Decidable p] {a b : Host.Outcome State Fault Refusal} (ha : NoFault a)
    (hb : NoFault b) : NoFault (if p then a else b) := by
  split
  · exact ha
  · exact hb

theorem runReserved_noFault (s : State) : NoFault (runReserved s) := fun _ hf => nomatch gate_fault hf

theorem readCode_noFault (c : List Bool) (s : State) : NoFault (readCode c s) := by
  refine .ite (rootLeafEnd_completes s).conclude_noFault ?_
  split
  · exact noFault_next _
  · exact noFault_next _

/-- Only `TBLD`, `CGEN` and `HSER` use a table that they did not check or make (log 11). -/
theorem exec_noFault {s : State} (h : Fits s) {i : Instr} (hi : i ∉ [Instr.tbld, .cgen, .hser]) :
    NoFault (exec i s) := by
  cases i with
  | tbld | cgen | hser => exact absurd (by decide) hi
  | nop => exact (completes_ok () (startedMacro s)).runMacro_noFault (body := Res.ok ())
  | fcnt => exact (fcntBody_completes _).runUnit_noFault
  | senc => exact (sencBody_completes _).runUnit_noFault
  | hdes => exact (hdesBody_completes _).runUnit_noFault
  | sdec => exact (sdecBody_completes _).runUnit_noFault
  | comp => exact (compBody_completes h.startedMacro).runMacro_noFault
  | decomp => exact (decompBody_completes _).runMacro_noFault
  | clr => exact .ite (noFault_next _) (noFault_next _)
  | rsvdB | rsvdC | rsvdD | rsvdE | rsvdF => exact runReserved_noFault s
  | magic m => exact .ite (noFault_next _) (.ite (checkMagic_completes m s).concludeToken_noFault (noFault_next _))
  | hdrBranch => exact .ite (noFault_next _) (.ite (takeBranch_completes s).concludeToken_noFault (noFault_next _))
  | hdrLeaf sym => exact .ite (noFault_next _) (.ite (takeLeaf_completes _ s).concludeToken_noFault (noFault_next _))
  | hdrLeafRsvd sym => exact .ite (takeLeaf_completes _ s).concludeToken_noFault (noFault_next _)
  | payloadCode c => exact .ite (noFault_next _) (.ite (readCode_noFault c s) (noFault_next _))
  | pad n => exact .ite (noFault_next _) (noFault_next _)

/-! ### The three commands that can stop -/

/-- Any used symbol makes a tree, so `TBLD` stops only without one (10_state R10). -/
theorem execTbld_fault {s : State} (hs : Fits s) {f : Fault} (h : execTbld s = .fault f) :
    f = .noLiveNode ∧ usedSymbols s = [] := by
  have hb := runUnit_fault h
  by_cases hu : usedSymbols s = []
  · rw [tbldBody_stuck (s := started 2 s) hu] at hb
    cases hb; exact ⟨rfl, hu⟩
  · obtain ⟨u, T, hok, _⟩ := tbldBody_spec (hs.started 2).build (hu : usedSymbols (started 2 s) ≠ [])
    rw [hok] at hb; cases hb

/-- `CGEN` ends on every finite tree (10_state R12). -/
theorem execCgen_fault {s : State} {f : Fault} (h : execCgen s = .fault f) : f = .walkNotFinite ∧ ¬ TreeOk s := by
  have hb := runUnit_fault h
  constructor
  · rcases cgenBody_cases (started 3 s) with ⟨u, hu, _⟩ | hu
    · rw [hu] at hb; cases hb
    · rw [hu] at hb; cases hb; rfl
  · intro ht
    obtain ⟨T, hT⟩ := ht.started 3
    obtain ⟨u, hu, _⟩ := cgenBody_spec hT
    rw [hu] at hb; cases hb

/-- `HSER` ends on every finite tree (10_state R12). -/
theorem execHser_fault {s : State} {f : Fault} (h : execHser s = .fault f) : f = .walkNotFinite ∧ ¬ TreeOk s := by
  have hb := runUnit_fault h
  constructor
  · rcases hserBody_cases (started 4 s) with ⟨u, hu, _⟩ | hu
    · rw [hu] at hb; cases hb
    · rw [hu] at hb; cases hb; rfl
  · intro ht
    obtain ⟨T, hT⟩ := ht.started 4
    rw [hserBody_spec hT] at hb; cases hb

/-! ### An internal node that is its own left child -/

/-- Node `h` is internal and its own left child, so no walk from it reaches a leaf. -/
def SelfLeft (s : State) (h : Nat) : Prop := (nodeAt s h).leaf = false ∧ (nodeAt s h).left = h

theorem SelfLeft.congr {s t : State} {h : Nat} (k : SelfLeft s h) (hn : t.node = s.node) (hc : t.cfg = s.cfg) :
    SelfLeft t h := by unfold SelfLeft; rwa [nodeAt_congr hn hc]

theorem walk_selfLeft {s : State} {h : Nat} (k : SelfLeft s h) (n : Nat) (path : List Bool) :
    walk n h path s = none := by
  induction n generalizing path with
  | zero => rfl
  | succ n ih => rw [walk, if_neg (by rw [k.1]; decide), k.2, ih]

theorem writeTree_selfLeft {s : State} {h : Nat} (k : SelfLeft s h) (n : Nat) : writeTree n h s = none := by
  induction n generalizing s with
  | zero => rfl
  | succ n ih =>
    have hf : SinkFrame s (putBranch s) := putBitList_frame _ s
    rw [writeTree, if_neg (by rw [k.1]; decide), k.2, ih (k.congr hf.node hf.cfg)]

theorem cgenBody_selfLeft {s : State} (k : SelfLeft s s.root) : cgenBody s = .stuck .walkNotFinite := by
  have hk : SelfLeft (invalidateCodes (clearCv s)) s.root := k.congr rfl rfl
  rw [cgenBody, walk_selfLeft hk]

theorem hserBody_selfLeft {s : State} (k : SelfLeft s s.root) : hserBody s = .stuck .walkNotFinite := by
  have hf : SinkFrame (emptyPacker s) (putMagic s.cfg.magic (emptyPacker s)) := putBitList_frame _ _
  have hk : SelfLeft (putMagic s.cfg.magic (emptyPacker s)) s.root := k.congr hf.node hf.cfg
  rw [hserBody, writeTree_selfLeft hk]

/-! ### The obligation -/

/-- Every fault names the table that is broken. -/
theorem exec_fault {s : State} (hs : Fits s) {i : Instr} {f : Fault} (h : exec i s = .fault f) :
    (f = .noLiveNode ∧ i = .tbld ∧ usedSymbols s = []) ∨
      (f = .walkNotFinite ∧ i ∈ [Instr.cgen, .hser] ∧ ¬ TreeOk s) := by
  cases i with
  | tbld =>
    obtain ⟨hf, hu⟩ := execTbld_fault hs h
    exact .inl ⟨hf, rfl, hu⟩
  | cgen =>
    obtain ⟨hf, hn⟩ := execCgen_fault h
    exact .inr ⟨hf, by decide, hn⟩
  | hser =>
    obtain ⟨hf, hn⟩ := execHser_fault h
    exact .inr ⟨hf, by decide, hn⟩
  | _ => exact absurd h (exec_noFault hs (by simp) f)

/-- Settles O21: a fault is a stuck body, and the three bodies that can be stuck end where their table is good. -/
theorem stopsOnlyOnBrokenTables : Obligations.StopsOnlyOnBrokenTables := by
  refine fun s hr hs => ⟨fun hv hu => runUnit_stuck hr hv (tbldBody_stuck hu), fun _ _ => exec_fault hs,
    fun hv hl hc => ?_⟩
  have hk : SelfLeft s s.root := ⟨hl, hc⟩
  exact ⟨runUnit_stuck hr hv (cgenBody_selfLeft (hk.congr rfl rfl)),
    runUnit_stuck hr hv (hserBody_selfLeft (hk.congr rfl rfl))⟩

end Sys2Proof.Machine
end

section
/-! The host's port: a step takes the first pending action, and the fields of `STATUS` and of a command word (spec
10_state R18 to R20, R27, 60_exceptions R170, R171, R179). -/

namespace Sys2Proof.Machine

/-! ### One step -/

theorem step_action {s : State} {a : HostAction} {rest : List HostAction} (h : s.host = a :: rest) :
    step s = hostAct a { s with host := rest } := by
  unfold step hostStep
  rw [h]

theorem step_idle {s : State} (h : s.host = []) : step s = .next s := by
  unfold step hostStep
  rw [h]

/-- The action that `withFetchWord` puts first is gone when its command runs. -/
theorem step_withFetchWord (s : State) (nbits w : Nat) :
    step (s.withFetchWord nbits w) = exec (decodeWord s.cfg.opW (BitVec.ofNat 16 w)) s :=
  step_action (s := s.withFetchWord nbits w) rfl

/-! ### Command words -/

/-- A command word is its bits 3:0 (10_state R19). -/
theorem decodeWord_four (w : BitVec 16) : decodeWord 4 w = decodeCommand (w.extractLsb' 0 4) := by
  have h : BitVec.ofNat 4 (narrow 4 w.toNat) = w.extractLsb' 0 4 := by
    apply BitVec.eq_of_toNat_eq
    simp [narrow]
  rw [decodeWord, h]

/-! ### Error codes -/

theorem errCode_lt (e : Err) : errCode e < 2 ^ 4 := by cases e <;> decide

theorem errCode_eq_zero_iff (e : Err) : errCode e = 0 ↔ e = .none := by cases e <;> decide

theorem malformedHeader_iff (e : Err) : malformedHeader e = true ↔ 1 ≤ errCode e ∧ errCode e ≤ 5 := by
  cases e <;> decide

theorem truncatedPayload_iff (e : Err) : truncatedPayload e = true ↔ errCode e = 6 := by cases e <;> decide

theorem errLine_iff (s : State) : errLine s = true ↔ s.err ≠ .none := decide_eq_true_iff

/-! ### The `STATUS` word -/

theorem statusWord_flags (s : State) :
    (statusWord s).getLsbD 0 = s.busy ∧ (statusWord s).getLsbD 1 = s.done ∧ (statusWord s).getLsbD 2 = s.fv ∧
      (statusWord s).getLsbD 3 = s.tv ∧ (statusWord s).getLsbD 4 = s.cv := by
  simp only [statusWord, BitVec.getLsbD_append, BitVec.getLsbD_ofBool]
  simp

theorem statusWord_reserved (s : State) : (statusWord s).extractLsb' 5 3 = 0 := by
  unfold statusWord
  iterate 5 rw [BitVec.extractLsb'_append_eq_of_le (by decide)]
  exact BitVec.extractLsb'_append_eq_right

theorem statusWord_phase (s : State) : (statusWord s).extractLsb' 12 4 = s.phase := by
  unfold statusWord
  iterate 6 rw [BitVec.extractLsb'_append_eq_of_le (by decide)]
  exact BitVec.extractLsb'_append_eq_left

/-- An `ERR` of four bits holds every code of R170. -/
theorem statusWord_err {s : State} (h : s.cfg.Consistent) :
    ((statusWord s).extractLsb' 8 4).toNat = errCode s.err := by
  have hn : narrow s.cfg.errW (errCode s.err) = errCode s.err := narrow_eq (by rw [h.error]; exact errCode_lt _)
  unfold statusWord
  iterate 6 rw [BitVec.extractLsb'_append_eq_of_le (by decide)]
  rw [hn, BitVec.extractLsb'_append_eq_right, BitVec.toNat_ofNat, Nat.mod_eq_of_lt (errCode_lt _)]

/-- The output `err` is high exactly when `ERR` is not 0 (60_exceptions R179). -/
theorem errLine_iff_statusWord {s : State} (h : s.cfg.Consistent) :
    errLine s = true ↔ (statusWord s).extractLsb' 8 4 ≠ 0 := by
  rw [errLine_iff, ne_eq, ne_eq, ← errCode_eq_zero_iff, ← statusWord_err h, ← BitVec.toNat_inj]
  rfl

/-! ### The obligations -/

/-- Settles O1: every field of the reset state is written out in its definition. -/
theorem resetLeavesRegistersClear : Obligations.ResetLeavesRegistersClear :=
  ⟨by decide, rfl, rfl, rfl, rfl, rfl, rfl, rfl, rfl⟩

/-- Settles O3: the step is the host's action, and a command word is its low four bits. -/
theorem stepRunsTheDecodedCommand : Obligations.StepRunsTheDecodedCommand := by
  refine ⟨fun s w rest h => step_action h, step_withFetchWord, fun v w h => ?_, fun nbits w hn => ?_⟩
  · rw [decodeWord_four, decodeWord_four, h]
  · exact if_neg (Nat.ne_of_gt hn)

/-- Settles O4: the step is the host's action, which changes only what it names. -/
theorem hostRegisterAndStreamAccess : Obligations.HostRegisterAndStreamAccess := fun _ _ =>
  ⟨fun _ h => step_action h, fun h => step_action h, fun h => step_action h, fun _ _ _ h => step_action h,
    fun _ _ h => step_action h, step_idle⟩

/-- Settles O5, field by field. -/
theorem statusWordFields : Obligations.StatusWordFields := by
  refine ⟨fun s hc => ?_, rfl, fun e => ⟨malformedHeader_iff e, truncatedPayload_iff e⟩⟩
  obtain ⟨hbusy, hdone, hfv, htv, hcv⟩ := statusWord_flags s
  exact ⟨hbusy, hdone, hfv, htv, hcv, statusWord_reserved s, statusWord_err hc, statusWord_phase s, hdone.symm,
    errLine_iff_statusWord hc⟩

end Sys2Proof.Machine
end

section
/-! The streams and the bits on them: the four primitives, the packer and the unpacker (spec 20_memory R30 to R41). -/

namespace Sys2Proof.Machine

/-! ### The source and the sink -/

/-- The one place where a closed sink differs: its content is free (93 U26). -/
theorem sinkWriteByte_eq (b : Byte) (s : State) :
    sinkWriteByte b s =
      { s with
        out := (sinkWriteByte b s).out, freeIdx := (sinkWriteByte b s).freeIdx, events := .write b :: s.events } := by
  unfold sinkWriteByte
  split <;> rfl

/-- Settles O15: the reads by what the source still has, the writes by the sink's mark, the rest by definition. -/
theorem streamPrimitives : Obligations.StreamPrimitives := fun s =>
  ⟨fun _ _ h => (srcReadByte_cons h).1, srcReadByte_nil, fun h => by simp [srcRewind, h],
    fun _ _ h => by simp [srcRewind, h], fun _ h => by simp [sinkWriteByte, h],
    fun b => ⟨_, rfl, sinkWriteByte_eq b s⟩, rfl⟩

/-! ### The packer -/

/-- No byte goes out before the eighth bit (20_memory R37). -/
theorem putBit_out (b : Bool) {s : State} (h : s.pkCnt ≠ 7#3) : (putBit b s).out = s.out := by
  unfold putBit
  rw [if_neg h]

/-- Settles O12: `PutBit` appends one bit, and the two others are lists of bits. -/
theorem packerAppendsBitsInOrder : Obligations.PackerAppendsBitsInOrder := fun s =>
  ⟨fun b => ⟨_, rfl, sinkBits_putBit b s, putBit_pkCnt b s, putBit_out b, putBit_frame b s⟩,
    fun _ _ => sinkBits_putBitList _ s, fun _ => sinkBits_putBitList _ s, rfl⟩

theorem padding_length_le (n : Nat) : (padding n).length ≤ 7 := by
  rw [padding, List.length_replicate]
  omega

/-- With no bit waiting there is nothing to complete (20_memory R39). -/
theorem flush_of_empty {s : State} (h : s.pkCnt = 0) : flush s = s := by
  rw [flush_eq, h]
  rfl

/-- After `Flush` every bit sent is in the sink's bytes, so they are the bits sent before and the padding. -/
theorem bytesBits_flush {s : State} (ho : s.closed = false) :
    bytesBits (flush s).out = sinkBits s ++ padding (sinkBits s).length := by
  rw [← sinkBits_of_empty _ (flush_pkCnt s), sinkBits_flush s ho]

/-- Settles O13: `Flush` is the padding sent through `PutBit`. -/
theorem flushCompletesTheByte : Obligations.FlushCompletesTheByte := fun s h =>
  ⟨flush_pkCnt s, flush_pkAcc s h, flush_closed s, flush_of_empty, padding_length_le _, bytesBits_flush⟩

/-! ### The unpacker -/

/-- `GetBit` passes a byte exactly when no bit waits (20_memory R40): of each byte all eight bits are taken. -/
theorem getBit_pos {s t : State} {b : Bool} (h : getBit s = (some b, t)) (h8 : s.upCnt.toNat ≤ 8) :
    (s.upCnt ≠ 0#4 → t.pos = s.pos) ∧ (s.upCnt = 0#4 → t.pos = s.pos + 1) := by
  obtain ⟨h7, hpos⟩ := getBit_upCnt h h8
  constructor
  · intro hne
    have hw : s.upCnt.toNat ≠ 0 := fun h0 => hne (BitVec.eq_of_toNat_eq h0)
    omega
  · intro h0
    have hw : s.upCnt.toNat = 0 := by rw [h0]; rfl
    omega

/-- Settles O14: `GetBit` takes the head of the source's bit string, and `GetBits` is that again and again. -/
theorem unpackerTakesBitsInOrder : Obligations.UnpackerTakesBitsInOrder := by
  refine fun s h8 => ⟨fun b rest h => ?_, fun h => (getBit_none h8 h).1, fun bs rest h => ?_, fun n h => ?_⟩
  · obtain ⟨t, ht, hs, -⟩ := getBit_some h8 h
    obtain ⟨hkeep, hnext⟩ := getBit_pos ht h8
    have hf := getBit_frame s
    rw [ht] at hf
    exact ⟨t, ht, hs, (getBit_upCnt ht h8).1, hkeep, hnext, hf⟩
  · obtain ⟨t, ht, hs, -⟩ := getBits_some bs h8 h
    exact ⟨t, ht, hs⟩
  · obtain ⟨t, ht, hs, -⟩ := getBits_none n h8 h
    exact ⟨t, ht, hs⟩

end Sys2Proof.Machine
end

section
/-! The events on the sink's port during `COMP` and `DECOMP` (spec 46_commands R145 to R148, 20_memory R44): `HDES` causes none, every
end of `SENC` and of `SDEC` is the bytes sent and then one close, and what comes before those units closes nothing. -/

namespace Sys2Proof.Machine

/-! ### `HDES` -/

theorem getBitsFrom_sinkEvents (n v : Nat) (s : State) :
    sinkEvents (getBitsFrom n v s).2.events = sinkEvents s.events := by
  induction n generalizing v s with
  | zero => rfl
  | succ n ih =>
    have h := getBit_sinkEvents s
    unfold getBitsFrom
    split
    · rename_i t heq; rw [heq] at h; exact h
    · rename_i b t heq; rw [heq] at h; exact (ih _ t).trans h

theorem getBits_sinkEvents (n : Nat) (s : State) : sinkEvents (getBits n s).2.events = sinkEvents s.events :=
  getBitsFrom_sinkEvents n 0 s

/-- The sink's part of the events is still this one. -/
def SinkEventsAre (es : List StreamEvent) (s : State) : Prop := sinkEvents s.events = es

theorem takeHandle_sinkEvents {es : List StreamEvent} {s : State} (h : SinkEventsAre es s) :
    Ends (SinkEventsAre es) (takeHandle s) := by
  unfold takeHandle
  split <;> exact h

theorem buildLeaf_sinkEvents {es : List StreamEvent} {s : State} (h : SinkEventsAre es s) (k v : Nat) :
    Ends (SinkEventsAre es) (buildLeaf k v s) := by
  unfold buildLeaf
  split <;> exact h

theorem readLeaf_sinkEvents {es : List StreamEvent} {s : State} (h : SinkEventsAre es s) (k : Nat) :
    Ends (SinkEventsAre es) (readLeaf k s) := by
  have hg : SinkEventsAre es (getBits 9 s).2 := (getBits_sinkEvents 9 s).trans h
  unfold readLeaf
  split
  · rename_i t heq; rw [heq] at hg; exact hg
  · rename_i v t heq
    rw [heq] at hg
    exact (buildLeaf_sinkEvents hg k v).bind (fun _ hu => hu) fun _ _ hu => hu

theorem readTree_sinkEvents {es : List StreamEvent} (n : Nat) {s : State} (h : SinkEventsAre es s) :
    Ends (SinkEventsAre es) (readTree n s) := by
  induction n generalizing s with
  | zero =>
    have hg : SinkEventsAre es (getBit s).2 := (getBit_sinkEvents s).trans h
    unfold readTree
    split
    · rename_i t heq; rw [heq] at hg; exact hg
    · rename_i b t heq; rw [heq] at hg; exact hg
  | succ n ih =>
    have hg : SinkEventsAre es (getBit s).2 := (getBit_sinkEvents s).trans h
    unfold readTree
    split
    · rename_i t heq; rw [heq] at hg; exact hg
    · rename_i b t heq
      rw [heq] at hg
      refine (takeHandle_sinkEvents hg).bind (fun _ hu => hu) fun k u hu => ?_
      cases b with
      | true => exact readLeaf_sinkEvents hu k
      | false =>
        refine (ih (s := buildBranch k u) hu).bind (fun _ hv => hv) fun l v hv => ?_
        exact (ih (s := setLeft k l v) hv).bind (fun _ hw => hw) fun _ _ hw => hw

theorem readMagic_sinkEvents {es : List StreamEvent} {s : State} (h : SinkEventsAre es s) :
    Ends (SinkEventsAre es) (readMagic s) := by
  have hg : SinkEventsAre es (getBits 32 s).2 := (getBits_sinkEvents 32 s).trans h
  unfold readMagic
  split
  · rename_i t heq; rw [heq] at hg; exact hg
  · rename_i m t heq
    rw [heq] at hg
    unfold checkMagic
    split <;> exact hg

/-- `HDES` asks nothing of the sink (43_header_codec R108). -/
theorem hdesBody_sinkEvents (s : State) : Ends (SinkEventsAre (sinkEvents s.events)) (hdesBody s) :=
  (readMagic_sinkEvents (s := hdesStart s) rfl).bind (fun _ hu => hu) fun _ t ht =>
    (readTree_sinkEvents t.cfg.nodeCap (s := { t with nnode := 0 }) ht).bind (fun _ hu => hu) fun _ _ hu => hu

/-! ### `SDEC` -/

theorem getBit_moved {s : State} (h8 : s.upCnt.toNat ≤ 8) : Moved s (getBit s).2 :=
  ⟨(getBit_frame s).sdec, (getBit_frame s).out, (getBit_frame s).closed, getBit_sinkEvents s, getBit_le8 h8⟩

theorem moveCur_moved (b : Bool) {s : State} (h8 : s.upCnt.toNat ≤ 8) : Moved s (moveCur b s) :=
  ⟨rfl, rfl, rfl, rfl, h8⟩

/-- Only a leaf that is not the sentinel emits a byte (45_stream_decoder R134 to R136). -/
theorem arrive_emitted {s : State} (h8 : s.upCnt.toNat ≤ 8) : ∃ bs, Emitted s (arrive s).2 bs := by
  have hnone : Emitted s s [] := Moved.emitted ⟨rfl, rfl, rfl, rfl, h8⟩
  unfold arrive
  split
  · split
    · exact ⟨[], hnone⟩
    · exact ⟨_, by simpa [emitted] using (emitted_spec (nodeAt s s.cur).sym s h8).1⟩
  · exact ⟨[], hnone⟩

theorem stepBit_emitted (b : Bool) {s : State} (h8 : s.upCnt.toNat ≤ 8) : ∃ bs, Emitted s (stepBit b s).2 bs := by
  obtain ⟨bs, h⟩ := arrive_emitted (s := moveCur b s) h8
  exact ⟨_, (moveCur_moved b h8).emitted.trans h⟩

/-- Decoding ended in `t` with some bytes emitted and the sink then closed. -/
def DecodeEnds (s t : State) : Prop := ∃ bs, DecodeEnd s t bs

theorem Emitted.decodeEnds {s t u : State} {bs : List Byte} (h : Emitted s t bs) (k : DecodeEnds t u) :
    DecodeEnds s u := by
  obtain ⟨cs, hf, hc, hs, h8⟩ := k
  refine ⟨bs ++ cs, h.frame.trans hf, hc, fun ho => ?_, h8⟩
  obtain ⟨h1, h2⟩ := h.sent ho
  obtain ⟨k1, k2⟩ := hs (h.closed.trans ho)
  exact ⟨by rw [k1, h1, List.append_assoc], by rw [k2, h2, writeEvents_append, List.append_assoc]⟩

/-- Whatever the arena holds, the loop emits bytes until it closes the sink (45_stream_decoder R138). -/
theorem decodeLoop_ends (n : Nat) {s : State} (h8 : s.upCnt.toNat ≤ 8) : Ends (DecodeEnds s) (decodeLoop n s) := by
  induction n generalizing s with
  | zero => exact ⟨_, (getBit_moved h8).emitted.close⟩
  | succ n ih =>
    have hg := (getBit_moved h8).emitted
    unfold decodeLoop
    split
    · rename_i t heq; rw [heq] at hg; exact ⟨_, hg.close⟩
    · rename_i b t heq
      rw [heq] at hg
      obtain ⟨bs, hE⟩ := stepBit_emitted b hg.unpacker
      split
      · rename_i u hu; rw [hu] at hE; exact ⟨_, (hg.trans hE).close⟩
      · rename_i u hu
        rw [hu] at hE
        exact (ih hE.unpacker).imp fun _ k => (hg.trans hE).decodeEnds k

theorem sdecBody_ends {s : State} (h8 : s.upCnt.toNat ≤ 8) : Ends (DecodeEnds s) (sdecBody s) := by
  have hnone : Emitted s s [] := Moved.emitted ⟨rfl, rfl, rfl, rfl, h8⟩
  have hroot : Emitted s { s with cur := s.root } [] := Moved.emitted ⟨rfl, rfl, rfl, rfl, h8⟩
  unfold sdecBody
  split
  · unfold rootLeafEnd
    split <;> exact ⟨_, hnone.close⟩
  · exact (decodeLoop_ends _ hroot.unpacker).imp fun _ k => hroot.decodeEnds k

/-! ### `COMP` and `DECOMP` -/

/-- From `s` to `t` some bytes have gone to the sink, and after the last of them the sink has been closed once. -/
def ClosedOnce (s t : State) : Prop :=
  ∃ ws, t.out = s.out ++ ws ∧ sinkEvents t.events = .close :: (writeEvents ws ++ sinkEvents s.events)

/-- A part that sent bytes without a close, then a part that closes once. -/
theorem ClosedOnce.after {s e t : State} (k : ClosedOnce e t)
    (h : ∃ ws, e.out = s.out ++ ws ∧ sinkEvents e.events = writeEvents ws ++ sinkEvents s.events) : ClosedOnce s t := by
  obtain ⟨ws, hw1, hw2⟩ := h
  obtain ⟨vs, hv1, hv2⟩ := k
  exact ⟨ws ++ vs, by rw [hv1, hw1, List.append_assoc],
    by rw [hv2, hw2, writeEvents_append, List.append_assoc]⟩

theorem sinkClose_closedOnce (s : State) : ClosedOnce s (sinkClose s) := ⟨[], (List.append_nil _).symm, rfl⟩

/-- The end of a command touches no stream (46_commands R140, 60_exceptions R174). -/
theorem conclude_closedOnce {s t : State} {r : Res Unit} (h : Ends (ClosedOnce s) r) (ht : conclude r = .next t) :
    ClosedOnce s t := by
  cases r with
  | ok a u => cases ht; exact h
  | raised e u => cases ht; exact h
  | stuck f => exact h.elim

theorem sencBody_closedOnce {s : State} (ho : s.closed = false) : Ends (ClosedOnce s) (sencBody s) := by
  rcases sencBody_cases s with ⟨t, ht, _, hC, _⟩ | ⟨t, ht, _, hC, _⟩ | ⟨t, _, _, _, ht, _, _, _, hC, _⟩
  all_goals
    rw [ht]
    exact (hC.sent ho).2

/-- Every end of `COMP` (46_commands R145, R146): the close is that of `SENC`, or the one after a fault of `FCNT`. -/
theorem compBody_closedOnce {s : State} (hs : Fits s) (ho : s.closed = false) : Ends (ClosedOnce s) (compBody s) := by
  by_cases hc : CountsFit s
  · obtain ⟨e, T, hE, hb⟩ := compBody_mid hs hc
    rw [hb]
    exact (sencBody_closedOnce (hE.closed.trans ho)).imp fun _ k => k.after (hE.sent ho).2
  · obtain ⟨u, pre, x, post, hb, _, hU⟩ := compBody_overflow hc
    have hev : sinkEvents u.events = sinkEvents s.events := by rw [hU.events, sinkEvents_reads]; rfl
    have hout : u.out = s.out := by rw [hU.frame]; rfl
    rw [hb]
    exact (sinkClose_closedOnce u).after ⟨[], by rw [hout, List.append_nil], hev⟩

/-- Every end of `DECOMP` (46_commands R147, R148): the close is that of `SDEC`, or the one after a fault of `HDES`. -/
theorem decompBody_closedOnce {s : State} (ho : s.closed = false) : Ends (ClosedOnce s) (decompBody s) := by
  have hev := hdesBody_sinkEvents (enterPhase 6 s)
  have h8 := hdesBody_le8 (enterPhase 6 s)
  rcases hdesBody_ends (enterPhase 6 s) with ⟨a, ha, hA, _⟩ | ⟨u, e, hu, _, hf, _⟩
  · obtain ⟨_, hout, hcl, _⟩ := hA.sink
    rw [ha] at hev h8
    rw [decompBody_ok ha]
    refine (sdecBody_ends (s := enterPhase 7 a) h8).imp fun t hD => ?_
    obtain ⟨bs, hD⟩ := hD
    exact ClosedOnce.after (e := enterPhase 7 a) ⟨bs, hD.sent (hcl.trans ho)⟩
      ⟨[], hout.trans (List.append_nil _).symm, hev⟩
  · obtain ⟨_, hout, _, _⟩ := hf.sink
    rw [hu] at hev
    rw [decompBody_raised hu]
    exact (sinkClose_closedOnce u).after ⟨[], hout.trans (List.append_nil _).symm, hev⟩

/-- The source events of a `COMP` that reads all bytes `xs`, rewinds, and reads all bytes `ys`, newest first (46_commands
R145). -/
def twoPasses (xs ys : List Byte) : List StreamEvent :=
  .read none :: (readEvents ys ++ .rewind :: .read none :: readEvents xs)

/-- `COMP` ends well after two passes, or with an error of its units. -/
theorem compBody_passes {s : State} (hs : Fits s) :
    (∃ u, compBody s = .ok () u ∧
        sourceEvents u.events =
          twoPasses (s.src.drop s.pos) (s.srcLater.headD s.src) ++ sourceEvents s.events) ∨
      ∃ u e, compBody s = .raised e u ∧ e ≠ .none := by
  by_cases hc : CountsFit s
  · obtain ⟨e, T, hE, hb⟩ := compBody_mid hs hc
    rw [hb]
    rcases sencBody_cases e with ⟨t, ht, _, _, _, hr⟩ | ⟨t, ht, _⟩ | ⟨t, _, _, _, ht, _⟩
    · refine .inl ⟨t, ht, ?_⟩
      rw [hr, hE.reads, hE.pos, hE.src, twoPasses]
      simp
    · exact .inr ⟨t, _, ht, by decide⟩
    · exact .inr ⟨t, _, ht, by decide⟩
  · obtain ⟨u, _, _, _, hb, _⟩ := compBody_overflow hc
    exact .inr ⟨_, _, hb, by decide⟩

/-- Settles O44: both commands end closed once, and a `COMP` without an error is one whose body ended well. -/
theorem macroStreamEvents : Obligations.MacroStreamEvents := by
  intro s t hr hs ho
  have hcomp : exec .comp s = conclude (compBody (startedMacro s)) := runMacro_started hr compBody
  have hdecomp : exec .decomp s = conclude (decompBody (startedMacro s)) := runMacro_started hr decompBody
  rw [hcomp, hdecomp]
  refine ⟨?_, fun h he => ?_⟩
  · rintro (h | h)
    · exact conclude_closedOnce (compBody_closedOnce (s := startedMacro s) hs.startedMacro ho) h
    · exact conclude_closedOnce (decompBody_closedOnce (s := startedMacro s) ho) h
  · rcases compBody_passes hs.startedMacro with ⟨u, hu, hev⟩ | ⟨u, e, hu, hne⟩
    · rw [hu] at h
      cases h
      exact hev.trans (by simp [twoPasses, startedMacro])
    · rw [hu] at h
      cases h
      exact absurd he hne

end Sys2Proof.Machine
end

section
/-! Encodings: decoding undoes encoding, place by place (spec 30_encoding R50 to R64). -/

namespace Sys2Proof

/-- A field of `n` bits is read back as its value. -/
theorem ofNat_valOf_bitsOf {n : Nat} (x : BitVec n) : BitVec.ofNat n (valOf (bitsOf n x.toNat)) = x := by
  rw [valOf_bitsOf, Nat.mod_eq_of_lt x.isLt, BitVec.ofNat_toNat, BitVec.setWidth_eq]

theorem take_bitsOf_append (n v : Nat) (rest : List Bool) : (bitsOf n v ++ rest).take n = bitsOf n v :=
  List.take_left' (bitsOf_length n v)

theorem drop_bitsOf_append (n v : Nat) (rest : List Bool) : (bitsOf n v ++ rest).drop n = rest :=
  List.drop_left' (bitsOf_length n v)

theorem not_bitsOf_append_lt (n v : Nat) (rest : List Bool) : ¬ (bitsOf n v ++ rest).length < n := by
  rw [List.length_append, bitsOf_length]
  omega

/-! ### Commands -/

/-- The opcodes of the table are the commands, in both directions (30_encoding R63, R64). -/
theorem encode_of_opcode {i : Instr} {op : BitVec 4} (h : opcode i = some op) :
    encode i = bitsOf 4 op.toNat ∧ decodeCommand op = i := by
  cases i <;> cases h <;> exact ⟨rfl, rfl⟩

theorem decode_command {i : Instr} {op : BitVec 4} (h : opcode i = some op) (rest : List Bool) :
    decode .command (encode i ++ rest) = .ok (i, rest) := by
  obtain ⟨henc, hdec⟩ := encode_of_opcode h
  rw [henc, decode, if_neg (not_bitsOf_append_lt 4 _ rest), take_bitsOf_append, drop_bitsOf_append,
    ofNat_valOf_bitsOf, hdec]

/-! ### Tokens -/

theorem decode_magic (m : BitVec 32) (rest : List Bool) :
    decode .magic (encode (.magic m) ++ rest) = .ok (.magic m, rest) := by
  rw [encode, decode, if_neg (not_bitsOf_append_lt 32 _ rest), take_bitsOf_append, drop_bitsOf_append,
    ofNat_valOf_bitsOf]

/-- Both kinds of leaf token have the same form, and the symbol field tells them apart (30_encoding R54, R60). -/
theorem decodeHeader_leaf (sym : Sym) (rest : List Bool) :
    decodeHeader (true :: (bitsOf 9 sym.toNat ++ rest)) =
      .ok (if sym.toNat ≤ sentinel then .hdrLeaf sym else .hdrLeafRsvd sym, rest) := by
  rw [decodeHeader, if_neg (not_bitsOf_append_lt 9 _ rest), take_bitsOf_append, drop_bitsOf_append,
    ofNat_valOf_bitsOf, valOf_bitsOf, Nat.mod_eq_of_lt sym.isLt]
  split <;> rfl

theorem decodeCode_mem {paths : List (List Bool)} {acc : List Bool} (h : acc ∈ paths) (bits : List Bool) :
    decodeCode paths acc bits = .ok (.payloadCode acc, bits) := by
  unfold decodeCode
  exact if_pos h

/-- A code is read to its end, since no leaf path ends before it (30_encoding R61). -/
theorem decodeCode_append {paths : List (List Bool)} {code rest : List Bool} :
    ∀ {acc : List Bool}, acc ++ code ∈ paths → (∀ p ∈ paths, p <+: acc ++ code → p = acc ++ code) →
      decodeCode paths acc (code ++ rest) = .ok (.payloadCode (acc ++ code), rest) := by
  induction code with
  | nil =>
    intro acc hmem _
    rw [List.append_nil] at hmem ⊢
    exact decodeCode_mem hmem rest
  | cons b code ih =>
    intro acc hmem hfree
    have hacc : acc ∉ paths := fun h => by simpa using hfree acc h (List.prefix_append _ _)
    rw [List.append_cons] at hmem hfree ⊢
    rw [List.cons_append, decodeCode, if_neg hacc]
    exact ih hmem hfree

theorem decode_padding (n : Nat) (rest : List Bool) :
    decode (.padding n) (encode (.pad n) ++ rest) = .ok (.pad n, rest) := by
  have hl : (List.replicate n false).length = n := List.length_replicate
  rw [encode, decode, if_neg (by simp), List.take_left' hl, List.drop_left' hl, if_neg (by simp)]

/-! ### The obligations -/

/-- Settles O57, one place of the container after another. -/
theorem decodingUndoesEncoding : Obligations.DecodingUndoesEncoding := by
  intro c r i rest hw hf
  cases r with
  | command =>
    obtain ⟨op, hop⟩ := Option.isSome_iff_exists.mp hf
    exact decode_command hop rest
  | magic =>
    cases i
    case magic m => exact decode_magic m rest
    all_goals cases hf
  | header =>
    cases i
    case hdrBranch => rfl
    case hdrLeaf sym => exact (decodeHeader_leaf sym rest).trans (by rw [if_pos (of_decide_eq_true hw)])
    case hdrLeafRsvd sym =>
      exact (decodeHeader_leaf sym rest).trans (by rw [if_neg (Nat.not_le.mpr (of_decide_eq_true hw))])
    all_goals cases hf
  | payload paths =>
    cases i
    case payloadCode code =>
      obtain ⟨hmem, hfree⟩ : code ∈ paths ∧ ∀ p ∈ paths, p <+: code → p = code := by
        simpa [fits, or_iff_not_imp_right] using hf
      exact decodeCode_append (acc := []) hmem hfree
    all_goals cases hf
  | padding n =>
    cases i
    case pad m =>
      obtain rfl : n = m := of_decide_eq_true hf
      exact decode_padding n rest
    all_goals cases hf

/-- Settles O56: each word is decoded by evaluation. -/
theorem handWrittenWordsDecode : Obligations.HandWrittenWordsDecode :=
  ⟨rfl, rfl, rfl, rfl, rfl, rfl, rfl, rfl, rfl, rfl, rfl, rfl, rfl⟩

end Sys2Proof
end

section
/-! Tokens that a unit writes: each appends its bits, so `HSER` is the writing of its tokens (spec 30_encoding R50 to
R57, 43_header_codec R100 to R104; log 9). -/

namespace Sys2Proof.Machine

/-- The phase of the unit that writes a token (30_encoding R50); `none` for what no unit writes. -/
def writerPhase : Instr → Option (BitVec 4)
  | .magic _ | .hdrBranch | .hdrLeaf _ => some 4
  | .payloadCode _ | .pad _ => some 5
  | _ => none

/-- In the unit that writes it a token goes through the packer bit by bit. -/
theorem exec_writerPhase {i : Instr} {s : State} (h : writerPhase i = some s.phase) :
    exec i s = .next (putBitList (encode i) s) := by
  cases i
  case magic | hdrBranch | hdrLeaf | payloadCode | pad => exact if_pos (Option.some.inj h).symm
  all_goals cases h

/-- Settles O50: the bits go through the packer, whose laws give what is sent and what stays. -/
theorem writtenTokensAppendTheirBits : Obligations.WrittenTokensAppendTheirBits := by
  intro i s _ hp
  have hw : writerPhase i = some s.phase := by
    cases i
    case magic | hdrBranch | hdrLeaf | payloadCode | pad => exact congrArg some hp.symm
    all_goals exact hp.elim
  exact ⟨_, exec_writerPhase hw, sinkBits_putBitList _ s, putBitList_frame _ s⟩

/-! ### `HSER` -/

/-- Tokens of the running unit, one after another, are their bits, one after another. -/
theorem execAll_writerPhase {ts : List Instr} {s : State} (h : ∀ i ∈ ts, writerPhase i = some s.phase) :
    execAll ts s = .next (putBitList (tokenBits ts) s) := by
  induction ts generalizing s with
  | nil => rfl
  | cons i ts ih =>
    obtain ⟨hi, hts⟩ := List.forall_mem_cons.mp h
    rw [execAll, exec_writerPhase hi, tokenBits_cons, putBitList_append]
    exact ih fun j hj => by rw [putBitList_phase]; exact hts j hj

/-- `HSER` writes every token of a header (30_encoding R50). -/
theorem headerTokens_writerPhase (t : Shape) : ∀ i ∈ headerTokens t, writerPhase i = some 4 := by
  induction t with
  | leaf sym => exact List.forall_mem_singleton.mpr rfl
  | branch l r ihl ihr => exact List.forall_mem_cons.mpr ⟨rfl, List.forall_mem_append.mpr ⟨ihl, ihr⟩⟩

/-- Settles O26: both write the magic and the header's bits from an empty packer. -/
theorem hserWritesItsTokens : Obligations.HserWritesItsTokens := by
  intro s T hr htv hT
  have hbody := hserBody_spec (TreeIn_congr (s := s) (t := started 4 s) rfl rfl rfl rfl hT)
  refine ⟨_, execAll_writerPhase (List.forall_mem_cons.mpr ⟨rfl, headerTokens_writerPhase _⟩), ?_⟩
  have hexec : exec .hser s = conclude (hserBody (started 4 s)) := runUnit_started hr htv 4 hserBody
  rw [hexec, hbody, tokenBits_cons, ← shapeHeader_tokens]
  rfl

end Sys2Proof.Machine
end

section
/-! Tokens that a unit has read: what `HDES` does with a header token, and `SDEC` with a code (spec 43_header_codec
R108 to R115, 45_stream_decoder R131 to R136; log 9). -/

namespace Sys2Proof.Machine

/-! ### `HDES` -/

/-- With room in the arena the count of nodes moves up by one (43_header_codec R108). -/
theorem takeHandle_free {s : State} (hf : Fits s) (h : s.nnode < s.cfg.nodeCap) :
    takeHandle s = .ok s.nnode { s with nnode := s.nnode + 1 } := by
  have hw := hf.config.handle
  unfold takeHandle
  rw [if_neg (Nat.ne_of_lt h), narrow_eq (by omega)]

theorem takeHandle_full {s : State} (h : s.nnode = s.cfg.nodeCap) : takeHandle s = .raised .hdrCap s := if_pos h

/-- From `s` to `t` the next free handle has been taken and its node, and no other, written. -/
def AddsNode (v : Node) (s t : State) : Prop :=
  nodeAt t s.nnode = v ∧ (∀ h, h ≠ s.nnode → nodeAt t h = nodeAt s h) ∧
    t = { s with node := t.node, nnode := s.nnode + 1 }

theorem setNode_addsNode {s : State} (hf : Fits s) (h : s.nnode < s.cfg.nodeCap) (v : Node) :
    AddsNode v s (setNode s.nnode v { s with nnode := s.nnode + 1 }) :=
  ⟨nodeAt_setNode_same v _ (hf.arena ▸ h), fun _ hne => nodeAt_setNode_ne v _ hne, rfl⟩

theorem takeBranch_free {s : State} (hf : Fits s) (h : s.nnode < s.cfg.nodeCap) :
    ∃ t, takeBranch s = .ok () t ∧ AddsNode (innerNode 0 0 0) s t :=
  ⟨_, by rw [takeBranch, takeHandle_free hf h]; rfl, setNode_addsNode hf h _⟩

theorem takeLeaf_free {s : State} (hf : Fits s) (h : s.nnode < s.cfg.nodeCap) {sym : Sym}
    (hs : sym.toNat ≤ sentinel) :
    ∃ t, takeLeaf sym.toNat s = .ok () t ∧ AddsNode (leafNode sym 0) s t := by
  refine ⟨_, ?_, setNode_addsNode hf h _⟩
  rw [takeLeaf, takeHandle_free hf h, andThen, buildLeaf, if_neg (Nat.not_lt.mpr hs), BitVec.ofNat_toNat,
    BitVec.setWidth_eq]

/-- A reserved symbol takes its handle before it is rejected (43_header_codec R114). -/
theorem takeLeaf_rsvd {s : State} (hf : Fits s) (h : s.nnode < s.cfg.nodeCap) {v : Nat} (hv : sentinel < v) :
    takeLeaf v s = .raised .hdrSym { s with nnode := s.nnode + 1 } := by
  rw [takeLeaf, takeHandle_free hf h, andThen, buildLeaf, if_pos hv]

theorem takeBranch_full {s : State} (h : s.nnode = s.cfg.nodeCap) : takeBranch s = .raised .hdrCap s := by
  rw [takeBranch, takeHandle_full h, andThen]

theorem takeLeaf_full {s : State} (h : s.nnode = s.cfg.nodeCap) (v : Nat) : takeLeaf v s = .raised .hdrCap s := by
  rw [takeLeaf, takeHandle_full h, andThen]

/-! While `HDES` runs, each header token is the operation `HDES` itself is made of. -/
section
variable {s : State} (hp : s.phase = 6#4)
include hp

theorem hdes_phase_ne_hser : s.phase ≠ 4#4 := by rw [hp]; decide

theorem exec_magic_hdes (m : BitVec 32) : exec (.magic m) s = concludeToken (checkMagic m s) :=
  (if_neg (hdes_phase_ne_hser hp)).trans (if_pos hp)

theorem exec_hdrBranch_hdes : exec .hdrBranch s = concludeToken (takeBranch s) :=
  (if_neg (hdes_phase_ne_hser hp)).trans (if_pos hp)

theorem exec_hdrLeaf_hdes (sym : Sym) : exec (.hdrLeaf sym) s = concludeToken (takeLeaf sym.toNat s) :=
  (if_neg (hdes_phase_ne_hser hp)).trans (if_pos hp)

theorem exec_hdrLeafRsvd_hdes (sym : Sym) : exec (.hdrLeafRsvd sym) s = concludeToken (takeLeaf sym.toNat s) :=
  if_pos hp

end

/-- Settles O51: the magic is compared, and a header token takes a handle or finds none left. -/
theorem headerTokensReadByHdes : Obligations.HeaderTokensReadByHdes := by
  refine fun s hp hf => ⟨fun m => ?_, fun hfree => ⟨?_, fun sym hsym => ?_, fun sym hsym => ?_⟩, fun hfull sym => ?_⟩
  · rw [exec_magic_hdes hp, checkMagic]
    split <;> rfl
  · obtain ⟨t, ht, hadds⟩ := takeBranch_free hf hfree
    exact ⟨t, by rw [exec_hdrBranch_hdes hp, ht]; rfl, hadds⟩
  · obtain ⟨t, ht, hadds⟩ := takeLeaf_free hf hfree hsym
    exact ⟨t, by rw [exec_hdrLeaf_hdes hp, ht]; rfl, hadds⟩
  · rw [exec_hdrLeafRsvd_hdes hp, takeLeaf_rsvd hf hfree hsym]
    rfl
  · simp only [List.forall_mem_cons, exec_hdrBranch_hdes hp, exec_hdrLeaf_hdes hp, exec_hdrLeafRsvd_hdes hp,
      takeBranch_full hfull, takeLeaf_full hfull]
    exact ⟨rfl, rfl, rfl, nofun⟩

/-! ### `SDEC` -/

theorem exec_payloadCode_sdec {s : State} (hp : s.phase = 7#4) (c : List Bool) :
    exec (.payloadCode c) s = readCode c s :=
  (if_neg (by rw [hp]; decide)).trans (if_pos hp)

/-- A leaf at the root is the lone leaf, with its path empty; under a branch every path has bits (30_encoding R56). -/
theorem TreeIn.rootLeaf_or_branch {s : State} {T : HTree} {p : List Bool} {sym : Sym} (h : TreeIn s T)
    (hm : (p, sym) ∈ shapeLeaves (shapeOf T)) :
    ((nodeAt s s.root).leaf = true ∧ p = [] ∧ (nodeAt s s.root).sym = sym) ∨
      ((nodeAt s s.root).leaf = false ∧ p ≠ []) := by
  obtain ⟨htop, hh, -⟩ := h
  rw [← htop]
  cases T with
  | leaf k y =>
    obtain ⟨rfl, rfl⟩ : p = [] ∧ sym = y := by simpa [shapeOf, shapeLeaves] using hm
    obtain ⟨hl, hy, -⟩ := hh
    exact .inl ⟨hl, rfl, hy⟩
  | branch k l r =>
    obtain ⟨b, q, rfl, -⟩ := mem_shapeLeaves_branch.mp hm
    exact .inr ⟨hh.1, List.cons_ne_nil b q⟩

/-- With a lone leaf no bit is walked (45_stream_decoder R131). -/
theorem readCode_leaf {s : State} (h : (nodeAt s s.root).leaf = true) (c : List Bool) :
    readCode c s = conclude (rootLeafEnd s) := if_pos h

theorem readCode_branch {s : State} (h : (nodeAt s s.root).leaf = false) (c : List Bool) :
    readCode c s =
      if (walkBits c s).1 then .next (finish (sinkClose (walkBits c s).2)) else .next (walkBits c s).2 := by
  unfold readCode
  rw [if_neg (by rw [h]; decide)]
  obtain ⟨b, t⟩ := walkBits c s
  cases b <;> rfl

/-! The decoder stands at the root of a tree and has read the path of one of its leaves. -/
section
variable {s : State} {T : HTree} {p : List Bool} {sym : Sym} (hT : TreeIn s T)
  (hm : (p, sym) ∈ shapeLeaves (shapeOf T))
include hT hm

/-- The sentinel ends the command, whether its code has bits or not (45_stream_decoder R131, R134). -/
theorem readCode_sentinel (hc : s.cur = s.root) (hs : sym.toNat = sentinel) :
    ∃ k, readCode p s = .next (finish (sinkClose { s with cur := k })) := by
  rcases hT.rootLeaf_or_branch hm with ⟨hl, -, hy⟩ | ⟨hl, hne⟩
  · exact ⟨s.cur, by rw [readCode_leaf hl, rootLeafEnd, hy, if_pos hs]; rfl⟩
  · obtain ⟨htop, hh, -⟩ := hT
    obtain ⟨k, hk, -⟩ := walkBits_path hh (hc.trans htop.symm) hne hm
    exact ⟨k, by rw [readCode_branch hl, hk hs, if_pos rfl]⟩

/-- Another leaf emits its byte, and the decoder is at the root again (45_stream_decoder R135, R136). -/
theorem readCode_byte (hc : s.cur = s.root) (hs : sym.toNat ≠ sentinel) (hne : p ≠ []) :
    ∃ k, readCode p s = .next { sinkWriteByte (outByte sym) { s with cur := k } with cur := s.root } := by
  rcases hT.rootLeaf_or_branch hm with ⟨-, hnil, -⟩ | ⟨hl, -⟩
  · exact absurd hnil hne
  · obtain ⟨htop, hh, -⟩ := hT
    obtain ⟨k, -, hk⟩ := walkBits_path hh (hc.trans htop.symm) hne hm
    exact ⟨k, by rw [readCode_branch hl, hk hs, if_neg Bool.false_ne_true]⟩

/-- A lone leaf must be the sentinel (45_stream_decoder R131). -/
theorem readCode_lone (hs : sym.toNat ≠ sentinel) (hnil : p = []) :
    readCode p s = .next (raise .hdrRoot (sinkClose s)) := by
  rcases hT.rootLeaf_or_branch hm with ⟨hl, -, hy⟩ | ⟨-, hne⟩
  · rw [readCode_leaf hl, rootLeafEnd, hy, if_neg hs]
    rfl
  · exact absurd hnil hne

end

/-! ### The obligation -/

/-- Settles O52: the code leads to one leaf, and the leaf says what happens. -/
theorem payloadCodesReadBySdec : Obligations.PayloadCodesReadBySdec := by
  refine ⟨fun s T p sym hp hT hc hm => ?_, fun i s hi hphase => ?_⟩
  · rw [exec_payloadCode_sdec hp]
    refine ⟨fun hs => ?_, fun hs hne => ?_, readCode_lone hT hm⟩
    · obtain ⟨k, hk⟩ := readCode_sentinel hT hm hc hs
      exact ⟨_, hk, rfl⟩
    · obtain ⟨k, hk⟩ := readCode_byte hT hm hc hs hne
      refine ⟨_, hk, ?_, fun ho => ?_⟩
      · rw [sinkWriteByte_eq, ← hc]
      · simp [sinkWriteByte, ho]
  · cases i
    case magic | hdrBranch | hdrLeaf | payloadCode => exact (if_neg hphase.1).trans (if_neg hphase.2)
    case hdrLeafRsvd | pad => exact if_neg hphase
    all_goals cases hi

end Sys2Proof.Machine
end

section
/-! Both ends of the command `FCNT` (spec 40_frequency_counter R70 to R78): the gate is passed, the body counts, and its
end is the end of the command. -/

namespace Sys2Proof.Machine

/-- A ready core runs `FCNT` whatever its flags are (40_frequency_counter R70). -/
theorem exec_fcnt {s : State} (h : Ready s) : exec .fcnt s = conclude (fcntBody (started 1 s)) :=
  runUnit_started h rfl 1 fcntBody

/-! ### The counts fit -/

theorem exec_fcnt_done {s : State} (hr : Ready s) (hc : CountsFit s) :
    ∃ u, exec .fcnt s = .next (finish u) ∧ CountDone (started 1 s) u := by
  rcases fcntBody_cases (started 1 s) with ⟨-, u, hu, hU⟩ | ⟨hn, -⟩
  · exact ⟨u, by rw [exec_fcnt hr, hu]; rfl, hU⟩
  · exact absurd hc hn

/-- The frame of a complete count, with what it leaves in each field but `FREQ`. -/
theorem CountDone.eq {s u : State} (h : CountDone s u) :
    u = { s with
      freq := u.freq, fv := true, tv := false, cv := false, src := s.srcLater.headD s.src, pos := 0,
      srcLater := s.srcLater.tail,
      events := .rewind :: .read none :: (readEvents (s.src.drop s.pos) ++ s.events) } := by
  refine h.frame.trans ?_
  rw [h.fv, h.tv, h.cv, h.src, h.pos, h.later, h.events]

/-- The counts of the byte values add up to the number of bytes counted (40_frequency_counter R78). -/
theorem CountDone.sum {s u : State} (h : CountDone s u) :
    ((List.range 256).map fun k => freqAt u k).sum = (s.src.drop s.pos).length := by
  have hk : ∀ k ∈ List.range 256, freqAt u k = (s.src.drop s.pos).count (BitVec.ofNat 8 k) := fun k hk => by
    rw [← restCount, ← h.counts, BitVec.toNat_ofNat, Nat.mod_eq_of_lt (List.mem_range.mp hk)]
  rw [List.map_congr_left hk, sum_counts]

/-- Settles O16: the body's complete count, carried over the end of the command. -/
theorem fcntCountsTheSource : Obligations.FcntCountsTheSource := by
  intro s hr hf hc
  obtain ⟨u, hexec, hU⟩ := exec_fcnt_done hr hc
  refine ⟨finish u, hexec, ?_, hU.counts, hU.one hf.config, hU.sum⟩
  obtain ⟨hbusy, -⟩ := hr
  conv_lhs => rw [hU.eq]
  rw [hbusy]
  rfl

/-! ### A count would wrap -/

theorem exec_fcnt_overflow {s : State} (hr : Ready s) (hc : ¬ CountsFit s) :
    ∃ u pre x post, exec .fcnt s = .next (raise .cntOvf u) ∧ CountOverflow (started 1 s) u pre x post := by
  rcases fcntBody_cases (started 1 s) with ⟨hf, -⟩ | ⟨-, u, pre, x, post, hu, hU⟩
  · exact absurd hf hc
  · exact ⟨u, pre, x, post, by rw [exec_fcnt hr, hu]; rfl, hU⟩

/-- The frame of an overflow, with what it leaves in each field but `FREQ`. -/
theorem CountOverflow.eq {s u : State} {pre : List Byte} {x : Byte} {post : List Byte}
    (h : CountOverflow s u pre x post) :
    u = { s with
      freq := u.freq, fv := false, tv := false, cv := false, pos := s.pos + pre.length + 1,
      events := readEvents (pre ++ [x]) ++ s.events } := by
  refine h.frame.trans ?_
  rw [h.fv, h.tv, h.cv, h.src, h.pos, h.later, h.events]

/-- Settles O17: the body's overflow, carried over the raise that ends the command. -/
theorem fcntOverflowRaises : Obligations.FcntOverflowRaises := by
  intro s hr hc
  obtain ⟨u, pre, x, post, hexec, hU⟩ := exec_fcnt_overflow hr hc
  refine ⟨raise .cntOvf u, pre, x, post, hexec, hU.rest, ?_, hU.full, hU.counts⟩
  obtain ⟨hbusy, -⟩ := hr
  conv_lhs => rw [hU.eq]
  rw [hbusy]
  rfl

end Sys2Proof.Machine
end

section
/-! The Tree Builder as a command (spec 41_tree_builder R80 to R88): `ExtractMin` takes the first live handle, `TBLD`
ends with the tree its body builds, and that tree depends on the counts alone. -/

namespace Sys2Proof.Machine

/-! ### `ExtractMin` -/

theorem minLive_eq_some_iff {s : State} (hw : s.live < 2 ^ s.cfg.nodeCap) {h : Nat} :
    minLive s = some h ↔ FirstOf s (fun g => s.live.testBit g = true) h := by
  refine ⟨minLive_first hw, fun hf => ?_⟩
  cases hm : minLive s with
  | none => exact absurd hf.1 (Bool.eq_false_iff.mp (minLive_none hw hm h))
  | some k => rw [(minLive_first hw hm).unique hf]

theorem minLive_eq_none_iff {s : State} (hw : s.live < 2 ^ s.cfg.nodeCap) :
    minLive s = none ↔ ∀ g, s.live.testBit g = false := by
  refine ⟨minLive_none hw, fun hn => ?_⟩
  cases hm : minLive s with
  | none => rfl
  | some k => exact absurd (minLive_first hw hm).1 (Bool.eq_false_iff.mp (hn k))

theorem extractMin_eq_some_iff {s t : State} {h : Nat} :
    extractMin s = some (h, t) ↔ minLive s = some h ∧ t = dropLive h s := by
  unfold extractMin
  cases minLive s with
  | none => simp
  | some k =>
    simp only [Option.some.injEq, Prod.mk.injEq]
    exact ⟨fun ⟨hk, ht⟩ => ⟨hk, hk ▸ ht.symm⟩, fun ⟨hk, ht⟩ => ⟨hk, hk ▸ ht.symm⟩⟩

/-- Settles O18: the scan finds the first live handle, and its bit is the one dropped. -/
theorem extractMinTakesTheFirst : Obligations.ExtractMinTakesTheFirst := by
  refine fun s hw => ⟨fun h => minLive_eq_some_iff hw, minLive_eq_none_iff hw, fun h t he => ?_⟩
  obtain ⟨hm, rfl⟩ := extractMin_eq_some_iff.mp he
  exact ⟨hm, rfl, fun g => dropLive_get s⟩

/-! ### What `FREQ` alone determines -/

theorem usedSymbols_congr {s t : State} (h : t.freq = s.freq) : usedSymbols t = usedSymbols s := by
  simp only [usedSymbols, freqAt_congr h]

theorem leafFor_congr {s t : State} (h : t.freq = s.freq) (k : Nat) : leafFor t k = leafFor s k := by
  simp only [leafFor, freqAt_congr h]

theorem countSum_congr {s t : State} (h : t.freq = s.freq) (ks : List Nat) : countSum t ks = countSum s ks := by
  simp only [countSum, freqAt_congr h]

/-- A symbol that is not used adds nothing to the sum. -/
theorem countSum_filter_ne_zero (s : State) (ks : List Nat) :
    countSum s (ks.filter fun k => decide (freqAt s k ≠ 0)) = countSum s ks := by
  induction ks with
  | nil => rfl
  | cons k ks ih =>
    by_cases hk : freqAt s k = 0
    · rw [List.filter_cons_of_neg (by simp [hk]), ih]
      simp [countSum, hk]
    · rw [List.filter_cons_of_pos (by simp [hk])]
      simp only [countSum, List.map_cons, List.sum_cons] at ih ⊢
      rw [ih]

/-! ### The tree that is built -/

theorem TreeBuilt.freq {s u : State} {T : HTree} (h : TreeBuilt s u T) : u.freq = s.freq := by
  rw [h.frame]

/-- The frame of the building, with what it leaves in each flag. -/
theorem TreeBuilt.eq {s u : State} {T : HTree} (h : TreeBuilt s u T) :
    u = { s with node := u.node, root := u.root, nnode := u.nnode, live := 0, tv := true, cv := false } := by
  refine h.frame.trans ?_
  rw [h.live, h.tv, h.cv]

/-- The root weighs the sum of all counts (41_tree_builder R86). -/
theorem TreeBuilt.root_weight {s u : State} {T : HTree} (h : TreeBuilt s u T) :
    (nodeAt u u.root).weight = countSum s (List.range nsym) := by
  obtain ⟨htop, -⟩ := h.tree
  calc (nodeAt u u.root).weight
      = countSum u (leafSymbols (shapeOf T)) := by rw [← htop, h.weights.sum]
    _ = countSum s (usedSymbols s) := by rw [countSum_congr h.freq, countSum_perm h.symbols]
    _ = countSum s (List.range nsym) := countSum_filter_ne_zero s _

/-- The same counts give the same leaves, and then each merge the same node (41_tree_builder R88). -/
theorem TreeBuilt.unique {s s' u u' : State} {T T' : HTree} (h : TreeBuilt s u T) (h' : TreeBuilt s' u' T')
    (hf : s.freq = s'.freq) :
    u.root = u'.root ∧ u.nnode = u'.nnode ∧ ∀ k < u.nnode, nodeAt u k = nodeAt u' k := by
  have hused : usedSymbols s = usedSymbols s' := usedSymbols_congr hf
  refine ⟨by rw [h.root, h'.root, hused], by rw [h.nodes, h'.nodes, hused], fun k hk => ?_⟩
  induction k using Nat.strong_induction_on with
  | _ k ih =>
    by_cases hleaf : k < (usedSymbols s).length
    · rw [h.leaves k hleaf, h'.leaves k (hused ▸ hleaf), leafFor_congr hf]
      simp only [hused]
    · have hge : (usedSymbols s).length ≤ k := Nat.le_of_not_lt hleaf
      have hlt : k < 2 * (usedSymbols s).length - 1 := h.nodes ▸ hk
      have hm' : MergedAt u' (usedSymbols s).length k := by
        rw [hused] at hge hlt ⊢
        exact h'.merged k hge hlt
      exact (h.merged k hge hlt).unique hm' fun j hj => ih j hj (hj.trans hk)

/-! ### The command -/

/-- A ready core with counts runs the body of `TBLD` (46_commands R140). -/
theorem exec_tbld {s : State} (hr : Ready s) (hv : s.fv = true) : exec .tbld s = conclude (tbldBody (started 2 s)) :=
  runUnit_started hr hv 2 tbldBody

theorem exec_tbld_done {s : State} (hr : Ready s) (hf : Fits s) (hv : s.fv = true) (hu : usedSymbols s ≠ []) :
    ∃ u T, exec .tbld s = .next (finish u) ∧ TreeBuilt (started 2 s) u T := by
  obtain ⟨u, T, hbody, hU⟩ := tbldBody_spec (s := started 2 s) (hf.started 2).build hu
  exact ⟨u, T, by rw [exec_tbld hr hv, hbody]; rfl, hU⟩

/-- `TBLD` answers a next state only by building a tree: without a used symbol it stops. -/
theorem exec_tbld_next {s t : State} (hr : Ready s) (hf : Fits s) (hv : s.fv = true) (ht : exec .tbld s = .next t) :
    ∃ u T, t = finish u ∧ TreeBuilt (started 2 s) u T := by
  have hu : usedSymbols s ≠ [] := fun hnil => by
    have hstop : exec .tbld s = .fault .noLiveNode := runUnit_stuck hr hv (tbldBody_stuck hnil)
    rw [hstop] at ht
    cases ht
  obtain ⟨u, T, hexec, hU⟩ := exec_tbld_done hr hf hv hu
  exact ⟨u, T, Host.Outcome.next.inj (ht.symm.trans hexec), hU⟩

/-- Settles O19: the body's tree, carried over the end of the command. -/
theorem tbldBuildsTheMergeTree : Obligations.TbldBuildsTheMergeTree := by
  intro s hr hf hv hu
  obtain ⟨u, T, hexec, hU⟩ := exec_tbld_done hr hf hv hu
  have hnode : ∀ k, nodeAt (finish u) k = nodeAt u k := nodeAt_congr rfl rfl
  refine ⟨finish u, T, hexec, ?_, hU.nodes, hU.root, hU.leaves, fun h hL hh => ?_, hU.above, ?_, ?_, hU.symbols,
    hU.root_weight⟩
  · obtain ⟨hbusy, -⟩ := hr
    conv_lhs => rw [hU.eq]
    rw [hbusy]
    rfl
  · exact MergedAt_congr (fun k _ => hnode k) (hU.merged h hL hh)
  · exact TreeIn_congr (s := u) (t := finish u) rfl rfl rfl rfl hU.tree
  · exact hU.weights.agree rfl fun k _ => hnode k

/-- Settles O20: both commands built a tree, and the two have the same counts. -/
theorem tbldIsAFunctionOfTheCounts : Obligations.TbldIsAFunctionOfTheCounts := by
  intro s s' t t' hr hr' hf hf' hv hv' hfreq ht ht'
  obtain ⟨u, T, rfl, hU⟩ := exec_tbld_next hr hf hv ht
  obtain ⟨u', T', rfl, hU'⟩ := exec_tbld_next hr' hf' hv' ht'
  obtain ⟨hroot, hnnode, hnode⟩ := hU.unique hU' hfreq
  exact ⟨hroot, hnnode, hnode⟩

end Sys2Proof.Machine
end

section
/-! The Code Table Generator as a command (spec 42_code_table_generator R90 to R97): on a finite tree `CGEN` ends with the
code table its body makes. -/

namespace Sys2Proof.Machine

/-- A ready core with a tree runs the body of `CGEN` (46_commands R140). -/
theorem exec_cgen {s : State} (hr : Ready s) (hv : s.tv = true) : exec .cgen s = conclude (cgenBody (started 3 s)) :=
  runUnit_started hr hv 3 cgenBody

theorem exec_cgen_done {s : State} {T : HTree} (hr : Ready s) (hv : s.tv = true) (hT : TreeIn s T) :
    ∃ u, exec .cgen s = .next (finish u) ∧ CodesMade (started 3 s) u (shapeOf T) := by
  have hT' : TreeIn (started 3 s) T := TreeIn_congr (s := s) (t := started 3 s) rfl rfl rfl rfl hT
  obtain ⟨u, hbody, hU⟩ := cgenBody_spec hT'
  exact ⟨u, by rw [exec_cgen hr hv, hbody]; rfl, hU⟩

/-- The frame of the table's making, with what it leaves in `CV`. -/
theorem CodesMade.eq {s u : State} {t : Shape} (h : CodesMade s u t) : u = { s with code := u.code, cv := true } := by
  refine Eq.trans h.frame ?_
  rw [h.cv]

/-- Settles O22: the body's code table, carried over the end of the command. -/
theorem cgenBindsThePaths : Obligations.CgenBindsThePaths := by
  intro s T hr hv hT
  obtain ⟨u, hexec, hU⟩ := exec_cgen_done hr hv hT
  refine ⟨finish u, hexec, ?_, CodesOf_congr (s := u) rfl rfl hU.codes, hU.others⟩
  obtain ⟨hbusy, -⟩ := hr
  conv_lhs => rw [hU.eq]
  rw [hbusy]
  rfl

end Sys2Proof.Machine
end

section
/-! The Header Codec as a command (spec 43_header_codec R100 to R118): `HSER` ends with the magic and the tree's header
sent, `HDES` with the tree of the header it read, or with the fault of the first thing that is no header. -/

namespace Sys2Proof.Machine

/-! ### `HSER` -/

/-- A ready core with a tree runs the body of `HSER` (46_commands R140). -/
theorem exec_hser {s : State} (hr : Ready s) (hv : s.tv = true) : exec .hser s = conclude (hserBody (started 4 s)) :=
  runUnit_started hr hv 4 hserBody

/-- What `HSER` sends is the magic and the header of the tree in the arena (R100 to R104). -/
theorem exec_hser_done {s : State} {T : HTree} (hr : Ready s) (hv : s.tv = true) (hT : TreeIn s T) :
    exec .hser s = .next (finish (putBitList (bitsOf 32 s.cfg.magic.toNat ++ shapeHeader (shapeOf T))
      (emptyPacker (started 4 s)))) := by
  rw [exec_hser hr hv, hserBody_spec (TreeIn_congr (s := s) (t := started 4 s) rfl rfl rfl rfl hT)]
  rfl

/-- The magic and a header of `L` leaves are `32 + 11 L - 1` bits (R105). -/
theorem magic_header_length (m : BitVec 32) (t : Shape) :
    (bitsOf 32 m.toNat ++ shapeHeader t).length = 32 + 11 * leafCount t - 1 := by
  have hL := leafCount_pos t
  rw [List.length_append, bitsOf_length, shapeHeader_length]
  omega

/-- Settles O25: the bits of magic and header go through an emptied packer, whose laws give what is sent and what
stays. -/
theorem hserWritesMagicAndHeader : Obligations.HserWritesMagicAndHeader := by
  intro s T hr hv hT
  have hframe := putBitList_frame (bitsOf 32 s.cfg.magic.toNat ++ shapeHeader (shapeOf T)) (emptyPacker (started 4 s))
  refine ⟨_, exec_hser_done hr hv hT, ?_, ?_, fun ho => ?_⟩
  · obtain ⟨hbusy, -⟩ := hr
    conv_lhs => rw [hframe]
    rw [hbusy]
    rfl
  · rw [finish_pkCnt, putBitList_pkCnt, emptyPacker_pkCnt, magic_header_length, BitVec.ofNat_eq_ofNat,
      BitVec.toNat_zero, Nat.zero_add]
  · refine (sinkBits_putBitList _ (emptyPacker (started 4 s)) ho).trans ?_
    rw [sinkBits_of_empty _ rfl]
    rfl

/-! ### Both ends of `HDES` -/

/-- A ready core runs the body of `HDES`, which needs no flag (46_commands R140). -/
theorem exec_hdes {s : State} (hr : Ready s) : exec .hdes s = conclude (hdesBody (started 6 s)) :=
  runUnit_started hr rfl 6 hdesBody

theorem exec_hdes_ok {s u : State} (hr : Ready s) (hu : hdesBody (started 6 s) = .ok () u) :
    exec .hdes s = .next (finish u) := by
  rw [exec_hdes hr, hu]; rfl

theorem exec_hdes_raised {s u : State} {e : Err} (hr : Ready s) (hu : hdesBody (started 6 s) = .raised e u) :
    exec .hdes s = .next (raise e u) := by
  rw [exec_hdes hr, hu]; rfl

/-- The body's frame, carried over a good end of the command. -/
theorem HdesFrame.finish {s u : State} (h : HdesFrame (started 6 s) u) (hb : s.busy = false) :
    HdesFrame { s with phase := 0, done := true } (finish u) := by
  unfold HdesFrame at *
  conv_lhs => rw [h]
  rw [hb]
  rfl

/-- The body's frame, carried over a fault (60_exceptions R174). -/
theorem HdesFrame.raise {s u : State} (h : HdesFrame (started 6 s) u) (hb : s.busy = false) (e : Err) :
    HdesFrame { s with err := e, phase := 0, done := true } (raise e u) := by
  unfold HdesFrame at *
  conv_lhs => rw [h]
  rw [hb]
  rfl

/-! ### The bits left in the unpacker -/

/-- With less than a byte in the unpacker, its bits are those to come beyond whole bytes (20_memory R40). -/
theorem sourceBits_mod {s : State} (h7 : s.upCnt.toNat ≤ 7) : (sourceBits s).length % 8 = s.upCnt.toNat := by
  rw [sourceBits, List.length_append, List.length_take, bitsOf_length, bytesBits_length]
  omega

/-- The source holds whole bytes, so the unpacker keeps what completes the last byte of the header (R118). -/
theorem Rebuilt.upCnt {s u : State} {T : HTree} {rest : List Bool} (h : Rebuilt s u T rest) :
    u.upCnt.toNat = (8 - (32 + 11 * leafCount (shapeOf T) - 1) % 8) % 8 := by
  have hbytes := congrArg List.length h.bits
  have hmod := sourceBits_mod h.unpacker
  rw [h.rest] at hmod
  rw [restBits, bytesBits_length, ← List.append_assoc, List.length_append, magic_header_length] at hbytes
  omega

/-! ### A good header -/

/-- Settles O29: the tree the body rebuilds, carried over the end of the command. -/
theorem hdesRebuildsTheTree : Obligations.HdesRebuildsTheTree := by
  intro s sh rest hr hf hbits hsym hsize
  obtain ⟨u, T, hu, hU, rfl⟩ := hdesBody_good (s := started 6 s) (hf.started 6).room hbits hsym hsize
  refine ⟨finish u, T, exec_hdes_ok hr hu, Eq.trans (hU.frame.finish hr.1) ?_, rfl,
    TreeIn_congr (s := u) (t := finish u) rfl rfl rfl rfl hU.tree,
    hU.bare.agree fun k _ => nodeAt_congr rfl rfl k, hU.preorder, hU.nodes, hU.rest, hU.upCnt⟩
  rw [finish_root, finish_tv, finish_cv, hU.root, hU.tv, hU.cv]

/-! ### No header -/

/-- Settles O30: the magic check fails, and the body has read at most four bytes by then. -/
theorem hdesRejectsAnotherMagic : Obligations.HdesRejectsAnotherMagic := by
  intro s hr hm
  obtain ⟨u, hu, hframe, htv, hcv, hnode, hpos, -⟩ := hdesBody_magic (s := started 6 s) hm
  refine ⟨raise .hdrMagic u, exec_hdes_raised hr hu, hpos, Eq.trans (hframe.raise hr.1 _) ?_⟩
  rw [raise_node, raise_tv, raise_cv, show u.node = s.node from hnode, htv, hcv]

/-- Tokens that leave the tree incomplete: `HDES` ends in the fault that `ReadTree` meets right after them (R112, R114,
R115). -/
theorem exec_hdes_fault {s : State} {ts : List Instr} {tail : List Bool} {e : Err} (hr : Ready s) (hf : Fits s)
    (ht : HeaderTokens ts) (ho : stillOpen 1 ts = true) (hc : ts.length ≤ s.cfg.nodeCap)
    (h : restBits s = bitsOf 32 s.cfg.magic.toNat ++ (tokenBits ts ++ tail))
    (he : ∀ n' s', ReaderAt s.cfg n' s' ts.length tail → ∃ u, readTree n' s' = .raised e u) :
    ∃ t, exec .hdes s = .next t ∧ t.err = e := by
  obtain ⟨u, hu, -⟩ := hdesBody_fault (s := started 6 s) hf.config.handle h ht ho hc he
  exact ⟨raise e u, exec_hdes_raised hr hu, rfl⟩

/-- Settles O31: the source ends where `ReadTree` reads a marker, or where it reads a symbol. -/
theorem hdesRaisesEndOfHeader : Obligations.HdesRaisesEndOfHeader := by
  intro s ts tail hr hf ht ho hbits htail
  rcases htail with ⟨rfl, hc⟩ | ⟨⟨part, rfl, hpart⟩, hc⟩
  · exact exec_hdes_fault hr hf ht ho hc hbits fun _ _ hR => readTree_eos_marker hR
  · exact exec_hdes_fault hr hf ht ho hc.le hbits fun _ _ hR => readTree_eos_symbol hR hpart hc

/-- Settles O32: `ReadTree` meets a reserved symbol, or a marker with no handle left. -/
theorem hdesRejectsSymbolsAndNodesOutOfRange : Obligations.HdesRejectsSymbolsAndNodesOutOfRange := by
  intro s ts rest hr hf ht ho
  refine ⟨fun sym hc hsym hbits => ?_, fun b hc hbits => ?_⟩
  · exact exec_hdes_fault hr hf ht ho hc.le hbits fun _ _ hR => readTree_sym hR hc hsym
  · exact exec_hdes_fault hr hf ht ho hc.le hbits fun _ _ hR => readTree_cap (hc ▸ hR)

/-! ### Every end -/

/-- Settles O33: the body ends well or with one of the four faults, and no end writes a node above the tree. -/
theorem hdesFaultLeavesFlagsClear : Obligations.HdesFaultLeavesFlagsClear := by
  intro s hr hf
  obtain ⟨hbusy, herr⟩ := hr
  have habove := hdesBody_above (s := started 6 s) hf.config.handle
  rcases hdesBody_ends (started 6 s) with ⟨u, hu, hframe, htv, hcv⟩ | ⟨u, e, hu, he, hframe, htv, hcv⟩
  · have hend : (finish u).err = .none := by rw [hframe.finish hbusy]; exact herr
    refine ⟨finish u, exec_hdes_ok ⟨hbusy, herr⟩ hu, Eq.trans (hframe.finish hbusy) ?_, iff_of_true htv hend,
      habove u (.inl hu), .inl hend⟩
    rw [finish_cv, hcv, hend, ← herr]
  · have hne : e ≠ .none := by rcases he with rfl | rfl | rfl | rfl <;> decide
    refine ⟨raise e u, exec_hdes_raised ⟨hbusy, herr⟩ hu, Eq.trans (hframe.raise hbusy e) ?_,
      iff_of_false (by rw [raise_tv, htv]; decide) hne, habove u (.inr ⟨e, hu⟩),
      .inr (he.imp_right (Or.imp_right Or.symm))⟩
    rw [raise_cv, hcv, raise_err]

end Sys2Proof.Machine
end

section
/-! The Stream Encoder as a command (spec 44_stream_encoder R120 to R124): `SENC` ends well when every symbol it meets has
a code, and else with `NO_CODE` at the first one without; every end completes and closes the output. -/

namespace Sys2Proof.Machine

/-- A ready core with codes runs the body of `SENC` (46_commands R140). -/
theorem exec_senc {s : State} (hr : Ready s) (hv : s.cv = true) : exec .senc s = conclude (sencBody (started 5 s)) :=
  runUnit_started hr hv 5 sencBody

theorem exec_senc_raised {s u : State} {e : Err} (hr : Ready s) (hv : s.cv = true)
    (hu : sencBody (started 5 s) = .raised e u) : exec .senc s = .next (raise e u) := by
  rw [exec_senc hr hv, hu]; rfl

/-! ### Where the encoding stops -/

/-- Two ways to cut a list before its first element that fails a test are one: both beginnings are the longest that
passes it. -/
theorem before_first_failure_unique {α : Type} {p : α → Bool} {pre pre' post post' : List α} {x x' : α}
    (h : pre ++ x :: post = pre' ++ x' :: post') (hpre : ∀ y ∈ pre, p y = true) (hx : p x = false)
    (hpre' : ∀ y ∈ pre', p y = true) (hx' : p x' = false) : pre = pre' := by
  have htake := congrArg (List.takeWhile p) h
  rwa [List.takeWhile_append_of_pos hpre, List.takeWhile_append_of_pos hpre', List.takeWhile_cons_of_neg (by simp [hx]),
    List.takeWhile_cons_of_neg (by simp [hx']), List.append_nil, List.append_nil] at htake

/-- Every symbol has a code: the codes and the sentinel's are sent (R120, R122). -/
theorem exec_senc_done {s : State} (hr : Ready s) (hv : s.cv = true)
    (hall : ∀ x ∈ s.src.drop s.pos, (codeAt s x.toNat).valid = true) (hsent : (codeAt s sentinel).valid = true) :
    ∃ u, exec .senc s = .next (finish u) ∧ Completed (started 5 s) u (payloadBits s (s.src.drop s.pos)) ∧
      u.pos = s.pos + (s.src.drop s.pos).length := by
  rcases sencBody_cases (started 5 s) with
    ⟨u, hu, -, hC, hpos, -⟩ | ⟨-, -, ⟨-, hno⟩, -⟩ | ⟨-, pre, x, post, -, hsplit, -, hno, -⟩
  · exact ⟨u, by rw [exec_senc hr hv, hu]; rfl, hC, hpos⟩
  · exact absurd hsent (Bool.eq_false_iff.mp hno)
  · have hx : x ∈ s.src.drop s.pos := hsplit ▸ List.mem_append_right pre List.mem_cons_self
    exact absurd (hall x hx) (Bool.eq_false_iff.mp hno)

/-- Only the sentinel has no code: the bytes' codes are sent, then `NO_CODE` (R123). -/
theorem exec_senc_sentinel {s : State} (hr : Ready s) (hv : s.cv = true)
    (hall : ∀ x ∈ s.src.drop s.pos, (codeAt s x.toNat).valid = true) (hsent : (codeAt s sentinel).valid = false) :
    ∃ u, exec .senc s = .next (raise .noCode u) ∧
      Completed (started 5 s) u ((s.src.drop s.pos).flatMap fun y => codeBits (codeAt s y.toNat)) ∧
      u.pos = s.pos + (s.src.drop s.pos).length := by
  rcases sencBody_cases (started 5 s) with
    ⟨-, -, ⟨-, hyes⟩, -⟩ | ⟨u, hu, -, hC, hpos, -⟩ | ⟨-, pre, x, post, -, hsplit, -, hno, -⟩
  · exact absurd hyes (Bool.eq_false_iff.mp hsent)
  · exact ⟨u, exec_senc_raised hr hv hu, hC, hpos⟩
  · have hx : x ∈ s.src.drop s.pos := hsplit ▸ List.mem_append_right pre List.mem_cons_self
    exact absurd (hall x hx) (Bool.eq_false_iff.mp hno)

/-- A byte has no code: the codes of the bytes before the first such byte are sent, then `NO_CODE` (R123). -/
theorem exec_senc_byte {s : State} {pre post : List Byte} {x : Byte} (hr : Ready s) (hv : s.cv = true)
    (hsplit : s.src.drop s.pos = pre ++ x :: post) (hpre : ∀ y ∈ pre, (codeAt s y.toNat).valid = true)
    (hx : (codeAt s x.toNat).valid = false) :
    ∃ u, exec .senc s = .next (raise .noCode u) ∧
      Completed (started 5 s) u (pre.flatMap fun y => codeBits (codeAt s y.toNat)) ∧ u.pos = s.pos + pre.length + 1 := by
  have hmem : x ∈ s.src.drop s.pos := hsplit ▸ List.mem_append_right pre List.mem_cons_self
  rcases sencBody_cases (started 5 s) with
    ⟨-, -, ⟨hall, -⟩, -⟩ | ⟨-, -, ⟨hall, -⟩, -⟩ | ⟨u, pre', x', post', hu, hsplit', hpre', hx', hC, hpos, -⟩
  · exact absurd (hall x hmem) (Bool.eq_false_iff.mp hx)
  · exact absurd (hall x hmem) (Bool.eq_false_iff.mp hx)
  · obtain rfl : pre = pre' := before_first_failure_unique (p := fun y : Byte => (codeAt s y.toNat).valid)
      (hsplit.symm.trans hsplit') hpre hx hpre' hx'
    exact ⟨u, exec_senc_raised hr hv hu, hC, hpos⟩

/-! ### What every end leaves -/

/-- The frame of a completed output, with what it leaves in the packer and in the sink's mark. -/
theorem Completed.eq {s t : State} {bits : List Bool} (h : Completed s t bits)
    (hp : s.pkAcc.toNat < 2 ^ s.pkCnt.toNat) :
    t = { s with
      pkAcc := 0, pkCnt := 0, pos := t.pos, out := t.out, closed := true, events := t.events, freeIdx := t.freeIdx } := by
  refine Eq.trans h.frame ?_
  rw [h.clean hp, h.empty, h.closed]

/-- A completed output, carried over a good end of the command. -/
theorem Completed.finish_eq {s t : State} {bits : List Bool} (h : Completed (started 5 s) t bits)
    (hp : s.pkAcc.toNat < 2 ^ s.pkCnt.toNat) (hb : s.busy = false) :
    finish t = { s with
      pkAcc := 0, pkCnt := 0, pos := t.pos, out := t.out, closed := true, events := t.events, freeIdx := t.freeIdx,
      phase := 0, done := true } := by
  conv_lhs => rw [h.eq hp]
  rw [hb]
  rfl

/-- A completed output, carried over a fault (60_exceptions R174). -/
theorem Completed.raise_eq {s t : State} {bits : List Bool} (h : Completed (started 5 s) t bits)
    (hp : s.pkAcc.toNat < 2 ^ s.pkCnt.toNat) (hb : s.busy = false) (e : Err) :
    raise e t = { s with
      pkAcc := 0, pkCnt := 0, pos := t.pos, out := t.out, closed := true, events := t.events, freeIdx := t.freeIdx,
      err := e, phase := 0, done := true } := by
  conv_lhs => rw [h.eq hp]
  rw [hb]
  rfl

/-! ### The obligations -/

/-- Settles O27: the body's completed output, carried over the end of the command. -/
theorem sencEncodesTheSource : Obligations.SencEncodesTheSource := by
  intro s hr hv hp hall hsent
  obtain ⟨u, hexec, hC, hpos⟩ := exec_senc_done hr hv hall hsent
  refine ⟨finish u, hexec, ?_, fun ho => (hC.sent ho).1⟩
  rw [← hpos]
  exact hC.finish_eq hp hr.1

/-- Settles O28: the two ends of the body with `NO_CODE`, each carried over the raise that ends the command. -/
theorem sencRaisesNoCode : Obligations.SencRaisesNoCode := by
  refine fun s hr hv hp => ⟨fun pre x post hsplit hpre hx => ?_, fun hall hsent => ?_⟩
  · obtain ⟨u, hexec, hC, hpos⟩ := exec_senc_byte hr hv hsplit hpre hx
    refine ⟨raise .noCode u, hexec, ?_, fun ho => (hC.sent ho).1⟩
    rw [← hpos]
    exact hC.raise_eq hp hr.1 .noCode
  · obtain ⟨u, hexec, hC, hpos⟩ := exec_senc_sentinel hr hv hall hsent
    refine ⟨raise .noCode u, hexec, ?_, fun ho => (hC.sent ho).1⟩
    rw [← hpos]
    exact hC.raise_eq hp hr.1 .noCode

end Sys2Proof.Machine
end

section
/-! The Stream Decoder as a command (spec 45_stream_decoder R130 to R139): `SDEC` ends well at a sentinel, a lone one
included, with `PAY_TRUNC` when the bits run out before one, and with `HDR_ROOT` on another lone leaf; every end closes
the sink. -/

namespace Sys2Proof.Machine

/-! ### A lone leaf -/

theorem sdecBody_rootLeaf {s : State} (h : (nodeAt s s.root).leaf = true) : sdecBody s = rootLeafEnd s := if_pos h

/-- The lone sentinel ends the decoding, with no bit read (R131). -/
theorem rootLeafEnd_sentinel {s : State} (h : (nodeAt s s.root).sym.toNat = sentinel) :
    rootLeafEnd s = .ok () (sinkClose s) := if_pos h

/-- Another lone leaf is no payload's tree (R131). -/
theorem rootLeafEnd_byte {s : State} (h : (nodeAt s s.root).sym.toNat ≠ sentinel) :
    rootLeafEnd s = .raised .hdrRoot (sinkClose s) := if_neg h

/-- Under a lone sentinel there is no byte leaf. -/
theorem TreeIn.no_byteLeaves {s : State} {T : HTree} {ls : List (List Bool × Sym)} (hT : TreeIn s T)
    (hl : (nodeAt s s.root).leaf = true) (hs : (nodeAt s s.root).sym.toNat = sentinel)
    (hls : ByteLeaves (shapeOf T) ls) : ls = [] := by
  refine List.eq_nil_iff_forall_not_mem.mpr fun ⟨q, y⟩ hq => ?_
  obtain ⟨hm, hy⟩ := hls (q, y) hq
  rcases hT.rootLeaf_or_branch hm with ⟨-, -, hsym⟩ | ⟨hbr, -⟩
  · exact hy (hsym ▸ hs)
  · rw [hl] at hbr; cases hbr

/-- A lone leaf is reached by no bit at all, so bits that reach no leaf are read under a branch. -/
theorem TreeIn.branch_of_noLeafIn {s : State} {T : HTree} {q : List Bool} (hT : TreeIn s T)
    (hq : NoLeafIn (shapeOf T) q) : (nodeAt s s.root).leaf = false := by
  obtain ⟨htop, hh, -⟩ := hT
  rw [← htop]
  cases T with
  | leaf k y => exact absurd List.nil_prefix (hq ([], y) List.mem_cons_self)
  | branch k l r => exact hh.1

/-! ### The body on a tree -/

section
variable {s : State} {T : HTree} {ls : List (List Bool × Sym)} (hT : TreeIn s T) (h8 : s.upCnt.toNat ≤ 8)
  (hls : ByteLeaves (shapeOf T) ls)
include hT h8 hls

/-- Byte leaves and then a sentinel leaf end the body well, under a branch and under a lone sentinel (R130 to R136). -/
theorem sdecBody_done {p rest : List Bool} {sym : Sym} (hp : (p, sym) ∈ shapeLeaves (shapeOf T))
    (hsen : sym.toNat = sentinel) (hb : sourceBits s = leafBits ls ++ (p ++ rest)) :
    ∃ u, sdecBody s = .ok () u ∧ DecodeEnd s u (leafBytes ls) ∧ sourceBits u = rest := by
  rcases hT.rootLeaf_or_branch hp with ⟨hl, rfl, rfl⟩ | ⟨hbr, -⟩
  · obtain rfl : ls = [] := hT.no_byteLeaves hl hsen hls
    have hnone : Emitted s s [] := Moved.emitted ⟨rfl, rfl, rfl, rfl, h8⟩
    exact ⟨sinkClose s, by rw [sdecBody_rootLeaf hl, rootLeafEnd_sentinel hsen], hnone.close, hb⟩
  · obtain ⟨htop, hh, -⟩ := hT
    exact sdecBody_sentinel htop hh hbr hls hp hsen h8 hb

/-- Byte leaves and then bits that reach no leaf end the body with `PAY_TRUNC` (R132). -/
theorem sdecBody_payTrunc {q : List Bool} (hq : NoLeafIn (shapeOf T) q) (hb : sourceBits s = leafBits ls ++ q) :
    ∃ u, sdecBody s = .raised .payTrunc u ∧ DecodeEnd s u (leafBytes ls) ∧ sourceBits u = [] := by
  have hbr := hT.branch_of_noLeafIn hq
  obtain ⟨htop, hh, -⟩ := hT
  exact sdecBody_truncated htop hh hbr hls hq h8 hb

end

/-! ### The ends of the command -/

theorem sinkClose_sdec (s : State) : SdecFrame s (sinkClose s) := rfl

/-- A ready core with a tree runs the body of `SDEC` (46_commands R140). -/
theorem exec_sdec {s : State} (hr : Ready s) (hv : s.tv = true) : exec .sdec s = conclude (sdecBody (started 7 s)) :=
  runUnit_started hr hv 7 sdecBody

theorem exec_sdec_ok {s u : State} (hr : Ready s) (hv : s.tv = true) (hu : sdecBody (started 7 s) = .ok () u) :
    exec .sdec s = .next (finish u) := by
  rw [exec_sdec hr hv, hu]; rfl

theorem exec_sdec_raised {s u : State} {e : Err} (hr : Ready s) (hv : s.tv = true)
    (hu : sdecBody (started 7 s) = .raised e u) : exec .sdec s = .next (raise e u) := by
  rw [exec_sdec hr hv, hu]; rfl

theorem TreeIn.started {s : State} {T : HTree} (h : TreeIn s T) (op : BitVec 4) : TreeIn (started op s) T :=
  TreeIn_congr (s := s) (t := Machine.started op s) rfl rfl rfl rfl h

/-- The body's frame with the sink closed, carried over a good end of the command (46_commands R140). -/
theorem SdecFrame.finish_eq {s u : State} (h : SdecFrame (started 7 s) u) (hc : u.closed = true)
    (hb : s.busy = false) :
    finish u = { s with
      cur := u.cur, upAcc := u.upAcc, upCnt := u.upCnt, pos := u.pos, out := u.out, closed := true,
      events := u.events, freeIdx := u.freeIdx, phase := 0, done := true } := by
  unfold SdecFrame at h
  conv_lhs => rw [h, hc]
  rw [hb]
  rfl

/-- The body's frame with the sink closed, carried over a fault (60_exceptions R174). -/
theorem SdecFrame.raise_eq {s u : State} (h : SdecFrame (started 7 s) u) (hc : u.closed = true)
    (hb : s.busy = false) (e : Err) :
    raise e u = { s with
      cur := u.cur, upAcc := u.upAcc, upCnt := u.upCnt, pos := u.pos, out := u.out, closed := true,
      events := u.events, freeIdx := u.freeIdx, err := e, phase := 0, done := true } := by
  unfold SdecFrame at h
  conv_lhs => rw [h, hc]
  rw [hb]
  rfl

/-! ### The obligations -/

/-- Settles O34: the body looks at the lone leaf, and its one end or the other closes the sink alone. -/
theorem sdecChecksALoneLeafFirst : Obligations.SdecChecksALoneLeafFirst := by
  intro s hr hv hl
  have hbody : sdecBody (started 7 s) = rootLeafEnd (started 7 s) := sdecBody_rootLeaf hl
  by_cases hs : (nodeAt s s.root).sym.toNat = sentinel
  · rw [exec_sdec_ok hr hv (hbody.trans (rootLeafEnd_sentinel hs)), if_pos hs,
      (sinkClose_sdec (started 7 s)).finish_eq rfl hr.1, ← hr.2]
    rfl
  · rw [exec_sdec_raised hr hv (hbody.trans (rootLeafEnd_byte hs)), if_neg hs,
      (sinkClose_sdec (started 7 s)).raise_eq rfl hr.1]
    rfl

/-- Settles O35: the body's decoding to the sentinel, carried over the end of the command. -/
theorem sdecDecodesToTheSentinel : Obligations.SdecDecodesToTheSentinel := by
  intro s T ls p sym rest hr hv hT h8 hls hp hsen hb
  obtain ⟨u, hu, hD, hrest⟩ := sdecBody_done (hT.started 7) h8 hls hp hsen hb
  exact ⟨finish u, exec_sdec_ok hr hv hu, hD.frame.finish_eq hD.closed hr.1, hrest, fun ho => (hD.sent ho).1⟩

/-- Settles O36: the body's decoding to the end of the bits, carried over the raise. -/
theorem sdecRaisesPayloadTruncated : Obligations.SdecRaisesPayloadTruncated := by
  intro s T ls q hr hv hT h8 hls hq hb
  obtain ⟨u, hu, hD, hrest⟩ := sdecBody_payTrunc (hT.started 7) h8 hls hq hb
  exact ⟨raise .payTrunc u, exec_sdec_raised hr hv hu, hD.frame.raise_eq hD.closed hr.1 .payTrunc, hrest,
    fun ho => (hD.sent ho).1⟩

/-- Settles O37: the body ends well or with one of its two faults, and each end has closed the sink. -/
theorem sdecClosesOnEveryPath : Obligations.SdecClosesOnEveryPath := by
  intro s hr hv
  rcases sdecBody_cases (started 7 s) with ⟨u, hu, hframe, hclosed⟩ | ⟨u, e, hu, he, hframe, hclosed⟩
  · have hend := hframe.finish_eq hclosed hr.1
    have hnone : (finish u).err = .none := by rw [hend]; exact hr.2
    refine ⟨finish u, exec_sdec_ok hr hv hu, hclosed, .inl hnone, hend.trans ?_⟩
    rw [hnone, ← hr.2]
    rfl
  · exact ⟨raise e u, exec_sdec_raised hr hv hu, hclosed, .inr he, hframe.raise_eq hclosed hr.1 e⟩

end Sys2Proof.Machine
end

section
/-! The dispatch of commands (spec 46_commands R140 to R144, R149, R150): which are ignored, which refused, and what an
accepted one ends with. -/

namespace Sys2Proof.Machine

/-! ### Ignored commands -/

theorem runReserved_ignored {s : State} (h : ¬ Ready s) : runReserved s = .next s := gate_ignored h _

/-- On a core that is not ready a command other than `CLR` does nothing (10_state R19, 46_commands R141). -/
theorem exec_ignored {i : Instr} {s : State} (hi : isCommand i = true) (hc : i ≠ .clr) (hs : ¬ Ready s) :
    exec i s = .next s := by
  cases i with
  | nop | comp | decomp => exact runMacro_ignored hs _
  | fcnt | tbld | cgen | hser | senc | hdes | sdec => exact runUnit_ignored hs _ _ _
  | clr => exact absurd rfl hc
  | rsvdB | rsvdC | rsvdD | rsvdE | rsvdF => exact runReserved_ignored hs
  | magic | hdrBranch | hdrLeaf | hdrLeafRsvd | payloadCode | pad => cases hi

theorem not_ready_of_busy {s : State} (h : s.busy = true) : ¬ Ready s := fun ⟨hb, _⟩ => by rw [h] at hb; cases hb

theorem not_ready_of_err {s : State} (h : s.err ≠ .none) : ¬ Ready s := fun hr => h hr.2

theorem execClr_busy {s : State} (h : s.busy = true) : execClr s = .next s := if_pos h

theorem execClr_idle {s : State} (h : s.busy = false) : execClr s = .next (clearRegisters s) :=
  if_neg (by rw [h]; decide)

/-- Settles O6: every command but `CLR` is ignored at the gate, and `CLR` looks at `BUSY` itself. -/
theorem busyOrFaultedCoreIgnoresCommands : Obligations.BusyOrFaultedCoreIgnoresCommands := by
  refine fun i s hi => ⟨fun hb => ?_, fun hc he => exec_ignored hi hc (not_ready_of_err he)⟩
  by_cases hc : i = .clr
  · rw [hc]; exact execClr_busy hb
  · exact exec_ignored hi hc (not_ready_of_busy hb)

/-- Settles O7: outside `BUSY` the command is the clearing of the registers. -/
theorem clrClearsRegistersOnly : Obligations.ClrClearsRegistersOnly := fun s h =>
  (execClr_idle h).trans (by rw [clearRegisters, h])

/-! ### Commands without a body -/

/-- Settles O8: an accepted `NOP` ends at once. -/
theorem nopSetsDone : Obligations.NopSetsDone := by
  refine fun s => ⟨fun hr hp => ?_, fun he => exec_ignored rfl nofun (not_ready_of_err he)⟩
  have hexec : exec .nop s = .next (finish (startedMacro s)) := runMacro_started hr (Res.ok ())
  obtain ⟨hbusy, -⟩ := hr
  rw [hexec, finish, startedMacro, hbusy, hp]

theorem runReserved_ready {s : State} (h : Ready s) :
    runReserved s = .next (refuse .badCmd { s with done := false }) := gate_ready h _

/-- Settles O9: a refusal writes `ERR` and `DONE` alone. -/
theorem reservedOpcodesAreRefused : Obligations.ReservedOpcodesAreRefused := by
  intro s hr
  have h : runReserved s = .next { s with err := .badCmd, done := true } := runReserved_ready hr
  simp only [List.forall_mem_cons]
  exact ⟨h, h, h, h, h, nofun⟩

/-- Settles O10: each unit looks at its flag before anything else. -/
theorem missingFlagIsRefused : Obligations.MissingFlagIsRefused := by
  refine fun s hr => ⟨fun hf => runUnit_seq hr hf 2 tbldBody, fun hf => ?_, fun hf => runUnit_seq hr hf 5 sencBody⟩
  simp only [List.forall_mem_cons]
  exact ⟨runUnit_seq hr hf 3 cgenBody, runUnit_seq hr hf 4 hserBody, runUnit_seq hr hf 7 sdecBody, nofun⟩

/-! ### How a command that is taken ends -/

/-- A ready core runs a command's body to its end, or refuses the command. -/
theorem exec_ready {i : Instr} {s : State} (hi : isCommand i = true) (hc : i ≠ .clr) (hr : Ready s) :
    (∃ r, exec i s = conclude r) ∨ ∃ e, exec i s = .next (refuse e { s with done := false }) := by
  have hunit : ∀ op needs body, (∃ r, runUnit op needs body s = conclude r) ∨
      ∃ e, runUnit op needs body s = .next (refuse e { s with done := false }) := by
    intro op needs body
    cases hn : needs { s with done := false } with
    | true => exact .inl ⟨_, runUnit_started hr hn op body⟩
    | false => exact .inr ⟨_, runUnit_seq hr hn op body⟩
  cases i with
  | nop | comp | decomp => exact .inl ⟨_, runMacro_started hr _⟩
  | fcnt | tbld | cgen | hser | senc | hdes | sdec => exact hunit _ _ _
  | clr => exact absurd rfl hc
  | rsvdB | rsvdC | rsvdD | rsvdE | rsvdF => exact .inr ⟨_, runReserved_ready hr⟩
  | magic | hdrBranch | hdrLeaf | hdrLeafRsvd | payloadCode | pad => cases hi

/-- Both ends of a body set the three status fields (46_commands R140, R144, 60_exceptions R174). -/
theorem conclude_next {r : Res Unit} {t : State} (h : conclude r = .next t) :
    t.done = true ∧ t.busy = false ∧ t.phase = 0 := by
  cases r with
  | ok a u => cases h; exact ⟨rfl, rfl, rfl⟩
  | raised e u => cases h; exact ⟨rfl, rfl, rfl⟩
  | stuck f => cases h

/-- Settles O11: a body's end sets the three fields, and a refusal leaves `BUSY` and `PHASE` at 0. -/
theorem commandEndsWithDone : Obligations.CommandEndsWithDone := by
  intro i s t hi hc hr hp ht
  rcases exec_ready hi hc hr with ⟨r, hexec⟩ | ⟨e, hexec⟩
  · exact conclude_next (hexec.symm.trans ht)
  · obtain rfl := Host.Outcome.next.inj (hexec.symm.trans ht)
    exact ⟨rfl, hr.1, hp⟩

end Sys2Proof.Machine
end

section
/-! What each instruction leaves unchanged, whichever way it ends (spec 46_commands R149 to R154): a body changes what
its frame names, and the gate and the end of a command write status fields alone. -/

namespace Sys2Proof.Machine

/-! ### From a body to its command -/

/-- `t` differs from a state that meets `P` only in the status fields, and has the `BUSY` of `s`. -/
def StatusOf (P : State → Prop) (s t : State) : Prop :=
  ∃ u, P u ∧ t = { u with busy := s.busy, done := t.done, err := t.err, phase := t.phase }

theorem conclude_statusOf {P : State → Prop} {s t : State} {r : Res Unit} (hs : s.busy = false) (hr : Keeps P r)
    (h : conclude r = .next t) : StatusOf P s t := by
  unfold StatusOf
  rw [hs]
  cases r with
  | ok a u => cases h; exact ⟨u, hr, rfl⟩
  | raised e u => cases h; exact ⟨u, hr, rfl⟩
  | stuck f => cases h

/-- A unit command changes what its body changes, and status fields. -/
theorem runUnit_statusOf {P : State → Prop} {s t : State} {op : BitVec 4} {needs : State → Bool}
    {body : State → Res Unit} (h : runUnit op needs body s = .next t) (hb : Keeps P (body (started op s)))
    (h0 : P (started op s)) : StatusOf P s t := by
  by_cases hr : Ready s
  · cases hn : needs { s with done := false } with
    | true =>
      rw [runUnit_started hr hn] at h
      exact conclude_statusOf hr.1 hb h
    | false =>
      rw [runUnit_seq hr hn] at h
      cases h
      exact ⟨_, h0, rfl⟩
  · rw [runUnit_ignored hr] at h
    cases h
    exact ⟨_, h0, rfl⟩

/-- A command without a flag changes what its body changes, and status fields. -/
theorem runMacro_statusOf {P : State → Prop} {s t : State} {body : State → Res Unit}
    (h : runMacro body s = .next t) (hb : Keeps P (body (startedMacro s))) (h0 : P (startedMacro s)) :
    StatusOf P s t := by
  by_cases hr : Ready s
  · rw [runMacro_started hr] at h
    exact conclude_statusOf hr.1 hb h
  · rw [runMacro_ignored hr] at h
    cases h
    exact ⟨_, h0, rfl⟩

/-! ### The frames of the bodies -/

theorem fcntBody_frame (s : State) : Keeps (FcntFrame s) (fcntBody s) := by
  rcases fcntBody_cases s with ⟨-, u, hu, hU⟩ | ⟨-, u, _, _, _, hu, hU⟩
  · rw [hu]; exact hU.frame
  · rw [hu]; exact hU.frame

theorem tbldBody_frame (s : State) : Keeps (TbldFrame s) (tbldBody s) := by
  rcases tbldBody_cases s with ⟨u, hu, hF, -⟩ | hu
  · rw [hu]; exact hF
  · rw [hu]; trivial

theorem cgenBody_frame (s : State) : Keeps (CgenFrame s) (cgenBody s) := by
  rcases cgenBody_cases s with ⟨u, hu, hF, -⟩ | hu
  · rw [hu]; exact hF
  · rw [hu]; trivial

theorem hserBody_frame (s : State) : Keeps (SinkFrame s) (hserBody s) := by
  rcases hserBody_cases s with ⟨u, hu, hF⟩ | hu
  · rw [hu]; exact hF
  · rw [hu]; trivial

theorem sencBody_frame (s : State) : Keeps (SencFrame s) (sencBody s) := by
  rcases sencBody_cases s with ⟨u, hu, -, hC, -⟩ | ⟨u, hu, -, hC, -⟩ | ⟨u, _, _, _, hu, -, -, -, hC, -⟩
  · rw [hu]; exact hC.frame
  · rw [hu]; exact hC.frame
  · rw [hu]; exact hC.frame

theorem hdesBody_frame (s : State) : Keeps (HdesFrame s) (hdesBody s) := by
  rcases hdesBody_ends s with ⟨u, hu, hF, -⟩ | ⟨u, e, hu, -, hF, -⟩
  · rw [hu]; exact hF
  · rw [hu]; exact hF

theorem sdecBody_frame (s : State) : Keeps (SdecFrame s) (sdecBody s) := by
  rcases sdecBody_cases s with ⟨u, hu, hF, -⟩ | ⟨u, e, hu, -, hF, -⟩
  · rw [hu]; exact hF
  · rw [hu]; exact hF

theorem decompBody_frame (s : State) : Keeps (DecompFrame s) (decompBody s) := by
  obtain ⟨u, hF, -, hu | ⟨e, hu, -⟩⟩ := decompBody_cases s
  · rw [hu]; exact hF
  · rw [hu]; exact hF

/-! ### Commands -/

/-- Settles O53: the frames of the three bodies, each under its command's status fields. -/
theorem frameOfTableUnits : Obligations.FrameOfTableUnits := by
  refine fun s t => ⟨fun h => ?_, fun h => ?_, fun h => ?_⟩
  · obtain ⟨u, hF, ht⟩ := runUnit_statusOf h (fcntBody_frame _) rfl
    rw [ht, hF]; rfl
  · obtain ⟨u, hF, ht⟩ := runUnit_statusOf h (tbldBody_frame _) rfl
    rw [ht, hF]; rfl
  · obtain ⟨u, hF, ht⟩ := runUnit_statusOf h (cgenBody_frame _) rfl
    rw [ht, hF]; rfl

/-- Settles O54: the frames of the six bodies, each under its command's status fields. -/
theorem frameOfStreamCommands : Obligations.FrameOfStreamCommands := by
  refine fun s t => ⟨fun h => ?_, fun h => ?_, fun h => ?_, fun h => ?_, fun h => ?_, fun h => ?_⟩
  · obtain ⟨u, hF, ht⟩ := runUnit_statusOf h (hserBody_frame _) rfl
    rw [ht, hF]; rfl
  · obtain ⟨u, hF, ht⟩ := runUnit_statusOf h (sencBody_frame _) rfl
    rw [ht, hF]; rfl
  · obtain ⟨u, hF, ht⟩ := runUnit_statusOf h (hdesBody_frame _) rfl
    rw [ht, hF]; rfl
  · obtain ⟨u, hF, ht⟩ := runUnit_statusOf h (sdecBody_frame _) rfl
    rw [ht, hF]; rfl
  · obtain ⟨u, hF, ht⟩ := runMacro_statusOf h (compBody_frame _) rfl
    rw [ht, hF]; rfl
  · obtain ⟨u, hF, ht⟩ := runMacro_statusOf h (decompBody_frame _) rfl
    rw [ht, hF]; rfl

/-- A refusal writes `ERR` and `DONE`, and else nothing happens (46_commands R143). -/
theorem runReserved_next {s t : State} (h : runReserved s = .next t) :
    t = { s with err := t.err, phase := t.phase, done := t.done } := by
  by_cases hr : Ready s
  · rw [runReserved_ready hr] at h; cases h; rfl
  · rw [runReserved_ignored hr] at h; cases h; rfl

/-- An accepted `NOP` writes status fields (46_commands R149). -/
theorem execNop_next {s t : State} (h : execNop s = .next t) :
    t = { s with err := t.err, phase := t.phase, done := t.done } := by
  obtain ⟨u, hu, ht⟩ := runMacro_statusOf (P := (· = startedMacro s)) h rfl rfl
  rw [ht, hu]; rfl

theorem execClr_next {s t : State} (h : execClr s = .next t) :
    t = { s with
      err := t.err, done := t.done, fv := t.fv, tv := t.tv, cv := t.cv, phase := t.phase, root := t.root,
      nnode := t.nnode, cur := t.cur, pkAcc := t.pkAcc, pkCnt := t.pkCnt, upAcc := t.upAcc, upCnt := t.upCnt,
      live := t.live } := by
  rcases Bool.eq_false_or_eq_true s.busy with hb | hb
  · rw [execClr_busy hb] at h; cases h; rfl
  · rw [execClr_idle hb] at h; cases h; rw [clearRegisters, hb]

/-! ### Tokens -/

/-- Whichever next state is answered, it meets `P`. -/
def Answers (P : State → Prop) (o : Host.Outcome State Fault Refusal) : Prop := ∀ t, o = .next t → P t

theorem answers_next {P : State → Prop} {s : State} (h : P s) : Answers P (.next s) := by
  intro t ht
  cases ht
  exact h

theorem Answers.ite {P : State → Prop} {p : Prop} [Decidable p] {a b : Host.Outcome State Fault Refusal}
    (ha : Answers P a) (hb : Answers P b) : Answers P (if p then a else b) := by
  split
  · exact ha
  · exact hb

theorem Keeps.imp {α : Type} {P Q : State → Prop} {r : Res α} (h : Keeps P r) (hr : ∀ s, P s → Q s) :
    Keeps Q r := by
  cases r with
  | ok a s => exact hr s h
  | raised e s => exact hr s h
  | stuck x => trivial

/-- A token's fault ends the running command, so `P` must bear a raise. -/
theorem Keeps.concludeToken {P : State → Prop} {r : Res Unit} (h : Keeps P r) (hr : ∀ e u, P u → P (raise e u)) :
    Answers P (concludeToken r) := by
  cases r with
  | ok a u => exact answers_next (s := u) h
  | raised e u => exact answers_next (s := raise e u) (hr e u h)
  | stuck f => intro t ht; cases ht

/-- `t` differs from `s` only where a token of the magic or of the header may change it (30_encoding R51 to R60). -/
def HeaderTokenFrame (s t : State) : Prop :=
  t = { s with
    node := t.node, nnode := t.nnode, pkAcc := t.pkAcc, pkCnt := t.pkCnt, out := t.out, events := t.events,
    freeIdx := t.freeIdx, err := t.err, phase := t.phase, done := t.done, busy := t.busy }

theorem HeaderTokenFrame.refl (s : State) : HeaderTokenFrame s s := rfl

theorem HeaderTokenFrame.trans {s t u : State} (h : HeaderTokenFrame s t) (k : HeaderTokenFrame t u) :
    HeaderTokenFrame s u := by
  unfold HeaderTokenFrame at *; rw [k, h]

theorem SinkFrame.headerToken {s t : State} (h : SinkFrame s t) : HeaderTokenFrame s t := by
  unfold SinkFrame at h; unfold HeaderTokenFrame; rw [h]

theorem HeaderTokenFrame.raise {s u : State} (h : HeaderTokenFrame s u) (e : Err) : HeaderTokenFrame s (raise e u) :=
  h.trans rfl

theorem checkMagic_headerToken (m : BitVec 32) (s : State) : Keeps (HeaderTokenFrame s) (checkMagic m s) := by
  unfold checkMagic
  split
  · exact .refl s
  · exact .refl s

theorem takeHandle_headerToken (s : State) : Keeps (HeaderTokenFrame s) (takeHandle s) := by
  unfold takeHandle
  split
  · exact .refl s
  · exact rfl

theorem buildLeaf_headerToken (h v : Nat) (s : State) : Keeps (HeaderTokenFrame s) (buildLeaf h v s) := by
  unfold buildLeaf
  split
  · exact .refl s
  · exact rfl

theorem takeLeaf_headerToken (v : Nat) (s : State) : Keeps (HeaderTokenFrame s) (takeLeaf v s) :=
  (takeHandle_headerToken s).bind fun h t ht => (buildLeaf_headerToken h v t).imp fun _ hu => ht.trans hu

theorem takeBranch_headerToken (s : State) : Keeps (HeaderTokenFrame s) (takeBranch s) :=
  (takeHandle_headerToken s).bind fun _ _ ht => ht.trans rfl

/-- A header token is written through the packer, read by `HDES`, or does nothing (log 9). -/
theorem exec_headerToken (s : State) (m : BitVec 32) (sym : Sym) :
    ∀ i ∈ [Instr.magic m, .hdrBranch, .hdrLeaf sym, .hdrLeafRsvd sym], Answers (HeaderTokenFrame s) (exec i s) := by
  have hput : ∀ bs, Answers (HeaderTokenFrame s) (.next (putBitList bs s)) := fun bs =>
    answers_next (putBitList_frame bs s).headerToken
  have hread : ∀ {r}, Keeps (HeaderTokenFrame s) r → Answers (HeaderTokenFrame s) (concludeToken r) := fun h =>
    h.concludeToken fun e _ hu => hu.raise e
  have hnone : Answers (HeaderTokenFrame s) (.next s) := answers_next (.refl s)
  simp only [List.forall_mem_cons]
  exact ⟨.ite (hput _) (.ite (hread (checkMagic_headerToken m s)) hnone),
    .ite (hput _) (.ite (hread (takeBranch_headerToken s)) hnone),
    .ite (answers_next ((putBitList_frame _ s).trans (putBitList_frame _ _)).headerToken)
      (.ite (hread (takeLeaf_headerToken _ s)) hnone),
    .ite (hread (takeLeaf_headerToken _ s)) hnone, nofun⟩

/-- `t` differs from `s` only where a token of the payload or the padding may change it (30_encoding R56, R57). -/
def PayloadTokenFrame (s t : State) : Prop :=
  t = { s with
    pkAcc := t.pkAcc, pkCnt := t.pkCnt, cur := t.cur, out := t.out, closed := t.closed, events := t.events,
    freeIdx := t.freeIdx, err := t.err, phase := t.phase, done := t.done, busy := t.busy }

theorem PayloadTokenFrame.refl (s : State) : PayloadTokenFrame s s := rfl

theorem PayloadTokenFrame.trans {s t u : State} (h : PayloadTokenFrame s t) (k : PayloadTokenFrame t u) :
    PayloadTokenFrame s u := by
  unfold PayloadTokenFrame at *; rw [k, h]

theorem SinkFrame.payloadToken {s t : State} (h : SinkFrame s t) : PayloadTokenFrame s t := by
  unfold SinkFrame at h; unfold PayloadTokenFrame; rw [h]

theorem stepBit_payloadToken (b : Bool) (s : State) : PayloadTokenFrame s (stepBit b s).2 := by
  have hmove : PayloadTokenFrame s (moveCur b s) := rfl
  unfold stepBit arrive
  split
  · split
    · exact hmove
    · exact (hmove.trans (sinkWriteByte_frame _ _).payloadToken).trans rfl
  · exact hmove

theorem walkBits_payloadToken (bs : List Bool) (s : State) : PayloadTokenFrame s (walkBits bs s).2 := by
  induction bs generalizing s with
  | nil => exact .refl s
  | cons b bs ih =>
    have hstep := stepBit_payloadToken b s
    unfold walkBits
    split
    · rename_i t heq; rw [heq] at hstep; exact hstep
    · rename_i t heq; rw [heq] at hstep; exact hstep.trans (ih t)

theorem readCode_payloadToken (c : List Bool) (s : State) : Answers (PayloadTokenFrame s) (readCode c s) := by
  cases hl : (nodeAt s s.root).leaf with
  | true =>
    rw [readCode_leaf hl]
    unfold rootLeafEnd
    split
    · exact answers_next rfl
    · exact answers_next rfl
  | false =>
    have hwalk := walkBits_payloadToken c s
    rw [readCode_branch hl]
    exact .ite (answers_next (hwalk.trans rfl)) (answers_next hwalk)

/-- A code is written through the packer, read by `SDEC`, or does nothing, and padding is only written (log 9). -/
theorem exec_payloadToken (s : State) (c : List Bool) (n : Nat) :
    ∀ i ∈ [Instr.payloadCode c, .pad n], Answers (PayloadTokenFrame s) (exec i s) := by
  have hput : ∀ bs, Answers (PayloadTokenFrame s) (.next (putBitList bs s)) := fun bs =>
    answers_next (putBitList_frame bs s).payloadToken
  have hnone : Answers (PayloadTokenFrame s) (.next s) := answers_next (.refl s)
  simp only [List.forall_mem_cons]
  exact ⟨.ite (hput c) (.ite (readCode_payloadToken c s) hnone), .ite (hput _) hnone, nofun⟩

/-- Settles O55: a command without a body writes registers, and a token what its unit's operation writes. -/
theorem frameOfSystemCommandsAndTokens : Obligations.FrameOfSystemCommandsAndTokens := by
  refine fun s t => ⟨?_, execClr_next, fun m sym i hi => exec_headerToken s m sym i hi t,
    fun c n i hi => exec_payloadToken s c n i hi t⟩
  simp only [List.forall_mem_cons]
  exact ⟨execNop_next, runReserved_next, runReserved_next, runReserved_next, runReserved_next, runReserved_next, nofun⟩

/-! ### The configuration -/

/-- No frame of any instruction names the parameters (46_commands R154). -/
theorem exec_cfg {i : Instr} {s t : State} (h : exec i s = .next t) : t.cfg = s.cfg := by
  obtain ⟨hfcnt, htbld, hcgen⟩ := frameOfTableUnits s t
  obtain ⟨hhser, hsenc, hhdes, hsdec, hcomp, hdecomp⟩ := frameOfStreamCommands s t
  cases i with
  | nop => rw [execNop_next h]
  | fcnt => rw [hfcnt h]
  | tbld => rw [htbld h]
  | cgen => rw [hcgen h]
  | hser => rw [hhser h]
  | senc => rw [hsenc h]
  | hdes => rw [hhdes h]
  | sdec => rw [hsdec h]
  | comp => rw [hcomp h]
  | decomp => rw [hdecomp h]
  | clr => rw [execClr_next h]
  | rsvdB | rsvdC | rsvdD | rsvdE | rsvdF => rw [runReserved_next h]
  | magic m => rw [exec_headerToken s m 0 _ (by simp) t h]
  | hdrBranch => rw [exec_headerToken s 0 0 _ (by simp) t h]
  | hdrLeaf sym => rw [exec_headerToken s 0 sym _ (by simp) t h]
  | hdrLeafRsvd sym => rw [exec_headerToken s 0 sym _ (by simp) t h]
  | payloadCode c => rw [exec_payloadToken s c 0 _ (by simp) t h]
  | pad n => rw [exec_payloadToken s [] n _ (by simp) t h]

@[simp] theorem replayStreams_cfg (es : List StreamEvent) (s : State) : (replayStreams es s).cfg = s.cfg := by
  rw [replayStreams_frame]

theorem resetDuring_cfg {w : BitVec 16} {n : Nat} {s t : State} (h : resetDuring w n s = .next t) :
    t.cfg = s.cfg := by
  unfold resetDuring at h
  split at h
  · cases h
    rw [assertReset_cfg, replayStreams_cfg]
  · cases h
  · cases h

theorem hostAct_cfg {a : HostAction} {s t : State} (h : hostAct a s = .next t) : t.cfg = s.cfg := by
  cases a with
  | write r w =>
    cases r with
    | cmd => exact exec_cfg (i := decodeWord s.cfg.opW w) h
    | status => cases h; rfl
  | read | presentSource | presentSink => cases h; rfl
  | reset => cases h; exact assertReset_cfg s
  | resetDuring w n => exact resetDuring_cfg h

/-- Settles O60: a step is one host action, and none of them writes the parameters. -/
theorem stepKeepsTheConfiguration : Obligations.StepKeepsTheConfiguration := by
  intro s t h
  cases hh : s.host with
  | nil => rw [step_idle hh] at h; cases h; rfl
  | cons a rest =>
    rw [step_action hh] at h
    exact hostAct_cfg (s := { s with host := rest }) h

end Sys2Proof.Machine
end

section
/-! `COMP` and `DECOMP` against their unit commands (spec 46_commands R151): between two of their units the core holds
what it holds between two commands, but for the status fields, which the next unit writes first. -/

namespace Sys2Proof.Machine

/-! ### Between two units -/

/-- A command is running and no error is held. -/
def Running (s : State) : Prop := s.busy = true ∧ s.done = false ∧ s.err = .none

theorem Running.startedMacro {s : State} (h : Ready s) : Running (startedMacro s) := ⟨rfl, rfl, h.2⟩

theorem Running.enterPhase {s : State} (h : Running s) (p : BitVec 4) : Running (enterPhase p s) := h

/-- A body's frame leaves the status fields alone; this is all that is asked of it here. -/
theorem Running.congr {s u : State} (h : Running s) (hb : u.busy = s.busy) (hd : u.done = s.done)
    (he : u.err = s.err) : Running u := ⟨hb.trans h.1, hd.trans h.2.1, he.trans h.2.2⟩

theorem Running.comp {s u : State} (h : Running s) (k : CompFrame s u) : Running u := by
  exact h.congr (by rw [k]) (by rw [k]) (by rw [k])

theorem Running.decomp {s u : State} (h : Running s) (k : DecompFrame s u) : Running u := by
  exact h.congr (by rw [k]) (by rw [k]) (by rw [k])

/-- Where a unit ended, the core is ready for the next command. -/
theorem Running.finish_ready {s : State} (h : Running s) : Ready (finish s) := ⟨rfl, h.2.2⟩

/-- The next unit starts where the running command goes on. -/
theorem Running.started_finish {s : State} (h : Running s) (op : BitVec 4) :
    started op (finish s) = Machine.enterPhase op s := by
  obtain ⟨hb, hd, -⟩ := h
  rw [started, finish, Machine.enterPhase, ← hb, ← hd]

/-- A unit command after another unit runs its body as the running command does. -/
theorem Running.runUnit_finish {s : State} (h : Running s) (op : BitVec 4) {needs : State → Bool}
    (body : State → Res Unit) (hn : needs { finish s with done := false } = true) :
    runUnit op needs body (finish s) = conclude (body (Machine.enterPhase op s)) := by
  rw [runUnit_started h.finish_ready hn, h.started_finish]

/-! ### Commands one after another -/

theorem execAll_cons {i : Instr} {is : List Instr} {s t : State} (h : exec i s = .next t) :
    execAll (i :: is) s = execAll is t := by rw [execAll, h]

/-- Where an error is held, commands other than `CLR` change nothing (46_commands R141). -/
theorem execAll_ignored {is : List Instr} {t : State} (hi : ∀ i ∈ is, isCommand i = true ∧ i ≠ .clr)
    (ht : t.err ≠ .none) : execAll is t = .next t := by
  induction is with
  | nil => rfl
  | cons i is ih =>
    obtain ⟨⟨hcom, hclr⟩, his⟩ := List.forall_mem_cons.mp hi
    rw [execAll_cons (exec_ignored hcom hclr (not_ready_of_err ht)), ih his]

/-! ### The first unit -/

theorem compBody_ok {s a : State} (h : fcntBody (enterPhase 1 s) = .ok () a) :
    compBody s = andThen (tbldBody (enterPhase 2 a)) fun _ b =>
      andThen (cgenBody (enterPhase 3 b)) fun _ c =>
        andThen (hserBody (enterPhase 4 c)) fun _ d => sencBody (enterPhase 5 d) := by
  unfold compBody
  rw [h]
  rfl

theorem compBody_raised {s u : State} {e : Err} (h : fcntBody (enterPhase 1 s) = .raised e u) :
    compBody s = .raised e (sinkClose u) := by
  unfold compBody
  rw [h]
  rfl

theorem exec_comp {s : State} (h : Ready s) : exec .comp s = conclude (compBody (startedMacro s)) :=
  runMacro_started h compBody

theorem exec_decomp {s : State} (h : Ready s) : exec .decomp s = conclude (decompBody (startedMacro s)) :=
  runMacro_started h decompBody

/-! ### Without a fault -/

/-- A `COMP` that ends well is its five units, each ending well (46_commands R145, R151). -/
theorem comp_eq_units {s t : State} (hr : Ready s) (ht : t.err = .none) (h : exec .comp s = .next t) :
    execAll [.fcnt, .tbld, .cgen, .hser, .senc] s = .next t := by
  rw [exec_comp hr] at h
  rcases fcntBody_cases (started 1 s) with ⟨-, a, ha, hA⟩ | ⟨-, u, _, _, _, hu, -⟩
  swap
  · rw [compBody_raised (s := startedMacro s) hu] at h; cases h; cases ht
  have ra : Running a := ((Running.startedMacro hr).enterPhase 1).comp hA.frame.comp
  rw [compBody_ok (s := startedMacro s) ha] at h
  rcases tbldBody_cases (enterPhase 2 a) with ⟨b, hb, hB, hbtv⟩ | hb
  swap
  · rw [hb] at h; cases h
  have rb : Running b := (ra.enterPhase 2).comp hB.comp
  rw [hb, andThen] at h
  rcases cgenBody_cases (enterPhase 3 b) with ⟨c, hc, hC, hccv⟩ | hc
  swap
  · rw [hc] at h; cases h
  have rc : Running c := (rb.enterPhase 3).comp hC.comp
  obtain ⟨-, -, -, hctv, -⟩ := hC.rest
  rw [hc, andThen] at h
  rcases hserBody_cases (enterPhase 4 c) with ⟨d, hd, hD⟩ | hd
  swap
  · rw [hd] at h; cases h
  have rd : Running d := (rc.enterPhase 4).comp hD.senc.comp
  rw [hd, andThen] at h
  have hfcnt : exec .fcnt s = .next (finish a) := by rw [exec_fcnt hr, ha]; rfl
  have htbld : exec .tbld (finish a) = .next (finish b) :=
    (ra.runUnit_finish 2 tbldBody hA.fv).trans (by rw [hb]; rfl)
  have hcgen : exec .cgen (finish b) = .next (finish c) :=
    (rb.runUnit_finish 3 cgenBody hbtv).trans (by rw [hc]; rfl)
  have hhser : exec .hser (finish c) = .next (finish d) :=
    (rc.runUnit_finish 4 hserBody (hctv.trans hbtv)).trans (by rw [hd]; rfl)
  have hsenc : exec .senc (finish d) = .next t :=
    (rd.runUnit_finish 5 sencBody (hD.cv.trans hccv)).trans h
  rw [execAll_cons hfcnt, execAll_cons htbld, execAll_cons hcgen, execAll_cons hhser, execAll_cons hsenc]
  rfl

/-- A `DECOMP` that ends well is its two units, each ending well (46_commands R147, R151). -/
theorem decomp_eq_units {s t : State} (hr : Ready s) (ht : t.err = .none) (h : exec .decomp s = .next t) :
    execAll [.hdes, .sdec] s = .next t := by
  rw [exec_decomp hr] at h
  rcases hdesBody_ends (started 6 s) with ⟨a, ha, hA, htv, -⟩ | ⟨u, e, hu, he, -⟩
  · have ra : Running a := ((Running.startedMacro hr).enterPhase 6).decomp hA.decomp
    rw [decompBody_ok (s := startedMacro s) ha] at h
    have hsdec : exec .sdec (finish a) = .next t := (ra.runUnit_finish 7 sdecBody htv).trans h
    rw [execAll_cons (exec_hdes_ok hr ha), execAll_cons hsdec]
    rfl
  · rw [decompBody_raised (s := startedMacro s) hu] at h
    cases h
    rcases he with rfl | rfl | rfl | rfl <;> cases ht

/-! ### A fault of the first unit -/

/-- The close after a fault of `FCNT` is all that `COMP` adds (46_commands R146). -/
theorem comp_of_fcnt_fault {s t : State} (hr : Ready s) (ht : t.err ≠ .none) (h : exec .fcnt s = .next t) :
    exec .comp s = .next (sinkClose t) := by
  rw [exec_fcnt hr] at h
  rcases fcntBody_cases (started 1 s) with ⟨-, a, ha, hA⟩ | ⟨-, u, _, _, _, hu, -⟩
  · have ra : Running a := ((Running.startedMacro hr).enterPhase 1).comp hA.frame.comp
    rw [ha] at h
    cases h
    exact absurd ra.2.2 ht
  · rw [hu] at h
    cases h
    rw [exec_comp hr, compBody_raised (s := startedMacro s) hu]
    rfl

/-- The close after a fault of `HDES` is all that `DECOMP` adds (46_commands R148). -/
theorem decomp_of_hdes_fault {s t : State} (hr : Ready s) (ht : t.err ≠ .none) (h : exec .hdes s = .next t) :
    exec .decomp s = .next (sinkClose t) := by
  rw [exec_hdes hr] at h
  rcases hdesBody_ends (started 6 s) with ⟨a, ha, hA, -⟩ | ⟨u, e, hu, -⟩
  · have ra : Running a := ((Running.startedMacro hr).enterPhase 6).decomp hA.decomp
    rw [ha] at h
    cases h
    exact absurd ra.2.2 ht
  · rw [hu] at h
    cases h
    rw [exec_decomp hr, decompBody_raised (s := startedMacro s) hu]
    rfl

/-- Settles O42: without a fault each unit starts where the one before it ended; after a fault the later ones are
ignored. -/
theorem macrosAreTheirUnits : Obligations.MacrosAreTheirUnits := by
  refine fun s t hr => ⟨fun ht => ⟨comp_eq_units hr ht, decomp_eq_units hr ht⟩, fun ht => ⟨fun h => ?_, fun h => ?_⟩⟩
  · exact ⟨comp_of_fcnt_fault hr ht h, by rw [execAll_cons h, execAll_ignored (by decide) ht]⟩
  · exact ⟨decomp_of_hdes_fault hr ht h, by rw [execAll_cons h, execAll_ignored (by decide) ht]⟩

end Sys2Proof.Machine
end

section
/-! `COMP` and `DECOMP` as commands (spec 46_commands R145 to R148): the container that `COMP` leaves, what `DECOMP`
makes of a container, and the closed sink on every fault. -/

namespace Sys2Proof.Machine

/-! ### Both ends of the two commands -/

theorem exec_comp_ok {s u : State} (hr : Ready s) (hu : compBody (startedMacro s) = .ok () u) :
    exec .comp s = .next (finish u) := by
  rw [exec_comp hr, hu]; rfl

theorem exec_comp_raised {s u : State} {e : Err} (hr : Ready s) (hu : compBody (startedMacro s) = .raised e u) :
    exec .comp s = .next (raise e u) := by
  rw [exec_comp hr, hu]; rfl

theorem exec_decomp_ok {s u : State} (hr : Ready s) (hu : decompBody (startedMacro s) = .ok () u) :
    exec .decomp s = .next (finish u) := by
  rw [exec_decomp hr, hu]; rfl

theorem exec_decomp_raised {s u : State} {e : Err} (hr : Ready s) (hu : decompBody (startedMacro s) = .raised e u) :
    exec .decomp s = .next (raise e u) := by
  rw [exec_decomp hr, hu]; rfl

/-! ### The last unit of `COMP` -/

/-- With a code for every byte to come and for the sentinel, `SENC` sends them all (44_stream_encoder R120 to R124). -/
theorem sencBody_done {s : State} (hall : ∀ x ∈ s.src.drop s.pos, (codeAt s x.toNat).valid = true)
    (hsent : (codeAt s sentinel).valid = true) :
    ∃ u, sencBody s = .ok () u ∧ Completed s u (payloadBits s (s.src.drop s.pos)) ∧
      u.pos = s.pos + (s.src.drop s.pos).length := by
  rcases sencBody_cases s with
    ⟨u, hu, -, hC, hpos, -⟩ | ⟨-, -, ⟨-, hno⟩, -⟩ | ⟨-, pre, x, post, -, hsplit, -, hno, -⟩
  · exact ⟨u, hu, hC, hpos⟩
  · exact absurd hsent (Bool.eq_false_iff.mp hno)
  · have hx : x ∈ s.src.drop s.pos := hsplit ▸ List.mem_append_right pre List.mem_cons_self
    exact absurd (hall x hx) (Bool.eq_false_iff.mp hno)

/-- With a byte to come that has no code, `SENC` ends with `NO_CODE` (44_stream_encoder R123). -/
theorem sencBody_noCode {s : State} {x : Byte} (hx : x ∈ s.src.drop s.pos) (hno : (codeAt s x.toNat).valid = false) :
    ∃ u bits, sencBody s = .raised .noCode u ∧ Completed s u bits := by
  rcases sencBody_cases s with ⟨-, -, ⟨hall, -⟩, -⟩ | ⟨u, hu, -, hC, -⟩ | ⟨u, _, _, _, hu, -, -, -, hC, -⟩
  · exact absurd (hall x hx) (Bool.eq_false_iff.mp hno)
  · exact ⟨u, _, hu, hC⟩
  · exact ⟨u, _, hu, hC⟩

/-- A symbol without a leaf has no kept path (42_code_table_generator R97). -/
theorem keptPath_none {t : Shape} {k : Nat} (h : k ∉ leafSymbols t) : keptPath t k = none := by
  have hnone : (shapeLeaves t).filter (fun p => decide (p.2.toNat = k)) = [] := by
    rw [List.filter_eq_nil_iff]
    intro p hp hk
    exact h (List.mem_map.mpr ⟨p, hp, of_decide_eq_true hk⟩)
  rw [keptPath, hnone]
  rfl

/-- A byte that was not counted gets no leaf and so no code (70_reset_and_hazards R197). -/
theorem CompMid.no_code {s e : State} {T : HTree} (h : CompMid s e T) {x : Byte} (hx : x ∉ s.src.drop s.pos) :
    (codeAt e x.toNat).valid = false := by
  have hzero : freqAt e x.toNat = 0 := (h.counts x).trans (List.count_eq_zero.mpr hx)
  have hleaf : x.toNat ∉ leafSymbols (shapeOf T) := fun hm =>
    (mem_usedSymbols.mp (h.symbols.mem_iff.mp hm)).2 hzero
  have hcode := h.codes x.toNat (byte_lt_nsym x)
  rwa [keptPath_none hleaf] at hcode

/-- The last unit reads the source from its start (40_frequency_counter R77). -/
theorem CompMid.rest {s e : State} {T : HTree} (h : CompMid s e T) : e.src.drop e.pos = s.srcLater.headD s.src := by
  rw [h.pos, h.src, List.drop_zero]

/-! ### The container -/

/-- Whole bytes before a container do not move its padding (30_encoding R57). -/
theorem padding_bytes_append (xs : List Byte) (bits : List Bool) :
    padding (bytesBits xs ++ bits).length = padding bits.length := by
  rw [padding, padding, List.length_append, bytesBits_length, Nat.mul_add_mod]

/-- From `s`, a counted source whose second pass is `xs`, to `u`, in which `COMP` has sent the container of `xs`. -/
structure Compressed (s u : State) (T : HTree) (xs : List Byte) : Prop where
  frame : CompFrame s u
  counts : ∀ b : Byte, freqAt u b.toNat = restCount s b
  sentinel : freqAt u Sys2Proof.sentinel = 1
  tree : TreeIn u T
  weights : WeightsOk u T
  symbols : (leafSymbols (shapeOf T)).Perm (usedSymbols u)
  codes : CodesOf u (shapeOf T)
  flags : u.fv = true ∧ u.tv = true ∧ u.cv = true
  live : u.live = 0
  packer : u.pkAcc = 0 ∧ u.pkCnt = 0
  source : u.src = xs ∧ u.pos = xs.length ∧ u.srcLater = s.srcLater.tail
  closed : u.closed = true
  sent : s.closed = false →
    bytesBits u.out = bytesBits s.out ++ containerBits s.cfg.magic (shapeOf T) (payloadBits u xs)

/-- The last unit adds payload, padding and close to what the four before it made. -/
theorem CompMid.compressed {s e u : State} {T : HTree} {xs : List Byte} (h : CompMid s e T)
    (hx : xs = s.srcLater.headD s.src) (hC : Completed e u (payloadBits e xs))
    (hpos : u.pos = e.pos + (e.src.drop e.pos).length) : Compressed s u T xs := by
  have hF := hC.frame
  have hf : u.freq = e.freq := by rw [hF]
  have hn : u.node = e.node := by rw [hF]
  have hcfg : u.cfg = e.cfg := hF.cfg
  have hcode : u.code = e.code := hF.code
  have hpay : payloadBits u xs = payloadBits e xs := by simp only [payloadBits, codeAt_congr hcode]
  exact
    { frame := h.frame.trans hF.comp
      counts := fun b => (freqAt_congr hf _).trans (h.counts b)
      sentinel := (freqAt_congr hf _).trans h.sentinel
      tree := TreeIn_congr hn (by rw [hF]) (by rw [hF]) hcfg h.tree
      weights := h.weights.agree hf fun k _ => nodeAt_congr hn hcfg k
      symbols := by rw [usedSymbols_congr hf]; exact h.symbols
      codes := CodesOf_congr hcode hcfg h.codes
      flags := by rw [hF]; exact ⟨h.fv, h.tv, h.cv⟩
      live := by rw [hF]; exact h.live
      packer := ⟨hC.clean h.packer, hC.empty⟩
      source := by
        refine ⟨?_, by rw [hpos, h.rest, h.pos, hx, Nat.zero_add], ?_⟩
        · rw [hF, hx]; exact h.src
        · rw [hF]; exact h.later
      closed := hC.closed
      sent := fun ho => by
        rw [(hC.sent (h.closed.trans ho)).1, (h.sent ho).1, hpay, containerBits]
        simp only [List.append_assoc, padding_bytes_append] }

/-- `COMP` on an input whose second pass brings no byte that was not counted (R145, 70_reset_and_hazards R196, R197). -/
theorem compBody_done {s : State} {xs : List Byte} (hs : Fits s) (hc : CountsFit s)
    (hx : xs = s.srcLater.headD s.src) (hall : ∀ x ∈ xs, x ∈ s.src.drop s.pos) :
    ∃ u T, compBody s = .ok () u ∧ Compressed s u T xs := by
  obtain ⟨e, T, hE, hb⟩ := compBody_mid hs hc
  obtain ⟨hbytes, hsent⟩ := hE.codes_valid
  have hrest : e.src.drop e.pos = xs := hE.rest.trans hx.symm
  obtain ⟨u, hu, hC, hpos⟩ := sencBody_done (s := e) (fun x hm => hbytes x (hall x (hrest ▸ hm))) hsent
  exact ⟨u, T, hb.trans hu, hE.compressed hx (hrest ▸ hC) hpos⟩

/-- `COMP` on an input whose second pass brings a byte that was not counted (R146, 70_reset_and_hazards R197). -/
theorem compBody_noCode {s : State} (hs : Fits s) (hc : CountsFit s) {x : Byte} (hx : x ∈ s.srcLater.headD s.src)
    (hno : x ∉ s.src.drop s.pos) :
    ∃ u, compBody s = .raised .noCode u ∧ u.closed = true ∧ u.pkCnt = 0 := by
  obtain ⟨e, T, hE, hb⟩ := compBody_mid hs hc
  obtain ⟨u, bits, hu, hC⟩ := sencBody_noCode (hE.rest ▸ hx) (hE.no_code hno)
  exact ⟨u, hb.trans hu, hC.closed, hC.empty⟩

/-- The frame of a compression, with what it leaves in each flag, register and stream, carried over the end of the
command. -/
theorem Compressed.finish_eq {s u : State} {T : HTree} {xs : List Byte} (h : Compressed (startedMacro s) u T xs)
    (hb : s.busy = false) :
    finish u = { s with
      freq := u.freq, node := u.node, code := u.code, fv := true, tv := true, cv := true, root := u.root,
      nnode := u.nnode, live := 0, pkAcc := 0, pkCnt := 0, src := xs, pos := xs.length,
      srcLater := s.srcLater.tail, out := u.out, closed := true, events := u.events, freeIdx := u.freeIdx,
      phase := 0, done := true } := by
  have hF := h.frame
  obtain ⟨hfv, htv, hcv⟩ := h.flags
  obtain ⟨hacc, hcnt⟩ := h.packer
  obtain ⟨hsrc, hpos, hlater⟩ := h.source
  conv_lhs => rw [hF, hfv, htv, hcv, h.live, hacc, hcnt, hsrc, hpos, hlater, h.closed]
  rw [hb]
  rfl

/-- Settles O38: the body's compression, carried over the end of the command. -/
theorem compWritesTheContainer : Obligations.CompWritesTheContainer := by
  intro s xs hr hf hc hx hall
  obtain ⟨u, T, hu, hC⟩ := compBody_done (s := startedMacro s) hf.startedMacro hc hx hall
  exact ⟨finish u, T, exec_comp_ok hr hu, hC.finish_eq hr.1, hC.counts, hC.sentinel,
    TreeIn_congr (s := u) (t := finish u) rfl rfl rfl rfl hC.tree,
    hC.weights.agree rfl fun k _ => nodeAt_congr rfl rfl k, hC.symbols,
    CodesOf_congr (s := u) (t := finish u) rfl rfl hC.codes, hC.sent⟩

/-- Settles O39: the two faults of the body, each with the sink closed before the raise. -/
theorem compClosesOnItsFaults : Obligations.CompClosesOnItsFaults := by
  refine fun s hr hf => ⟨fun hc => ?_, fun hc ⟨x, hx, hno⟩ => ?_⟩
  · obtain ⟨u, pre, x, post, hb, -, hU⟩ := compBody_overflow (s := startedMacro s) hc
    have hout : u.out = s.out := by rw [hU.frame]; rfl
    exact ⟨_, exec_comp_raised hr hb, rfl, rfl, hout, hU.fv⟩
  · obtain ⟨u, hu, hclosed, hcnt⟩ := compBody_noCode (s := startedMacro s) hf.startedMacro hc hx hno
    exact ⟨_, exec_comp_raised hr hu, rfl, hclosed, hcnt⟩

/-! ### `DECOMP` after a good header -/

/-- The header read and its tree rebuilt, the payload is left to `SDEC` (R147). -/
theorem decompBody_header {s : State} (hs : Fits s) {sh : Shape} {rest : List Bool}
    (hbits : restBits s = bitsOf 32 s.cfg.magic.toNat ++ (shapeHeader sh ++ rest)) (hsym : symbolsOk sh)
    (hsize : shapeSize sh ≤ s.cfg.nodeCap) :
    ∃ a T, decompBody s = sdecBody (enterPhase 7 a) ∧ Rebuilt (enterPhase 6 s) a T rest ∧ shapeOf T = sh ∧
      TreeIn (enterPhase 7 a) T := by
  obtain ⟨a, T, ha, hA, hT⟩ := hdesBody_good (s := enterPhase 6 s) (hs.enterPhase 6).room hbits hsym hsize
  exact ⟨a, T, decompBody_ok ha, hA, hT, TreeIn_congr (s := a) (t := enterPhase 7 a) rfl rfl rfl rfl hA.tree⟩

/-- The decoding that follows a good header starts from the sink as it was. -/
theorem Rebuilt.sent {s a u : State} {T : HTree} {rest : List Bool} {bs : List Byte}
    (h : Rebuilt (enterPhase 6 s) a T rest) (hD : DecodeEnd (enterPhase 7 a) u bs) (ho : s.closed = false) :
    u.out = s.out ++ bs := by
  obtain ⟨-, hout, hclosed, -⟩ := h.frame.sink
  obtain ⟨hsent, -⟩ := hD.sent (hclosed.trans ho)
  exact hsent.trans (congrArg (· ++ bs) hout)

/-- The two units' frames with what they leave in root, flags and sink, carried over the end of the command. -/
theorem Rebuilt.finish_eq {s a u : State} {T : HTree} {rest : List Bool} {bs : List Byte}
    (h : Rebuilt (enterPhase 6 (startedMacro s)) a T rest) (hD : DecodeEnd (enterPhase 7 a) u bs)
    (hb : s.busy = false) :
    finish u = { s with
      node := u.node, root := 0, nnode := u.nnode, tv := true, cv := false, cur := u.cur, upAcc := u.upAcc,
      upCnt := u.upCnt, pos := u.pos, out := u.out, closed := true, events := u.events, freeIdx := u.freeIdx,
      phase := 0, done := true } := by
  have hF : DecompFrame (startedMacro s) u :=
    (((enterPhase_decomp 6 _).trans h.frame.decomp).trans (enterPhase_decomp 7 a)).trans hD.frame.decomp
  have hroot : u.root = 0 := hD.frame.root.trans h.root
  have htv : u.tv = true := by rw [hD.frame]; exact h.tv
  have hcv : u.cv = false := by rw [hD.frame]; exact h.cv
  conv_lhs => rw [hF, hroot, htv, hcv, hD.closed]
  rw [hb]
  rfl

/-- Settles O40: the header's tree, then the payload's bytes by that tree. -/
theorem decompDecodesTheContainer : Obligations.DecompDecodesTheContainer := by
  intro s sh ls p sym rest hr hf hsym hsize hls hp hsen hbits
  obtain ⟨a, T, hb, hA, rfl, hT⟩ := decompBody_header (s := startedMacro s) hf.startedMacro hbits hsym hsize
  have h8 : (enterPhase 7 a).upCnt.toNat ≤ 8 := hA.unpacker.trans (by decide)
  obtain ⟨u, hu, hD, hrest⟩ := sdecBody_done hT h8 hls hp hsen hA.rest
  have hsent := hA.sent hD
  refine ⟨finish u, T, exec_decomp_ok hr (hb.trans hu), hA.finish_eq hD hr.1, ?_, rfl, hrest, hsent⟩
  exact TreeIn_congr (s := enterPhase 7 a) (t := finish u) hD.frame.node hD.frame.root (by rw [finish, hD.frame])
    hD.frame.cfg hT

/-! ### `DECOMP` on a fault -/

/-- `SDEC` finds a malformed header only in a lone leaf, with nothing sent (45_stream_decoder R131). -/
theorem sdecBody_hdrRoot {s u : State} (h : sdecBody s = .raised .hdrRoot u) : u = sinkClose s := by
  unfold sdecBody at h
  split at h
  · unfold rootLeafEnd at h
    split at h
    · cases h
    · cases h; rfl
  · rcases decodeLoop_cases (bitsLeft s) { s with cur := s.root } with ⟨v, hv, -⟩ | ⟨v, hv, -⟩
    · rw [hv] at h; cases h
    · rw [hv] at h; cases h

/-- Whichever unit of `DECOMP` finds the header malformed, the sink holds what it held (R148). -/
theorem decompBody_malformed {s u : State} {e : Err} (h : decompBody s = .raised e u) (he : malformedHeader e = true) :
    u.closed = true ∧ u.out = s.out := by
  rcases hdesBody_ends (enterPhase 6 s) with ⟨a, ha, hA, -⟩ | ⟨v, e', hv, -, hV, -⟩
  · obtain ⟨-, hout, -⟩ := hA.sink
    rw [decompBody_ok ha] at h
    rcases sdecBody_cases (enterPhase 7 a) with ⟨v, hv, -⟩ | ⟨v, e', hv, rfl | rfl, -⟩
    · rw [hv] at h; cases h
    · rw [hv] at h; cases h; cases he
    · rw [hv] at h
      cases h
      rw [sdecBody_hdrRoot hv]
      exact ⟨rfl, hout⟩
  · obtain ⟨-, hout, -⟩ := hV.sink
    rw [decompBody_raised hv] at h
    cases h
    exact ⟨rfl, hout⟩

/-- A command that ends with an error raised it in its body. -/
theorem exec_decomp_malformed {s t : State} (hr : Ready s) (h : exec .decomp s = .next t)
    (he : malformedHeader t.err = true) : t.closed = true ∧ t.out = s.out := by
  rw [exec_decomp hr] at h
  obtain ⟨u, hF, -, hu | ⟨e, hu, -⟩⟩ := decompBody_cases (startedMacro s)
  · rw [hu] at h
    cases h
    have hnone : u.err = .none := ((Running.startedMacro hr).decomp hF).2.2
    rw [finish_err, hnone] at he
    cases he
  · rw [hu] at h
    cases h
    exact decompBody_malformed (s := startedMacro s) (u := u) hu he

/-- Settles O41: a malformed header writes nothing in either unit, and a payload cut short sends what it decoded. -/
theorem decompClosesOnItsFaults : Obligations.DecompClosesOnItsFaults := by
  refine fun s hr hf => ⟨fun t => exec_decomp_malformed hr, fun hm => ?_, fun l r ls q hsym hsize hls hq hbits => ?_⟩
  · obtain ⟨u, hu, hframe, -, -, -, hpos, -⟩ := hdesBody_magic (s := enterPhase 6 (startedMacro s)) hm
    obtain ⟨-, hout, -⟩ := hframe.sink
    exact ⟨_, exec_decomp_raised hr (decompBody_raised hu), rfl, rfl, hout, hpos⟩
  · obtain ⟨a, T, hb, hA, hT, hTree⟩ := decompBody_header (s := startedMacro s) hf.startedMacro hbits hsym hsize
    rw [← hT] at hls hq
    have h8 : (enterPhase 7 a).upCnt.toNat ≤ 8 := hA.unpacker.trans (by decide)
    obtain ⟨u, hu, hD, -⟩ := sdecBody_payTrunc hTree h8 hls hq hA.rest
    have hsent := hA.sent hD
    exact ⟨_, exec_decomp_raised hr (hb.trans hu), rfl, hD.closed, hsent⟩

end Sys2Proof.Machine
end

section
/-! The reset input (spec 70_reset_and_hazards R190 to R192): between commands it clears the registers alone, and during
a command it leaves in the sink what the events before it have sent. -/

namespace Sys2Proof.Machine

/-- The first events' part at the sink comes first in the whole part. -/
theorem sinkEvents_take_prefix (n : Nat) (es : List StreamEvent) : sinkEvents (es.take n) <+: sinkEvents es :=
  (List.take_prefix n es).filter _

theorem step_reset {s : State} {rest : List HostAction} (h : s.host = .reset :: rest) :
    step s = .next (assertReset { s with host := rest }) := step_action h

/-- Of the abandoned command only its first `n` stream events have happened (46_commands R153; log 13). -/
theorem resetDuring_next {s u : State} {w : BitVec 16} (n : Nat) (hu : exec (decodeWord s.cfg.opW w) s = .next u) :
    resetDuring w n s = .next (assertReset (replayStreams ((newEvents s u).take n) s)) := by
  rw [resetDuring, hu]

/-- Reset after a change of the streams alone: the streams keep that change, the rest is as reset leaves it. -/
theorem assertReset_of_streams {s r : State}
    (h : r = { s with
      src := r.src, pos := r.pos, srcLater := r.srcLater, out := r.out, events := r.events, freeIdx := r.freeIdx }) :
    assertReset r = { s with
      busy := false, done := false, fv := false, tv := false, cv := false, err := .none, phase := 0, root := 0,
      nnode := 0, cur := 0, pkAcc := 0, pkCnt := 0, upAcc := 0, upCnt := 0, live := 0, freq := (assertReset r).freq,
      node := (assertReset r).node, code := (assertReset r).code, freeIdx := (assertReset r).freeIdx,
      src := (assertReset r).src, pos := (assertReset r).pos, srcLater := (assertReset r).srcLater,
      out := (assertReset r).out, events := (assertReset r).events } := by
  have hcfg : r.cfg = s.cfg := by rw [h]
  have hclosed : r.closed = s.closed := by rw [h]
  have hhost : r.host = s.host := by rw [h]
  have hrdata : r.rdata = s.rdata := by rw [h]
  have hsrc : (assertReset r).src = r.src := by rw [assertReset_frame]
  have hpos : (assertReset r).pos = r.pos := by rw [assertReset_frame]
  have hlater : (assertReset r).srcLater = r.srcLater := by rw [assertReset_frame]
  have hevents : (assertReset r).events = r.events := by rw [assertReset_frame]
  have hframe := assertReset_frame r
  rwa [hcfg, hclosed, hhost, hrdata, ← hsrc, ← hpos, ← hlater, ← assertReset_out, ← hevents] at hframe

/-- The state that an abandoned command leaves: reset but for the streams, whose sink, if it was open, has got the bytes
written so far. -/
theorem resetDuring_effect {s u : State} {w : BitVec 16} (n : Nat) (hu : exec (decodeWord s.cfg.opW w) s = .next u) :
    ∃ r, resetDuring w n s = .next (assertReset r) ∧
      r = { s with
        src := r.src, pos := r.pos, srcLater := r.srcLater, out := r.out, events := r.events, freeIdx := r.freeIdx } ∧
      (s.closed = false → ∃ ws, r.out = s.out ++ ws ∧ ws.map StreamEvent.write <+: sinkEvents (newEvents s u)) := by
  refine ⟨_, resetDuring_next n hu, replayStreams_frame _ _, fun ho => ?_⟩
  obtain ⟨ws, hout, hws⟩ := replayStreams_out ((newEvents s u).take n) s ho
  exact ⟨ws, hout, hws.trans (sinkEvents_take_prefix n _)⟩

/-- Settles O2: reset is its frame, and an abandoned command has changed the streams alone. -/
theorem resetInputClearsRegistersOnly : Obligations.ResetInputClearsRegistersOnly := by
  refine fun s rest => ⟨fun h => ⟨_, step_reset h, assertReset_status _, assertReset_frame _⟩, fun w n u h hu => ?_⟩
  obtain ⟨r, hr, hframe, hsent⟩ := resetDuring_effect (s := { s with host := rest }) n hu
  refine ⟨assertReset r, (step_action h).trans hr, assertReset_status r, assertReset_of_streams hframe, fun ho => ?_⟩
  rw [assertReset_out]
  exact hsent ho

end Sys2Proof.Machine
end

section
/-! The laws of the code table (spec 47_laws R161 to R163): it is determined by the tree's shape, its codes are paths of
different leaves, and the sentinel has one. -/

namespace Sys2Proof.Machine

/-! ### Codes and leaves -/

/-- A finite tree's leaves are symbols (10_state R12). -/
theorem TreeIn.symbolsOk {s : State} {T : HTree} (h : TreeIn s T) : symbolsOk (shapeOf T) := by
  obtain ⟨-, hh, -⟩ := h
  exact hh.symbolsOk

/-- A symbol without a leaf has no valid code (42_code_table_generator R91). -/
theorem CodesOf.invalid {s : State} {t : Shape} (h : CodesOf s t) {k : Nat} (hk : k < nsym) (hl : k ∉ leafSymbols t) :
    (codeAt s k).valid = false := by
  have hcode := h k hk
  rwa [keptPath_none hl] at hcode

/-- A valid code belongs to a leaf. -/
theorem CodesOf.mem_of_valid {s : State} {t : Shape} (h : CodesOf s t) {k : Nat} (hk : k < nsym)
    (hv : (codeAt s k).valid = true) : k ∈ leafSymbols t := by
  by_contra hl
  exact absurd hv (Bool.eq_false_iff.mp (h.invalid hk hl))

/-- Whatever the two cores' widths are, as long as the tree fits into both, its code table is the same but for what the
invalid entries keep. -/
theorem CodesOf.agree {s t : State} {sh : Shape} (hs : CodesOf s sh) (ht : CodesOf t sh) (hcs : s.cfg.Consistent)
    (hct : t.cfg.Consistent) (hss : shapeSize sh ≤ s.cfg.nodeCap) (hst : shapeSize sh ≤ t.cfg.nodeCap) {k : Nat}
    (hk : k < nsym) :
    (codeAt t k).valid = (codeAt s k).valid ∧ ((codeAt s k).valid = true → codeAt t k = codeAt s k) := by
  by_cases hl : k ∈ leafSymbols sh
  · obtain ⟨p, sym, hkept, hmem, -⟩ := keptPath_some hl
    have hps : codeAt s k = pathCode s.cfg p := by have h := hs k hk; rwa [hkept] at h
    have hpt : codeAt t k = pathCode t.cfg p := by have h := ht k hk; rwa [hkept] at h
    have hheight : p.length ≤ height sh := leaf_path_le sh _ hmem
    have heq : codeAt t k = codeAt s k := by
      rw [hps, hpt, pathCode_eq hcs (hheight.trans (height_le_maxLen hcs hss)),
        pathCode_eq hct (hheight.trans (height_le_maxLen hct hst))]
    exact ⟨congrArg CodeEntry.valid heq, fun _ => heq⟩
  · have hvs := hs.invalid hk hl
    exact ⟨(ht.invalid hk hl).trans hvs.symm, fun hv => absurd hv (Bool.eq_false_iff.mp hvs)⟩

/-- A tree with one leaf for each used symbol fits into every arena (10_state R11). -/
theorem shapeSize_le_nodeCap {s : State} {sh : Shape} (h : (leafSymbols sh).Perm (usedSymbols s)) {c : Config}
    (hc : c.Consistent) : shapeSize sh ≤ c.nodeCap := by
  have hleaves : leafCount sh ≤ nsym := by
    rw [← leafSymbols_length, h.length_eq]
    exact usedSymbols_length_le s
  rw [shapeSize_eq]
  exact (Nat.sub_le_sub_right (Nat.mul_le_mul_left 2 hleaves) 1).trans hc.arena

/-- Settles O23: the codes are paths of two leaves, and no leaf's path goes through another leaf. -/
theorem codesArePrefixFree : Obligations.CodesArePrefixFree := by
  rintro s t hr hf hv ⟨T, hT⟩ hexec a ha b hb hne hva hvb ⟨x, hx⟩
  obtain ⟨u, hu, hU⟩ := exec_cgen_done hr hv hT
  cases hu.symm.trans hexec
  obtain ⟨hcfg, -⟩ := hU.frame.rest
  have hcons : u.cfg.Consistent := hcfg.symm ▸ hf.config
  have hheight : height (shapeOf T) ≤ u.cfg.maxLen := hcfg.symm ▸ height_le_maxLen hf.config hT.size_le
  obtain ⟨p, sa, hp, rfl, -, hcodeA⟩ := hU.codes.code hcons hheight ha (hU.codes.mem_of_valid ha hva)
  obtain ⟨q, sb, hq, rfl, -, hcodeB⟩ := hU.codes.code hcons hheight hb (hU.codes.mem_of_valid hb hvb)
  have hpath : p ++ x = q ++ [] := by rw [← hcodeA, ← hcodeB, List.append_nil]; exact hx
  obtain ⟨-, rfl, -⟩ := leaf_unique hp hq hpath
  exact hne rfl

/-! ### `TBLD` and then `CGEN` -/

/-- From `s`, whose counts are valid, to `a`, in which `TBLD` has built `T` and `CGEN` its code table. -/
structure Coded (s a : State) (T : HTree) : Prop where
  ready : Ready a
  tv : a.tv = true
  tree : TreeIn a T
  symbols : (leafSymbols (shapeOf T)).Perm (usedSymbols s)
  codes : CodesOf a (shapeOf T)
  cfg : a.cfg = s.cfg
  out : a.out = s.out
  closed : a.closed = s.closed

theorem execAll_tbld_cgen {s : State} (hr : Ready s) (hf : Fits s) (hv : s.fv = true) (hu : usedSymbols s ≠ []) :
    ∃ a T, execAll [.tbld, .cgen] s = .next a ∧ Coded s a T := by
  obtain ⟨b, T, htbld, hB⟩ := exec_tbld_done hr hf hv hu
  obtain ⟨hcfgB, -, -, -, -, -, houtB, hclosedB, -⟩ := hB.frame.sink
  have hrB : Ready (finish b) := ⟨rfl, by rw [hB.frame]; exact hr.2⟩
  have hTB : TreeIn (finish b) T := TreeIn_congr (s := b) (t := finish b) rfl rfl rfl rfl hB.tree
  obtain ⟨a, hcgen, hA⟩ := exec_cgen_done hrB hB.tv hTB
  obtain ⟨hcfgA, -, -, htvA, hnodeA, hrootA, hnnodeA, -, -, -, -, houtA, hclosedA, -⟩ := hA.frame.rest
  refine ⟨finish a, T, by rw [execAll_cons htbld, execAll_cons hcgen]; rfl, ?_⟩
  exact
    { ready := ⟨rfl, by rw [hA.frame]; exact hrB.2⟩
      tv := htvA.trans hB.tv
      tree := TreeIn_congr (s := finish b) (t := finish a) hnodeA hrootA hnnodeA hcfgA hTB
      symbols := hB.symbols
      codes := CodesOf_congr (s := a) (t := finish a) rfl rfl hA.codes
      cfg := hcfgA.trans hcfgB
      out := houtA.trans houtB
      closed := hclosedA.trans hclosedB }

/-- A command whose body keeps the widths ends in a state that fits. -/
theorem conclude_fits {r : Res Unit} {t : State} (h : Keeps Fits r) (ht : conclude r = .next t) : Fits t := by
  cases r with
  | ok a u => cases ht; exact h.congr rfl rfl rfl rfl rfl rfl rfl rfl
  | raised e u => cases ht; exact h.congr rfl rfl rfl rfl rfl rfl rfl rfl
  | stuck f => cases ht

theorem exec_fcnt_fits {s t : State} (hr : Ready s) (hf : Fits s) (ht : exec .fcnt s = .next t) : Fits t :=
  conclude_fits (fcntBody_fits (hf.started 1)) ((exec_fcnt hr).symm.trans ht)

/-- Settles O24: the sentinel is counted, so it has a leaf and with it a code. -/
theorem sentinelAlwaysHasACode : Obligations.SentinelAlwaysHasACode := by
  intro s hr hf hc
  obtain ⟨u, hfcnt, hU⟩ := exec_fcnt_done hr hc
  have hrU : Ready (finish u) := ⟨rfl, by rw [hU.frame]; exact hr.2⟩
  have hfU : Fits (finish u) := exec_fcnt_fits hr hf hfcnt
  have hone : freqAt (finish u) sentinel ≠ 0 := ne_of_eq_of_ne (hU.one hf.config) Nat.one_ne_zero
  obtain ⟨a, T, ha, hA⟩ := execAll_tbld_cgen hrU hfU hU.fv (usedSymbols_ne_nil hone)
  have hleaf : sentinel ∈ leafSymbols (shapeOf T) := hA.symbols.mem_iff.mpr (usedSymbols_sentinel hone)
  have hcons : a.cfg.Consistent := hA.cfg.symm ▸ hfU.config
  have hheight : height (shapeOf T) ≤ a.cfg.maxLen := height_le_maxLen hcons hA.tree.size_le
  obtain ⟨-, -, -, -, hvalid, -⟩ := hA.codes.code hcons hheight (by decide) hleaf
  exact ⟨a, by rw [execAll_cons hfcnt, ha], hA.ready.2, hvalid⟩

/-! ### `HSER`, and then `HDES` and `CGEN` on another core -/

/-- The header of a tree that fits, read on any core with that magic, gives the tree's codes (43_header_codec R113). -/
theorem execAll_hdes_cgen {d : State} {sh : Shape} {rest : List Bool} (hr : Ready d) (hf : Fits d)
    (hbits : restBits d = bitsOf 32 d.cfg.magic.toNat ++ (shapeHeader sh ++ rest)) (hsym : symbolsOk sh)
    (hsize : shapeSize sh ≤ d.cfg.nodeCap) :
    ∃ e, execAll [.hdes, .cgen] d = .next e ∧ e.cfg = d.cfg ∧ CodesOf e sh := by
  obtain ⟨u, T, hbody, hU, rfl⟩ := hdesBody_good (s := started 6 d) (hf.started 6).room hbits hsym hsize
  have hrU : Ready (finish u) := ⟨rfl, by rw [hU.frame]; exact hr.2⟩
  have hTU : TreeIn (finish u) T := TreeIn_congr (s := u) (t := finish u) rfl rfl rfl rfl hU.tree
  obtain ⟨e, hcgen, hE⟩ := exec_cgen_done hrU hU.tv hTU
  obtain ⟨hcfgU, -⟩ := hU.frame.sink
  obtain ⟨hcfgE, -⟩ := hE.frame.rest
  exact ⟨finish e, by rw [execAll_cons (exec_hdes_ok hr hbody), execAll_cons hcgen]; rfl, hcfgE.trans hcfgU,
    CodesOf_congr (s := e) (t := finish e) rfl rfl hE.codes⟩

/-- Settles O49: the header carries the shape, and the shape determines the valid codes. -/
theorem headerRoundTripKeepsTheCodes : Obligations.HeaderRoundTripKeepsTheCodes := by
  intro s hr hf hv hu hout ho
  obtain ⟨a, T, ha, hA⟩ := execAll_tbld_cgen hr hf hv hu
  obtain ⟨b, hb, -, -, hbits⟩ := hserWritesMagicAndHeader a T hA.ready hA.tv hA.tree
  refine ⟨a, b, ha, hb, fun d more hrD hfD hmagic hrest => ?_⟩
  have hsizeD : shapeSize (shapeOf T) ≤ d.cfg.nodeCap := shapeSize_le_nodeCap hA.symbols hfD.config
  have hbitsD : restBits d = bitsOf 32 d.cfg.magic.toNat ++ (shapeHeader (shapeOf T) ++ more) := by
    rw [hrest, hbits (hA.closed.trans ho), hA.out, hout, hA.cfg, hmagic, bytesBits, List.flatMap_nil, List.nil_append,
      List.append_assoc]
  obtain ⟨e, he, hcfgE, hcodesE⟩ := execAll_hdes_cgen hrD hfD hbitsD hA.tree.symbolsOk hsizeD
  refine ⟨e, he, fun k hk => hA.codes.agree hcodesE ?_ ?_ hA.tree.size_le ?_ hk⟩
  · exact hA.cfg.symm ▸ hf.config
  · exact hcfgE.symm ▸ hfD.config
  · exact hcfgE.symm ▸ hsizeD

end Sys2Proof.Machine
end

section
/-! Where an error comes from (spec 46_commands R142, R143, 47_laws R169): a command that runs raises neither `SEQ` nor
`BAD_CMD`, which are the two refusals. -/

namespace Sys2Proof.Machine

/-- An error that is no refusal, or none (46_commands R142, R143). -/
def NoRefusal (e : Err) : Prop := e ≠ .seq ∧ e ≠ .badCmd

theorem noRefusal_none : NoRefusal .none := ⟨nofun, nofun⟩

/-- The part of an operation leaves no refusal in `ERR`, whichever way it ends. -/
def EndsUnrefused {α : Type} : Res α → Prop
  | .ok _ s => NoRefusal s.err
  | .raised e _ => NoRefusal e
  | .stuck _ => True

theorem EndsUnrefused.bind {α β : Type} {r : Res α} {f : α → State → Res β} (h : EndsUnrefused r)
    (hf : ∀ a s, NoRefusal s.err → EndsUnrefused (f a s)) : EndsUnrefused (andThen r f) := by
  cases r with
  | ok a s => exact hf a s h
  | raised e s => exact h
  | stuck x => trivial

theorem EndsUnrefused.ite {α : Type} {p : Prop} [Decidable p] {a b : Res α} (ha : EndsUnrefused a)
    (hb : EndsUnrefused b) : EndsUnrefused (if p then a else b) := by
  split
  · exact ha
  · exact hb

theorem EndsUnrefused.onRaise {α : Type} {r : Res α} (h : EndsUnrefused r) (f : State → State) :
    EndsUnrefused (onRaise r f) := by
  cases r with
  | ok a s => exact h
  | raised e s => exact h
  | stuck x => trivial

/-- A body that keeps `ERR` where it ends well is judged by what it raises. -/
theorem Keeps.endsUnrefused {α : Type} {r : Res α} {s : State} (h : Keeps (fun t => t.err = s.err) r)
    (hs : NoRefusal s.err) (he : ∀ e u, r = .raised e u → NoRefusal e) : EndsUnrefused r := by
  cases r with
  | ok a t => exact (congrArg NoRefusal (show t.err = s.err from h)).mpr hs
  | raised e t => exact he e t rfl
  | stuck x => trivial

/-! ### The bodies -/

section
variable {s : State} (hs : NoRefusal s.err)
include hs

theorem fcntBody_unrefused : EndsUnrefused (fcntBody s) := by
  refine ((fcntBody_frame s).imp fun t h => by rw [h]).endsUnrefused hs fun e u hu => ?_
  rcases fcntBody_cases s with ⟨-, v, hv, -⟩ | ⟨-, v, _, _, _, hv, -⟩
  · rw [hv] at hu; cases hu
  · rw [hv] at hu; cases hu; exact ⟨nofun, nofun⟩

theorem tbldBody_unrefused : EndsUnrefused (tbldBody s) := by
  refine ((tbldBody_frame s).imp fun t h => by rw [h]).endsUnrefused hs fun e u hu => ?_
  rcases tbldBody_cases s with ⟨v, hv, -⟩ | hv <;> rw [hv] at hu <;> cases hu

theorem cgenBody_unrefused : EndsUnrefused (cgenBody s) := by
  refine ((cgenBody_frame s).imp fun t h => by rw [h]).endsUnrefused hs fun e u hu => ?_
  rcases cgenBody_cases s with ⟨v, hv, -⟩ | hv <;> rw [hv] at hu <;> cases hu

theorem hserBody_unrefused : EndsUnrefused (hserBody s) := by
  refine ((hserBody_frame s).imp fun t h => by rw [h]).endsUnrefused hs fun e u hu => ?_
  rcases hserBody_cases s with ⟨v, hv, -⟩ | hv <;> rw [hv] at hu <;> cases hu

theorem sencBody_unrefused : EndsUnrefused (sencBody s) := by
  refine ((sencBody_frame s).imp fun t h => by rw [h]).endsUnrefused hs fun e u hu => ?_
  rcases sencBody_cases s with ⟨v, hv, -⟩ | ⟨v, hv, -⟩ | ⟨v, _, _, _, hv, -⟩
  · rw [hv] at hu; cases hu
  · rw [hv] at hu; cases hu; exact ⟨nofun, nofun⟩
  · rw [hv] at hu; cases hu; exact ⟨nofun, nofun⟩

theorem hdesBody_unrefused : EndsUnrefused (hdesBody s) := by
  refine ((hdesBody_frame s).imp fun t h => by rw [h]).endsUnrefused hs fun e u hu => ?_
  rcases hdesBody_ends s with ⟨v, hv, -⟩ | ⟨v, e', hv, he, -⟩
  · rw [hv] at hu; cases hu
  · rw [hv] at hu
    cases hu
    rcases he with rfl | rfl | rfl | rfl <;> exact ⟨nofun, nofun⟩

theorem sdecBody_unrefused : EndsUnrefused (sdecBody s) := by
  refine ((sdecBody_frame s).imp fun t h => by rw [h]).endsUnrefused hs fun e u hu => ?_
  rcases sdecBody_cases s with ⟨v, hv, -⟩ | ⟨v, e', hv, he, -⟩
  · rw [hv] at hu; cases hu
  · rw [hv] at hu
    cases hu
    rcases he with rfl | rfl <;> exact ⟨nofun, nofun⟩

theorem compBody_unrefused : EndsUnrefused (compBody s) :=
  ((fcntBody_unrefused (s := enterPhase 1 s) hs).onRaise _).bind fun _ a ha =>
    (tbldBody_unrefused (s := enterPhase 2 a) ha).bind fun _ b hb =>
      (cgenBody_unrefused (s := enterPhase 3 b) hb).bind fun _ c hc =>
        (hserBody_unrefused (s := enterPhase 4 c) hc).bind fun _ d hd => sencBody_unrefused (s := enterPhase 5 d) hd

theorem decompBody_unrefused : EndsUnrefused (decompBody s) :=
  ((hdesBody_unrefused (s := enterPhase 6 s) hs).onRaise _).bind fun _ a ha =>
    sdecBody_unrefused (s := enterPhase 7 a) ha

/-! ### The tokens -/

theorem checkMagic_unrefused (m : BitVec 32) : EndsUnrefused (checkMagic m s) := .ite hs ⟨nofun, nofun⟩

theorem takeHandle_unrefused : EndsUnrefused (takeHandle s) := .ite ⟨nofun, nofun⟩ hs

theorem buildLeaf_unrefused (h v : Nat) : EndsUnrefused (buildLeaf h v s) := .ite ⟨nofun, nofun⟩ hs

theorem takeLeaf_unrefused (v : Nat) : EndsUnrefused (takeLeaf v s) :=
  (takeHandle_unrefused hs).bind fun h _ ht => buildLeaf_unrefused ht h v

theorem takeBranch_unrefused : EndsUnrefused (takeBranch s) := (takeHandle_unrefused hs).bind fun _ _ ht => ht

theorem rootLeafEnd_unrefused : EndsUnrefused (rootLeafEnd s) := .ite hs ⟨nofun, nofun⟩

end

/-! ### Commands -/

/-- The instruction leaves no refusal in `ERR`. -/
def Unrefused (o : Host.Outcome State Fault Refusal) : Prop := Answers (fun t => NoRefusal t.err) o

theorem EndsUnrefused.conclude {r : Res Unit} (h : EndsUnrefused r) : Unrefused (conclude r) := by
  intro t ht
  cases r with
  | ok a s => cases ht; exact h
  | raised e s => cases ht; exact h
  | stuck x => cases ht

theorem EndsUnrefused.concludeToken {r : Res Unit} (h : EndsUnrefused r) : Unrefused (concludeToken r) := by
  intro t ht
  cases r with
  | ok a s => cases ht; exact h
  | raised e s => cases ht; exact h
  | stuck x => cases ht

theorem EndsUnrefused.runMacro {s : State} (hr : Ready s) {body : State → Res Unit}
    (h : EndsUnrefused (body (startedMacro s))) : Unrefused (runMacro body s) := by
  rw [runMacro_started hr]
  exact h.conclude

/-- Following a code writes no `ERR`. -/
theorem walkBits_err (bs : List Bool) (s : State) : (walkBits bs s).2.err = s.err := by
  induction bs generalizing s with
  | nil => rfl
  | cons b bs ih =>
    have hstep : (stepBit b s).2.err = s.err := by rw [stepBit_frame b s]
    unfold walkBits
    split
    next t hb => rwa [hb] at hstep
    next t hb => rw [hb] at hstep; exact (ih t).trans hstep

theorem readCode_unrefused {s : State} (hs : NoRefusal s.err) (c : List Bool) : Unrefused (readCode c s) := by
  refine Answers.ite (rootLeafEnd_unrefused hs).conclude ?_
  have herr := walkBits_err c s
  split
  next t hw => rw [hw] at herr; exact answers_next (herr ▸ hs)
  next t hw => rw [hw] at herr; exact answers_next (herr ▸ hs)

theorem clr_unrefused {s : State} (hs : NoRefusal s.err) : Unrefused (execClr s) :=
  .ite (answers_next hs) (answers_next noRefusal_none)

/-- Bits written to the sink leave `ERR` as it was. -/
theorem putBitList_unrefused {s : State} (hs : NoRefusal s.err) (bs : List Bool) :
    Unrefused (.next (putBitList bs s)) :=
  answers_next (by rw [putBitList_err]; exact hs)

/-- The unit command needs a flag that is not set (46_commands R142). -/
def MissesFlag (i : Instr) (s : State) : Prop :=
  (i = .tbld ∧ s.fv = false) ∨ (i ∈ [Instr.cgen, .hser, .sdec] ∧ s.tv = false) ∨ (i = .senc ∧ s.cv = false)

/-- The opcode is reserved (30_encoding R64). -/
def IsReserved (i : Instr) : Prop := i ∈ [Instr.rsvdB, .rsvdC, .rsvdD, .rsvdE, .rsvdF]

/-- An instruction that has answered `t` left no refusal, or is a unit refused for its flag, or a reserved opcode. -/
def Blamed (i : Instr) (s t : State) : Prop :=
  NoRefusal t.err ∨ (t.err = .seq ∧ MissesFlag i s) ∨ (t.err = .badCmd ∧ IsReserved i)

theorem needsNothing_ne_false (s : State) : needsNothing s ≠ false := by simp [needsNothing]

theorem EndsUnrefused.runUnit {i : Instr} {s t : State} (hr : Ready s) {op : BitVec 4} {needs : State → Bool}
    {body : State → Res Unit} (h : EndsUnrefused (body (started op s)))
    (hm : needs { s with done := false } = false → MissesFlag i s) (ht : runUnit op needs body s = .next t) :
    Blamed i s t := by
  by_cases hn : needs { s with done := false } = true
  · rw [runUnit_started hr hn] at ht
    exact .inl (h.conclude t ht)
  · have hn' := Bool.eq_false_iff.mpr hn
    rw [runUnit_seq hr hn'] at ht
    cases ht
    exact .inr (.inl ⟨rfl, hm hn'⟩)

theorem runReserved_err {s t : State} (hr : Ready s) (h : runReserved s = .next t) : t.err = .badCmd := by
  rw [runReserved_ready hr] at h
  cases h
  rfl

theorem exec_blamed {i : Instr} {s t : State} (hr : Ready s) (h : exec i s = .next t) : Blamed i s t := by
  have hs : NoRefusal s.err := hr.2.symm ▸ noRefusal_none
  cases i with
  | fcnt => exact EndsUnrefused.runUnit hr (fcntBody_unrefused hs) (absurd · (needsNothing_ne_false _)) h
  | tbld => exact EndsUnrefused.runUnit hr (tbldBody_unrefused hs) (fun hv => .inl ⟨rfl, hv⟩) h
  | cgen => exact EndsUnrefused.runUnit hr (cgenBody_unrefused hs) (fun hv => .inr (.inl ⟨by decide, hv⟩)) h
  | hser => exact EndsUnrefused.runUnit hr (hserBody_unrefused hs) (fun hv => .inr (.inl ⟨by decide, hv⟩)) h
  | senc => exact EndsUnrefused.runUnit hr (sencBody_unrefused hs) (fun hv => .inr (.inr ⟨rfl, hv⟩)) h
  | hdes => exact EndsUnrefused.runUnit hr (hdesBody_unrefused hs) (absurd · (needsNothing_ne_false _)) h
  | sdec => exact EndsUnrefused.runUnit hr (sdecBody_unrefused hs) (fun hv => .inr (.inl ⟨by decide, hv⟩)) h
  | rsvdB | rsvdC | rsvdD | rsvdE | rsvdF => exact .inr (.inr ⟨runReserved_err hr h, by unfold IsReserved; decide⟩)
  | nop => exact .inl (EndsUnrefused.runMacro hr (body := Res.ok ()) hs t h)
  | comp => exact .inl (EndsUnrefused.runMacro hr (compBody_unrefused hs) t h)
  | decomp => exact .inl (EndsUnrefused.runMacro hr (decompBody_unrefused hs) t h)
  | clr => exact .inl (clr_unrefused hs t h)
  | magic m =>
    exact .inl (Answers.ite (putBitList_unrefused hs _)
      (.ite (checkMagic_unrefused hs m).concludeToken (answers_next hs)) t h)
  | hdrBranch =>
    exact .inl (Answers.ite (putBitList_unrefused hs _)
      (.ite (takeBranch_unrefused hs).concludeToken (answers_next hs)) t h)
  | hdrLeaf sym =>
    exact .inl (Answers.ite (putBitList_unrefused hs (bitsOf 1 1 ++ bitsOf 9 sym.toNat))
      (.ite (takeLeaf_unrefused hs _).concludeToken (answers_next hs)) t h)
  | hdrLeafRsvd sym => exact .inl (Answers.ite (takeLeaf_unrefused hs _).concludeToken (answers_next hs) t h)
  | payloadCode c =>
    exact .inl (Answers.ite (putBitList_unrefused hs c) (.ite (readCode_unrefused hs c) (answers_next hs)) t h)
  | pad n => exact .inl (Answers.ite (putBitList_unrefused hs _) (answers_next hs) t h)

/-! ### The macros -/

/-- On a source that does not change `COMP` meets no byte that it has not counted. -/
theorem exec_comp_unchanging {s : State} (hr : Ready s) (hf : Fits s) (hpos : s.pos = 0) (hlater : s.srcLater = []) :
    ∃ t, exec .comp s = .next t ∧ (t.err = .none ∨ t.err = .cntOvf) := by
  by_cases hc : CountsFit s
  · have hsecond : s.srcLater.headD s.src = s.src.drop s.pos := by rw [hlater, hpos]; rfl
    obtain ⟨t, T, ht, hframe, -⟩ := compWritesTheContainer s _ hr hf hc hsecond.symm fun _ hx => hx
    exact ⟨t, ht, .inl (by rw [hframe]; exact hr.2)⟩
  · obtain ⟨hovf, -⟩ := compClosesOnItsFaults s hr hf
    obtain ⟨t, ht, herr, -⟩ := hovf hc
    exact ⟨t, ht, .inr herr⟩

/-- `DECOMP` ends well or with a fault of one of its two units (46_commands R147, R148). -/
theorem exec_decomp_errors {s : State} (hr : Ready s) :
    ∃ t, exec .decomp s = .next t ∧ (t.err = .none ∨ t.err = .hdrMagic ∨ t.err = .hdrEos ∨ t.err = .hdrCap ∨
      t.err = .hdrSym ∨ t.err = .hdrRoot ∨ t.err = .payTrunc) := by
  obtain ⟨u, hF, -, hu | ⟨e, hu, he⟩⟩ := decompBody_cases (startedMacro s)
  · obtain ⟨-, -, hnone⟩ := (Running.startedMacro hr).decomp hF
    exact ⟨_, exec_decomp_ok hr hu, .inl hnone⟩
  · exact ⟨_, exec_decomp_raised hr hu, .inr he⟩

/-- Settles O43: the macros by the ends of their units, the two refusals by who can raise them. -/
theorem macrosEndWithTheirOwnErrors : Obligations.MacrosEndWithTheirOwnErrors := by
  refine fun s hr hf => ⟨exec_comp_unchanging hr hf, exec_decomp_errors hr, fun i t h => ?_⟩
  rcases exec_blamed hr h with ⟨hseq, hbad⟩ | ⟨he, hmiss⟩ | ⟨he, hres⟩
  · exact ⟨fun he => absurd he hseq, fun he => absurd he hbad⟩
  · exact ⟨fun _ => hmiss, fun he' => (nomatch he.symm.trans he')⟩
  · exact ⟨fun he' => (nomatch he.symm.trans he'), fun _ => hres⟩

end Sys2Proof.Machine
end

section
/-! The laws of the container (spec 47_laws R160, R166 to R168): what `COMP` sends is the container of its input,
`DECOMP` reads the input back from it and from no part of it, and nothing but input and magic determines it. -/

namespace Sys2Proof.Machine

/-! ### The container that `COMP` makes -/

/-- The bytes are the container of `xs` by the tree `sh`: the payload is the paths `ls` of the input and the path `p` of
the sentinel (30_encoding R50 to R57). -/
structure IsContainer (magic : BitVec 32) (sh : Shape) (ls : List (List Bool × Sym)) (p : List Bool)
    (xs bytes : List Byte) : Prop where
  symbols : symbolsOk sh
  fits : ∀ c : Config, c.Consistent → shapeSize sh ≤ c.nodeCap
  leaves : ByteLeaves sh ls
  input : leafBytes ls = xs
  sentinel : ∃ sym, (p, sym) ∈ shapeLeaves sh ∧ sym.toNat = Sys2Proof.sentinel
  bits : bytesBits bytes = containerBits magic sh (leafBits ls ++ p)

/-- A fresh run on a countable input compresses it; the second pass brings the bytes of the first. -/
theorem FreshRun.compressed {s : State} {xs : List Byte} (h : FreshRun s xs) (hc : CountsFit s) :
    ∃ u T, compBody (startedMacro s) = .ok () u ∧ exec .comp s = .next (finish u) ∧
      Compressed (startedMacro s) u T xs := by
  obtain ⟨hr, hf, hsrc, hpos, hlater, -, -⟩ := h
  have hfirst : s.src.drop s.pos = xs := by rw [hsrc, hpos, List.drop_zero]
  have hsecond : s.srcLater.headD s.src = xs := by rw [hlater, hsrc]; rfl
  obtain ⟨u, T, hu, hC⟩ := compBody_done (s := startedMacro s) hf.startedMacro hc hsecond.symm
    fun x hx => hfirst.symm ▸ hx
  exact ⟨u, T, hu, exec_comp_ok hr hu, hC⟩

theorem FreshRun.restCount {s : State} {xs : List Byte} (h : FreshRun s xs) (b : Byte) :
    restCount s b = xs.count b := by
  obtain ⟨-, -, hsrc, hpos, -⟩ := h
  rw [Machine.restCount, hsrc, hpos, List.drop_zero]

theorem FreshRun.restBits {s : State} {xs : List Byte} (h : FreshRun s xs) : restBits s = bytesBits xs := by
  obtain ⟨-, -, hsrc, hpos, -⟩ := h
  rw [Machine.restBits, hsrc, hpos, List.drop_zero]

/-- The counts of a fresh run's compression are those of its input (40_frequency_counter R74). -/
theorem Compressed.counts_fresh {s u : State} {T : HTree} {xs : List Byte} (h : Compressed (startedMacro s) u T xs)
    (hs : FreshRun s xs) (b : Byte) : freqAt u b.toNat = xs.count b := (h.counts b).trans (hs.restCount b)

/-- A fresh run's compression leaves the container alone in the sink. -/
theorem Compressed.sent_fresh {s u : State} {T : HTree} {xs : List Byte} (h : Compressed (startedMacro s) u T xs)
    (hs : FreshRun s xs) : bytesBits u.out = containerBits s.cfg.magic (shapeOf T) (payloadBits u xs) := by
  obtain ⟨-, -, -, -, -, hout, ho⟩ := hs
  rw [h.sent ho, show (startedMacro s).out = [] from hout]
  rfl

theorem Compressed.config {s u : State} {T : HTree} {xs : List Byte} (h : Compressed s u T xs) : u.cfg = s.cfg := by
  rw [h.frame]

theorem Compressed.consistent {s u : State} {T : HTree} {xs : List Byte} (h : Compressed (startedMacro s) u T xs)
    (hs : FreshRun s xs) : u.cfg.Consistent := by
  obtain ⟨-, hf, -⟩ := hs
  exact h.config.symm ▸ hf.config

/-- A fresh run's compression ends without an error. -/
theorem Compressed.finish_err {s u : State} {T : HTree} {xs : List Byte} (h : Compressed (startedMacro s) u T xs)
    (hs : FreshRun s xs) : (finish u).err = .none := by
  obtain ⟨⟨-, hnone⟩, -⟩ := hs
  rw [Machine.finish_err, h.frame]
  exact hnone

/-- A byte of the input has a leaf. -/
theorem Compressed.byte_leaf {s u : State} {T : HTree} {xs : List Byte} (h : Compressed (startedMacro s) u T xs)
    (hs : FreshRun s xs) {x : Byte} (hx : x ∈ xs) : x.toNat ∈ leafSymbols (shapeOf T) := by
  rw [h.symbols.mem_iff, mem_usedSymbols, h.counts_fresh hs]
  exact ⟨byte_lt_nsym x, (List.count_pos_iff.mpr hx).ne'⟩

/-- The sentinel has a leaf. -/
theorem Compressed.sentinel_leaf {s u : State} {T : HTree} {xs : List Byte} (h : Compressed s u T xs) :
    Sys2Proof.sentinel ∈ leafSymbols (shapeOf T) := by
  rw [h.symbols.mem_iff]
  exact usedSymbols_sentinel (ne_of_eq_of_ne h.sentinel Nat.one_ne_zero)

/-- The byte of a decoded leaf is its symbol (45_stream_decoder R135). -/
theorem outByte_of_toNat {sym : Sym} {x : Byte} (h : sym.toNat = x.toNat) : outByte sym = x := by
  apply BitVec.eq_of_toNat_eq
  rw [outByte, BitVec.toNat_setWidth, h, Nat.mod_eq_of_lt x.isLt]

/-- The codes of bytes with a leaf are paths that decode to them (30_encoding R56). -/
theorem CodesOf.payload {s : State} {t : Shape} (h : CodesOf s t) (hc : s.cfg.Consistent) (hh : height t ≤ s.cfg.maxLen)
    {xs : List Byte} (hxs : ∀ x ∈ xs, x.toNat ∈ leafSymbols t) :
    ∃ ls, ByteLeaves t ls ∧ leafBytes ls = xs ∧ xs.flatMap (fun x => codeBits (codeAt s x.toNat)) = leafBits ls := by
  induction xs with
  | nil => exact ⟨[], nofun, rfl, rfl⟩
  | cons x xs ih =>
    obtain ⟨hx, hrest⟩ := List.forall_mem_cons.mp hxs
    obtain ⟨ls, hls, hbytes, hbits⟩ := ih hrest
    obtain ⟨p, sym, hp, hsym, -, hcode⟩ := h.code hc hh (byte_lt_nsym x) hx
    refine ⟨(p, sym) :: ls, List.forall_mem_cons.mpr ⟨⟨hp, ?_⟩, hls⟩, ?_, ?_⟩
    · exact ne_of_eq_of_ne hsym (byte_ne_sentinel x)
    · rw [← hbytes, leafBytes, List.map_cons, outByte_of_toNat hsym]; rfl
    · rw [List.flatMap_cons, hcode, hbits]; rfl

/-- What a fresh run's `COMP` leaves in the sink is the container of its input (46_commands R145). -/
theorem Compressed.container {s u : State} {T : HTree} {xs : List Byte} (h : Compressed (startedMacro s) u T xs)
    (hs : FreshRun s xs) : ∃ ls p, IsContainer s.cfg.magic (shapeOf T) ls p xs u.out := by
  have hc := h.consistent hs
  have hheight : height (shapeOf T) ≤ u.cfg.maxLen := height_le_maxLen hc h.tree.size_le
  obtain ⟨ls, hls, hbytes, hbits⟩ := h.codes.payload hc hheight fun x hx => h.byte_leaf hs hx
  obtain ⟨p, sym, hp, hsym, -, hcode⟩ := h.codes.code hc hheight (by decide) h.sentinel_leaf
  exact ⟨ls, p,
    { symbols := h.tree.symbolsOk
      fits := fun c hc => shapeSize_le_nodeCap h.symbols hc
      leaves := hls
      input := hbytes
      sentinel := ⟨sym, hp, hsym⟩
      bits := by rw [h.sent_fresh hs, payloadBits, hbits, hcode] }⟩

/-- The container bit by bit: before the padding stands what a reader wants, and the padding is at most seven bits. -/
theorem IsContainer.unpadded {magic : BitVec 32} {sh : Shape} {ls : List (List Bool × Sym)} {p : List Bool}
    {xs bytes : List Byte} (h : IsContainer magic sh ls p xs bytes) :
    ∃ pad, pad.length ≤ 7 ∧
      bytesBits bytes = bitsOf 32 magic.toNat ++ (shapeHeader sh ++ (leafBits ls ++ (p ++ pad))) := by
  refine ⟨_, padding_length_le (bitsOf 32 magic.toNat ++ (shapeHeader sh ++ (leafBits ls ++ p))).length, ?_⟩
  rw [h.bits, containerBits]
  simp only [List.append_assoc]

/-! ### `DECOMP` of a whole container -/

/-- `DECOMP` of the container of `xs`, on any core with its magic, gives `xs` (46_commands R147). -/
theorem IsContainer.decomp {d : State} {sh : Shape} {ls : List (List Bool × Sym)} {p : List Bool}
    {xs bytes : List Byte} (h : IsContainer d.cfg.magic sh ls p xs bytes) (hd : FreshRun d bytes) :
    ∃ u, exec .decomp d = .next u ∧ u.err = .none ∧ u.out = xs ∧ u.closed = true := by
  have hrest := hd.restBits
  obtain ⟨hr, hf, -, -, -, hout, ho⟩ := hd
  obtain ⟨sym, hp, hsym⟩ := h.sentinel
  obtain ⟨pad, -, hbits⟩ := h.unpadded
  obtain ⟨u, T, hu, hframe, -, -, -, hsent⟩ := decompDecodesTheContainer d sh ls p sym pad hr hf h.symbols
    (h.fits _ hf.config) h.leaves hp hsym (hrest.trans hbits)
  refine ⟨u, hu, by rw [hframe]; exact hr.2, ?_, by rw [hframe]⟩
  rw [hsent ho, hout, h.input, List.nil_append]

/-- Settles O45: `COMP` makes the container of the input, and `DECOMP` reads any container. -/
theorem decompressionUndoesCompression : Obligations.DecompressionUndoesCompression := by
  intro s xs hs hc
  obtain ⟨u, T, -, hu, hC⟩ := hs.compressed hc
  obtain ⟨ls, p, hcont⟩ := hC.container hs
  refine ⟨finish u, hu, hC.finish_err hs, hC.closed, fun d hd hmagic => ?_⟩
  rw [← hmagic] at hcont
  exact hcont.decomp hd

/-! ### `DECOMP` of a part of a container -/

/-- A container cut short misses a bit that a reader wants: it misses a byte, and the padding is shorter. -/
theorem IsContainer.cut {magic : BitVec 32} {sh : Shape} {ls : List (List Bool × Sym)} {p : List Bool}
    {xs bytes cut : List Byte} (h : IsContainer magic sh ls p xs bytes) (hcut : cut <+: bytes) (hne : cut ≠ bytes) :
    ∃ w, w ≠ [] ∧ bytesBits cut ++ w = bitsOf 32 magic.toNat ++ (shapeHeader sh ++ (leafBits ls ++ p)) := by
  obtain ⟨more, rfl⟩ := hcut
  obtain ⟨pad, hpad, hbits⟩ := h.unpadded
  have hmore : 0 < more.length := List.length_pos_of_ne_nil fun hnil => hne (by rw [hnil, List.append_nil])
  have hsplit : bytesBits cut ++ bytesBits more =
      (bitsOf 32 magic.toNat ++ (shapeHeader sh ++ (leafBits ls ++ p))) ++ pad := by
    rw [← bytesBits_append, hbits]
    simp only [List.append_assoc]
  rcases List.append_eq_append_iff.mp hsplit with ⟨w, hw, hrest⟩ | ⟨v, -, hpadv⟩
  · refine ⟨w, fun hnil => ?_, hw.symm⟩
    have hlen := congrArg List.length hrest
    rw [hnil, List.nil_append, bytesBits_length] at hlen
    omega
  · have hlen := congrArg List.length hpadv
    rw [List.length_append, bytesBits_length] at hlen
    omega

/-- A source that ends inside the header (43_header_codec R112). -/
theorem decomp_header_cut {d : State} {sh : Shape} {q w : List Bool} (hr : Ready d) (hf : Fits d) (hsym : symbolsOk sh)
    (hsize : shapeSize sh ≤ d.cfg.nodeCap) (hbits : restBits d = bitsOf 32 d.cfg.magic.toNat ++ q)
    (hq : q ++ w = shapeHeader sh) (hw : w ≠ []) : ∃ u, exec .decomp d = .next u ∧ u.err = .hdrEos := by
  obtain ⟨ts, tail, htok, hopen, hlen, rfl, htail⟩ := header_prefix hsym 0 hq hw
  obtain ⟨u, hu, herr⟩ := hdesRaisesEndOfHeader d ts tail hr hf htok hopen hbits
    (htail.imp (fun h => ⟨h, by omega⟩) fun h => ⟨h, by omega⟩)
  exact ⟨sinkClose u, decomp_of_hdes_fault hr (by rw [herr]; nofun) hu, herr⟩

/-- In a tree that is no lone leaf no path is empty. -/
theorem shapeLeaves_branch_ne_nil {l r : Shape} : ∀ p ∈ shapeLeaves (.branch l r), p.1 ≠ [] := by
  intro p hp
  rcases List.mem_append.mp hp with h | h
  all_goals
    obtain ⟨q, -, rfl⟩ := List.mem_map.mp h
    nofun

/-- Bits that end before the sentinel's path does are paths of other leaves and then reach none. -/
theorem payload_cut {t : Shape} (ht : ∀ p ∈ shapeLeaves t, p.1 ≠ []) {ls : List (List Bool × Sym)} {p q w : List Bool}
    {sym : Sym} (hls : ByteLeaves t ls) (hp : (p, sym) ∈ shapeLeaves t) (hsym : sym.toNat = sentinel)
    (hq : q ++ w = leafBits ls ++ p) (hw : w ≠ []) : ∃ ms v, ByteLeaves t ms ∧ q = leafBits ms ++ v ∧ NoLeafIn t v := by
  obtain ⟨ms, v, hms, rfl, ⟨p', sym', rest, hp', hsym', rfl⟩ | hv⟩ := payload_splits ht q
  · have heq : leafBits ls ++ (p ++ []) = leafBits ms ++ (p' ++ (rest ++ w)) := by
      rw [List.append_nil, ← hq]
      simp only [List.append_assoc]
    obtain ⟨-, -, hnil⟩ := payload_unique hls hms hp hp' hsym hsym' heq
    exact absurd (List.append_eq_nil_iff.mp hnil.symm).2 hw
  · exact ⟨ms, v, hms, rfl, hv⟩

/-- A source that ends inside the payload (45_stream_decoder R132). -/
theorem decomp_payload_cut {d : State} {sh : Shape} {ls : List (List Bool × Sym)} {p q w : List Bool} {sym : Sym}
    (hr : Ready d) (hf : Fits d) (hok : symbolsOk sh) (hsize : shapeSize sh ≤ d.cfg.nodeCap) (hls : ByteLeaves sh ls)
    (hp : (p, sym) ∈ shapeLeaves sh) (hsym : sym.toNat = sentinel)
    (hbits : restBits d = bitsOf 32 d.cfg.magic.toNat ++ (shapeHeader sh ++ q)) (hq : q ++ w = leafBits ls ++ p)
    (hw : w ≠ []) : ∃ u, exec .decomp d = .next u ∧ u.err = .payTrunc := by
  cases sh with
  | leaf a =>
    obtain ⟨rfl, rfl⟩ := Prod.mk.inj (List.mem_singleton.mp hp)
    have hnil : ls = [] := List.eq_nil_iff_forall_not_mem.mpr fun x hx => by
      obtain ⟨hmem, hbyte⟩ := hls x hx
      rw [List.mem_singleton.mp hmem] at hbyte
      exact hbyte hsym
    rw [hnil] at hq
    exact absurd (List.append_eq_nil_iff.mp hq).2 hw
  | branch l r =>
    obtain ⟨ms, v, hms, rfl, hv⟩ := payload_cut shapeLeaves_branch_ne_nil hls hp hsym hq hw
    obtain ⟨-, -, htrunc⟩ := decompClosesOnItsFaults d hr hf
    obtain ⟨u, hu, herr, -⟩ := htrunc l r ms v hok hsize hms hv hbits
    exact ⟨u, hu, herr⟩

/-- Where a list in two parts is cut: inside the first part, or after it. -/
theorem append_eq_append_cut {α : Type} {q w x y : List α} (h : q ++ w = x ++ y) :
    (∃ v, v ≠ [] ∧ q ++ v = x) ∨ ∃ v, q = x ++ v ∧ v ++ w = y := by
  rcases List.append_eq_append_iff.mp h with ⟨v, rfl, rfl⟩ | ⟨v, rfl, rfl⟩
  · cases v with
    | nil => exact .inr ⟨[], by simp, rfl⟩
    | cons b v => exact .inl ⟨b :: v, List.cons_ne_nil b v, rfl⟩
  · exact .inr ⟨v, rfl, rfl⟩

/-- Settles O46: a container cut short ends in the magic, in the header or in the payload. -/
theorem everyProperPrefixFails : Obligations.EveryProperPrefixFails := by
  intro s t xs cut hs hc ht hcut hne d hd hmagic
  obtain ⟨v, T, -, hv, hC⟩ := hs.compressed hc
  cases hv.symm.trans ht
  obtain ⟨ls, p, hcont⟩ := hC.container hs
  rw [← hmagic] at hcont
  obtain ⟨w, hw, hbits⟩ := hcont.cut hcut hne
  have hrest := hd.restBits
  obtain ⟨hr, hf, -⟩ := hd
  have hsize := hcont.fits _ hf.config
  obtain ⟨sym, hp, hsym⟩ := hcont.sentinel
  by_cases hm : bitsOf 32 d.cfg.magic.toNat <+: restBits d
  · obtain ⟨q, hq⟩ := hm
    rw [← hrest, ← hq, List.append_assoc, List.append_cancel_left_eq] at hbits
    rcases append_eq_append_cut hbits with ⟨v, hv, hheader⟩ | ⟨v, rfl, hpayload⟩
    · obtain ⟨u, hu, herr⟩ := decomp_header_cut hr hf hcont.symbols hsize hq.symm hheader hv
      exact ⟨u, hu, .inr (.inl herr)⟩
    · obtain ⟨u, hu, herr⟩ :=
        decomp_payload_cut hr hf hcont.symbols hsize hcont.leaves hp hsym hq.symm hpayload hw
      exact ⟨u, hu, .inr (.inr herr)⟩
  · obtain ⟨-, hother, -⟩ := decompClosesOnItsFaults d hr hf
    obtain ⟨u, hu, herr, -⟩ := hother hm
    exact ⟨u, hu, .inl herr⟩

/-! ### The tree of a compression -/

/-- The two states hold the same counts, arena and tree registers. -/
def SameTree (b u : State) : Prop :=
  u.cfg = b.cfg ∧ u.freq = b.freq ∧ u.node = b.node ∧ u.root = b.root ∧ u.nnode = b.nnode

theorem SameTree.trans {a b c : State} (h : SameTree a b) (k : SameTree b c) : SameTree a c := by
  obtain ⟨h1, h2, h3, h4, h5⟩ := h
  obtain ⟨k1, k2, k3, k4, k5⟩ := k
  exact ⟨k1.trans h1, k2.trans h2, k3.trans h3, k4.trans h4, k5.trans h5⟩

theorem SameTree.treeIn {b u : State} {T : HTree} (h : SameTree b u) (hT : TreeIn b T) : TreeIn u T := by
  obtain ⟨hcfg, -, hnode, hroot, hnnode⟩ := h
  exact TreeIn_congr hnode hroot hnnode hcfg hT

theorem CgenFrame.sameTree {s t : State} (h : CgenFrame s t) : SameTree s t := by
  obtain ⟨hcfg, hfreq, -, -, hnode, hroot, hnnode, -⟩ := h.rest
  exact ⟨hcfg, hfreq, hnode, hroot, hnnode⟩

theorem SencFrame.sameTree {s t : State} (h : SencFrame s t) : SameTree s t :=
  ⟨by rw [h], by rw [h], by rw [h], by rw [h], by rw [h]⟩

theorem Keeps.of_ok {α : Type} {P : State → Prop} {r : Res α} {a : α} {t : State} (h : Keeps P r)
    (hr : r = .ok a t) : P t := by
  rw [hr] at h
  exact h

/-- No unit after `TBLD` changes counts or tree (46_commands R152). -/
theorem compBody_built {s u : State} (hf : Fits s) (h : compBody s = .ok () u) :
    ∃ a b T, TreeBuilt a b T ∧ SameTree b u := by
  rcases fcntBody_cases (enterPhase 1 s) with ⟨-, a, ha, hA⟩ | ⟨-, v, _, _, _, hv, -⟩
  · rw [compBody_ok ha] at h
    obtain ⟨_, b, hb, h⟩ := andThen_ok h
    obtain ⟨_, c, hc, h⟩ := andThen_ok h
    obtain ⟨_, d, hd, h⟩ := andThen_ok h
    have hfA : Fits a := (fcntBody_fits (hf.enterPhase 1)).of_ok ha
    have hsent : freqAt (enterPhase 2 a) sentinel ≠ 0 := ne_of_eq_of_ne (hA.one hf.config) Nat.one_ne_zero
    obtain ⟨b', T, hb', hB⟩ := tbldBody_spec (hfA.enterPhase 2).build (usedSymbols_ne_nil hsent)
    cases hb'.symm.trans hb
    have hC : SameTree b c := ((cgenBody_frame (enterPhase 3 b)).of_ok hc).sameTree
    have hD : SameTree c d := ((hserBody_frame (enterPhase 4 c)).of_ok hd).senc.sameTree
    have hU : SameTree d u := ((sencBody_frame (enterPhase 5 d)).of_ok h).sameTree
    exact ⟨_, b, T, hB, (hC.trans hD).trans hU⟩
  · rw [compBody_raised hv] at h; cases h

/-- `root` reaches one tree. -/
theorem TreeIn.unique {s : State} {T U : HTree} (h : TreeIn s T) (k : TreeIn s U) : T = U := by
  obtain ⟨htop, hh, -⟩ := h
  obtain ⟨htop', hh', -⟩ := k
  exact hh.unique hh' (htop.trans htop'.symm)

/-- `TBLD` makes one tree of the same counts, whatever the arenas held and whatever the widths are (41_tree_builder
R88). -/
theorem TreeBuilt.tree_unique {s s' u u' : State} {T T' : HTree} (h : TreeBuilt s u T) (h' : TreeBuilt s' u' T')
    (hf : s.freq = s'.freq) : T = T' := by
  obtain ⟨hroot, -, hnode⟩ := h.unique h' hf
  obtain ⟨htop, hh, -, hbelow, -⟩ := h.tree
  obtain ⟨htop', hh', -⟩ := h'.tree
  have hagree : Holds u' T := hh.agree fun k hk => (hnode k (hbelow k hk)).symm
  exact hagree.unique hh' (by rw [htop, htop', hroot])

/-- The tree of a compression is that of its counts. -/
theorem Compressed.tree_unique {s s' u u' : State} {T T' : HTree} {xs xs' : List Byte} (hf : Fits s) (hf' : Fits s')
    (hu : compBody s = .ok () u) (hu' : compBody s' = .ok () u') (h : Compressed s u T xs)
    (h' : Compressed s' u' T' xs') (hfreq : u.freq = u'.freq) : T = T' := by
  obtain ⟨a, b, U, hB, hS⟩ := compBody_built hf hu
  obtain ⟨a', b', U', hB', hS'⟩ := compBody_built hf' hu'
  have hU : T = U := h.tree.unique (hS.treeIn hB.tree)
  have hU' : T' = U' := h'.tree.unique (hS'.treeIn hB'.tree)
  obtain ⟨-, hbu, -⟩ := hS
  obtain ⟨-, hbu', -⟩ := hS'
  rw [hU, hU']
  refine hB.tree_unique hB' ?_
  rw [← hB.freq, ← hB'.freq, ← hbu, ← hbu', hfreq]

/-! ### Input and magic alone -/

/-- `FREQ` is its 257 entries, one for each byte and one for the sentinel (10_state R10). -/
theorem freq_ext {s t : State} (hb : ∀ b : Byte, freqAt s b.toNat = freqAt t b.toNat)
    (hs : freqAt s sentinel = freqAt t sentinel) : s.freq = t.freq := by
  refine Vector.ext fun k hk => ?_
  have hat : freqAt s k = freqAt t k := by
    rcases Nat.lt_succ_iff_lt_or_eq.mp hk with hlt | rfl
    · have hbyte := hb (BitVec.ofNat 8 k)
      rwa [BitVec.toNat_ofNat, Nat.mod_eq_of_lt hlt] at hbyte
    · exact hs
  simpa only [freqAt, Vector.getElem?_eq_getElem hk, Option.getD_some] using hat

/-- A payload is made of the valid codes of its symbols. -/
theorem payloadBits_congr {s t : State} {xs : List Byte} (hx : ∀ x ∈ xs, codeAt t x.toNat = codeAt s x.toNat)
    (hs : codeAt t sentinel = codeAt s sentinel) : payloadBits t xs = payloadBits s xs := by
  rw [payloadBits, payloadBits, hs, List.flatMap_congr fun x hm => by rw [hx x hm]]

/-- Two compressions of the same input have the same tree. -/
theorem Compressed.tree_fresh {s s' u u' : State} {T T' : HTree} {xs : List Byte} (hs : FreshRun s xs)
    (hs' : FreshRun s' xs) (hu : compBody (startedMacro s) = .ok () u) (hu' : compBody (startedMacro s') = .ok () u')
    (h : Compressed (startedMacro s) u T xs) (h' : Compressed (startedMacro s') u' T' xs) : T = T' := by
  have hfreq : u.freq = u'.freq :=
    freq_ext (fun b => (h.counts_fresh hs b).trans (h'.counts_fresh hs' b).symm) (h.sentinel.trans h'.sentinel.symm)
  obtain ⟨-, hf, -⟩ := hs
  obtain ⟨-, hf', -⟩ := hs'
  exact h.tree_unique hf.startedMacro hf'.startedMacro hu hu' h' hfreq

/-- Settles O47: the counts are those of the input, so tree and codes are the same, whatever the widths are. -/
theorem compIsAFunctionOfInputAndMagic : Obligations.CompIsAFunctionOfInputAndMagic := by
  intro s s' t t' xs hs hs' hc hc' hmagic ht ht'
  obtain ⟨u, T, hu, hexec, hC⟩ := hs.compressed hc
  obtain ⟨u', T', hu', hexec', hC'⟩ := hs'.compressed hc'
  cases hexec.symm.trans ht
  cases hexec'.symm.trans ht'
  obtain rfl := hC.tree_fresh hs hs' hu hu' hC'
  have hsame : ∀ k ∈ leafSymbols (shapeOf T), k < nsym → codeAt u' k = codeAt u k := fun k hl hk => by
    have hheight := height_le_maxLen (hC.consistent hs) hC.tree.size_le
    obtain ⟨-, -, -, -, hvalid, -⟩ := hC.codes.code (hC.consistent hs) hheight hk hl
    obtain ⟨-, heq⟩ := hC.codes.agree hC'.codes (hC.consistent hs) (hC'.consistent hs') hC.tree.size_le
      hC'.tree.size_le hk
    exact heq hvalid
  have hpayload : payloadBits u' xs = payloadBits u xs := by
    refine payloadBits_congr (fun x hx => hsame _ (hC.byte_leaf hs hx) (byte_lt_nsym x)) ?_
    exact hsame _ hC.sentinel_leaf (by decide)
  exact bytesBits_inj (by rw [finish_out, finish_out, hC.sent_fresh hs, hC'.sent_fresh hs', hpayload, hmagic])

/-! ### The empty input -/

/-- A field of bits in two parts. -/
theorem bitsOf_add (m n v : Nat) : bitsOf (m + n) v = bitsOf m (v >>> n) ++ bitsOf n v := by
  induction m with
  | zero => rw [Nat.zero_add]; rfl
  | succ m ih =>
    rw [Nat.succ_add, bitsOf_cons_tail, bitsOf_cons_tail, ih, Nat.testBit_shiftRight, Nat.add_comm n m]
    rfl

/-- The bits of one byte of a word. -/
theorem bitsOf_extract {w : Nat} (v : BitVec w) (start : Nat) :
    bitsOf 8 (v.extractLsb' start 8).toNat = bitsOf 8 (v.toNat >>> start) := by
  rw [BitVec.extractLsb'_toNat, bitsOf_mod (Nat.le_refl 8)]

/-- The magic's four bytes, first byte first (30_encoding R51). -/
def magicBytes (m : BitVec 32) : List Byte :=
  [m.extractLsb' 24 8, m.extractLsb' 16 8, m.extractLsb' 8 8, m.extractLsb' 0 8]

theorem bytesBits_magicBytes (m : BitVec 32) : bytesBits (magicBytes m) = bitsOf 32 m.toNat := by
  have hsplit : bitsOf 32 m.toNat = bitsOf 8 (m.toNat >>> 24) ++
      (bitsOf 8 (m.toNat >>> 16) ++ (bitsOf 8 (m.toNat >>> 8) ++ bitsOf 8 (m.toNat >>> 0))) := by
    rw [bitsOf_add 8 24, bitsOf_add 8 16 m.toNat, bitsOf_add 8 8 m.toNat]
    rfl
  rw [hsplit, magicBytes]
  simp only [bytesBits_cons, bitsOf_extract]
  rw [bytesBits, List.flatMap_nil, List.append_nil]

/-- Without input the sentinel alone is used. -/
theorem Compressed.symbols_empty {s u : State} {T : HTree} (h : Compressed (startedMacro s) u T [])
    (hs : FreshRun s []) : usedSymbols u = [256] := by
  have hbytes : (List.range 256).filter (fun k => decide (freqAt u k ≠ 0)) = [] := by
    rw [List.filter_eq_nil_iff]
    intro k hk
    have hzero := h.counts_fresh hs (BitVec.ofNat 8 k)
    rw [BitVec.toNat_ofNat, Nat.mod_eq_of_lt (List.mem_range.mp hk), List.count_nil] at hzero
    simp [hzero]
  rw [usedSymbols, List.range_succ, List.filter_append, hbytes]
  simp [h.sentinel]

/-- A tree with one leaf is that leaf. -/
theorem shape_of_leafSymbols_singleton {t : Shape} {k : Nat} (h : leafSymbols t = [k]) :
    t = .leaf (BitVec.ofNat 9 k) := by
  cases t with
  | leaf sym =>
    have hk : sym.toNat = k := List.singleton_inj.mp h
    rw [← hk, BitVec.ofNat_toNat, BitVec.setWidth_eq]
  | branch l r =>
    have hlen := congrArg List.length h
    rw [leafSymbols_length, leafCount, List.length_singleton] at hlen
    have hl := leafCount_pos l
    have hr := leafCount_pos r
    omega

/-- The container of nothing: the magic, the sentinel's lone leaf in ten bits, six bits of padding (44_stream_encoder
R125). -/
theorem containerBits_empty (m : BitVec 32) :
    containerBits m (.leaf 256) [] = bytesBits (magicBytes m ++ [0xC0, 0x00]) := by
  have hlen : (bitsOf 32 m.toNat ++ (shapeHeader (.leaf 256) ++ [])).length = 42 := by
    rw [List.length_append, bitsOf_length]
    rfl
  have htail : shapeHeader (.leaf 256) ++ [] ++ padding 42 = bytesBits [0xC0, 0x00] := by decide
  rw [containerBits, hlen, bytesBits_append, bytesBits_magicBytes, List.append_assoc, htail]

/-- The container of nothing has six bytes (47_laws R167). -/
theorem IsContainer.empty {magic : BitVec 32} {ls : List (List Bool × Sym)} {p : List Bool} {bytes : List Byte}
    (h : IsContainer magic (.leaf 256) ls p [] bytes) : bytes = magicBytes magic ++ [0xC0, 0x00] := by
  obtain ⟨sym, hp, -⟩ := h.sentinel
  obtain ⟨rfl, -⟩ := Prod.mk.inj (List.mem_singleton.mp hp)
  have hls : ls = [] := List.map_eq_nil_iff.mp h.input
  exact bytesBits_inj (by rw [h.bits, hls, ← containerBits_empty]; rfl)

/-- Settles O48: the tree is the sentinel's lone leaf, whose path has no bit; the container reads back as any does. -/
theorem emptyInputMakesSixBytes : Obligations.EmptyInputMakesSixBytes := by
  intro s hs
  have hc : CountsFit s := fun b => by rw [hs.restCount, List.count_nil]; exact Nat.zero_le _
  obtain ⟨u, T, -, hu, hC⟩ := hs.compressed hc
  obtain ⟨ls, p, hcont⟩ := hC.container hs
  have hshape : shapeOf T = .leaf 256 :=
    shape_of_leafSymbols_singleton (List.perm_singleton.mp (hC.symbols_empty hs ▸ hC.symbols))
  refine ⟨finish u, hu, hC.finish_err hs, (hshape ▸ hcont).empty, fun d hd hmagic => ?_⟩
  rw [← hmagic] at hcont
  obtain ⟨v, hv, hnone, hout, -⟩ := hcont.decomp hd
  exact ⟨v, hv, hnone, hout⟩

end Sys2Proof.Machine
end
